-- ==== Sys2Proof/Word.lean ====
section
/-! DEFINITION. The word types of the 3400: widths as the manual gives them in 00_scope.md 0.7. -/

namespace Sys2Proof

/-- One byte of a management frame. -/
abbrev Byte := BitVec 8

/-- A word of the array, as HD and MD carry it. Lane `n` is bits `8n+7` to `8n` (R4). -/
abbrev Word := BitVec 32

/-- A word address, 0 to 4,194,303 (00_scope.md 0.7). -/
abbrev Addr := BitVec 22

/-- A set of byte lanes; lane `n` is bit `n`, as in a lanes byte (R190). -/
abbrev Lanes := BitVec 4

/-- All four lanes, {0, 1, 2, 3}. -/
abbrev Lanes.all : Lanes := 0xF#4

end Sys2Proof
end

