-- ==== Sys2Proof/Config.lean ====
section
/-! DEFINITION. The capacities of the 3400 (00_scope.md Table 1-4), its IDENTIFY constants (R180) and the model's one
free value. -/

namespace Sys2Proof

/-- Record slots of the staging log (R1). -/
abbrev Config.logSlots : Nat := 256

/-- Slots of the batch table (R30). -/
abbrev Config.batchSlots : Nat := 4

/-- Entries of the window table (R118). -/
abbrev Config.windowEntries : Nat := 8

/-- Entries of the watch list (R141). -/
abbrev Config.watchEntries : Nat := 16

/-- Places of the completion queue, shared by entries and reservation (R109). -/
abbrev Config.completionPlaces : Nat := 8

/-- Bytes the receive buffer holds (R165). -/
abbrev Config.bufferBytes : Nat := 36

/-- The part code of IDENTIFY (R180). -/
abbrev Config.partCode : BitVec 16 := 0x3400#16

/-- The revision code of the part the manual describes (R180). -/
abbrev Config.revision : Byte := 0x01#8

/-- The level of MA after a power-up, which R187 leaves open: it says only that MA holds its last value, and at a
power-up there is none. The argument numbers the draw. DESIGN CHOICE (notes/assumptions/13.md): free, so that no proof
can rest on a value; safe. -/
opaque Config.freeAddress : Nat → Addr

end Sys2Proof
end

