-- ==== Sys2Proof/Syntax.lean ====
section
/-! DEFINITION. The commands of the 3400: one constructor per row of spec/opcode_table.json. -/

namespace Sys2Proof

/-- The twelve fields of a SET_CONFIG payload as they arrive, before any range check (R176, Table 11-3). -/
structure RawSettings where
  tickSource    : Byte
  frameOptions  : Byte
  prescale      : Byte
  frameTimeout  : BitVec 24
  period        : BitVec 24
  budget        : BitVec 16
  windowLength  : BitVec 24
  batchOptions  : Byte
  hostShare     : Byte
  stallTimeout  : BitVec 24
  memTimeout    : BitVec 16
  refdiv        : Byte
  deriving DecidableEq, Repr

/-- What an assertion of HCE carries beside the access: the level of HOE, and `together`, that the access reaches the
arbiter together with the engine's request granted just before (R100, R186; notes/assumptions/24.md). -/
structure HceAssertion where
  oe       : Bool
  together : Bool
  deriving DecidableEq, Repr

/-- A command. A management request carries the tag of its frame and its payload fields (11, Table 11-7); an event
carries what the pins show when it is taken. -/
inductive Instr where
  | identify (tag : Byte)
  | status (tag : Byte)
  | replay (tag : Byte)
  | getConfig (tag : Byte)
  | setConfig (tag : Byte) (raw : RawSettings)
  | getWindow (tag n : Byte)
  | setWindow (tag n mode : Byte) (base limit : BitVec 24)
  | getWatch (tag n : Byte)
  | setWatch (tag n flags : Byte) (addr : BitVec 24) (mask reference : Word)
  | watchAck (tag : Byte) (mask : BitVec 16)
  | seal (tag : Byte)
  | discard (tag id : Byte)
  | clear (tag : Byte)
  | resume (tag : Byte)
  | freeze (tag : Byte) (duration : BitVec 24)
  | thaw (tag : Byte)
  | kick (tag : Byte)
  | peekCompletion (tag : Byte)
  | retire (tag : Byte)
  | readEvents (tag : Byte)
  | ackEvents (tag : Byte) (mask : BitVec 16) (captureClear : Byte)
  | setEventEnable (tag : Byte) (mask : BitVec 16)
  | lookup (tag : Byte) (addr : BitVec 24)
  /-- SCS falls. -/
  | transactionBegin
  /-- SCS rises. -/
  | transactionEnd
  /-- HCE is asserted with HA, HWE (asserted for a write), the asserted byte enables and HD. -/
  | hostRequest (addr : Addr) (write : Bool) (lanes : Lanes) (data : Word) (hce : HceAssertion)
  | hceDeassert
  | sealOnLast
  | stallTimeout
  /-- MRDY with the word on MD. -/
  | passThroughReadComplete (md : Word)
  | passThroughWriteComplete
  /-- MRDY with the word on MD. -/
  | forwardedReadComplete (md : Word)
  | hostMemTimeout
  | recordWriteComplete
  /-- MRDY with the word on MD. -/
  | verifyReadComplete (md : Word)
  | engineMemTimeout
  | admissionAttempt
  /-- A transition of FRAME: from low to high when `rising`. -/
  | countedEdge (rising : Bool)
  | frameTimeoutExpiry
  | periodExpiry
  | windowLengthExpiry
  | freezeExpiry
  | autoSeal
  | continuationGrant
  | rstAssert
  | rstRelease
  | powerUp
  | refclkStop
  | refclkRestart
  /-- SCK rises with the bit on SDI. -/
  | sckRisingEdge (sdi : Bool)
  | sckFallingEdge
  | mceAssert
  deriving DecidableEq, Repr

end Sys2Proof
end

