-- ==== Sys2Proof/Machine/State.lean ====
section
/-! DEFINITION. The state of the 3400, block by block (00_scope.md Table 1-1), and its value right after a pin reset. -/

namespace Sys2Proof.Machine

open Sys2Proof

/-- Why a step stops with a fault. The manual describes no event that stops the part, so there is no such reason: an
error is a reply status (R168), an event flag (R154), an error capture (R161) or a HALTED batch (R90). Safe. -/
inductive Fault where
  deriving DecidableEq, Repr

/-- Why a step is refused. -/
inductive Refusal where
  /-- Raised by `exec` alone, for a row of the command table that has no meaning yet. Safe: the run stops. -/
  | notModelled (mnemonic : String)
  deriving DecidableEq, Repr

/-! ### Settings record (09, R176) -/

/-- The source of ticks (R53 to R55). -/
inductive TickSource where
  | immediate | frame | timer
  deriving DecidableEq, Repr

/-- The settings record (R176). The polarity, fallback, auto-seal and oversize bits stand as fields of their own; the
ignored bits of the two option bytes are stored as 0 (R177), so they are not held. -/
structure Settings where
  tickSource    : TickSource
  fallingEdges  : Bool
  fallback      : Bool
  prescale      : Byte
  frameTimeout  : BitVec 24
  period        : BitVec 24
  budget        : BitVec 16
  windowLength  : BitVec 24
  autoSeal      : Bool
  split         : Bool
  hostShare     : Byte
  stallTimeout  : BitVec 24
  memTimeout    : BitVec 16
  refdiv        : Byte
  deriving DecidableEq, Repr

/-- The pin-reset values of the settings record (R176, R179). -/
def Settings.reset : Settings where
  tickSource := .immediate
  fallingEdges := false
  fallback := true
  prescale := 1#8
  frameTimeout := 100000#24
  period := 16667#24
  budget := 64#16
  windowLength := 0#24
  autoSeal := true
  split := false
  hostShare := 4#8
  stallTimeout := 1000#24
  memTimeout := 100#16
  refdiv := 25#8

/-! ### Window table (06, R118) -/

/-- The policy of an address window (R118). -/
inductive Policy where
  | pass | stage | block
  deriving DecidableEq, Repr

/-- One entry of the window table (R118). -/
structure WindowEntry where
  enabled    : Bool
  base       : Addr
  limit      : Addr
  policy     : Policy
  verify     : Bool
  sealOnLast : Bool
  deriving DecidableEq, Repr

/-- A window entry at pin reset (R118). -/
def WindowEntry.reset : WindowEntry := ⟨false, 0, 0, .pass, false, false⟩

/-! ### Staging log (01, R3) -/

/-- A record of the staging log (R3). -/
structure Record where
  addr    : Addr
  lanes   : Lanes
  data    : Word
  batch   : Byte
  pos     : Nat
  applied : Bool
  deriving DecidableEq, Repr

/-! ### Batch table (02, R32) -/

/-- The state of a batch (R34). -/
inductive BatchState where
  | opened | sealed | applying | paused | halted | aborting
  deriving DecidableEq, Repr

/-- The cause of a seal (R36). -/
inductive SealCause where
  | request | sealWord | auto
  deriving DecidableEq, Repr

/-- A batch record (R32). Its seal order is its place in `BatchTable.sealedQueue`. -/
structure Batch where
  id          : Byte
  state       : BatchState
  count       : Nat
  cause       : Option SealCause
  applied     : Nat
  windowsUsed : Byte
  halts       : Byte
  faultPos    : Option Nat
  deriving DecidableEq, Repr

/-- The batch table: four slots, the next-id counter and the sealed queue, oldest batch first (R30, R31, R42). `opened` is
the model's own: how many batches have been opened since pin reset, which tells the OPEN batch from an earlier one with
its id (R31, R38; notes/assumptions/25.md). -/
structure BatchTable where
  slots       : List (Option Batch)
  nextId      : Byte
  sealedQueue : List Byte
  opened      : Nat
  deriving DecidableEq, Repr

/-- The batch table at pin reset (R51). -/
def BatchTable.reset : BatchTable := ⟨[none, none, none, none], 1#8, [], 0⟩

/-! ### Timers (00, 0.7; R52) -/

/-- A running timer: its remaining time in TU, the TU under way included, and the REFCLK periods already counted of the
TU under way. Each timer counts its own TU, from its own start (R52, R60, R102, R136, R189). -/
structure Timer where
  remaining : Nat
  periods   : Nat
  deriving DecidableEq, Repr

/-! ### Commit window unit (03, Table 3-1) -/

/-- The frame monitor (R58, R59). -/
inductive Monitor where
  | off | waiting | locked | lost
  deriving DecidableEq, Repr

/-- The commit window: closed, open with its opening and remaining budget and its untouched mark, or the permanent
window of IMMEDIATE (R53, R63). -/
inductive CommitWindow where
  | closed
  | opened (budget remaining : Nat) (untouched : Bool)
  | permanent
  deriving DecidableEq, Repr

/-- The running period timer, with its reload value in TU (R60). -/
structure PeriodTimer where
  timer  : Timer
  reload : Nat
  deriving DecidableEq, Repr

/-- The commit window unit (Table 3-1). A timer is `none` while stopped. The tick source in force is the one of the
settings record (R178). -/
structure WindowUnit where
  monitor       : Monitor
  prescaleCount : Nat
  latch         : Bool
  frameTimer    : Option Timer
  periodTimer   : Option PeriodTimer
  pendingPeriod : Option Nat
  window        : CommitWindow
  lengthTimer   : Option Timer
  counter       : BitVec 16
  frozen        : Bool
  freezeTimer   : Option Timer
  deriving DecidableEq, Repr

/-- The commit window unit at pin reset (R71). -/
def WindowUnit.reset : WindowUnit :=
  ⟨.off, 0, false, none, none, none, .permanent, none, 0, false, none⟩

/-! ### Commit engine (04, Table 4-1) -/

/-- What an access of the engine is for (R82, R83). -/
inductive AccessKind where
  | recordWrite | verifyRead
  deriving DecidableEq, Repr

/-- A request the engine places at the arbiter: the record's address, lanes and data (R82). A verify read carries them
too, for its comparison (R84), and is a full-word read on the bus. -/
structure EngineRequest where
  kind  : AccessKind
  addr  : Addr
  lanes : Lanes
  data  : Word
  deriving DecidableEq, Repr

/-- The engine's access and its stage (R73). -/
inductive EngineAccess where
  | idle
  | waiting (r : EngineRequest)
  | inFlight (r : EngineRequest)
  deriving DecidableEq, Repr

/-- The commit engine (Table 4-1), with the HOLD line it drives (R98). -/
structure Engine where
  active       : Option Byte
  grant        : Nat
  nextPos      : Nat
  abortPending : Bool
  access       : EngineAccess
  hold         : Bool
  deriving DecidableEq, Repr

/-- The commit engine at pin reset (R104). -/
def Engine.reset : Engine := ⟨none, 0, 0, false, .idle, false⟩

/-! ### Memory port (04, R99 to R102; 11, R187) -/

/-- Who holds the memory port (R99). -/
inductive Requester where
  | host | engine
  deriving DecidableEq, Repr

/-- The memory port with its arbiter's count, its timer and the pins of the array bus. `mce` also says that the access
has reached the array bus (R187). -/
structure MemPort where
  busy  : Option Requester
  count : Nat
  timer : Option Timer
  ma    : Addr
  md    : Option Word
  mbe   : Lanes
  mce   : Bool
  mwe   : Bool
  moe   : Bool
  deriving DecidableEq, Repr

/-! ### Completion queue (05) -/

/-- The outcome of a completion entry (R108). -/
inductive BatchOutcome where
  | applied | appliedTorn | aborted | refused
  deriving DecidableEq, Repr

/-- A completion entry (R107). -/
structure CompletionEntry where
  id          : Byte
  outcome     : BatchOutcome
  count       : Nat
  applied     : Nat
  windowsUsed : Byte
  halts       : Byte
  cause       : SealCause
  stamp       : BitVec 16
  number      : Byte
  deriving DecidableEq, Repr

/-- The completion queue (Table 5-1), oldest entry first. -/
structure CompletionQueue where
  posted   : List CompletionEntry
  reserved : Nat
  counter  : Byte
  deriving DecidableEq, Repr

/-- The completion queue at pin reset (R116). -/
def CompletionQueue.reset : CompletionQueue := ⟨[], 0, 0⟩

/-! ### Watch list (07, R141) -/

/-- What a watch entry fires at: CHANGE, or MATCH (here `equal`) (R145). -/
inductive Sense where
  | change | equal
  deriving DecidableEq, Repr

/-- A watch entry (R141). -/
structure WatchEntry where
  enabled      : Bool
  addr         : Addr
  mask         : Word
  reference    : Word
  sense        : Sense
  rearm        : Bool
  hit          : Bool
  hitCount     : Byte
  lastObserved : Word
  deriving DecidableEq, Repr

/-- A watch entry at pin reset (R152). -/
def WatchEntry.reset : WatchEntry := ⟨false, 0, 0, 0, .change, false, false, 0, 0⟩

/-! ### Event unit (08) -/

/-- The cause of a captured error (R161). -/
inductive ErrorCause where
  | blocked | stallTimeout | hostMemTimeout | engineMemTimeout | verify | oversize
  deriving DecidableEq, Repr

/-- A valid error capture (R161). -/
structure Capture where
  cause : ErrorCause
  addr  : Addr
  lanes : Lanes
  batch : Byte
  later : Byte
  deriving DecidableEq, Repr

/-- The event unit (Table 8-1). Flags and enables carry the event bits of 11.3.3; the capture is `none` while not
valid. -/
structure EventUnit where
  flags   : BitVec 9
  enables : BitVec 9
  capture : Option Capture
  irq     : Bool
  deriving DecidableEq, Repr

/-- The event unit at pin reset (R163). -/
def EventUnit.reset : EventUnit := ⟨0, 0, none, false⟩

/-! ### Host port (06) -/

/-- What a host access in MEMORY is (R127, R128, R137). -/
inductive HostKind where
  | passRead | passWrite | forwardedRead
  deriving DecidableEq, Repr

/-- The access a host port in MEMORY holds; `window` is the deciding window kept with it (R126), and `dropped` says that
HCE has been deasserted since the request was taken (R123, R186). -/
structure HostAccess where
  kind     : HostKind
  addr     : Addr
  lanes    : Lanes
  data     : Word
  window   : Option Nat
  inFlight : Bool
  dropped  : Bool
  deriving DecidableEq, Repr

/-- The write a host port in STALLED holds (R133). -/
structure HeldWrite where
  addr   : Addr
  lanes  : Lanes
  data   : Word
  window : Option Nat
  deriving DecidableEq, Repr

/-- The state of the host port (R125). -/
inductive HostState where
  | idle
  | memory (a : HostAccess)
  | stalled (w : HeldWrite)
  | reset
  deriving DecidableEq, Repr

/-- The host port: its state, its stall timer, the lines it drives and the levels the outside holds on its inputs.
`true` on a line is asserted. -/
structure HostPort where
  state      : HostState
  stallTimer : Option Timer
  hwait      : Bool
  herr       : Bool
  answer     : Option Word
  hce        : Bool
  hwe        : Bool
  hoe        : Bool
  ha         : Addr
  hbe        : Lanes
  hd         : Word
  deriving DecidableEq, Repr

/-! ### Management port (09) -/

/-- The state of the management port (R165). -/
inductive PortState where
  | reset | idle | receiving | skipping
  deriving DecidableEq, Repr

/-- The management port (Table 9-1), with SDO (`none`: high impedance) and the level of SCS (`true`: low). -/
structure MgmtPort where
  state    : PortState
  buffer   : List Byte
  count    : Nat
  overLong : Bool
  bits     : List Bool
  txPos    : Nat
  sdo      : Option Bool
  retained : List Byte
  scs      : Bool
  settings : Settings
  deriving DecidableEq, Repr

/-- The reply NO_REPLY (R175). -/
def noReply : List Byte := [0x20#8, 0x00#8, 0x00#8, 0xE0#8]

/-! ### Reset, supply, clock, and the part's own waiting events -/

/-- The reset, supply and clock of the part (R189). -/
structure Power where
  rst       : Bool
  powerHold : Bool
  refclk    : Bool
  deriving DecidableEq, Repr

/-- A seal-on-last seal handed to the batch table: the id of the batch that its write reached, and how many batches had
been opened then, that one the last (R38, R132; notes/assumptions/25.md). -/
structure LastSeal where
  id     : Byte
  opened : Nat
  deriving DecidableEq, Repr

/-- The part's own events that wait to be taken: admission attempts (R74), ticks handed to the batch table (R39),
window openings handed to the engine (R63) and seal-on-last seals, oldest first (R132). -/
structure Waiting where
  attempts    : Nat
  autoSeals   : Nat
  openings    : Nat
  sealsOnLast : List LastSeal
  deriving DecidableEq, Repr

/-- Nothing waits. -/
def Waiting.reset : Waiting := ⟨0, 0, 0, []⟩

/-- The state of the 3400. `freeCount` is the model's own: how many free values have been drawn. `pending` is the queue
of waiting commands, first in, first out. -/
structure State where
  host      : HostPort
  windows   : List WindowEntry
  log       : List Record
  table     : BatchTable
  unit      : WindowUnit
  engine    : Engine
  port      : MemPort
  queue     : CompletionQueue
  watch     : List WatchEntry
  events    : EventUnit
  mgmt      : MgmtPort
  power     : Power
  waiting   : Waiting
  freeCount : Nat
  pending   : List Instr
  deriving DecidableEq, Repr

/-- The machine right after a pin reset: every block at the values its chapter gives, RST released, REFCLK running, the
host and SPI inputs at rest (notes/assumptions/14.md), and no command waiting. -/
def State.reset : State where
  host :=
    { state := .idle, stallTimer := none, hwait := false, herr := false, answer := none
      hce := false, hwe := false, hoe := false, ha := 0, hbe := 0, hd := 0 }
  windows := List.replicate Config.windowEntries WindowEntry.reset
  log := []
  table := BatchTable.reset
  unit := WindowUnit.reset
  engine := Engine.reset
  port :=
    { busy := none, count := 0, timer := none, ma := 0, md := none, mbe := 0, mce := false
      mwe := false, moe := false }
  queue := CompletionQueue.reset
  watch := List.replicate Config.watchEntries WatchEntry.reset
  events := EventUnit.reset
  mgmt :=
    { state := .idle, buffer := [], count := 0, overLong := false, bits := [], txPos := 0
      sdo := none, retained := noReply, scs := false, settings := Settings.reset }
  power := { rst := false, powerHold := false, refclk := true }
  waiting := Waiting.reset
  freeCount := 0
  pending := []

end Sys2Proof.Machine
end

