-- ==== Sys2Proof/Machine/Operands.lean ====
section
/-! DEFINITION. Lanes, byte order, codes, byte layouts and argument checks: how a command's operands and a reply's
fields are read and written (00_scope.md 0.7, 09 R167 to R171, 11.3). -/

namespace Sys2Proof.Machine

open Sys2Proof

/-! ### Byte lanes (R4, R9, R24) -/

/-- All ones or all zeros in one lane. -/
def laneFill (b : Bool) : Byte := if b then 0xFF#8 else 0x00#8

/-- The bits of a word that lie in the lanes `l`: lane `n` is bits `8n+7` to `8n` (R4). -/
def laneMask (l : Lanes) : Word :=
  laneFill (l.getLsbD 3) ++ laneFill (l.getLsbD 2) ++ laneFill (l.getLsbD 1) ++ laneFill (l.getLsbD 0)

/-- `data` on the lanes `l`, 0 on the others (R4, R10). -/
def onLanes (l : Lanes) (data : Word) : Word := data &&& laneMask l

/-- `old` with the bits of `mask` taken from `new`. -/
def onBits (old mask new : Word) : Word := (old &&& ~~~mask) ||| (new &&& mask)

/-- `old` with the lanes `l` taken from `new` (R9, R24). -/
def overlay (old : Word) (l : Lanes) (new : Word) : Word := onBits old (laneMask l) new

/-- The comparison of a verify read: equal on every lane of `l` (R84). -/
def equalOn (l : Lanes) (a b : Word) : Bool := onLanes l a == onLanes l b

/-! ### Counters -/

/-- Counts that stop at 255 (R33, R146, R162). -/
def satInc (n : Byte) : Byte := if n = 255#8 then n else n + 1#8

/-- The id after `i`, from 255 to 1 (R31). -/
def nextBatchId (i : Byte) : Byte := if i = 255#8 then 1#8 else i + 1#8

/-! ### Byte order: most significant byte first (R190) -/

def bytes2 (x : BitVec 16) : List Byte := [x.extractLsb' 8 8, x.extractLsb' 0 8]

def bytes3 (x : BitVec 24) : List Byte := [x.extractLsb' 16 8, x.extractLsb' 8 8, x.extractLsb' 0 8]

def bytes4 (x : BitVec 32) : List Byte :=
  [x.extractLsb' 24 8, x.extractLsb' 16 8, x.extractLsb' 8 8, x.extractLsb' 0 8]

/-- A count, 0 to 65,535, as two bytes. -/
def countBytes (n : Nat) : List Byte := bytes2 (BitVec.ofNat 16 n)

/-- An address as three bytes (R190). -/
def addrBytes (a : Addr) : List Byte := bytes3 (a.setWidth 24)

def of2 (a b : Byte) : BitVec 16 := a ++ b

def of3 (a b c : Byte) : BitVec 24 := a ++ b ++ c

def of4 (a b c d : Byte) : BitVec 32 := a ++ b ++ c ++ d

/-- Bit `k` of a byte, set when `b`. -/
def bitAt (b : Bool) (k : Nat) : Byte := if b then 1#8 <<< k else 0#8

/-- A lanes byte: lane `n` in bit `n` (R190). -/
def lanesByte (l : Lanes) : Byte := l.setWidth 8

/-- One byte from 8 bits, most significant first (R165). -/
def byteOfBits (bits : List Bool) : Byte := bits.foldl (fun acc b => (acc <<< 1) ||| bitAt b 0) 0#8

/-- Bit `k` of a byte sequence sent most significant bit first, 0 after its end (R166). -/
def bitOut (bytes : List Byte) (k : Nat) : Bool :=
  match bytes[k / 8]? with
  | some b => b.getLsbD (7 - k % 8)
  | none => false

/-! ### Codes (11.3.3, R30, R52, R125, R168) -/

def TickSource.code : TickSource → Byte
  | .immediate => 0#8
  | .frame => 1#8
  | .timer => 2#8

def Monitor.code : Monitor → Byte
  | .off => 0#8
  | .waiting => 1#8
  | .locked => 2#8
  | .lost => 3#8

def Policy.code : Policy → Byte
  | .pass => 0#8
  | .stage => 1#8
  | .block => 2#8

/-- The state codes of R30. -/
def BatchState.code : BatchState → Byte
  | .opened => 1#8
  | .sealed => 2#8
  | .applying => 3#8
  | .paused => 4#8
  | .halted => 5#8
  | .aborting => 6#8

def SealCause.code : SealCause → Byte
  | .request => 1#8
  | .sealWord => 2#8
  | .auto => 3#8

def BatchOutcome.code : BatchOutcome → Byte
  | .applied => 1#8
  | .appliedTorn => 2#8
  | .aborted => 3#8
  | .refused => 4#8

def ErrorCause.code : ErrorCause → Byte
  | .blocked => 1#8
  | .stallTimeout => 2#8
  | .hostMemTimeout => 3#8
  | .engineMemTimeout => 4#8
  | .verify => 5#8
  | .oversize => 6#8

/-- The host port state codes of R125. -/
def HostState.code : HostState → Byte
  | .idle => 0#8
  | .memory _ => 1#8
  | .stalled _ => 2#8
  | .reset => 3#8

/-- What DISCARD did (R45, 11.3.3). -/
inductive Disposition where
  | removed | aborting
  deriving DecidableEq, Repr

def Disposition.code : Disposition → Byte
  | .removed => 1#8
  | .aborting => 2#8

/-- The status of a reply (R168). -/
inductive Status where
  | ok | nothing | state | logBusy | badCheck | badCode | badLength | badArg
  deriving DecidableEq, Repr

def Status.code : Status → Byte
  | .ok => 0x00#8
  | .nothing => 0x01#8
  | .state => 0x02#8
  | .logBusy => 0x03#8
  | .badCheck => 0x10#8
  | .badCode => 0x11#8
  | .badLength => 0x12#8
  | .badArg => 0x13#8

/-! ### Frames (R167) -/

/-- The sum of bytes modulo 256. -/
def byteSum (bytes : List Byte) : Byte := bytes.foldr (· + ·) 0#8

/-- A frame: the head byte (code or status), the tag, the length, the payload and the check byte that makes the sum of
all bytes 0 modulo 256 (R167). -/
def frameOf (head tag : Byte) (payload : List Byte) : List Byte :=
  let body := [head, tag, BitVec.ofNat 8 payload.length] ++ payload
  body ++ [0#8 - byteSum body]

/-! ### Settings record (R176, R177, Table 11-3) -/

def TickSource.ofCode (c : Byte) : TickSource :=
  if c = 0#8 then .immediate else if c = 1#8 then .frame else .timer

/-- Every field is within its range (R176). -/
def rawInRange (r : RawSettings) : Bool :=
  decide (r.tickSource.toNat ≤ 2) &&
  decide (1 ≤ r.prescale.toNat ∧ r.prescale.toNat ≤ 64) &&
  decide (1 ≤ r.frameTimeout.toNat) &&
  decide (16 ≤ r.period.toNat) &&
  decide (1 ≤ r.budget.toNat ∧ r.budget.toNat ≤ 256) &&
  decide (1 ≤ r.hostShare.toNat ∧ r.hostShare.toNat ≤ 16) &&
  decide (1 ≤ r.memTimeout.toNat) &&
  decide (1 ≤ r.refdiv.toNat)

/-- The record that a SET_CONFIG in range writes (R177). -/
def Settings.ofRaw (r : RawSettings) : Settings where
  tickSource := TickSource.ofCode r.tickSource
  fallingEdges := r.frameOptions.getLsbD 0
  fallback := r.frameOptions.getLsbD 1
  prescale := r.prescale
  frameTimeout := r.frameTimeout
  period := r.period
  budget := r.budget
  windowLength := r.windowLength
  autoSeal := r.batchOptions.getLsbD 0
  split := r.batchOptions.getLsbD 1
  hostShare := r.hostShare
  stallTimeout := r.stallTimeout
  memTimeout := r.memTimeout
  refdiv := r.refdiv

/-- The 22 bytes of a settings record, the ignored bits 0 (R178, Table 11-3). -/
def Settings.bytes (c : Settings) : List Byte :=
  [c.tickSource.code, bitAt c.fallingEdges 0 ||| bitAt c.fallback 1, c.prescale] ++
  bytes3 c.frameTimeout ++ bytes3 c.period ++ bytes2 c.budget ++ bytes3 c.windowLength ++
  [bitAt c.autoSeal 0 ||| bitAt c.split 1, c.hostShare] ++
  bytes3 c.stallTimeout ++ bytes2 c.memTimeout ++ [c.refdiv]

/-! ### Window entries (R118, R121, 11.3.3) -/

/-- An address of a request is in range: at most 4,194,303 (R190). -/
def addressInRange (a : BitVec 24) : Bool := decide (a.toNat ≤ 4194303)

/-- The 22 bits of an address in range. -/
def toAddr (a : BitVec 24) : Addr := a.setWidth 22

/-- The policy code in bits 1 and 0 of a mode byte (11.3.3). -/
def modePolicyCode (mode : Byte) : Nat := mode.toNat % 4

def Policy.ofCode (c : Nat) : Policy :=
  if c = 1 then .stage else if c = 2 then .block else .pass

/-- The argument check of SET_WINDOW (R121): verify and seal-on-last only with policy STAGE. -/
def windowArgsInRange (n mode : Byte) (base limit : BitVec 24) : Bool :=
  decide (n.toNat ≤ 7) && decide (modePolicyCode mode ≠ 3) &&
  addressInRange base && addressInRange limit && decide (base.toNat ≤ limit.toNat) &&
  (decide (modePolicyCode mode = 1) || !(mode.getLsbD 2 || mode.getLsbD 3))

/-- The entry a SET_WINDOW in range writes; bits 6 to 4 of the mode byte are ignored (R121, 11.3.3). -/
def WindowEntry.ofRequest (mode : Byte) (base limit : BitVec 24) : WindowEntry where
  enabled := mode.getLsbD 7
  base := toAddr base
  limit := toAddr limit
  policy := Policy.ofCode (modePolicyCode mode)
  verify := mode.getLsbD 2
  sealOnLast := mode.getLsbD 3

/-- The mode byte of an entry (11.3.3). -/
def WindowEntry.mode (e : WindowEntry) : Byte :=
  e.policy.code ||| bitAt e.verify 2 ||| bitAt e.sealOnLast 3 ||| bitAt e.enabled 7

/-! ### Watch entries (R148, R149, 11.3.3) -/

/-- The argument check of SET_WATCH (R148). -/
def watchArgsInRange (n : Byte) (addr : BitVec 24) : Bool := decide (n.toNat ≤ 15) && addressInRange addr

/-- The entry SET_WATCH writes: hit no, hit count 0, last observed 0; bits 6 to 2 of the flags byte are ignored
(R148). -/
def WatchEntry.ofRequest (flags : Byte) (addr : BitVec 24) (mask reference : Word) : WatchEntry where
  enabled := flags.getLsbD 7
  addr := toAddr addr
  mask := mask
  reference := reference
  sense := if flags.getLsbD 0 then .equal else .change
  rearm := flags.getLsbD 1
  hit := false
  hitCount := 0
  lastObserved := 0

/-- The flags byte of a watch entry (11.3.3). -/
def WatchEntry.flags (e : WatchEntry) : Byte :=
  bitAt (decide (e.sense = .equal)) 0 ||| bitAt e.rearm 1 ||| bitAt e.hit 6 ||| bitAt e.enabled 7

/-! ### Other reply payloads (11.3.4) -/

/-- The 12 bytes of a completion entry (Table 11-4a). -/
def CompletionEntry.bytes (e : CompletionEntry) : List Byte :=
  [e.id, e.outcome.code] ++ countBytes e.count ++ countBytes e.applied ++ [e.windowsUsed, e.halts] ++
  bytes2 e.stamp ++ [e.cause.code, e.number]

/-- The 7 bytes of the error capture in READ_EVENTS, all 0 while it is not valid (R158, Table 11-6). -/
def captureBytes : Option Capture → List Byte
  | none => [0, 0, 0, 0, 0, 0, 0]
  | some c => [0x80#8 ||| c.cause.code, c.later] ++ addrBytes c.addr ++ [lanesByte c.lanes, c.batch]

/-- Flags or enables as a 16-bit field, bits 15 to 9 reading 0 (11.3.3). -/
def eventField (x : BitVec 9) : List Byte := bytes2 (x.setWidth 16)

/-- The nine bits of a 16-bit mask that carry a flag (11.3.3). -/
def eventMask (m : BitVec 16) : BitVec 9 := m.setWidth 9

/-- One slot of the STATUS reply: batch id and state code, 0 and 0 for a free slot (R30). -/
def slotBytes : Option Batch → List Byte
  | none => [0, 0]
  | some b => [b.id, b.state.code]

end Sys2Proof.Machine
end

