-- ==== Sys2Proof/Machine/Flags.lean ====
section
/-! DEFINITION. The event unit: flags, enables, the IRQ level and the error capture (08). -/

namespace Sys2Proof.Machine

open Sys2Proof

/-- The nine event flags (R154). -/
inductive EventFlag where
  | done | torn | fault | watch | full | refused | frame | overrun | thawed
  deriving DecidableEq, Repr

/-- The bit that carries a flag (11.3.3). -/
def EventFlag.index : EventFlag → Nat
  | .done => 0
  | .torn => 1
  | .fault => 2
  | .watch => 3
  | .full => 4
  | .refused => 5
  | .frame => 6
  | .overrun => 7
  | .thawed => 8

def EventFlag.mask (f : EventFlag) : BitVec 9 := 1#9 <<< f.index

/-- Whether a flag is set. -/
def EventUnit.isSet (e : EventUnit) (f : EventFlag) : Bool := e.flags.getLsbD f.index

/-- IRQ is asserted while a set flag has its enable on (R156). -/
def irqLevel (flags enables : BitVec 9) : Bool := decide (flags &&& enables ≠ 0#9)

/-- The unit with IRQ at the level its flags and enables give (R156). -/
def EventUnit.settle (e : EventUnit) : EventUnit := { e with irq := irqLevel e.flags e.enables }

/-- A report sets its flag and leaves the others (R154). -/
def EventUnit.report (e : EventUnit) (f : EventFlag) : EventUnit :=
  EventUnit.settle { e with flags := e.flags ||| f.mask }

/-- An error fills a capture that is not valid; on a valid one it only raises the later count (R162). -/
def EventUnit.offer (e : EventUnit) (cause : ErrorCause) (addr : Addr) (lanes : Lanes) (batch : Byte) : EventUnit :=
  match e.capture with
  | none => { e with capture := some ⟨cause, addr, lanes, batch, 0#8⟩ }
  | some c => { e with capture := some { c with later := satInc c.later } }

/-- ACK_EVENTS: clear the selected flags, and the capture when asked (R159). -/
def EventUnit.acknowledge (e : EventUnit) (mask : BitVec 9) (clearCapture : Bool) : EventUnit :=
  EventUnit.settle
    { e with
      flags := e.flags &&& ~~~mask
      capture := if clearCapture then none else e.capture }

/-- SET_EVENT_ENABLE: all nine enables take their new values together (R157). -/
def EventUnit.setEnables (e : EventUnit) (mask : BitVec 9) : EventUnit :=
  EventUnit.settle { e with enables := mask }

/-- A block reports a flag (R154). -/
def State.report (s : State) (f : EventFlag) : State := { s with events := s.events.report f }

/-- A block offers an error (R161). -/
def State.offer (s : State) (cause : ErrorCause) (addr : Addr) (lanes : Lanes) (batch : Byte) : State :=
  { s with events := s.events.offer cause addr lanes batch }

end Sys2Proof.Machine
end

