-- ==== Sys2Proof/Machine/Ops.lean ====
section
/-! DEFINITION. The shared operations of the 3400's blocks: what several commands do in common, each written once. -/

namespace Sys2Proof.Machine

open Sys2Proof

/-! ### When commands are taken (R165, R175, R189) -/

/-- The part is out of pin reset (R189). -/
def State.running (s : State) : Bool := !(s.power.rst || s.power.powerHold)

/-- The part is out of pin reset and REFCLK runs, so pin events and timer expiries are taken (R189). -/
def State.clocked (s : State) : Bool := s.running && s.power.refclk

/-! ### Timers (R52) -/

/-- A timer as it is started or restarted: the value it is loaded with, and no REFCLK period counted yet (R52). -/
def Timer.start (n : Nat) : Timer := ⟨n, 0⟩

/-- The period timer as it is started or reloaded: the value is its remaining time and its reload value (R60). -/
def PeriodTimer.start (n : Nat) : PeriodTimer := ⟨.start n, n⟩

/-- The expiry of a timer is due: it runs, and its remaining time has reached 0 (R52). -/
def expiryDue (t : Option Timer) : Bool := t.any fun t => decide (t.remaining = 0)

/-! ### Waiting events -/

/-- An admission attempt follows (R74). -/
def State.awaitAttempt (s : State) : State :=
  { s with waiting := { s.waiting with attempts := s.waiting.attempts + 1 } }

/-- A window opening is handed to the engine (R53, R63). -/
def State.handOpening (s : State) : State :=
  { s with waiting := { s.waiting with openings := s.waiting.openings + 1 } }

/-! ### Address windows (R119) -/

/-- An entry contains an address when it is enabled and the address lies in its range. -/
def WindowEntry.contains (e : WindowEntry) (a : Addr) : Bool :=
  e.enabled && decide (e.base.toNat ≤ a.toNat) && decide (a.toNat ≤ e.limit.toNat)

/-- The lowest-numbered entry that contains `a`, numbering from `n`. -/
def decidingFrom (n : Nat) : List WindowEntry → Addr → Option (Nat × WindowEntry)
  | [], _ => none
  | e :: rest, a => if e.contains a then some (n, e) else decidingFrom (n + 1) rest a

/-- The deciding window of an address, with its number (R119). -/
def State.deciding (s : State) (a : Addr) : Option (Nat × WindowEntry) := decidingFrom 0 s.windows a

/-- The policy of an address: PASS when there is no deciding window (R119). -/
def State.policyOf (s : State) (a : Addr) : Policy :=
  match s.deciding a with
  | some (_, e) => e.policy
  | none => .pass

/-- Whether the deciding window of an address asks for verify (R83). -/
def State.verifyAsked (s : State) (a : Addr) : Bool :=
  match s.deciding a with
  | some (_, e) => e.verify
  | none => false

/-! ### Staging log and address index (R19 to R24) -/

/-- The chain of an address: its live records, newest first (R19, R20). -/
def chain (log : List Record) (a : Addr) : List Record := (log.filter fun r => r.addr = a).reverse

/-- The union of the lanes of a chain (R19). -/
def unionLanes (c : List Record) : Lanes := c.foldr (fun r acc => r.lanes ||| acc) 0#4

/-- The forwarding composition: each lane from the newest record of the chain that covers it, else from `word` (R24). -/
def compose (c : List Record) (word : Word) : Word := c.foldr (fun r acc => overlay acc r.lanes r.data) word

/-- A batch's record at a position (R5, R6). -/
def recordAt (log : List Record) (id : Byte) (pos : Nat) : Option Record :=
  log.find? fun r => decide (r.batch = id) && decide (r.pos = pos)

/-- The applied mark of one record (R15). -/
def markApplied (log : List Record) (id : Byte) (pos : Nat) : List Record :=
  log.map fun r => if r.batch = id ∧ r.pos = pos then { r with applied := true } else r

/-- A staged write merged into the record of `id` for its address (R9). -/
def mergeRecord (log : List Record) (id : Byte) (a : Addr) (lanes : Lanes) (data : Word) : List Record :=
  log.map fun r =>
    if r.batch = id ∧ r.addr = a then
      { r with lanes := r.lanes ||| lanes, data := overlay r.data lanes data }
    else r

/-! ### Batch table (R30 to R36, R42, R44) -/

/-- The batches in the table, in slot order. -/
def BatchTable.batches (t : BatchTable) : List Batch := t.slots.filterMap id

/-- The batch with an id. -/
def BatchTable.find? (t : BatchTable) (id : Byte) : Option Batch :=
  t.batches.find? fun b => decide (b.id = id)

/-- The OPEN batch, if any (R34). -/
def BatchTable.openBatch? (t : BatchTable) : Option Batch :=
  t.batches.find? fun b => decide (b.state = .opened)

/-- An id is held by a batch in the table (R31). -/
def BatchTable.holds (t : BatchTable) (id : Byte) : Bool := t.batches.any fun b => decide (b.id = id)

/-- The seal order of a SEALED batch: its place in the sealed queue (R32). -/
def BatchTable.sealOrder (t : BatchTable) (id : Byte) : Option Nat := t.sealedQueue.idxOf? id

/-- Change the record of one batch. -/
def BatchTable.update (t : BatchTable) (id : Byte) (f : Batch → Batch) : BatchTable :=
  { t with slots := t.slots.map (Option.map fun b => if b.id = id then f b else b) }

/-- A batch leaves the table, and the sealed queue if it is there (R42, R44). -/
def BatchTable.remove (t : BatchTable) (id : Byte) : BatchTable :=
  { t with
    slots := t.slots.map fun o => o.filter fun b => decide (b.id ≠ id)
    sealedQueue := t.sealedQueue.filter fun i => decide (i ≠ id) }

/-- A batch leaves the sealed queue at its admission (R42, R77). -/
def BatchTable.dequeue (t : BatchTable) (id : Byte) : BatchTable :=
  { t with sealedQueue := t.sealedQueue.filter fun i => decide (i ≠ id) }

/-- Put a batch into the lowest-numbered free slot (R30). -/
def putFirstFree (b : Batch) : List (Option Batch) → List (Option Batch)
  | [] => []
  | none :: rest => some b :: rest
  | some a :: rest => some a :: putFirstFree b rest

/-- The first id from `i` that no batch holds, passing over at most `n` (R31). -/
def freshId (t : BatchTable) : Nat → Byte → Byte
  | 0, i => i
  | n + 1, i => if t.holds i then freshId t n (nextBatchId i) else i

/-- A newly opened batch (R35). -/
def Batch.fresh (id : Byte) : Batch := ⟨id, .opened, 0, none, 0, 0, 0, none⟩

/-- Open a batch: the lowest-numbered free slot, the next id, state OPEN, all counts 0 (R35). None when no slot is
free. -/
def BatchTable.open? (t : BatchTable) : Option (Batch × BatchTable) :=
  if t.slots.any Option.isNone then
    let i := freshId t Config.batchSlots t.nextId
    some (Batch.fresh i, { t with slots := putFirstFree (Batch.fresh i) t.slots, nextId := nextBatchId i, opened := t.opened + 1 })
  else none

/-- A seal closes the OPEN batch, whatever its cause (R36). Without an OPEN batch nothing changes. -/
def State.sealOpen (s : State) (cause : SealCause) : State :=
  match s.table.openBatch? with
  | none => s
  | some b =>
    let t := s.table.update b.id fun b => { b with state := .sealed, cause := some cause }
    State.awaitAttempt { s with table := { t with sealedQueue := t.sealedQueue ++ [b.id] } }

/-! ### Placement of a staged write (R8 to R12) -/

/-- The outcome of a placement (R8). -/
inductive Placement where
  | merged (id : Byte)
  | appended (id : Byte) (pos : Nat)
  | noSpace
  deriving DecidableEq, Repr

/-- The OPEN batch whose record heads the chain of the address: the target of a merge (R8, step 2). -/
def State.mergeTarget (s : State) (a : Addr) : Option Byte :=
  match s.table.openBatch?, (chain s.log a).head? with
  | some b, some r => if r.batch = b.id then some b.id else none
  | _, _ => none

/-- A new record at the end of a batch (R6, R10). -/
def State.appendTo (s : State) (b : Batch) (a : Addr) (lanes : Lanes) (data : Word) : State :=
  { s with
    log := s.log ++ [⟨a, lanes, onLanes lanes data, b.id, b.count, false⟩]
    table := s.table.update b.id fun b => { b with count := b.count + 1 } }

/-- A placement, taken whole: a merge, an append, an append that opens a batch, or NO_SPACE, which changes nothing
(R8 to R12). -/
def State.place (s : State) (a : Addr) (lanes : Lanes) (data : Word) : Placement × State :=
  match s.mergeTarget a with
  | some id => (.merged id, { s with log := mergeRecord s.log id a lanes data })
  | none =>
    if s.log.length < Config.logSlots then
      match s.table.openBatch? with
      | some b => (.appended b.id b.count, s.appendTo b a lanes data)
      | none =>
        match s.table.open? with
        | some (b, t) => (.appended b.id b.count, State.appendTo { s with table := t } b a lanes data)
        | none => (.noSpace, s)
    else (.noSpace, s)

/-! ### Completions at the host bus (R123, R186) -/

/-- A write is accepted (R123). -/
def State.acceptWrite (s : State) : State :=
  { s with host := { s.host with state := .idle, hwait := false } }

/-- A read is answered; the word is there to be driven only when HCE has stayed asserted since the request was taken
(R123, R186; notes/assumptions/8.md). -/
def State.answerRead (s : State) (w : Word) (dropped : Bool) : State :=
  { s with
    host :=
      { s.host with state := .idle, hwait := false, answer := if s.host.hce && !dropped then some w else none } }

/-- What the 3400 drives on HD (`none`: high impedance): the word of a read answered, while HCE is still asserted and HOE
is asserted (R123, R186). -/
def HostPort.hdOut? (p : HostPort) : Option Word := if p.hce && p.hoe then p.answer else none

/-- An access is refused: HERR, the REFUSED event and the error with batch id 0, in one step (R129, R130, R135, R155).
HERR is driven only while HCE is still asserted (notes/assumptions/8.md). -/
def State.refuseAccess (s : State) (cause : ErrorCause) (a : Addr) (lanes : Lanes) : State :=
  let s := { s with host := { s.host with state := .idle, hwait := false, herr := s.host.hce } }
  (s.report .refused).offer cause a lanes 0#8

/-- The seal-on-last check of a placed write, against the deciding window kept with it (R132). -/
def State.sealOnLastCheck (s : State) (window : Option Nat) (a : Addr) (id : Byte) : State :=
  match window.bind fun n => s.windows[n]? with
  | none => s
  | some e =>
    if e.sealOnLast && decide (a = e.limit) then
      { s with waiting := { s.waiting with sealsOnLast := s.waiting.sealsOnLast ++ [⟨id, s.table.opened⟩] } }
    else s

/-- A staged write's placement and what the host port makes of its success: the write accepted and the seal-on-last
check (R131, R134). None when there is no space. -/
def State.placeForHost (s : State) (w : HeldWrite) : Option State :=
  match s.place w.addr w.lanes w.data with
  | (.merged id, s') => some (s'.acceptWrite.sealOnLastCheck w.window w.addr id)
  | (.appended id _, s') => some (s'.acceptWrite.sealOnLastCheck w.window w.addr id)
  | (.noSpace, _) => none

/-- A removal notice: a stalled write is retried as a new placement, and a failed retry changes nothing (R13, R134). -/
def State.removalNotice (s : State) : State :=
  match s.host.state with
  | .stalled w =>
    match s.placeForHost w with
    | some s' => { s' with host := { s'.host with stallTimer := none } }
    | none => s
  | _ => s

/-! ### Removal of a batch (R17, R44) -/

/-- A batch leaves the table and its records leave the log, as one claim; the notice to the host port is given
separately. -/
def State.dropBatch (s : State) (id : Byte) : State :=
  { s with
    table := s.table.remove id
    log := s.log.filter fun r => decide (r.batch ≠ id) }

/-! ### Watch list (R143 to R147) -/

/-- The compared bits of a check: set in the mask and in a lane of the lane set (R144). -/
def WatchEntry.compared (e : WatchEntry) (lanes : Lanes) : Word := onLanes lanes e.mask

/-- An entry fires by its sense on the compared bits `m` (R145). -/
def WatchEntry.fires (e : WatchEntry) (m data : Word) : Bool :=
  match e.sense with
  | .change => decide (data &&& m ≠ e.reference &&& m)
  | .equal => decide (data &&& m = e.reference &&& m)

/-- An entry takes part in a check: it is enabled, has the address and compares at least one bit (R144). -/
def WatchEntry.takesPart (e : WatchEntry) (a : Addr) (lanes : Lanes) : Bool :=
  e.enabled && decide (e.addr = a) && decide (e.compared lanes ≠ 0#32)

/-- Whether a check makes an entry fire. -/
def WatchEntry.firesAt (e : WatchEntry) (a : Addr) (lanes : Lanes) (data : Word) : Bool :=
  e.takesPart a lanes && e.fires (e.compared lanes) data

/-- What a check does to an entry (R144 to R147). -/
def WatchEntry.check (e : WatchEntry) (a : Addr) (lanes : Lanes) (data : Word) : WatchEntry :=
  if e.takesPart a lanes then
    let m := e.compared lanes
    let seen := { e with lastObserved := onBits e.lastObserved m data }
    if e.fires m data then
      { seen with
        hit := true
        hitCount := satInc e.hitCount
        reference := if e.rearm then onBits e.reference m data else e.reference }
    else seen
  else e

/-- A watch check, taken whole: every entry is checked on its own, and WATCH is set when one fires (R144, R146). -/
def State.watchCheck (s : State) (a : Addr) (lanes : Lanes) (data : Word) : State :=
  let s' := { s with watch := s.watch.map fun e => e.check a lanes data }
  if s.watch.any fun e => e.firesAt a lanes data then s'.report .watch else s'

/-! ### Completion queue (R107, R110) -/

/-- The entry the engine hands over for a batch, with the stamp and number the queue adds (R89, R110). Every batch that
reaches a posting has been sealed (R107), so the cause stands. -/
def State.entryFor (s : State) (b : Batch) (outcome : BatchOutcome) : CompletionEntry where
  id := b.id
  outcome := outcome
  count := b.count
  applied := b.applied
  windowsUsed := b.windowsUsed
  halts := b.halts
  cause := b.cause.getD .request
  stamp := s.unit.counter
  number := s.queue.counter

/-- A posting and the DONE event that accompanies it: the entry joins the tail, the reservation is released, the posting
counter advances (R110, R154). -/
def State.post (s : State) (b : Batch) (outcome : BatchOutcome) : State :=
  State.report
    { s with
      queue :=
        { posted := s.queue.posted ++ [s.entryFor b outcome]
          reserved := 0
          counter := s.queue.counter + 1#8 } }
    .done

/-! ### Memory port and arbiter (R99 to R102, R187) -/

/-- A host request waits at the arbiter. -/
def State.hostWaits (s : State) : Bool :=
  match s.host.state with
  | .memory a => !a.inFlight
  | _ => false

/-- The port drives a granted access onto the array bus and starts the memory timeout timer; MCE comes later
(R99, R187). -/
def State.drive (s : State) (who : Requester) (a : Addr) (write : Bool) (lanes : Lanes) (data : Word) (count : Nat) :
    State :=
  { s with
    port :=
      { busy := some who
        count := count
        timer := some (.start s.mgmt.settings.memTimeout.toNat)
        ma := a
        md := if write then some data else none
        mbe := if write then lanes else Lanes.all
        mce := false
        mwe := write
        moe := !write } }

/-- The host is granted the port; the consecutive-grant count becomes 0 (R101). -/
def State.grantHost (s : State) : State :=
  match s.host.state with
  | .memory a =>
    State.drive { s with host := { s.host with state := .memory { a with inFlight := true } } }
      .host a.addr (decide (a.kind = .passWrite)) a.lanes a.data 0
  | _ => s

/-- The engine is granted the port; the count rises while a host request waits and is 0 otherwise (R101). -/
def State.grantEngine (s : State) : State :=
  match s.engine.access with
  | .waiting r =>
    State.drive { s with engine := { s.engine with access := .inFlight r } }
      .engine r.addr (decide (r.kind = .recordWrite)) r.lanes r.data (if s.hostWaits then s.port.count + 1 else 0)
  | _ => s

/-- An arbiter decision: only a free port decides, by the requests that wait, the count and the host share (R100). -/
def State.arbitrate (s : State) : State :=
  match s.port.busy with
  | some _ => s
  | none =>
    match s.engine.access with
    | .waiting _ =>
      if s.hostWaits && decide (s.mgmt.settings.hostShare.toNat ≤ s.port.count) then s.grantHost else s.grantEngine
    | _ => if s.hostWaits then s.grantHost else s

/-- The end of an access on the array bus: the strobes go back, MD is released, the timer stops (R99, R187). The port
stays busy until its requester has taken the outcome. -/
def State.endBus (s : State) : State :=
  { s with
    port := { s.port with timer := none, md := none, mbe := 0#4, mce := false, mwe := false, moe := false } }

/-- The requester has taken the outcome: the port is free and the arbiter decides (R99, R100). -/
def State.freePort (s : State) : State := State.arbitrate { s with port := { s.port with busy := none } }

/-- A host access enters MEMORY and its request reaches the arbiter (R127, R128, R137). -/
def State.startHostAccess (s : State) (kind : HostKind) (a : Addr) (lanes : Lanes) (data : Word)
    (window : Option Nat) : State :=
  State.arbitrate
    { s with host := { s.host with state := .memory ⟨kind, a, lanes, data, window, false, false⟩, hwait := true } }

/-! ### Commit engine (R73 to R96) -/

/-- The active batch's record in the table (R73). -/
def State.activeBatch? (s : State) : Option Batch := s.engine.active.bind s.table.find?

/-- The record at the next record position of the active batch (R73). -/
def State.nextRecord? (s : State) : Option Record :=
  s.engine.active.bind fun id => recordAt s.log id s.engine.nextPos

/-- The engine places a request for the record at the next record position, and the arbiter decides if the port is free
(R82, R83, R100). -/
def State.placeRequest (s : State) (kind : AccessKind) : State :=
  match s.nextRecord? with
  | some r =>
    State.arbitrate { s with engine := { s.engine with access := .waiting ⟨kind, r.addr, r.lanes, r.data⟩ } }
  | none => s

/-- A grant gives the active batch its APPLYING state and one more window used, and requests the write of the next
record (R77, R80, R81). -/
def State.giveGrant (s : State) (id : Byte) (grant : Nat) : State :=
  State.placeRequest
    { s with
      table := s.table.update id fun b => { b with state := .applying, windowsUsed := satInc b.windowsUsed }
      engine := { s.engine with grant := grant } }
    .recordWrite

/-- A grant is charged to the open window and clears its untouched mark; the permanent window is not charged (R53,
R64). -/
def State.charge (s : State) (grant : Nat) : State :=
  match s.unit.window with
  | .opened b r _ => { s with unit := { s.unit with window := .opened b (r - grant) false } }
  | _ => s

/-- The head batch is admitted: reservation, state, grant, HOLD and the first request (R77). -/
def State.admitHead (s : State) (id : Byte) (grant : Nat) : State :=
  State.giveGrant
    { s with
      queue := { s.queue with reserved := 1 }
      table := s.table.dequeue id
      engine := { s.engine with active := some id, nextPos := 0, abortPending := false, hold := true } }
    id grant

/-- The head batch is refused as oversize: REFUSED posted, DONE, OVERSIZE offered with the record at position 0, the
batch removed, the notice given, a new attempt (R78). -/
def State.refuseOversize (s : State) (b : Batch) : State :=
  let s := s.post { b with applied := 0, windowsUsed := 0, halts := 0 } .refused
  let s :=
    match recordAt s.log b.id 0 with
    | some r => s.offer .oversize r.addr r.lanes b.id
    | none => s
  (s.dropBatch b.id).removalNotice.awaitAttempt

/-- The candidate of an admission attempt when the conditions of R75 hold. -/
def State.candidate? (s : State) : Option Batch :=
  match s.engine.active, s.table.sealedQueue with
  | none, id :: _ =>
    if s.unit.frozen || decide (Config.completionPlaces ≤ s.queue.posted.length + s.queue.reserved) ||
        decide (s.unit.window = .closed) then
      none
    else s.table.find? id
  | _, _ => none

/-- An admission attempt, taken whole (R74 to R78). -/
def State.attempt (s : State) : State :=
  match s.candidate? with
  | none => s
  | some b =>
    match s.unit.window with
    | .closed => s
    | .permanent => s.admitHead b.id b.count
    | .opened budget remaining untouched =>
      if budget < b.count then
        if s.mgmt.settings.split then
          if untouched then (s.charge budget).admitHead b.id budget else s
        else s.refuseOversize b
      else if b.count ≤ remaining then (s.charge b.count).admitHead b.id b.count
      else s

/-- The record at the next record position counts as applied: mark, records applied, next record position, watch check
(R85 steps 1, 2 and 4; R94, R95). -/
def State.countApplied (s : State) (id : Byte) (r : Record) : State :=
  State.watchCheck
    { s with
      log := markApplied s.log id s.engine.nextPos
      table := s.table.update id fun b => { b with applied := b.applied + 1 }
      engine := { s.engine with nextPos := s.engine.nextPos + 1 } }
    r.addr r.lanes r.data

/-- The active batch has left: the engine holds nothing and HOLD is deasserted; an attempt follows (R88, R96, R98). -/
def State.clearActive (s : State) : State := State.awaitAttempt { s with engine := Engine.reset }

/-- The active batch completes (R88). -/
def State.complete (s : State) (b : Batch) : State :=
  let s := s.post b (if b.windowsUsed = 1#8 then .applied else .appliedTorn)
  (s.dropBatch b.id).removalNotice.clearActive

/-- The end of an abort, less the notice to the host port: ABORTED posted, TORN for a partly applied batch, DONE, the
batch removed, the engine cleared (R96). -/
def State.abortEnd (s : State) (b : Batch) : State :=
  let s := s.post b .aborted
  let s := if 0 < b.applied ∧ b.applied < b.count then s.report .torn else s
  (s.dropBatch b.id).clearActive

/-- The grant is used up with records remaining: PAUSED and TORN, and under IMMEDIATE, not frozen, at once a
continuation of all unapplied records (R81, R87). -/
def State.pause (s : State) (b : Batch) : State :=
  let s :=
    State.report { s with table := s.table.update b.id fun b => { b with state := .paused } } .torn
  if s.mgmt.settings.tickSource = .immediate ∧ s.unit.frozen = false then s.giveGrant b.id (b.count - b.applied)
  else s

/-- A record's success: it counts as applied and the grant falls; then completion, pause or the next request (R85). -/
def State.recordSuccess (s : State) (id : Byte) (r : Record) : State :=
  let s := s.countApplied id r
  let s := { s with engine := { s.engine with grant := s.engine.grant - 1 } }
  match s.table.find? id with
  | none => s
  | some b =>
    if b.count ≤ b.applied then s.complete b
    else if s.engine.grant = 0 then s.pause b
    else s.placeRequest .recordWrite

/-- A fault: HALTED with the fault record position, halts, FAULT and the error (R90). -/
def State.takeFault (s : State) (id : Byte) (r : Record) (cause : ErrorCause) : State :=
  let pos := s.engine.nextPos
  let s :=
    { s with
      table :=
        s.table.update id fun b => { b with state := .halted, faultPos := some pos, halts := satInc b.halts } }
  (s.report .fault).offer cause r.addr r.lanes id

/-- How the access in flight of the active batch ended. -/
inductive AccessEnd where
  | writeDone
  | verifyDone (md : Word)
  | timedOut
  deriving DecidableEq, Repr

/-- An access of an APPLYING batch ended: success, a verify read, or a fault (R83, R84). -/
def State.applyingEnd (s : State) (id : Byte) (r : Record) : AccessEnd → State
  | .writeDone => if s.verifyAsked r.addr then s.placeRequest .verifyRead else s.recordSuccess id r
  | .verifyDone md => if equalOn r.lanes md r.data then s.recordSuccess id r else s.takeFault id r .verify
  | .timedOut => s.takeFault id r .engineMemTimeout

/-- An access of an ABORTING batch ended: applied at MRDY, not applied at a timeout; either ends the abort
(R95, R96). -/
def State.abortingEnd (s : State) (id : Byte) (r : Record) (e : AccessEnd) : State :=
  let s :=
    match e with
    | .timedOut => s
    | _ => s.countApplied id r
  match s.table.find? id with
  | some b => (s.abortEnd b).removalNotice
  | none => s

/-- The engine takes the end of its access in flight, and the port becomes free (R99). -/
def State.engineAccessEnd (s : State) (e : AccessEnd) : State :=
  let s := s.endBus
  let s := { s with engine := { s.engine with access := .idle } }
  State.freePort <|
    match s.activeBatch?, s.nextRecord? with
    | some b, some r => if b.state = .aborting then s.abortingEnd b.id r e else s.applyingEnd b.id r e
    | _, _ => s

/-- An abort settles the engine's own access (R94): `true` when the batch is removed at once, less the notice to the
host port. -/
def State.abortActive (s : State) (b : Batch) : Bool × State :=
  let atOnce (s : State) : Bool × State :=
    match s.table.find? b.id with
    | some b => (true, s.abortEnd b)
    | none => (true, s)
  match s.engine.access with
  | .idle => atOnce s
  | .waiting r =>
    let s := { s with engine := { s.engine with access := .idle } }
    match r.kind, s.nextRecord? with
    | .verifyRead, some rec => atOnce (s.countApplied b.id rec)
    | _, _ => atOnce s
  | .inFlight _ =>
    (false,
      { s with
        table := s.table.update b.id fun b => { b with state := .aborting, faultPos := none }
        engine := { s.engine with abortPending := true } })

/-! ### Commit windows (R53, R54, R63) -/

/-- A tick: the counter rises, the window opens or is replaced, the tick and the opening are handed on (R63). -/
def State.tick (s : State) : State :=
  let c := s.mgmt.settings
  let s :=
    { s with
      unit :=
        { s.unit with
          counter := s.unit.counter + 1#16
          window := .opened c.budget.toNat c.budget.toNat true
          lengthTimer := if c.windowLength = 0#24 then none else some (.start c.windowLength.toNat) }
      waiting := { s.waiting with autoSeals := s.waiting.autoSeals + 1 } }
  s.handOpening

/-- A tick-source change: the window is closed, the old sources stop, the new ones start, with the settings record just
written (R54). -/
def State.changeTickSource (s : State) : State :=
  let c := s.mgmt.settings
  let u :=
    { s.unit with
      prescaleCount := 0
      frameTimer := none
      periodTimer := none
      pendingPeriod := none
      lengthTimer := none }
  match c.tickSource with
  | .immediate => State.handOpening { s with unit := { u with monitor := .off, window := .permanent } }
  | .frame =>
    { s with
      unit := { u with monitor := .waiting, window := .closed, frameTimer := some (.start c.frameTimeout.toNat) } }
  | .timer =>
    { s with
      unit :=
        { u with
          monitor := .off
          window := .closed
          periodTimer := some (.start c.period.toNat) } }

/-- A counted edge restarts the frame timeout, raises the prescale count and, at N, makes a tick (R56). -/
def State.countEdge (s : State) : State :=
  let c := s.mgmt.settings
  let n := s.unit.prescaleCount + 1
  let u := { s.unit with frameTimer := some (.start c.frameTimeout.toNat) }
  if n = c.prescale.toNat then State.tick { s with unit := { u with prescaleCount := 0 } }
  else { s with unit := { u with prescaleCount := n } }

/-- The end of a freeze is handed on: an attempt, and under IMMEDIATE the permanent window (R69, R70). -/
def State.endFreeze (s : State) : State :=
  let s := State.awaitAttempt { s with unit := { s.unit with frozen := false, freezeTimer := none } }
  if s.mgmt.settings.tickSource = .immediate then s.handOpening else s

/-! ### Management port (R167, R172, R173) -/

/-- A new reply replaces the retained reply (R169, R172). -/
def State.retain (s : State) (status : Status) (tag : Byte) (payload : List Byte) : State :=
  { s with mgmt := { s.mgmt with retained := frameOf status.code tag payload } }

/-- The port takes requests: out of pin reset, REFCLK running, and neither RESET nor SKIPPING (R165, R175, R189). -/
def State.takesRequests (s : State) : Bool :=
  s.clocked && (decide (s.mgmt.state = .idle) || decide (s.mgmt.state = .receiving))

/-- The transaction ends: IDLE, SCS high, SDO not driven, bits short of a byte discarded (R165, R166). -/
def State.endTransaction (s : State) : State :=
  { s with mgmt := { s.mgmt with state := .idle, scs := false, sdo := none, bits := [] } }

/-- What an owning block makes of a request: its state, the status and the payload of the reply (R172). -/
structure Taken where
  status  : Status
  payload : List Byte
  state   : State

/-- A request in the step that ends its transaction: BAD_ARG when a field is out of range, else handed to its owner,
whose reply is retained (R169 steps 5 and 6, R171, R172). -/
def State.handRequest (s : State) (tag : Byte) (inRange : Bool) (owner : State → Taken) : State :=
  if s.takesRequests then
    if inRange then
      let t := owner s.endTransaction
      t.state.retain t.status tag t.payload
    else s.endTransaction.retain .badArg tag []
  else s

/-! ### Pin reset (R28, R51, R71, R104, R116, R138, R152, R163, R175, R179, R187) -/

/-- Every block in its reset state while the part is held in pin reset. The levels the outside holds on the input pins,
the clock and MA stay. -/
def State.pinReset (s : State) : State :=
  { s with
    host :=
      { s.host with
        state := .reset, stallTimer := none, hwait := true, herr := false, answer := none }
    windows := List.replicate Config.windowEntries WindowEntry.reset
    log := []
    table := BatchTable.reset
    unit := WindowUnit.reset
    engine := Engine.reset
    port :=
      { busy := none, count := 0, timer := none, ma := s.port.ma, md := none, mbe := 0, mce := false
        mwe := false, moe := false }
    queue := CompletionQueue.reset
    watch := List.replicate Config.watchEntries WatchEntry.reset
    events := EventUnit.reset
    mgmt :=
      { state := .reset, buffer := [], count := 0, overLong := false, bits := [], txPos := 0
        sdo := none, retained := noReply, scs := s.mgmt.scs, settings := Settings.reset }
    waiting := Waiting.reset }

end Sys2Proof.Machine
end

