-- ==== Sys2Proof/Machine/HostBus.lean ====
section
/-! DEFINITION. The host port's events (06). -/

namespace Sys2Proof.Machine

open Sys2Proof

/-- A staged write in the step that takes it: placed and accepted, or STALLED with FULL set and the stall timer started
when its setting is above 0 (R131 to R133). -/
def State.stageWrite (s : State) (w : HeldWrite) : State :=
  match s.placeForHost w with
  | some s' => s'
  | none =>
    let t := s.mgmt.settings.stallTimeout
    State.report
      { s with
        host :=
          { s.host with
            state := .stalled w
            hwait := true
            stallTimer := if t = 0#24 then none else some (.start t.toNat) } }
      .full

/-- A forwarding lookup: answered at once when the chain covers all four lanes, else an array read (R23, R137). -/
def State.forwardRead (s : State) (a : Addr) (window : Option Nat) : State :=
  let c := chain s.log a
  if unionLanes c = Lanes.all then s.answerRead (compose c 0#32) false
  else s.startHostAccess .forwardedRead a Lanes.all 0#32 window

/-- A host request is taken: the lines of the last completion go back, the pins are sampled, and the access is decided
and handled in one step (R123, R124, R126). -/
def State.takeHostRequest (s : State) : State :=
  let s := { s with host := { s.host with herr := false, answer := none } }
  let a := s.host.ha
  let lanes := s.host.hbe
  let data := s.host.hd
  let window := (s.deciding a).map Prod.fst
  if s.host.hwe then
    if lanes = 0#4 then s
    else
      match s.policyOf a with
      | .pass => s.startHostAccess .passWrite a lanes data window
      | .stage => s.stageWrite ⟨a, lanes, data, window⟩
      | .block => s.refuseAccess .blocked a lanes
  else
    match s.policyOf a with
    | .stage => s.forwardRead a window
    | _ => s.startHostAccess .passRead a Lanes.all 0#32 window

/-- The engine's request whose grant is of this moment: the port carries it, MCE is not yet asserted for it, and no REFCLK
period has passed since the grant (R99, R102, R187; notes/assumptions/24.md). -/
def State.grantedNow? (s : State) : Option EngineRequest :=
  match s.engine.access with
  | .inFlight q =>
    if s.port.busy = some .engine ∧ s.port.mce = false ∧
        s.port.timer = some (.start s.mgmt.settings.memTimeout.toNat) then some q
    else none
  | _ => none

/-- The two requests arrive together at the free port: where a host request waits and the engine's grant is of this moment,
the decision is the one with both waiting (R100; notes/assumptions/24.md). -/
def State.decideTogether (s : State) : State :=
  match s.grantedNow? with
  | some q =>
    if s.hostWaits then
      State.arbitrate
        { s with engine := { s.engine with access := .waiting q }, port := { s.port with busy := none } }
    else s
  | none => s

/-- The host pins take these levels with HCE asserted. Where HCE was deasserted before, this is an assertion of HCE, which
in IDLE is taken as a host request; where HCE was asserted already it is none, and only the levels change, that of HOE
among them (R123, R126, R186; notes/assumptions/9.md). With `hce.together` the access reaches the arbiter together with the
engine's request granted just before (R100; notes/assumptions/24.md). -/
def execHostRequest (addr : Addr) (write : Bool) (lanes : Lanes) (data : Word) (hce : HceAssertion) (s : State) :
    Host.Outcome State Fault Refusal :=
  let t :=
    { s with
      host := { s.host with hce := true, hwe := write, hoe := hce.oe, ha := addr, hbe := lanes, hd := data } }
  .next
    (if s.clocked && !s.host.hce && decide (s.host.state = .idle) then
      (if hce.together then t.takeHostRequest.decideTogether else t.takeHostRequest)
    else t)

/-- The host port's state after HCE is deasserted: an access under way runs on, and one in MEMORY keeps that its word, if
it is a read, will not be driven (R123, R186). -/
def HostState.dropHce : HostState → HostState
  | .memory a => .memory { a with dropped := true }
  | x => x

/-- HCE is deasserted: HD is no longer driven and HERR is deasserted; an access under way runs on (R123, R186). -/
def execHceDeassert (s : State) : Host.Outcome State Fault Refusal :=
  .next
    { s with host := { s.host with state := s.host.state.dropHce, hce := false, herr := false, answer := none } }

/-- Expiry of the stall timer, its remaining time 0, in STALLED drops the held write with HERR (R52, R135). -/
def execStallTimeout (s : State) : Host.Outcome State Fault Refusal :=
  match s.clocked && expiryDue s.host.stallTimer, s.host.state with
  | true, .stalled w =>
    .next (State.refuseAccess { s with host := { s.host with stallTimer := none } } .stallTimeout w.addr w.lanes)
  | _, _ => .next s

/-- The access of the host port that the memory port carries, of this kind and on the array bus, so that MRDY is taken
for it (R99, R103). -/
def State.hostOnBus? (s : State) (kind : HostKind) : Option HostAccess :=
  if s.clocked && decide (s.port.busy = some .host) && s.port.mce then
    match s.host.state with
    | .memory a => if a.kind = kind ∧ a.inFlight = true then some a else none
    | _ => none
  else none

/-- MRDY for a pass-through read answers the host with the word on MD (R127). -/
def execPassThroughReadComplete (md : Word) (s : State) : Host.Outcome State Fault Refusal :=
  match s.hostOnBus? .passRead with
  | some a => .next (s.endBus.answerRead md a.dropped).freePort
  | none => .next s

/-- MRDY for a pass-through write: the watch check, then the write accepted (R128). -/
def execPassThroughWriteComplete (s : State) : Host.Outcome State Fault Refusal :=
  match s.hostOnBus? .passWrite with
  | some a => .next (s.endBus.watchCheck a.addr a.lanes a.data).acceptWrite.freePort
  | none => .next s

/-- MRDY for the array read of a forwarded read: composed against the chain as it stands now (R25, R137). -/
def execForwardedReadComplete (md : Word) (s : State) : Host.Outcome State Fault Refusal :=
  match s.hostOnBus? .forwardedRead with
  | some a => .next (s.endBus.answerRead (compose (chain s.log a.addr) md) a.dropped).freePort
  | none => .next s

/-- Expiry of the memory timeout timer, its remaining time 0, for a host access refuses it with HERR (R52, R129). -/
def execHostMemTimeout (s : State) : Host.Outcome State Fault Refusal :=
  match s.clocked && decide (s.port.busy = some .host) && expiryDue s.port.timer, s.host.state with
  | true, .memory a => .next (s.endBus.refuseAccess .hostMemTimeout a.addr a.lanes).freePort
  | _, _ => .next s

end Sys2Proof.Machine
end

