-- ==== Sys2Proof/Machine/PowerReset.lean ====
section
/-! DEFINITION. Pin reset, power-up and the reference clock (11, R189). -/

namespace Sys2Proof.Machine

open Sys2Proof

/-- RST is asserted: all accesses are abandoned and every block is in its reset state (R189 and the rules it names). -/
def execRstAssert (s : State) : Host.Outcome State Fault Refusal :=
  .next (State.pinReset { s with power := { s.power with rst := true } })

/-- The part leaves pin reset: the management port enters IDLE, or SKIPPING while SCS is low (R175); the host port enters
IDLE with HWAIT released, and takes a host request at once when HCE is asserted (R139). -/
def State.leaveReset (s : State) : State :=
  let s :=
    { s with
      mgmt := { s.mgmt with state := if s.mgmt.scs then .skipping else .idle }
      host := { s.host with state := .idle, hwait := false } }
  if s.host.hce && s.clocked then s.takeHostRequest else s

/-- RST is released: a rising edge, which ends a pin reset; one held since a power-up only while REFCLK runs (R189). -/
def execRstRelease (s : State) : Host.Outcome State Fault Refusal :=
  if s.running then .next s
  else
    let s := { s with power := { s.power with rst := false, powerHold := s.power.powerHold && !s.power.refclk } }
    .next (if s.running then s.leaveReset else s)

/-- The supplies rise: the part is held in pin reset (R189), and MA has no last value to hold (notes/assumptions/13.md).
-/
def execPowerUp (s : State) : Host.Outcome State Fault Refusal :=
  let s := State.pinReset { s with power := { s.power with powerHold := true } }
  .next { s with port := { s.port with ma := Config.freeAddress s.freeCount }, freeCount := s.freeCount + 1 }

/-- REFCLK stops: no timer advances and no pin event is taken while it is stopped (R189). -/
def execRefclkStop (s : State) : Host.Outcome State Fault Refusal :=
  .next { s with power := { s.power with refclk := false } }

/-- REFCLK runs again: the timers continue from their remaining times (R189). -/
def execRefclkRestart (s : State) : Host.Outcome State Fault Refusal :=
  .next { s with power := { s.power with refclk := true } }

end Sys2Proof.Machine
end

