-- ==== Sys2Proof/Machine/Batches.lean ====
section
/-! DEFINITION. The batch table's requests and events (02): SEAL, DISCARD, CLEAR, the seal-on-last seal and the
auto-seal. -/

namespace Sys2Proof.Machine

open Sys2Proof

/-- SEAL seals the OPEN batch with cause REQUEST, or replies NOTHING (R37). -/
def execSeal (tag : Byte) (s : State) : Host.Outcome State Fault Refusal :=
  .next <| s.handRequest tag true fun s =>
    match s.table.openBatch? with
    | some b => ⟨.ok, b.id :: countBytes b.count, s.sealOpen .request⟩
    | none => ⟨.nothing, [], s⟩

/-- What DISCARD names: id 0 is the OPEN batch (R45). -/
def State.discardTarget? (s : State) (id : Byte) : Option Batch :=
  if id = 0#8 then s.table.openBatch? else s.table.find? id

/-- The payload of an OK reply to DISCARD (R45, Table 11-7). -/
def discardPayload (id : Byte) (dropped : Nat) (d : Disposition) : List Byte :=
  id :: countBytes dropped ++ [d.code]

/-- DISCARD removes an OPEN or SEALED batch by id, or aborts the active batch (R45 to R47, R94). -/
def execDiscard (tag id : Byte) (s : State) : Host.Outcome State Fault Refusal :=
  .next <| s.handRequest tag true fun s =>
    match s.discardTarget? id with
    | none => ⟨.nothing, [], s⟩
    | some b =>
      match b.state with
      | .opened => ⟨.ok, discardPayload b.id b.count .removed, (s.dropBatch b.id).removalNotice⟩
      | .sealed => ⟨.ok, discardPayload b.id b.count .removed, (s.dropBatch b.id).removalNotice⟩
      | .aborting => ⟨.state, [], s⟩
      | _ =>
        match s.abortActive b with
        | (true, s') => ⟨.ok, discardPayload b.id b.count .removed, s'.removalNotice.arbitrate⟩
        | (false, s') => ⟨.ok, discardPayload b.id 0 .aborting, s'⟩

/-- The batches CLEAR removes without an entry: OPEN and SEALED (R49). -/
def BatchTable.unadmitted (t : BatchTable) : List Byte :=
  (t.batches.filter fun b => decide (b.state = .opened) || decide (b.state = .sealed)).map Batch.id

/-- What CLEAR does to the active batch (R49, R94): how many batches left at once, the id left ABORTING, the state. -/
def State.clearAbort (s : State) : Nat × Byte × State :=
  match s.activeBatch? with
  | none => (0, 0#8, s)
  | some b =>
    if b.state = .aborting then (0, b.id, s)
    else
      match s.abortActive b with
      | (true, s') => (1, 0#8, s'.arbitrate)
      | (false, s') => (0, b.id, s')

/-- CLEAR removes every OPEN and SEALED batch and aborts the active batch; one notice follows when a batch was removed
(R18, R49, R50). -/
def execClear (tag : Byte) (s : State) : Host.Outcome State Fault Refusal :=
  .next <| s.handRequest tag true fun s =>
    let ids := s.table.unadmitted
    match State.clearAbort (ids.foldl State.dropBatch s) with
    | (atOnce, aborting, s') =>
      let removed := ids.length + atOnce
      ⟨.ok, BitVec.ofNat 8 removed :: countBytes (s.log.length - s'.log.length) ++ [aborting],
        if removed = 0 then s' else s'.removalNotice⟩

/-- A seal-on-last seal, the oldest one handed over, seals its batch if that batch is still OPEN, and never a later batch
with its id (R38; notes/assumptions/25.md). With none handed over there is no such event (notes/assumptions/5.md). -/
def execSealOnLast (s : State) : Host.Outcome State Fault Refusal :=
  match s.waiting.sealsOnLast with
  | [] => .next s
  | w :: rest =>
    let s := { s with waiting := { s.waiting with sealsOnLast := rest } }
    match s.table.openBatch? with
    | some b => .next (if b.id = w.id ∧ s.table.opened = w.opened then s.sealOpen .sealWord else s)
    | none => .next s

/-- A tick taken at the batch table seals the OPEN batch with cause AUTO while auto-seal is on and the tick source is
not IMMEDIATE (R39, R53). With no tick handed over there is no such event (notes/assumptions/5.md). -/
def execAutoSeal (s : State) : Host.Outcome State Fault Refusal :=
  match s.waiting.autoSeals with
  | 0 => .next s
  | n + 1 =>
    let s := { s with waiting := { s.waiting with autoSeals := n } }
    .next (if s.mgmt.settings.autoSeal && decide (s.mgmt.settings.tickSource ≠ .immediate) then s.sealOpen .auto
      else s)

end Sys2Proof.Machine
end

