-- ==== Sys2Proof/Machine/Completion.lean ====
section
/-! DEFINITION. The requests of the completion queue (05). -/

namespace Sys2Proof.Machine

open Sys2Proof

/-- PEEK_COMPLETION returns the oldest entry without removing it, or replies NOTHING (R112). -/
def execPeekCompletion (tag : Byte) (s : State) : Host.Outcome State Fault Refusal :=
  .next <| s.handRequest tag true fun s =>
    match s.queue.posted with
    | e :: _ => ⟨.ok, e.bytes, s⟩
    | [] => ⟨.nothing, [], s⟩

/-- RETIRE removes and returns the oldest entry, and an admission attempt follows; or replies NOTHING (R113). -/
def execRetire (tag : Byte) (s : State) : Host.Outcome State Fault Refusal :=
  .next <| s.handRequest tag true fun s =>
    match s.queue.posted with
    | e :: rest => ⟨.ok, e.bytes, State.awaitAttempt { s with queue := { s.queue with posted := rest } }⟩
    | [] => ⟨.nothing, [], s⟩

end Sys2Proof.Machine
end

