-- ==== Sys2Proof/Machine/Engine.lean ====
section
/-! DEFINITION. The commit engine's request and events, and the memory port's own event (04; 11, R187). -/

namespace Sys2Proof.Machine

open Sys2Proof

/-- RESUME returns a HALTED batch to APPLYING and requests the rewrite of its failing record; otherwise STATE (R92). -/
def execResume (tag : Byte) (s : State) : Host.Outcome State Fault Refusal :=
  .next <| s.handRequest tag true fun s =>
    match s.activeBatch? with
    | some b =>
      if b.state = .halted then
        let t := s.table.update b.id fun b => { b with state := .applying, faultPos := none }
        ⟨.ok, b.id :: countBytes (b.faultPos.getD s.engine.nextPos),
          State.placeRequest { s with table := t } .recordWrite⟩
      else ⟨.state, [], s⟩
    | none => ⟨.state, [], s⟩

/-- The port carries an access of the engine of this kind that has reached the array bus, so MRDY is taken for it
(R99, R103). -/
def State.engineOnBus (s : State) (kind : AccessKind) : Bool :=
  s.clocked && decide (s.port.busy = some .engine) && s.port.mce &&
    (match s.engine.access with
    | .inFlight r => decide (r.kind = kind)
    | _ => false)

/-- MRDY for a record write (R83, R85, R95). -/
def execRecordWriteComplete (s : State) : Host.Outcome State Fault Refusal :=
  .next (if s.engineOnBus .recordWrite then s.engineAccessEnd .writeDone else s)

/-- MRDY for a verify read, with the array's word (R84, R95). -/
def execVerifyReadComplete (md : Word) (s : State) : Host.Outcome State Fault Refusal :=
  .next (if s.engineOnBus .verifyRead then s.engineAccessEnd (.verifyDone md) else s)

/-- Expiry of the memory timeout timer, its remaining time 0, for an access of the engine, on the bus or not yet (R52,
R90, R95, R102). -/
def execEngineMemTimeout (s : State) : Host.Outcome State Fault Refusal :=
  .next
    (if s.clocked && decide (s.port.busy = some .engine) && expiryDue s.port.timer then s.engineAccessEnd .timedOut
    else s)

/-- An admission attempt (R74): one that waits is taken, and the attempt is evaluated against the state as it stands
(notes/assumptions/6.md). -/
def execAdmissionAttempt (s : State) : Host.Outcome State Fault Refusal :=
  .next
    (if s.running then
      State.attempt { s with waiting := { s.waiting with attempts := s.waiting.attempts - 1 } }
    else s)

/-- The grant a window opening offers a batch with these unapplied records: the smaller of them and the opening budget,
when it fits the remaining budget; all of them from the permanent window; none from a closed one (R64, R65, R80). -/
def CommitWindow.continuation (w : CommitWindow) (unapplied : Nat) : Option Nat :=
  match w with
  | .closed => none
  | .permanent => some unapplied
  | .opened budget remaining _ => if min unapplied budget ≤ remaining then some (min unapplied budget) else none

/-- A window opening taken at the engine: a PAUSED batch receives its continuation grant when the part is not frozen,
and an admission attempt comes after it (R74, R80). With no opening handed over there is no such event
(notes/assumptions/5.md). -/
def execContinuationGrant (s : State) : Host.Outcome State Fault Refusal :=
  match s.waiting.openings with
  | 0 => .next s
  | n + 1 =>
    let s := State.awaitAttempt { s with waiting := { s.waiting with openings := n } }
    match s.activeBatch? with
    | some b =>
      if b.state = .paused ∧ s.unit.frozen = false then
        match s.unit.window.continuation (b.count - b.applied) with
        | some g => .next ((s.charge g).giveGrant b.id g)
        | none => .next s
      else .next s
    | none => .next s

/-- The memory port asserts MCE for the access it carries, which has then reached the array bus (R187). -/
def execMceAssert (s : State) : Host.Outcome State Fault Refusal :=
  .next (if s.running && s.port.busy.isSome then { s with port := { s.port with mce := true } } else s)

end Sys2Proof.Machine
end

