-- ==== Sys2Proof/Machine/Events.lean ====
section
/-! DEFINITION. The requests of the event unit (08). -/

namespace Sys2Proof.Machine

open Sys2Proof

/-- READ_EVENTS returns the flags, the enables and the error capture (R158). -/
def execReadEvents (tag : Byte) (s : State) : Host.Outcome State Fault Refusal :=
  .next <| s.handRequest tag true fun s =>
    ⟨.ok, eventField s.events.flags ++ eventField s.events.enables ++ captureBytes s.events.capture, s⟩

/-- ACK_EVENTS clears the selected flags, and the error capture when asked (R159). -/
def execAckEvents (tag : Byte) (mask : BitVec 16) (captureClear : Byte) (s : State) :
    Host.Outcome State Fault Refusal :=
  .next <| s.handRequest tag (decide (captureClear.toNat ≤ 1)) fun s =>
    ⟨.ok, [], { s with events := s.events.acknowledge (eventMask mask) (decide (captureClear = 1#8)) }⟩

/-- SET_EVENT_ENABLE sets all nine enables (R157). -/
def execSetEventEnable (tag : Byte) (mask : BitVec 16) (s : State) : Host.Outcome State Fault Refusal :=
  .next <| s.handRequest tag true fun s =>
    ⟨.ok, [], { s with events := s.events.setEnables (eventMask mask) }⟩

end Sys2Proof.Machine
end

