-- ==== Sys2Proof/Machine/Frames.lean ====
section
/-! DEFINITION. Request frames (09, R167 to R170, R182; 11.3.4): the checks on the bytes in, the catalogue, and the
request a frame carries; beside it the frame a sender writes for a request. -/

namespace Sys2Proof.Machine

open Sys2Proof

/-- A byte received after the frame's check byte, at a place beyond `4 + len` (R167). -/
def MgmtPort.beyondFrame (m : MgmtPort) : Bool :=
  match m.buffer[2]? with
  | some len => decide (4 + len.toNat ≤ m.count)
  | none => false

/-- A byte in: the count rises, saturating at 255, the byte is stored while the buffer has room, and it is judged for
the over-long mark (R165, R167). -/
def MgmtPort.byteIn (m : MgmtPort) (b : Byte) : MgmtPort :=
  { m with
    buffer := if m.buffer.length < Config.bufferBytes then m.buffer ++ [b] else m.buffer
    count := min (m.count + 1) 255
    overLong := m.overLong || (m.beyondFrame && decide (b ≠ 0#8)) }

/-- A bit in: each eighth bit completes a byte, most significant bit first (R165). -/
def MgmtPort.bitIn (m : MgmtPort) (sdi : Bool) : MgmtPort :=
  let bits := m.bits ++ [sdi]
  if bits.length < 8 then { m with bits := bits }
  else MgmtPort.byteIn { m with bits := [] } (byteOfBits bits)

/-- The payload length the catalogue gives for a code; none for a code that is not in it (R182, Table 9-3). -/
def catalogueLength (code : Byte) : Option Nat :=
  match code.toNat with
  | 0x01 => some 0
  | 0x02 => some 0
  | 0x03 => some 0
  | 0x10 => some 0
  | 0x11 => some 22
  | 0x12 => some 1
  | 0x13 => some 8
  | 0x14 => some 1
  | 0x15 => some 13
  | 0x16 => some 2
  | 0x20 => some 0
  | 0x21 => some 1
  | 0x22 => some 0
  | 0x23 => some 0
  | 0x30 => some 3
  | 0x31 => some 0
  | 0x32 => some 0
  | 0x40 => some 0
  | 0x41 => some 0
  | 0x50 => some 0
  | 0x51 => some 3
  | 0x52 => some 2
  | 0x60 => some 3
  | _ => none

/-- The request of a code without payload. -/
def bareRequest (code tag : Byte) : Option Instr :=
  match code.toNat with
  | 0x01 => some (.identify tag)
  | 0x02 => some (.status tag)
  | 0x03 => some (.replay tag)
  | 0x10 => some (.getConfig tag)
  | 0x20 => some (.seal tag)
  | 0x22 => some (.clear tag)
  | 0x23 => some (.resume tag)
  | 0x31 => some (.thaw tag)
  | 0x32 => some (.kick tag)
  | 0x40 => some (.peekCompletion tag)
  | 0x41 => some (.retire tag)
  | 0x50 => some (.readEvents tag)
  | _ => none

/-- The settings record of a SET_CONFIG payload (Table 11-3). -/
def rawSettings? : List Byte → Option RawSettings
  | [t, fo, n, f2, f1, f0, p2, p1, p0, b1, b0, l2, l1, l0, bo, k, s2, s1, s0, m1, m0, r] =>
    some
      { tickSource := t, frameOptions := fo, prescale := n, frameTimeout := of3 f2 f1 f0, period := of3 p2 p1 p0
        budget := of2 b1 b0, windowLength := of3 l2 l1 l0, batchOptions := bo, hostShare := k
        stallTimeout := of3 s2 s1 s0, memTimeout := of2 m1 m0, refdiv := r }
  | _ => none

/-- The request of a code with a payload (Table 11-7). -/
def payloadRequest (code tag : Byte) (payload : List Byte) : Option Instr :=
  match code.toNat with
  | 0x11 => (rawSettings? payload).map (.setConfig tag)
  | 0x12 => match payload with
    | [n] => some (.getWindow tag n)
    | _ => none
  | 0x13 => match payload with
    | [n, mode, b2, b1, b0, l2, l1, l0] => some (.setWindow tag n mode (of3 b2 b1 b0) (of3 l2 l1 l0))
    | _ => none
  | 0x14 => match payload with
    | [n] => some (.getWatch tag n)
    | _ => none
  | 0x15 => match payload with
    | [n, flags, a2, a1, a0, m3, m2, m1, m0, r3, r2, r1, r0] =>
      some (.setWatch tag n flags (of3 a2 a1 a0) (of4 m3 m2 m1 m0) (of4 r3 r2 r1 r0))
    | _ => none
  | 0x16 => match payload with
    | [m1, m0] => some (.watchAck tag (of2 m1 m0))
    | _ => none
  | 0x21 => match payload with
    | [id] => some (.discard tag id)
    | _ => none
  | 0x30 => match payload with
    | [d2, d1, d0] => some (.freeze tag (of3 d2 d1 d0))
    | _ => none
  | 0x51 => match payload with
    | [m1, m0, c] => some (.ackEvents tag (of2 m1 m0) c)
    | _ => none
  | 0x52 => match payload with
    | [m1, m0] => some (.setEventEnable tag (of2 m1 m0))
    | _ => none
  | 0x60 => match payload with
    | [a2, a1, a0] => some (.lookup tag (of3 a2 a1 a0))
    | _ => none
  | _ => none

/-- The request of a code and its payload. -/
def requestOf (code tag : Byte) (payload : List Byte) : Option Instr :=
  if payload.isEmpty then bareRequest code tag else payloadRequest code tag payload

/-- The outcome of the checks of R169, steps 1 to 4. -/
inductive FrameCheck where
  | failed (status : Status)
  | request (i : Instr)
  deriving DecidableEq, Repr

/-- Steps 1 to 4 on the bytes in: well-formed, sum 0 modulo 256, code in the catalogue, len the code's (R169, R170). -/
def MgmtPort.checkFrame (m : MgmtPort) : FrameCheck :=
  match m.buffer with
  | code :: tag :: len :: rest =>
    if 32 < len.toNat ∨ m.count < 4 + len.toNat ∨ m.overLong = true then .failed .badLength
    else if byteSum (m.buffer.take (4 + len.toNat)) ≠ 0#8 then .failed .badCheck
    else
      match catalogueLength code with
      | none => .failed .badCode
      | some n =>
        if len.toNat ≠ n then .failed .badLength
        else
          match requestOf code tag (rest.take n) with
          | some i => .request i
          | none => .failed .badLength
  | _ => .failed .badLength

/-- The echoed tag: the second byte in, 0 when fewer than two bytes arrived (R169). -/
def MgmtPort.echoedTag (m : MgmtPort) : Byte := m.buffer.getD 1 0#8

/-- The 22 payload bytes of a SET_CONFIG (Table 11-3). -/
def rawBytes (r : RawSettings) : List Byte :=
  [r.tickSource, r.frameOptions, r.prescale] ++ bytes3 r.frameTimeout ++ bytes3 r.period ++ bytes2 r.budget ++
    bytes3 r.windowLength ++ [r.batchOptions, r.hostShare] ++ bytes3 r.stallTimeout ++ bytes2 r.memTimeout ++
    [r.refdiv]

/-- The frame a sender writes for a management request; none for a command that is no request (R167, R182, 11.3.4). -/
def requestFrame : Instr → Option (List Byte)
  | .identify tag => some (frameOf 0x01 tag [])
  | .status tag => some (frameOf 0x02 tag [])
  | .replay tag => some (frameOf 0x03 tag [])
  | .getConfig tag => some (frameOf 0x10 tag [])
  | .setConfig tag raw => some (frameOf 0x11 tag (rawBytes raw))
  | .getWindow tag n => some (frameOf 0x12 tag [n])
  | .setWindow tag n mode base limit => some (frameOf 0x13 tag ([n, mode] ++ bytes3 base ++ bytes3 limit))
  | .getWatch tag n => some (frameOf 0x14 tag [n])
  | .setWatch tag n flags addr mask reference =>
    some (frameOf 0x15 tag ([n, flags] ++ bytes3 addr ++ bytes4 mask ++ bytes4 reference))
  | .watchAck tag mask => some (frameOf 0x16 tag (bytes2 mask))
  | .seal tag => some (frameOf 0x20 tag [])
  | .discard tag id => some (frameOf 0x21 tag [id])
  | .clear tag => some (frameOf 0x22 tag [])
  | .resume tag => some (frameOf 0x23 tag [])
  | .freeze tag duration => some (frameOf 0x30 tag (bytes3 duration))
  | .thaw tag => some (frameOf 0x31 tag [])
  | .kick tag => some (frameOf 0x32 tag [])
  | .peekCompletion tag => some (frameOf 0x40 tag [])
  | .retire tag => some (frameOf 0x41 tag [])
  | .readEvents tag => some (frameOf 0x50 tag [])
  | .ackEvents tag mask c => some (frameOf 0x51 tag (bytes2 mask ++ [c]))
  | .setEventEnable tag mask => some (frameOf 0x52 tag (bytes2 mask))
  | .lookup tag addr => some (frameOf 0x60 tag (bytes3 addr))
  | .transactionBegin => none
  | .transactionEnd => none
  | .hostRequest _ _ _ _ _ => none
  | .hceDeassert => none
  | .sealOnLast => none
  | .stallTimeout => none
  | .passThroughReadComplete _ => none
  | .passThroughWriteComplete => none
  | .forwardedReadComplete _ => none
  | .hostMemTimeout => none
  | .recordWriteComplete => none
  | .verifyReadComplete _ => none
  | .engineMemTimeout => none
  | .admissionAttempt => none
  | .countedEdge _ => none
  | .frameTimeoutExpiry => none
  | .periodExpiry => none
  | .windowLengthExpiry => none
  | .freezeExpiry => none
  | .autoSeal => none
  | .continuationGrant => none
  | .rstAssert => none
  | .rstRelease => none
  | .powerUp => none
  | .refclkStop => none
  | .refclkRestart => none
  | .sckRisingEdge _ => none
  | .sckFallingEdge => none
  | .mceAssert => none

end Sys2Proof.Machine
end

