-- ==== Sys2Proof/Machine/Management.lean ====
section
/-! DEFINITION. The requests the management port owns: the settings record, IDENTIFY, STATUS and REPLAY (09). -/

namespace Sys2Proof.Machine

open Sys2Proof

/-- IDENTIFY: fixed values (R180). -/
def identifyPayload : List Byte :=
  bytes2 Config.partCode ++ [Config.revision] ++ countBytes Config.logSlots ++
    [BitVec.ofNat 8 Config.batchSlots, BitVec.ofNat 8 Config.windowEntries, BitVec.ofNat 8 Config.watchEntries,
      BitVec.ofNat 8 Config.completionPlaces]

/-- IDENTIFY returns the part code, revision and capacities (R180). -/
def execIdentify (tag : Byte) (s : State) : Host.Outcome State Fault Refusal :=
  .next <| s.handRequest tag true fun s => ⟨.ok, identifyPayload, s⟩

/-- The window open field of STATUS (R52). -/
def CommitWindow.openField : CommitWindow → Byte
  | .closed => 0#8
  | _ => 1#8

/-- The remaining budget field of STATUS: 0 while closed, 0xFFFF for the permanent window (R52). -/
def CommitWindow.budgetField : CommitWindow → BitVec 16
  | .closed => 0#16
  | .opened _ remaining _ => BitVec.ofNat 16 remaining
  | .permanent => 0xFFFF#16

/-- The 23 bytes of STATUS, all from one moment (R181, Table 11-5). -/
def State.statusPayload (s : State) : List Byte :=
  [s.unit.monitor.code, s.mgmt.settings.tickSource.code, bitAt s.unit.frozen 0, s.unit.window.openField] ++
    bytes2 s.unit.window.budgetField ++ bytes2 s.unit.counter ++ countBytes s.log.length ++
    s.table.slots.flatMap slotBytes ++
    [BitVec.ofNat 8 s.queue.posted.length, BitVec.ofNat 8 s.queue.reserved, s.host.state.code] ++
    eventField s.events.flags

/-- STATUS returns a snapshot of the state of every block (R181). -/
def execStatus (tag : Byte) (s : State) : Host.Outcome State Fault Refusal :=
  .next <| s.handRequest tag true fun s => ⟨.ok, s.statusPayload, s⟩

/-- REPLAY keeps the retained reply and changes no state but the end of its transaction (R174). Its tag is not used. -/
def execReplay (_tag : Byte) (s : State) : Host.Outcome State Fault Refusal :=
  .next (if s.takesRequests then s.endTransaction else s)

/-- GET_CONFIG returns the settings record as last written (R178). -/
def execGetConfig (tag : Byte) (s : State) : Host.Outcome State Fault Refusal :=
  .next <| s.handRequest tag true fun s => ⟨.ok, s.mgmt.settings.bytes, s⟩

/-- The window unit at a SET_CONFIG that keeps the tick source: the prescale count is zeroed when not below the new N,
and P becomes the pending period while the period timer runs (R57, R61, R177). -/
def WindowUnit.newSettings (u : WindowUnit) (c : Settings) : WindowUnit :=
  { u with
    prescaleCount := if c.prescale.toNat ≤ u.prescaleCount then 0 else u.prescaleCount
    pendingPeriod := if u.periodTimer.isSome then some c.period.toNat else u.pendingPeriod }

/-- The settings record is replaced in one step, and the settings that take effect at once act: a tick-source change
when the tick source differs, else the prescale count and the pending period (R54, R57, R61, R177). -/
def State.setConfig (s : State) (c : Settings) : State :=
  let before := s.mgmt.settings.tickSource
  let s := { s with mgmt := { s.mgmt with settings := c } }
  if c.tickSource = before then { s with unit := s.unit.newSettings c } else s.changeTickSource

/-- SET_CONFIG replaces the whole settings record, or answers BAD_ARG when any field is out of range (R177). -/
def execSetConfig (tag : Byte) (raw : RawSettings) (s : State) : Host.Outcome State Fault Refusal :=
  .next <| s.handRequest tag (rawInRange raw) fun s => ⟨.ok, [], s.setConfig (Settings.ofRaw raw)⟩

end Sys2Proof.Machine
end

