-- ==== Sys2Proof/Machine/Tables.lean ====
section
/-! DEFINITION. The requests of the window table (06), the watch list (07) and the log's LOOKUP (01). -/

namespace Sys2Proof.Machine

open Sys2Proof

/-- GET_WINDOW returns one entry and changes no state (R120). -/
def execGetWindow (tag n : Byte) (s : State) : Host.Outcome State Fault Refusal :=
  .next <| s.handRequest tag (decide (n.toNat ≤ 7)) fun s =>
    let e := s.windows.getD n.toNat WindowEntry.reset
    ⟨.ok, [n, e.mode] ++ addrBytes e.base ++ addrBytes e.limit, s⟩

/-- SET_WINDOW replaces one entry, or replies LOG_BUSY while any record is live (R121). -/
def execSetWindow (tag n mode : Byte) (base limit : BitVec 24) (s : State) : Host.Outcome State Fault Refusal :=
  .next <| s.handRequest tag (windowArgsInRange n mode base limit) fun s =>
    if s.log.isEmpty then
      ⟨.ok, [], { s with windows := s.windows.set n.toNat (WindowEntry.ofRequest mode base limit) }⟩
    else ⟨.logBusy, [], s⟩

/-- GET_WATCH returns one entry and changes no state (R149). -/
def execGetWatch (tag n : Byte) (s : State) : Host.Outcome State Fault Refusal :=
  .next <| s.handRequest tag (decide (n.toNat ≤ 15)) fun s =>
    let e := s.watch.getD n.toNat WatchEntry.reset
    ⟨.ok,
      [n, e.flags] ++ addrBytes e.addr ++ bytes4 e.mask ++ bytes4 e.reference ++ bytes4 e.lastObserved ++
        [e.hitCount],
      s⟩

/-- SET_WATCH replaces one entry and clears its hit, hit count and last observed (R148). -/
def execSetWatch (tag n flags : Byte) (addr : BitVec 24) (mask reference : Word) (s : State) :
    Host.Outcome State Fault Refusal :=
  .next <| s.handRequest tag (watchArgsInRange n addr) fun s =>
    ⟨.ok, [], { s with watch := s.watch.set n.toNat (WatchEntry.ofRequest flags addr mask reference) }⟩

/-- WATCH_ACK sets hit to no in each entry its mask selects (R150). -/
def execWatchAck (tag : Byte) (mask : BitVec 16) (s : State) : Host.Outcome State Fault Refusal :=
  .next <| s.handRequest tag true fun s =>
    ⟨.ok, [],
      { s with watch := s.watch.mapIdx fun i e => if mask.getLsbD i then { e with hit := false } else e }⟩

/-- LOOKUP reports the deciding window, the policy and the chain of one word address (R27). -/
def execLookup (tag : Byte) (addr : BitVec 24) (s : State) : Host.Outcome State Fault Refusal :=
  .next <| s.handRequest tag (addressInRange addr) fun s =>
    let a := toAddr addr
    let c := chain s.log a
    let index : Byte :=
      match s.deciding a with
      | some (n, _) => BitVec.ofNat 8 n
      | none => 0xFF#8
    ⟨.ok,
      [index, (s.policyOf a).code, BitVec.ofNat 8 c.length] ++
        c.flatMap fun r => [r.batch, lanesByte r.lanes],
      s⟩

end Sys2Proof.Machine
end

