-- ==== Sys2Proof/Machine/Windows.lean ====
section
/-! DEFINITION. The commit window unit's requests and events (03). -/

namespace Sys2Proof.Machine

open Sys2Proof

/-- A reply field of one byte, 0 or 1. -/
def flagByte (b : Bool) : Byte := bitAt b 0

/-- FREEZE freezes the part or restarts the freeze with the new duration (R67). -/
def execFreeze (tag : Byte) (duration : BitVec 24) (s : State) : Host.Outcome State Fault Refusal :=
  .next <| s.handRequest tag (decide (duration ≠ 0#24)) fun s =>
    ⟨.ok, [flagByte s.unit.frozen],
      { s with unit := { s.unit with frozen := true, freezeTimer := some (.start duration.toNat) } }⟩

/-- THAW ends a freeze early (R70). -/
def execThaw (tag : Byte) (s : State) : Host.Outcome State Fault Refusal :=
  .next <| s.handRequest tag true fun s =>
    if s.unit.frozen then ⟨.ok, [flagByte true], s.endFreeze⟩ else ⟨.ok, [flagByte false], s⟩

/-- KICK makes a tick at once under FRAME or TIMER, and replies NOTHING under IMMEDIATE (R62). -/
def execKick (tag : Byte) (s : State) : Host.Outcome State Fault Refusal :=
  .next <| s.handRequest tag true fun s =>
    if s.mgmt.settings.tickSource = .immediate then ⟨.nothing, [], s⟩
    else
      let s := s.tick
      ⟨.ok, bytes2 s.unit.counter, s⟩

/-- A transition of FRAME is a counted edge when it has the chosen direction and the tick source is FRAME (R55). LOCKED:
the edge is counted (R56). WAITING or LOST: it locks the monitor first (R58). -/
def execCountedEdge (rising : Bool) (s : State) : Host.Outcome State Fault Refusal :=
  if s.clocked && decide (s.mgmt.settings.tickSource = .frame) && (rising != s.mgmt.settings.fallingEdges) then
    match s.unit.monitor with
    | .off => .next s
    | .locked => .next s.countEdge
    | _ =>
      let u :=
        { s.unit with
          prescaleCount := 0
          monitor := .locked
          periodTimer := none
          pendingPeriod := none }
      .next (State.countEdge (State.report { s with unit := u } .frame))
  else .next s

/-- Expiry of the frame timeout timer, its remaining time 0, in WAITING or LOCKED: LOST, the FRAME event, the fallback
latch, and the period timer when the latch is on (R52, R59). -/
def execFrameTimeoutExpiry (s : State) : Host.Outcome State Fault Refusal :=
  if s.clocked && expiryDue s.unit.frameTimer &&
      (decide (s.unit.monitor = .waiting) || decide (s.unit.monitor = .locked)) then
    let c := s.mgmt.settings
    let u :=
      { s.unit with
        monitor := .lost
        frameTimer := none
        latch := c.fallback
        periodTimer := if c.fallback then some (.start c.period.toNat) else s.unit.periodTimer
        pendingPeriod := none }
    .next (State.report { s with unit := u } .frame)
  else .next s

/-- Expiry of the period timer, its remaining time 0: a tick, then a reload, from the pending period when one is held
(R52, R60). -/
def execPeriodExpiry (s : State) : Host.Outcome State Fault Refusal :=
  match s.clocked, s.unit.periodTimer with
  | true, some p =>
    if p.timer.remaining = 0 then
      let s := s.tick
      let reload := s.unit.pendingPeriod.getD p.reload
      .next { s with unit := { s.unit with periodTimer := some (.start reload), pendingPeriod := none } }
    else .next s
  | _, _ => .next s

/-- Expiry of the window-length timer, its remaining time 0, closes the window, and sets OVERRUN if the active batch is
APPLYING (R52, R65). -/
def execWindowLengthExpiry (s : State) : Host.Outcome State Fault Refusal :=
  if s.clocked && expiryDue s.unit.lengthTimer then
    let s := { s with unit := { s.unit with window := .closed, lengthTimer := none } }
    match s.activeBatch? with
    | some b => .next (if b.state = .applying then s.report .overrun else s)
    | none => .next s
  else .next s

/-- Expiry of the freeze timer, its remaining time 0, ends the freeze and sets THAWED (R52, R69). -/
def execFreezeExpiry (s : State) : Host.Outcome State Fault Refusal :=
  if s.clocked && expiryDue s.unit.freezeTimer then .next (s.endFreeze.report .thawed) else .next s

end Sys2Proof.Machine
end

