-- ==== Sys2Proof/Machine/Spi.lean ====
section
/-! DEFINITION. The SPI events of the management port (09, 9.1 to 9.3). -/

namespace Sys2Proof.Machine

open Sys2Proof

/-- SCS falls: in IDLE a transaction begins, and the retained reply is sent from its first bit; otherwise the port takes
no edge and only the level of SCS changes (R165, R166, R175). -/
def execTransactionBegin (s : State) : Host.Outcome State Fault Refusal :=
  let m := { s.mgmt with scs := true }
  if s.clocked && decide (s.mgmt.state = .idle) then
    .next
      { s with
        mgmt :=
          { m with
            state := .receiving, buffer := [], count := 0, overLong := false, bits := [], txPos := 0
            sdo := some (bitOut m.retained 0) } }
  else .next { s with mgmt := m }

/-- SCK rises: in RECEIVING the bit on SDI is shifted in (R165). -/
def execSckRisingEdge (sdi : Bool) (s : State) : Host.Outcome State Fault Refusal :=
  .next (if s.clocked && decide (s.mgmt.state = .receiving) then { s with mgmt := s.mgmt.bitIn sdi } else s)

/-- SCK falls: in RECEIVING the next bit of the retained reply, or of fill, goes out (R165, R166). -/
def execSckFallingEdge (s : State) : Host.Outcome State Fault Refusal :=
  .next
    (if s.clocked && decide (s.mgmt.state = .receiving) then
      let k := s.mgmt.txPos + 1
      { s with mgmt := { s.mgmt with txPos := k, sdo := some (bitOut s.mgmt.retained k) } }
    else s)

/-- A request is handed to its owning block (R172, Table 9-3). A command that is no request is never decoded from a
frame. -/
def State.handOver (s : State) (i : Instr) : Host.Outcome State Fault Refusal :=
  match i with
  | .identify tag => execIdentify tag s
  | .status tag => execStatus tag s
  | .replay tag => execReplay tag s
  | .getConfig tag => execGetConfig tag s
  | .setConfig tag raw => execSetConfig tag raw s
  | .getWindow tag n => execGetWindow tag n s
  | .setWindow tag n mode base limit => execSetWindow tag n mode base limit s
  | .getWatch tag n => execGetWatch tag n s
  | .setWatch tag n flags addr mask reference => execSetWatch tag n flags addr mask reference s
  | .watchAck tag mask => execWatchAck tag mask s
  | .seal tag => execSeal tag s
  | .discard tag id => execDiscard tag id s
  | .clear tag => execClear tag s
  | .resume tag => execResume tag s
  | .freeze tag duration => execFreeze tag duration s
  | .thaw tag => execThaw tag s
  | .kick tag => execKick tag s
  | .peekCompletion tag => execPeekCompletion tag s
  | .retire tag => execRetire tag s
  | .readEvents tag => execReadEvents tag s
  | .ackEvents tag mask c => execAckEvents tag mask c s
  | .setEventEnable tag mask => execSetEventEnable tag mask s
  | .lookup tag addr => execLookup tag addr s
  | _ => .next s

/-- SCS rises: in RECEIVING the transaction ends, and the bytes in are taken as a request when there is at least one;
in SKIPPING the port returns to IDLE with nothing taken (R165, R169, R175). While REFCLK is stopped the transaction is not
taken either, and no later one resumes it (R170, R189; notes/assumptions/16.md). -/
def execTransactionEnd (s : State) : Host.Outcome State Fault Refusal :=
  match s.running, s.mgmt.state with
  | true, .receiving =>
    if s.mgmt.count = 0 ∨ s.clocked = false then .next s.endTransaction
    else
      match s.mgmt.checkFrame with
      | .failed status => .next (s.endTransaction.retain status s.mgmt.echoedTag [])
      | .request i => s.handOver i
  | true, .skipping => .next s.endTransaction
  | _, _ => .next { s with mgmt := { s.mgmt with scs := false } }

end Sys2Proof.Machine
end

