-- ==== Sys2Proof/Machine/Dispatch.lean ====
section
/-! DEFINITION. One arm per command: the effect of a command on everything but the queue. -/

namespace Sys2Proof.Machine

open Sys2Proof

def exec (i : Instr) (s : State) : Host.Outcome State Fault Refusal :=
  match i with
  | .identify tag => Sys2Proof.Machine.execIdentify tag s
  | .status tag => Sys2Proof.Machine.execStatus tag s
  | .replay tag => Sys2Proof.Machine.execReplay tag s
  | .getConfig tag => Sys2Proof.Machine.execGetConfig tag s
  | .setConfig tag raw => Sys2Proof.Machine.execSetConfig tag raw s
  | .getWindow tag n => Sys2Proof.Machine.execGetWindow tag n s
  | .setWindow tag n mode base limit => Sys2Proof.Machine.execSetWindow tag n mode base limit s
  | .getWatch tag n => Sys2Proof.Machine.execGetWatch tag n s
  | .setWatch tag n flags addr mask reference => Sys2Proof.Machine.execSetWatch tag n flags addr mask reference s
  | .watchAck tag mask => Sys2Proof.Machine.execWatchAck tag mask s
  | .seal tag => Sys2Proof.Machine.execSeal tag s
  | .discard tag id => Sys2Proof.Machine.execDiscard tag id s
  | .clear tag => Sys2Proof.Machine.execClear tag s
  | .resume tag => Sys2Proof.Machine.execResume tag s
  | .freeze tag duration => Sys2Proof.Machine.execFreeze tag duration s
  | .thaw tag => Sys2Proof.Machine.execThaw tag s
  | .kick tag => Sys2Proof.Machine.execKick tag s
  | .peekCompletion tag => Sys2Proof.Machine.execPeekCompletion tag s
  | .retire tag => Sys2Proof.Machine.execRetire tag s
  | .readEvents tag => Sys2Proof.Machine.execReadEvents tag s
  | .ackEvents tag mask captureClear => Sys2Proof.Machine.execAckEvents tag mask captureClear s
  | .setEventEnable tag mask => Sys2Proof.Machine.execSetEventEnable tag mask s
  | .lookup tag addr => Sys2Proof.Machine.execLookup tag addr s
  | .transactionBegin => Sys2Proof.Machine.execTransactionBegin s
  | .transactionEnd => Sys2Proof.Machine.execTransactionEnd s
  | .hostRequest addr write lanes data hce => Sys2Proof.Machine.execHostRequest addr write lanes data hce s
  | .hceDeassert => Sys2Proof.Machine.execHceDeassert s
  | .sealOnLast => Sys2Proof.Machine.execSealOnLast s
  | .stallTimeout => Sys2Proof.Machine.execStallTimeout s
  | .passThroughReadComplete md => Sys2Proof.Machine.execPassThroughReadComplete md s
  | .passThroughWriteComplete => Sys2Proof.Machine.execPassThroughWriteComplete s
  | .forwardedReadComplete md => Sys2Proof.Machine.execForwardedReadComplete md s
  | .hostMemTimeout => Sys2Proof.Machine.execHostMemTimeout s
  | .recordWriteComplete => Sys2Proof.Machine.execRecordWriteComplete s
  | .verifyReadComplete md => Sys2Proof.Machine.execVerifyReadComplete md s
  | .engineMemTimeout => Sys2Proof.Machine.execEngineMemTimeout s
  | .admissionAttempt => Sys2Proof.Machine.execAdmissionAttempt s
  | .countedEdge rising => Sys2Proof.Machine.execCountedEdge rising s
  | .frameTimeoutExpiry => Sys2Proof.Machine.execFrameTimeoutExpiry s
  | .periodExpiry => Sys2Proof.Machine.execPeriodExpiry s
  | .windowLengthExpiry => Sys2Proof.Machine.execWindowLengthExpiry s
  | .freezeExpiry => Sys2Proof.Machine.execFreezeExpiry s
  | .autoSeal => Sys2Proof.Machine.execAutoSeal s
  | .continuationGrant => Sys2Proof.Machine.execContinuationGrant s
  | .rstAssert => Sys2Proof.Machine.execRstAssert s
  | .rstRelease => Sys2Proof.Machine.execRstRelease s
  | .powerUp => Sys2Proof.Machine.execPowerUp s
  | .refclkStop => Sys2Proof.Machine.execRefclkStop s
  | .refclkRestart => Sys2Proof.Machine.execRefclkRestart s
  | .sckRisingEdge sdi => Sys2Proof.Machine.execSckRisingEdge sdi s
  | .sckFallingEdge => Sys2Proof.Machine.execSckFallingEdge s
  | .mceAssert => Sys2Proof.Machine.execMceAssert s

end Sys2Proof.Machine
end

