-- ==== Sys2Proof/Machine/Time.lean ====
section
/-! DEFINITION. What the part does on an empty queue (notes/assumptions/2.md and 3.md): its next own event comes to the
front of the queue, or one REFCLK period passes. -/

namespace Sys2Proof.Machine

open Sys2Proof

/-- The part's own event that waits to be taken, if any: a seal-on-last seal, a tick at the batch table, a window
opening at the engine, an admission attempt, or the assertion of MCE (R38, R39, R74, R80, R187). The order is the
model's (notes/assumptions/3.md). -/
def State.waitingEvent? (s : State) : Option Instr :=
  if !s.waiting.sealsOnLast.isEmpty then some .sealOnLast
  else if s.waiting.autoSeals ≠ 0 then some .autoSeal
  else if s.waiting.openings ≠ 0 then some .continuationGrant
  else if s.waiting.attempts ≠ 0 then some .admissionAttempt
  else if s.port.busy.isSome && !s.port.mce then some .mceAssert
  else none

/-- The timer expiry that is due: a running timer whose remaining time is 0 (R52). The order is the model's
(notes/assumptions/3.md). -/
def State.dueExpiry? (s : State) : Option Instr :=
  if expiryDue s.unit.frameTimer then some .frameTimeoutExpiry
  else if expiryDue (s.unit.periodTimer.map PeriodTimer.timer) then some .periodExpiry
  else if expiryDue s.unit.lengthTimer then some .windowLengthExpiry
  else if expiryDue s.unit.freezeTimer then some .freezeExpiry
  else if expiryDue s.host.stallTimer then some .stallTimeout
  else if expiryDue s.port.timer then
    (if s.port.busy = some .host then some .hostMemTimeout else some .engineMemTimeout)
  else none

/-- A running timer counts one REFCLK period: with the REFDIV-th of them a TU has passed (00_scope.md 0.7, R52, R189).
After a change of REFDIV the periods already counted of the TU under way stand, and that TU ends with the next period
when they have reached the new REFDIV: the model's choice (notes/assumptions/23.md). -/
def Timer.count (refdiv : Nat) (t : Timer) : Timer :=
  if refdiv ≤ t.periods + 1 then ⟨t.remaining - 1, 0⟩ else ⟨t.remaining, t.periods + 1⟩

/-- One REFCLK period passes: every running timer counts it with the REFDIV in force (R52, R102, R136, R189; for a change
of REFDIV inside a TU notes/assumptions/23.md). -/
def State.passPeriod (s : State) : State :=
  let count := Timer.count s.mgmt.settings.refdiv.toNat
  { s with
    unit :=
      { s.unit with
        frameTimer := s.unit.frameTimer.map count
        periodTimer := s.unit.periodTimer.map fun p => { p with timer := count p.timer }
        lengthTimer := s.unit.lengthTimer.map count
        freezeTimer := s.unit.freezeTimer.map count }
    host := { s.host with stallTimer := s.host.stallTimer.map count }
    port := { s.port with timer := s.port.timer.map count } }

/-- A step on an empty queue. -/
def State.idle (s : State) : State :=
  match s.waitingEvent? with
  | some c => { s with pending := [c] }
  | none =>
    if s.clocked then
      match s.dueExpiry? with
      | some c => { s with pending := [c] }
      | none => s.passPeriod
    else s

end Sys2Proof.Machine
end

