-- ==== Sys2Proof/WellFormed.lean ====
section
/-! DEFINITION. Which commands are well formed: the operands of a management request pass the port's argument check
(R171, Table 9-2); every other command is well formed whatever its operands. -/

namespace Sys2Proof

open Machine

/-- The argument check of R171 for each command. An ill-formed request is still a command: it is answered BAD_ARG. -/
def Instr.wellFormed (i : Instr) : Bool :=
  match i with
  | .setConfig _ raw => rawInRange raw
  | .getWindow _ n => decide (n.toNat ≤ 7)
  | .setWindow _ n mode base limit => windowArgsInRange n mode base limit
  | .getWatch _ n => decide (n.toNat ≤ 15)
  | .setWatch _ n _ addr _ _ => watchArgsInRange n addr
  | .freeze _ duration => decide (duration ≠ 0#24)
  | .ackEvents _ _ captureClear => decide (captureClear.toNat ≤ 1)
  | .lookup _ addr => addressInRange addr
  | _ => true

end Sys2Proof
end

