-- ==== Sys2Proof/Safety.lean ====
section
/-! DEFINITION. The terms the statements use: when commands are taken, the reply a request leaves, runs of commands, and
what holds in every state that a run reaches. -/

namespace Sys2Proof

/-- Every field of a SET_CONFIG payload is within its range (R176). -/
abbrev RawSettings.InRange (r : RawSettings) : Prop :=
  r.tickSource.toNat ≤ 2 ∧ 1 ≤ r.prescale.toNat ∧ r.prescale.toNat ≤ 64 ∧ 1 ≤ r.frameTimeout.toNat ∧
    16 ≤ r.period.toNat ∧ 1 ≤ r.budget.toNat ∧ r.budget.toNat ≤ 256 ∧ 1 ≤ r.hostShare.toNat ∧
    r.hostShare.toNat ≤ 16 ∧ 1 ≤ r.memTimeout.toNat ∧ 1 ≤ r.refdiv.toNat

end Sys2Proof

namespace Sys2Proof.Machine

open Sys2Proof

/-! ### When commands are taken (R165, R189) -/

/-- RST is released and no power-up hold stands (R189). -/
abbrev State.OutOfReset (s : State) : Prop := s.power.rst = false ∧ s.power.powerHold = false

/-- Out of pin reset with REFCLK running: pin events and expiries are taken (R189). -/
abbrev State.Awake (s : State) : Prop := s.OutOfReset ∧ s.power.refclk = true

/-- A management request can reach its block: the part is awake and a transaction carries it (R165, R175;
notes/assumptions/7.md). -/
abbrev State.PortOpen (s : State) : Prop := s.Awake ∧ (s.mgmt.state = .idle ∨ s.mgmt.state = .receiving)

/-- The port after it has answered a request: IDLE, SCS high, SDO not driven, and the reply retained (R165, R172). -/
def MgmtPort.replied (m : MgmtPort) (status : Status) (tag : Byte) (payload : List Byte) : MgmtPort :=
  { m with state := .idle, scs := false, sdo := none, bits := [], retained := frameOf status.code tag payload }

/-- The state after a request that changes nothing but the port's reply. -/
def State.answered (s : State) (status : Status) (tag : Byte) (payload : List Byte) : State :=
  { s with mgmt := s.mgmt.replied status tag payload }

/-! ### Runs of commands -/

/-- The commands taken one after the other, each from the state the one before left. -/
def execAll : List Instr → State → Host.Outcome State Fault Refusal
  | [], s => .next s
  | c :: rest, s =>
    match exec c s with
    | .next t => execAll rest t
    | .fault r => .fault r
    | .refused r => .refused r

/-- The bits of a byte in the order SPI carries them: most significant first (R165). -/
def bitsOf (b : Byte) : List Bool :=
  [b.getLsbD 7, b.getLsbD 6, b.getLsbD 5, b.getLsbD 4, b.getLsbD 3, b.getLsbD 2, b.getLsbD 1, b.getLsbD 0]

/-- The SCK edges that clock a byte in: for each bit a rising edge with it on SDI, then a falling edge. -/
def clockByte (b : Byte) : List Instr := (bitsOf b).flatMap fun d => [.sckRisingEdge d, .sckFallingEdge]

/-- A whole transaction that carries these bytes in. -/
def transactionOf (bytes : List Byte) : List Instr :=
  [.transactionBegin] ++ bytes.flatMap clockByte ++ [.transactionEnd]

/-- The port when these are the bytes in of the transaction so far (R165). -/
def MgmtPort.received (m : MgmtPort) (bytes : List Byte) : MgmtPort :=
  bytes.foldl MgmtPort.byteIn { m with buffer := [], count := 0, overLong := false, bits := [] }

/-- The request catalogue: each code with the one payload length it takes (R182, Table 9-3). -/
def catalogue : List (Byte × Nat) :=
  [(0x01, 0), (0x02, 0), (0x03, 0), (0x10, 0), (0x11, 22), (0x12, 1), (0x13, 8), (0x14, 1), (0x15, 13), (0x16, 2),
    (0x20, 0), (0x21, 1), (0x22, 0), (0x23, 0), (0x30, 3), (0x31, 0), (0x32, 0), (0x40, 0), (0x41, 0), (0x50, 0),
    (0x51, 3), (0x52, 2), (0x60, 3)]

/-! ### What commands leave -/

/-- A reply field of 0 or 1. -/
def yesNo (b : Bool) : Byte := if b then 1#8 else 0#8

/-- The pins at an assertion of HCE: the levels are the sampled ones (R123). -/
def State.sampled (s : State) (a : Addr) (write : Bool) (lanes : Lanes) (data : Word) (oe : Bool) : State :=
  { s with host := { s.host with hce := true, hwe := write, hoe := oe, ha := a, hbe := lanes, hd := data } }

/-- An assertion of HCE taken as a host request: the pins are sampled and the lines of the last completion have gone back
(R123). -/
def State.requested (s : State) (a : Addr) (write : Bool) (lanes : Lanes) (data : Word) (oe : Bool) : State :=
  { s with
    host :=
      { s.host with
        hce := true, hwe := write, hoe := oe, ha := a, hbe := lanes, hd := data, herr := false, answer := none } }

/-- A write accepted at the request: as requested, the port still IDLE with HWAIT released (R123). -/
def State.accepted (s : State) (a : Addr) (lanes : Lanes) (data : Word) (oe : Bool) : State :=
  let t := s.requested a true lanes data oe
  { t with host := { t.host with state := .idle, hwait := false } }

/-- A batch is in the table in this state. -/
abbrev State.Holds (s : State) (b : Batch) (x : BatchState) : Prop := b ∈ s.table.batches ∧ b.state = x

/-- The port was granted for the engine's request `q` at this moment: it carries it, MCE is not yet asserted, and no REFCLK
period has passed since the grant (R99, R102, R187; notes/assumptions/24.md). -/
abbrev State.GrantedNow (s : State) (q : EngineRequest) : Prop :=
  s.engine.access = .inFlight q ∧ s.port.busy = some .engine ∧ s.port.mce = false ∧
    s.port.timer = some ⟨s.mgmt.settings.memTimeout.toNat, 0⟩

/-- One batch's record in the table replaced, in its slot. -/
def BatchTable.replace (t : BatchTable) (b b' : Batch) : BatchTable :=
  { t with slots := t.slots.map fun o => if o = some b then some b' else o }

/-- One batch out of its slot and out of the sealed queue. -/
def BatchTable.without (t : BatchTable) (b : Batch) : BatchTable :=
  { t with
    slots := t.slots.map fun o => if o = some b then none else o
    sealedQueue := t.sealedQueue.filter fun i => i != b.id }

/-- The records of the other batches. -/
def recordsWithout (log : List Record) (id : Byte) : List Record := log.filter fun r => r.batch != id

/-- The records and batches of the active batch alone: no OPEN or SEALED batch, no sealed queue (R49). -/
def State.activeOnly (s : State) : State :=
  { s with
    table :=
      { s.table with
        slots := s.table.slots.map fun o => o.filter fun b => decide (b.state ≠ .opened ∧ b.state ≠ .sealed)
        sealedQueue := [] }
    log := s.log.filter fun r => decide (s.engine.active = some r.batch) }

/-- The record of an active batch at the next record position (R73). -/
abbrev State.Next (s : State) (b : Batch) (r : Record) : Prop :=
  s.engine.active = some b.id ∧ r ∈ s.log ∧ r.batch = b.id ∧ r.pos = s.engine.nextPos

/-- The record `r` of the active batch `b` counts as applied: its mark, records applied, the next record position and the
watch check (R85 steps 1, 2 and 4). -/
def State.withApplied (s : State) (b : Batch) (r : Record) : State :=
  State.watchCheck
    { s with
      log := s.log.map fun x => if x = r then { x with applied := true } else x
      table := s.table.replace b { b with applied := b.applied + 1 }
      engine := { s.engine with nextPos := s.engine.nextPos + 1 } }
    r.addr r.lanes r.data

/-- The entry a posting for `b` adds (R89, R110). -/
def State.entryOf (s : State) (b : Batch) (outcome : BatchOutcome) (cause : SealCause) : CompletionEntry :=
  ⟨b.id, outcome, b.count, b.applied, b.windowsUsed, b.halts, cause, s.unit.counter, s.queue.counter⟩

/-- `b` leaves with a completion entry: the entry at the tail, DONE, no reservation, slot and records freed, the engine
empty, an admission attempt (R44, R88, R96, R110). -/
def State.departed (s : State) (b : Batch) (outcome : BatchOutcome) (cause : SealCause) : State :=
  { s with
    queue := ⟨s.queue.posted ++ [s.entryOf b outcome cause], 0, s.queue.counter + 1#8⟩
    events := s.events.report .done
    table := s.table.without b
    log := recordsWithout s.log b.id
    engine := ⟨none, 0, 0, false, .idle, false⟩
    waiting := { s.waiting with attempts := s.waiting.attempts + 1 } }

/-- The end of an abort of `b`, less the notice to the host port (R96). -/
def State.abortEnded (s : State) (b : Batch) (cause : SealCause) : State :=
  (if 0 < b.applied ∧ b.applied < b.count then s.report .torn else s).departed b .aborted cause

/-- The window unit and the hand-offs after a tick (R63). -/
def State.ticked (s : State) : State :=
  { s with
    unit :=
      { s.unit with
        counter := s.unit.counter + 1#16
        window := .opened s.mgmt.settings.budget.toNat s.mgmt.settings.budget.toNat true
        lengthTimer :=
          if 0 < s.mgmt.settings.windowLength.toNat then some ⟨s.mgmt.settings.windowLength.toNat, 0⟩ else none }
    waiting := { s.waiting with autoSeals := s.waiting.autoSeals + 1, openings := s.waiting.openings + 1 } }

/-- The engine with its request for the record `r` waiting at the arbiter (R82, R83). -/
def State.requests (s : State) (kind : AccessKind) (r : Record) : State :=
  { s with engine := { s.engine with access := .waiting ⟨kind, r.addr, r.lanes, r.data⟩ } }

/-- The memory port free, its lines at rest, MA and the consecutive-grant count as they were (R99, R187). -/
def MemPort.freed (p : MemPort) : MemPort :=
  { p with busy := none, timer := none, md := none, mbe := 0#4, mce := false, mwe := false, moe := false }

/-- The memory port with an access granted to it: the lines of R187 before MCE, and the memory timeout timer started
(R99, R102). -/
def MemPort.granted (p : MemPort) (who : Requester) (a : Addr) (write : Bool) (lanes : Lanes) (data : Word)
    (count timeout : Nat) : MemPort :=
  { p with
    busy := some who
    count := count
    timer := some ⟨timeout, 0⟩
    ma := a
    md := if write then some data else none
    mbe := if write then lanes else 0xF#4
    mce := false
    mwe := write
    moe := !write }

/-! ### Ranges (R176) -/

/-- Every field of the settings record is within its range (R176). -/
abbrev Settings.InRange (c : Settings) : Prop :=
  1 ≤ c.prescale.toNat ∧ c.prescale.toNat ≤ 64 ∧ 1 ≤ c.frameTimeout.toNat ∧ 16 ≤ c.period.toNat ∧
    1 ≤ c.budget.toNat ∧ c.budget.toNat ≤ 256 ∧ 1 ≤ c.hostShare.toNat ∧ c.hostShare.toNat ≤ 16 ∧
    1 ≤ c.memTimeout.toNat ∧ 1 ≤ c.refdiv.toNat

/-- The settings of the state are in range. -/
abbrev State.SettingsInRange (s : State) : Prop := s.mgmt.settings.InRange

/-! ### Batches, the completion queue and the engine (R30 to R34, R42, R73, R109) -/

/-- The states of an active batch (R34). -/
abbrev BatchState.IsActive (x : BatchState) : Prop := x ≠ .opened ∧ x ≠ .sealed

/-- The batch table: four slots, ids 1 to 255 that no two batches share, at most one OPEN batch, the sealed queue with
exactly the SEALED batches each once (R30, R31, R34, R42), the active batch the one of the engine (R34, R73), and a seal
cause exactly from the seal on (R32). -/
structure State.TableOk (s : State) : Prop where
  fourSlots : s.table.slots.length = Config.batchSlots
  idsDistinct : (s.table.batches.map Batch.id).Nodup
  idsNonzero : ∀ b ∈ s.table.batches, b.id ≠ 0#8
  nextIdNonzero : s.table.nextId ≠ 0#8
  oneOpen : ∀ b ∈ s.table.batches, ∀ b' ∈ s.table.batches, b.state = .opened → b'.state = .opened → b = b'
  queueDistinct : s.table.sealedQueue.Nodup
  queueSealed : ∀ i ∈ s.table.sealedQueue, ∃ b ∈ s.table.batches, b.id = i ∧ b.state = .sealed
  sealedQueued : ∀ b ∈ s.table.batches, b.state = .sealed → b.id ∈ s.table.sealedQueue
  activeHeld : ∀ b ∈ s.table.batches, b.state.IsActive → s.engine.active = some b.id
  activeInTable : ∀ i ∈ s.engine.active, ∃ b ∈ s.table.batches, b.id = i ∧ b.state.IsActive
  causeSet : ∀ b ∈ s.table.batches, b.cause = none ↔ b.state = .opened

/-- The completion queue: entries and reservation together at most 8, and one reservation exactly while an active batch
exists (R109). -/
abbrev State.QueueOk (s : State) : Prop :=
  s.queue.posted.length + s.queue.reserved ≤ Config.completionPlaces ∧
    s.queue.reserved = if s.engine.active.isSome then 1 else 0

/-! ### Staging log (R1, R3, R4, R6, R7, R16) -/

/-- The records of a batch in the order of their appends. -/
def recordsOf (log : List Record) (id : Byte) : List Record := log.filter fun r => decide (r.batch = id)

/-- The staging log beside the batch table: at most 256 records, each of a batch in the table; each batch holds as many
as its record count says, at positions 0, 1, 2, ..., for different addresses; the OPEN batch's records stand last; the
marked records are the first ones and as many as records applied says (R1, R3, R6, R7, R16, R20). A held write selects a
lane (R8). -/
structure State.LogOk (s : State) : Prop where
  fits : s.log.length ≤ Config.logSlots
  owned : ∀ r ∈ s.log, ∃ b ∈ s.table.batches, b.id = r.batch
  lanesGiven : ∀ r ∈ s.log, r.lanes ≠ 0#4 ∧ onLanes r.lanes r.data = r.data
  nonempty : ∀ b ∈ s.table.batches, 1 ≤ b.count
  positions : ∀ b ∈ s.table.batches, (recordsOf s.log b.id).map Record.pos = List.range b.count
  addresses : ∀ b ∈ s.table.batches, ((recordsOf s.log b.id).map Record.addr).Nodup
  openLast : ∀ b ∈ s.table.batches, b.state = .opened →
    s.log.Pairwise fun r r' => r.batch = b.id → r'.batch = b.id
  marks : ∀ b ∈ s.table.batches, ∀ r ∈ s.log, r.batch = b.id → (r.applied = true ↔ r.pos < b.applied)
  appliedWithin : ∀ b ∈ s.table.batches, b.applied ≤ b.count
  waitingUntouched : ∀ b ∈ s.table.batches, ¬ b.state.IsActive →
    b.applied = 0 ∧ b.windowsUsed = 0 ∧ b.halts = 0 ∧ b.faultPos = none
  heldLanes : ∀ w, s.host.state = .stalled w → w.lanes ≠ 0#4

/-- Every live record's address is decided as STAGE, and so is the address of a held write, which no room in the log or
the batch table would take (R12, R14, R133, R134). -/
structure State.StagedOk (s : State) : Prop where
  recordsStaged : ∀ r ∈ s.log, s.policyOf r.addr = .stage
  heldStaged : ∀ w, s.host.state = .stalled w → s.policyOf w.addr = .stage
  heldNoRoom : ∀ w, s.host.state = .stalled w →
    s.log.length = Config.logSlots ∨ (s.table.openBatch? = none ∧ ∀ o ∈ s.table.slots, o.isSome = true)

/-! ### Commit window unit (R52 to R71) -/

/-- An open window's budgets: at least 1 and at most 256, the remaining one within the opening one, and equal to it
while the window is untouched (R63, R64). -/
abbrev CommitWindow.WithinBudget : CommitWindow → Prop
  | .opened budget remaining untouched =>
    1 ≤ budget ∧ budget ≤ 256 ∧ remaining ≤ budget ∧ (untouched = true → remaining = budget)
  | _ => True

/-- The commit window unit: the permanent window exactly under IMMEDIATE; the monitor OFF exactly without FRAME; the
frame timeout timer running exactly in WAITING and LOCKED; a running period timer only under TIMER, always there, or in
LOST; a pending period only beside it; the prescale count below N; a length timer only beside an open window; the freeze
timer running exactly while FROZEN (R53, R54, R56, R59, R60, R61, R63, R67). -/
structure State.WindowsOk (s : State) : Prop where
  permanent : s.unit.window = .permanent ↔ s.mgmt.settings.tickSource = .immediate
  monitorOff : s.unit.monitor = .off ↔ s.mgmt.settings.tickSource ≠ .frame
  frameTimer : s.unit.frameTimer.isSome = true ↔ s.unit.monitor = .waiting ∨ s.unit.monitor = .locked
  timerRuns : s.mgmt.settings.tickSource = .timer → s.unit.periodTimer.isSome = true
  periodTimer : s.unit.periodTimer.isSome = true → s.mgmt.settings.tickSource = .timer ∨ s.unit.monitor = .lost
  pendingPeriod : s.unit.pendingPeriod.isSome = true → s.unit.periodTimer.isSome = true
  prescale : s.unit.prescaleCount < s.mgmt.settings.prescale.toNat
  budget : s.unit.window.WithinBudget
  lengthTimer : s.unit.lengthTimer.isSome = true → s.unit.window ≠ .closed ∧ s.unit.window ≠ .permanent
  freezeTimer : s.unit.freezeTimer.isSome = s.unit.frozen

/-! ### Commit engine and memory port (R73, R82, R85, R87, R90, R94, R99 to R101) -/

/-- The engine's request, waiting or in flight. -/
def EngineAccess.request? : EngineAccess → Option EngineRequest
  | .idle => none
  | .waiting r => some r
  | .inFlight r => some r

/-- The engine's access has been granted (R73). -/
def EngineAccess.granted : EngineAccess → Bool
  | .inFlight _ => true
  | _ => false

/-- What the engine holds for its active batch `b`: the next record position is records applied; abort pending exactly
while ABORTING; a granted access while ABORTING, an access while APPLYING, none while PAUSED or HALTED; a grant of at
least 1 within the unapplied records while APPLYING or HALTED, and 0 while PAUSED; a fault record position exactly while
HALTED; and the access is for the record at the next record position (R32, R73, R82, R85, R87, R90, R94). -/
structure State.ActiveOk (s : State) (b : Batch) : Prop where
  nextPos : s.engine.nextPos = b.applied
  unapplied : b.applied < b.count
  abortPending : s.engine.abortPending = decide (b.state = .aborting)
  aborting : b.state = .aborting → s.engine.access.granted = true
  applying : b.state = .applying → s.engine.access ≠ .idle
  resting : b.state = .paused ∨ b.state = .halted → s.engine.access = .idle
  grant : b.state = .applying ∨ b.state = .halted → 1 ≤ s.engine.grant ∧ s.engine.grant ≤ b.count - b.applied
  usedUp : b.state = .paused → s.engine.grant = 0
  fault : b.faultPos = if b.state = .halted then some b.applied else none
  forRecord : ∀ q ∈ s.engine.access.request?, ∃ r ∈ s.nextRecord?, q.addr = r.addr ∧ q.lanes = r.lanes ∧ q.data = r.data

/-- The engine: everything at rest without an active batch, else as `ActiveOk` says (R73). -/
abbrev State.EngineOk (s : State) : Prop :=
  (s.engine.active = none → s.engine = Engine.reset) ∧ ∀ b ∈ s.activeBatch?, s.ActiveOk b

/-- The host's access has been granted. -/
def HostState.granted : HostState → Bool
  | .memory a => a.inFlight
  | _ => false

/-- The memory port: it carries the engine's access or the host's exactly when that one is granted; the timeout timer
runs exactly while it is busy; the lines of the array bus are at rest while it is free; no request waits at a free port;
the consecutive-grant count is at most 16, and 0 while no host request waits (R99 to R102, R187). -/
structure State.PortOk (s : State) : Prop where
  engineCarried : s.port.busy = some .engine ↔ s.engine.access.granted = true
  hostCarried : s.port.busy = some .host ↔ s.host.state.granted = true
  timer : s.port.timer.isSome = s.port.busy.isSome
  atRest : s.port.busy = none →
    s.port.md = none ∧ s.port.mbe = 0#4 ∧ s.port.mce = false ∧ s.port.mwe = false ∧ s.port.moe = false
  noneWaits : s.port.busy = none → s.engine.access = .idle ∧ s.hostWaits = false
  countBound : s.port.count ≤ 16
  countZero : s.hostWaits = false → s.port.count = 0

/-- The whole of the batches, the log, the windows, the engine and the memory port. -/
structure State.CommitOk (s : State) : Prop where
  settings : s.SettingsInRange
  windows : s.WindowsOk
  table : s.TableOk
  queue : s.QueueOk
  log : s.LogOk
  engine : s.EngineOk
  port : s.PortOk

/-! ### Bytes, placements and compositions (R4, R8 to R12, R24) -/

/-- The byte of a word in lane `n` (R4). -/
def laneByte (w : Word) (n : Nat) : Byte := w.extractLsb' (8 * n) 8

/-- `w` has the byte of `new` on each lane of `l` and of `old` on the others. -/
abbrev Overlaid (w old : Word) (l : Lanes) (new : Word) : Prop :=
  ∀ n < 4, laneByte w n = if l.getLsbD n then laneByte new n else laneByte old n

/-- The record of the OPEN batch for an address: a staged write to it is a merge (R8). -/
abbrev State.Merges (s : State) (a : Addr) (b : Batch) (r : Record) : Prop :=
  s.Holds b .opened ∧ r ∈ s.log ∧ r.batch = b.id ∧ r.addr = a

/-- The `k`-th id after the next id, if it is the first one no batch holds (R31). -/
abbrev BatchTable.NextFree (t : BatchTable) (k : Nat) : Prop :=
  (∀ b ∈ t.batches, b.id ≠ nextBatchId^[k] t.nextId) ∧ ∀ j < k, ∃ b ∈ t.batches, b.id = nextBatchId^[j] t.nextId

/-- A placement that succeeds, with the batch id the log returns and the state it leaves: a merge (R9), an append to the
OPEN batch (R10), or an append that opens a batch in the lowest-numbered free slot (R11, R30, R31). -/
inductive State.Placed (s : State) (a : Addr) (l : Lanes) (data : Word) : Byte → State → Prop where
  | merged (b : Batch) (r : Record) (w : Word) (h : s.Merges a b r) (hw : Overlaid w r.data l data) :
    s.Placed a l data b.id
      { s with log := s.log.map fun x => if x = r then { x with lanes := x.lanes ||| l, data := w } else x }
  | appended (b : Batch) (w : Word) (h : s.Holds b .opened) (hn : ∀ r, ¬ s.Merges a b r) (hf : s.log.length < 256)
      (hw : Overlaid w 0#32 l data) :
    s.Placed a l data b.id
      { s with
        log := s.log ++ [⟨a, l, w, b.id, b.count, false⟩]
        table := s.table.replace b { b with count := b.count + 1 } }
  | opened (slot k : Nat) (w : Word) (h : ∀ b ∈ s.table.batches, b.state ≠ .opened) (hf : s.log.length < 256)
      (hs : s.table.slots[slot]? = some none) (hl : ∀ j < slot, s.table.slots[j]? ≠ some none)
      (hk : s.table.NextFree k) (hw : Overlaid w 0#32 l data) :
    s.Placed a l data (nextBatchId^[k] s.table.nextId)
      { s with
        log := s.log ++ [⟨a, l, w, nextBatchId^[k] s.table.nextId, 0, false⟩]
        table :=
          { s.table with
            slots :=
              s.table.slots.set slot
                (some ⟨nextBatchId^[k] s.table.nextId, .opened, 1, none, 0, 0, 0, none⟩)
            nextId := nextBatchId (nextBatchId^[k] s.table.nextId)
            opened := s.table.opened + 1 } }

/-- A placement for an address fails with NO_SPACE: it is no merge, and the log is full, or no batch is OPEN and all four
slots are in use (R12). -/
abbrev State.NoSpace (s : State) (a : Addr) : Prop :=
  (∀ b r, ¬ s.Merges a b r) ∧
    (s.log.length = 256 ∨ (∀ b ∈ s.table.batches, b.state ≠ .opened) ∧ ∀ o ∈ s.table.slots, o ≠ none)

/-- What the host port makes of a placed write: accepted, and a seal-on-last seal with the batch id, and how many
batches have been opened, handed over when the write is at the limit of its deciding window and that window asks for it
(R131, R132). -/
def State.acceptPlaced (s : State) (window : Option WindowEntry) (a : Addr) (id : Byte) : State :=
  { s with
    host := { s.host with state := .idle, hwait := false }
    waiting :=
      { s.waiting with
        sealsOnLast :=
          s.waiting.sealsOnLast ++
            match window with
            | some e => if e.sealOnLast = true ∧ a = e.limit then [⟨id, s.table.opened⟩] else []
            | none => [] } }

/-- The newest live record of an address that covers lane `n` (R24). -/
def newestOn (log : List Record) (a : Addr) (n : Nat) : Option Record :=
  (log.filter fun r => decide (r.addr = a) && r.lanes.getLsbD n).getLast?

/-- `w` is the forwarding composition for an address over the array word `array` (R24). -/
abbrev Composed (log : List Record) (a : Addr) (array w : Word) : Prop :=
  ∀ n < 4, laneByte w n =
    match newestOn log a n with
    | some r => laneByte r.data n
    | none => laneByte array n

/-! ### The end of an engine access (R85, R99) -/

/-- The engine and the memory port after the end of the engine's access, before anything follows from it (R99). -/
def State.accessEnded (s : State) : State :=
  { s with port := s.port.freed, engine := { s.engine with access := .idle } }

/-- The engine's access of this kind, for the record `r` of its batch `b` in this state, is on the array bus. -/
structure State.OnBus (s : State) (x : BatchState) (kind : AccessKind) (b : Batch) (r : Record) : Prop where
  awake : s.Awake
  ok : s.CommitOk
  holds : s.Holds b x
  next : s.Next b r
  inFlight : ∃ q, s.engine.access = .inFlight q ∧ q.kind = kind
  onBus : s.port.mce = true

/-- `c` is the success of the record `r` of the APPLYING batch `b`: the completion of its write where no verify is asked,
or of its verify read with equal bytes on every lane of the record (R83, R84). -/
def State.Succeeds (s : State) (c : Instr) (b : Batch) (r : Record) : Prop :=
  (c = .recordWriteComplete ∧ s.OnBus .applying .recordWrite b r ∧ s.verifyAsked r.addr = false) ∨
    ∃ md, c = .verifyReadComplete md ∧ s.OnBus .applying .verifyRead b r ∧
      ∀ n < 4, r.lanes.getLsbD n = true → laneByte md n = laneByte r.data n

/-- The record `r` of `b` a success: it counts as applied and the grant falls by one (R85 steps 1 to 4). -/
def State.succeeded (s : State) (b : Batch) (r : Record) : State :=
  let t := s.accessEnded.withApplied b r
  { t with engine := { t.engine with grant := t.engine.grant - 1 } }

/-! ### Lines (R98, R125, R156, R165) -/

/-- HOLD is asserted exactly while an active batch exists (R98). -/
abbrev State.HoldOk (s : State) : Prop := s.engine.hold = s.engine.active.isSome

/-- IRQ is asserted exactly while a set flag has its enable on (R156). -/
abbrev State.IrqOk (s : State) : Prop :=
  s.events.irq = true ↔ ∃ i ∈ List.range 9, s.events.flags.getLsbD i = true ∧ s.events.enables.getLsbD i = true

/-- HWAIT is asserted exactly outside IDLE, the host port and the management port are in RESET exactly while the part is
in pin reset, and the stall timer runs only in STALLED (R125, R136, R138, R175). -/
structure State.PinsOk (s : State) : Prop where
  hwait : s.host.hwait = true ↔ s.host.state ≠ .idle
  hostReset : s.host.state = .reset ↔ ¬ s.OutOfReset
  portReset : s.mgmt.state = .reset ↔ ¬ s.OutOfReset
  sdo : s.mgmt.sdo.isSome = true ↔ s.mgmt.state = .receiving
  stallTimer : s.host.stallTimer.isSome = true → ∃ w, s.host.state = .stalled w
  answer : s.host.answer.isSome = true → s.host.hce = true ∧ s.host.state = .idle
  herr : s.host.herr = true → s.host.hce = true ∧ s.host.state = .idle

/-- In pin reset every block is in its reset state and nothing waits, as `State.reset` has them but for the two ports,
which are in RESET with HWAIT asserted; only the levels the outside holds, MA, RST, the power-up hold, REFCLK, the count
of free values and the queue of commands are the state's own (R28, R51, R71, R104, R116, R138, R152, R163, R175, R179,
R187, R189). -/
abbrev State.ResetOk (s : State) : Prop :=
  ¬ s.OutOfReset →
    s =
      { State.reset with
        host :=
          { State.reset.host with
            state := .reset, hwait := true, hce := s.host.hce, hwe := s.host.hwe, hoe := s.host.hoe, ha := s.host.ha
            hbe := s.host.hbe, hd := s.host.hd }
        port := { State.reset.port with ma := s.port.ma }
        mgmt := { State.reset.mgmt with state := .reset, scs := s.mgmt.scs }
        power := s.power
        freeCount := s.freeCount
        pending := s.pending }

/-- The posted entries carry consecutive posting numbers modulo 256, the newest the posting counter minus one (R111). -/
abbrev State.NumbersOk (s : State) : Prop :=
  ∀ i < s.queue.posted.length,
    (s.queue.posted[i]?.map CompletionEntry.number) =
      some (s.queue.counter - BitVec.ofNat 8 (s.queue.posted.length - i))

/-- The lists that stand for a fixed number of places have that many: eight window entries, sixteen watch entries, four
batch slots; the receive buffer holds at most 36 bytes and fewer than eight bits wait for their byte (R30, R118, R141,
R165). -/
abbrev State.SizesOk (s : State) : Prop :=
  s.windows.length = Config.windowEntries ∧ s.watch.length = Config.watchEntries ∧
    s.table.slots.length = Config.batchSlots ∧ s.mgmt.buffer.length ≤ Config.bufferBytes ∧ s.mgmt.bits.length < 8

end Sys2Proof.Machine
end

