-- ==== Sys2Proof/Certificates/Slice0/Obligations.lean ====
section
/-! DEFINITION. The statements for the provers. Each docstring names the rules of spec/ it formalises; a clause that rests
on a choice of the model names its entry in notes/assumptions. -/

open Sys2Proof Sys2Proof.Machine

/-! ### The queue, the clock and pin reset -/

/-- A step takes the command at the front of the queue and runs it with the queue's rest (notes/assumptions/1.md). -/
def Obligations.StepTakesTheFrontCommand : Prop :=
  ∀ (c : Instr) (rest : List Instr) (s : State),
    s.pending = c :: rest → step s = exec c { s with pending := rest }

/-- Every command answers a next state and leaves the queue of waiting commands as it was: the manual describes no event
that stops the part (notes/assumptions/1.md). -/
def Obligations.EveryCommandAnswersNextAndKeepsTheQueue : Prop :=
  ∀ (c : Instr) (s : State), ∃ t, exec c s = .next t ∧ t.pending = s.pending

/-- On an empty queue the part's own next event comes to the front of the queue: of what waits, a seal-on-last seal, a
tick at the batch table, a window opening, an admission attempt, the assertion of MCE for the access the memory port
carries; with none waiting, of the timers at remaining time 0, the frame timeout, period, window-length, freeze, stall
and memory timeout timers, the last for the port's requester. With none of these, one REFCLK period passes, which every
running timer counts for itself: its REFDIV-th period ends a TU, which lowers its remaining time by one. Without REFCLK or
in pin reset, with nothing waiting, nothing changes. A timer loaded with `n` has after `k` periods counted `k / REFDIV` TU, so its remaining
time reaches 0 at exactly `n` times REFDIV periods from its start (notes/assumptions/2.md, 3.md and 23.md; R52, R60, R189
and 0.7 for the TU). -/
def Obligations.EmptyQueueRunsThePartOn : Prop :=
  let count (d : Nat) (t : Timer) : Timer :=
    if t.periods + 1 < d then ⟨t.remaining, t.periods + 1⟩ else ⟨t.remaining - 1, 0⟩
  (∀ s : State, s.pending = [] →
    let waits : Option Instr :=
      if s.waiting.sealsOnLast ≠ [] then some .sealOnLast
      else if 0 < s.waiting.autoSeals then some .autoSeal
      else if 0 < s.waiting.openings then some .continuationGrant
      else if 0 < s.waiting.attempts then some .admissionAttempt
      else if s.port.busy ≠ none ∧ s.port.mce = false then some .mceAssert
      else none
    let due : Option Instr :=
      if s.unit.frameTimer.map Timer.remaining = some 0 then some .frameTimeoutExpiry
      else if s.unit.periodTimer.map (fun p => p.timer.remaining) = some 0 then some .periodExpiry
      else if s.unit.lengthTimer.map Timer.remaining = some 0 then some .windowLengthExpiry
      else if s.unit.freezeTimer.map Timer.remaining = some 0 then some .freezeExpiry
      else if s.host.stallTimer.map Timer.remaining = some 0 then some .stallTimeout
      else if s.port.timer.map Timer.remaining = some 0 then
        some (if s.port.busy = some .host then .hostMemTimeout else .engineMemTimeout)
      else none
    (∀ c, waits = some c → step s = .next { s with pending := [c] }) ∧
    (waits = none → ¬ s.Awake → step s = .next s) ∧
    (waits = none → s.Awake → ∀ c, due = some c → step s = .next { s with pending := [c] }) ∧
    (waits = none → s.Awake → due = none →
      let tick := count s.mgmt.settings.refdiv.toNat
      step s = .next
        { s with
          unit :=
            { s.unit with
              frameTimer := s.unit.frameTimer.map tick
              periodTimer := s.unit.periodTimer.map fun p => ⟨tick p.timer, p.reload⟩
              lengthTimer := s.unit.lengthTimer.map tick
              freezeTimer := s.unit.freezeTimer.map tick }
          host := { s.host with stallTimer := s.host.stallTimer.map tick }
          port := { s.port with timer := s.port.timer.map tick } })) ∧
  ∀ d n k : Nat, 1 ≤ d → (count d)^[k] ⟨n, 0⟩ = ⟨n - k / d, k % d⟩

/-- REFCLK_STOP and REFCLK_RESTART change nothing but whether REFCLK runs. While it is stopped, or in pin reset, no
management request, host request, MRDY, FRAME transition, SCK or SCS edge or timer expiry is taken: none changes any
state but the levels the outside holds on the host pins and SCS; and a step on an empty queue changes no timer (R175,
R189). A transaction whose SCS rises while REFCLK is stopped is not taken either: the port returns to IDLE with the reply
retained, so that no later transaction resumes its frame (R170). That it does so, that a transaction which REFCLK stops in
the middle goes on while SCS stays low, and what an empty queue does, are the model's (notes/assumptions/16.md and 2.md); the part's own hand-offs, attempts and MCE_ASSERT are not among the events named. -/
def Obligations.StoppedClockAndResetTakeNoEvent : Prop :=
  (∀ s : State,
    exec .refclkStop s = .next { s with power := { s.power with refclk := false } } ∧
    exec .refclkRestart s = .next { s with power := { s.power with refclk := true } }) ∧
  ∀ s : State, ¬ s.Awake →
    (∀ c, requestFrame c ≠ none → exec c s = .next s) ∧
    (∀ a w l d oe g, exec (.hostRequest a w l d ⟨oe, g⟩) s = .next (s.sampled a w l d oe)) ∧
    exec .transactionBegin s = .next { s with mgmt := { s.mgmt with scs := true } } ∧
    (¬ s.OutOfReset ∨ s.mgmt.state = .idle ∨ s.mgmt.state = .reset →
      exec .transactionEnd s = .next { s with mgmt := { s.mgmt with scs := false } }) ∧
    (s.OutOfReset → s.mgmt.state = .receiving ∨ s.mgmt.state = .skipping →
      exec .transactionEnd s =
        .next { s with mgmt := { s.mgmt with state := .idle, scs := false, sdo := none, bits := [] } }) ∧
    (∀ md b, ∀ c ∈ ([.passThroughReadComplete md, .passThroughWriteComplete, .forwardedReadComplete md,
        .recordWriteComplete, .verifyReadComplete md, .countedEdge b, .sckRisingEdge b, .sckFallingEdge, .stallTimeout,
        .hostMemTimeout, .engineMemTimeout, .frameTimeoutExpiry, .periodExpiry, .windowLengthExpiry,
        .freezeExpiry] : List Instr), exec c s = .next s) ∧
    (s.pending = [] → step s = .next s ∨ ∃ c, step s = .next { s with pending := [c] })

/-- The state after a pin reset holds the reset values of R28, R51, R71, R104, R116, R118, R125, R138, R152, R163, R175
and R176, the last as the 22 bytes of GET_CONFIG. -/
def Obligations.ResetStateHoldsTheResetValues : Prop :=
  let s := State.reset
  s.log = [] ∧ s.table = ⟨[none, none, none, none], 1#8, [], 0⟩ ∧
  s.unit = ⟨.off, 0, false, none, none, none, .permanent, none, 0#16, false, none⟩ ∧
  s.engine = ⟨none, 0, 0, false, .idle, false⟩ ∧ s.port.busy = none ∧ s.port.count = 0 ∧ s.port.timer = none ∧
  s.queue = ⟨[], 0, 0#8⟩ ∧
  s.windows = List.replicate 8 ⟨false, 0#22, 0#22, .pass, false, false⟩ ∧
  s.watch = List.replicate 16 ⟨false, 0#22, 0#32, 0#32, .change, false, false, 0#8, 0#32⟩ ∧
  s.events = ⟨0#9, 0#9, none, false⟩ ∧
  s.host.state = .idle ∧ s.host.stallTimer = none ∧ s.host.hwait = false ∧ s.host.herr = false ∧
  s.mgmt.state = .idle ∧ s.mgmt.buffer = [] ∧ s.mgmt.retained = [0x20#8, 0x00#8, 0x00#8, 0xE0#8] ∧
  s.mgmt.settings.bytes =
    [0#8, 0x02#8, 1#8, 0x01#8, 0x86#8, 0xA0#8, 0x00#8, 0x41#8, 0x1B#8, 0#8, 64#8, 0#8, 0#8, 0#8, 0x01#8, 4#8,
      0x00#8, 0x03#8, 0xE8#8, 0#8, 100#8, 25#8]

/-- From every state RST_ASSERT and POWER_UP answer a next state: RST_ASSERT abandons everything and puts every block in
its reset state, the host port and the management port in RESET with HWAIT asserted; POWER_UP does the same, holds the
part in pin reset and leaves MA at an unstated level. Only the levels the outside holds, REFCLK and (at RST_ASSERT) MA
stay (R28, R51, R71, R104, R116, R138, R152, R163, R175, R179, R187, R189; notes/assumptions/13.md and 14.md). -/
def Obligations.PinResetPutsEveryBlockInReset : Prop :=
  ∀ s : State,
    let held : State :=
      { State.reset with
        host :=
          { State.reset.host with
            state := .reset, hwait := true, hce := s.host.hce, hwe := s.host.hwe, hoe := s.host.hoe, ha := s.host.ha
            hbe := s.host.hbe, hd := s.host.hd }
        port := { State.reset.port with ma := s.port.ma }
        mgmt := { State.reset.mgmt with state := .reset, scs := s.mgmt.scs }
        power := ⟨true, s.power.powerHold, s.power.refclk⟩
        freeCount := s.freeCount
        pending := s.pending }
    exec .rstAssert s = .next held ∧
    exec .powerUp s =
      .next
        { held with
          power := ⟨s.power.rst, true, s.power.refclk⟩
          port := { held.port with ma := Config.freeAddress s.freeCount }
          freeCount := s.freeCount + 1 }

/-- RST_RELEASE: the part leaves pin reset, unless a power-up hold stands and REFCLK is stopped; the host port enters
IDLE with HWAIT released, the management port IDLE, or SKIPPING while SCS is low; and with HCE asserted the pins are
taken as a host request, as at an assertion of HCE (R139, R175, R189). A release while REFCLK is stopped, and RST_RELEASE
out of pin reset, are read from the manual by inference (notes/assumptions/15.md). -/
def Obligations.RstReleaseLeavesPinReset : Prop :=
  ∀ s : State,
    let released : State :=
      { s with
        power := { s.power with rst := false, powerHold := false }
        host := { s.host with state := .idle, hwait := false }
        mgmt := { s.mgmt with state := if s.mgmt.scs then .skipping else .idle } }
    (s.OutOfReset → exec .rstRelease s = .next s) ∧
    (s.power.powerHold = true → s.power.refclk = false →
      exec .rstRelease s = .next { s with power := { s.power with rst := false } }) ∧
    (¬ s.OutOfReset → (s.power.powerHold = false ∨ s.power.refclk = true) →
      (s.host.hce = false ∨ s.power.refclk = false → exec .rstRelease s = .next released) ∧
      (s.host.hce = true → s.power.refclk = true →
        exec .rstRelease s =
          exec (.hostRequest s.host.ha s.host.hwe s.host.hbe s.host.hd ⟨s.host.hoe, false⟩)
            { released with host := { released.host with hce := false } }))

/-! ### The management port -/

/-- Table 9-2: a request with a field out of range is answered BAD_ARG with its tag, and nothing in it acts, whatever the
state of the part (R171; the ranges are those of R27, R67, R120, R121, R148, R149, R159 and R176). -/
def Obligations.OutOfRangeRequestsAnswerBadArg : Prop :=
  ∀ (s : State) (tag : Byte), s.PortOpen →
    let refused (c : Instr) : Prop := exec c s = .next (s.answered .badArg tag [])
    (∀ raw : RawSettings, ¬ raw.InRange → refused (.setConfig tag raw)) ∧
    (∀ n : Byte, 7 < n.toNat → refused (.getWindow tag n)) ∧
    (∀ (n mode : Byte) (base limit : BitVec 24),
      (7 < n.toNat ∨ mode.toNat % 4 = 3 ∨ 4194303 < base.toNat ∨ 4194303 < limit.toNat ∨ limit.toNat < base.toNat ∨
        (mode.toNat % 4 ≠ 1 ∧ (mode.getLsbD 2 = true ∨ mode.getLsbD 3 = true))) →
      refused (.setWindow tag n mode base limit)) ∧
    (∀ n : Byte, 15 < n.toNat → refused (.getWatch tag n)) ∧
    (∀ (n flags : Byte) (addr : BitVec 24) (mask reference : Word), (15 < n.toNat ∨ 4194303 < addr.toNat) →
      refused (.setWatch tag n flags addr mask reference)) ∧
    refused (.freeze tag 0#24) ∧
    (∀ (mask : BitVec 16) (c : Byte), 1 < c.toNat → refused (.ackEvents tag mask c)) ∧
    (∀ addr : BitVec 24, 4194303 < addr.toNat → refused (.lookup tag addr))

/-- The frame of a request, followed by any run of fill bytes 0x00, is taken at the end of its transaction as that
request: no bit of a frame is lost or moved (R167, R169, R172, R182; 11.3.4). -/
def Obligations.FrameBytesAreTakenAsTheirRequest : Prop :=
  ∀ (c : Instr) (bytes : List Byte) (fill : Nat) (s : State),
    requestFrame c = some bytes → s.Awake → s.mgmt.state = .receiving →
      let t : State := { s with mgmt := s.mgmt.received (bytes ++ List.replicate fill 0#8) }
      exec .transactionEnd t = exec c t

/-- A whole transaction at the pins, SCS falling, the bits of the frame and of any fill clocked in most significant bit
first, SCS rising, does what the request does, in a state that differs from the first one only in the management port:
in RECEIVING with no bit short of a byte, its retained reply and settings as they were (R165, R167, R169, R172). -/
def Obligations.ClockedFrameActsAsItsRequest : Prop :=
  ∀ (c : Instr) (bytes : List Byte) (fill : Nat) (s : State),
    requestFrame c = some bytes → s.Awake → s.mgmt.state = .idle →
      ∃ m : MgmtPort, m.state = .receiving ∧ m.bits = [] ∧ m.retained = s.mgmt.retained ∧ m.settings = s.mgmt.settings ∧
        execAll (transactionOf (bytes ++ List.replicate fill 0#8)) s = exec c { s with mgmt := m }

/-- The faults of a frame are answered in the order of R169, with the second byte in as the tag, 0 when there is none,
and nothing in the frame acts: BAD_LENGTH when it is truncated, has len above 32 or a byte other than 0x00 after its
check byte; BAD_CHECK when its bytes do not sum to 0 modulo 256; BAD_CODE when its code is not in the catalogue;
BAD_LENGTH when its len is not the code's (R167, R169, R170, R182). -/
def Obligations.FrameFaultsAreAnsweredInOrder : Prop :=
  ∀ (bytes : List Byte) (s : State), s.Awake → s.mgmt.state = .receiving → bytes ≠ [] →
    let t : State := { s with mgmt := s.mgmt.received bytes }
    let answer (status : Status) : Prop :=
      exec .transactionEnd t = .next (t.answered status (bytes.getD 1 0#8) [])
    (bytes.length < 3 → answer .badLength) ∧
    ∀ code tag len rest, bytes = code :: tag :: len :: rest →
      if 32 < len.toNat ∨ bytes.length < 4 + len.toNat ∨ ∃ b ∈ bytes.drop (4 + len.toNat), b ≠ 0#8 then
        answer .badLength
      else if ((bytes.take (4 + len.toNat)).map BitVec.toNat).sum % 256 ≠ 0 then answer .badCheck
      else if code ∉ catalogue.map Prod.fst then answer .badCode
      else if (code, len.toNat) ∉ catalogue then answer .badLength
      else True

/-- SCS falling in IDLE begins a transaction with an empty buffer and the retained reply at its first bit; a transaction
that ends with no whole byte in, or in SKIPPING, takes no request and keeps the retained reply; REPLAY keeps it too and
reaches no block (R165, R166, R173, R174, R175). -/
def Obligations.TransactionsBeginEmptyAndKeepTheReply : Prop :=
  ∀ s : State, s.Awake →
    let ended : State := { s with mgmt := { s.mgmt with state := .idle, scs := false, sdo := none, bits := [] } }
    (s.mgmt.state = .idle →
      exec .transactionBegin s = .next
        { s with
          mgmt :=
            { s.mgmt with
              state := .receiving, scs := true, buffer := [], count := 0, overLong := false, bits := [], txPos := 0
              sdo := some ((s.mgmt.retained.headD 0#8).getLsbD 7) } }) ∧
    (s.mgmt.state = .receiving → s.mgmt.count = 0 → exec .transactionEnd s = .next ended) ∧
    (s.mgmt.state = .skipping → exec .transactionEnd s = .next ended) ∧
    (s.mgmt.state = .idle ∨ s.mgmt.state = .receiving → ∀ tag, exec (.replay tag) s = .next ended)

/-- A rising edge of SCK in RECEIVING shifts the bit on SDI in: short of the eighth it only joins the bits of the byte
under way; the eighth completes the byte, which raises the count, saturating at 255, and is stored while the buffer
holds fewer than 36 bytes. The byte sets the over-long mark when it is not 0x00 and at least 4 + len bytes were in before
it, len being the third byte in; no byte clears the mark (R165, R167). -/
def Obligations.SckRisingEdgeShiftsABitIn : Prop :=
  ∀ (s : State) (b : Byte), s.Awake → s.mgmt.state = .receiving →
    (∀ d, s.mgmt.bits.length < 7 →
      exec (.sckRisingEdge d) s = .next { s with mgmt := { s.mgmt with bits := s.mgmt.bits ++ [d] } }) ∧
    (s.mgmt.bits ++ [b.getLsbD 0] = bitsOf b →
      ∃ t, exec (.sckRisingEdge (b.getLsbD 0)) s = .next t ∧ t.mgmt.bits = [] ∧
        t.mgmt.count = (if s.mgmt.count < 255 then s.mgmt.count + 1 else 255) ∧
        t.mgmt.buffer = (if s.mgmt.buffer.length < 36 then s.mgmt.buffer ++ [b] else s.mgmt.buffer) ∧
        (t.mgmt.overLong = true ↔
          s.mgmt.overLong = true ∨
            b ≠ 0#8 ∧ ∃ len, s.mgmt.buffer[2]? = some len ∧ 4 + len.toNat ≤ s.mgmt.count) ∧
        t = { s with
              mgmt :=
                { s.mgmt with
                  bits := t.mgmt.bits, count := t.mgmt.count, buffer := t.mgmt.buffer
                  overLong := t.mgmt.overLong } })

/-- After SCS has fallen in IDLE and SCK has fallen `n` times, SDO carries bit `n` of the retained reply, most significant
bit of each byte first, and 0 once all its bytes have been sent; the reply itself is unchanged. Each falling edge in
RECEIVING moves the transmit position and SDO alone (R165, R166). That bit 0 stands on SDO from the fall of SCS, and the
next bit after each fall of SCK, is read from the manual by inference (notes/assumptions/11.md). -/
def Obligations.SdoSendsTheRetainedReply : Prop :=
  (∀ s : State, s.Awake → s.mgmt.state = .receiving →
    exec .sckFallingEdge s = .next
      { s with
        mgmt :=
          { s.mgmt with
            txPos := s.mgmt.txPos + 1
            sdo := some (((s.mgmt.retained.flatMap bitsOf)[s.mgmt.txPos + 1]?).getD false) } }) ∧
  ∀ (n : Nat) (s : State), s.Awake → s.mgmt.state = .idle →
    ∃ t, execAll (.transactionBegin :: List.replicate n .sckFallingEdge) s = .next t ∧
      t.mgmt.sdo = some (((s.mgmt.retained.flatMap bitsOf)[n]?).getD false) ∧ t.mgmt.retained = s.mgmt.retained ∧
      t = { s with
            mgmt :=
              { s.mgmt with
                state := .receiving, scs := true, buffer := [], count := 0, overLong := false, bits := [], txPos := n
                sdo := t.mgmt.sdo } }

/-- IDENTIFY is answered OK with the nine fixed bytes, whatever the state, and changes no state (R180). -/
def Obligations.IdentifyAnswersTheFixedValues : Prop :=
  ∀ (s : State) (tag : Byte), s.PortOpen →
    exec (.identify tag) s =
      .next (s.answered .ok tag [0x34#8, 0x00#8, 0x01#8, 0x01#8, 0x00#8, 0x04#8, 0x08#8, 0x10#8, 0x08#8])

/-- STATUS is answered OK with the 23 bytes of Table 11-5, all of one moment, and changes no state (R52, R181). -/
def Obligations.StatusReportsOneMoment : Prop :=
  ∀ (s : State) (tag : Byte), s.PortOpen →
    exec (.status tag) s =
      .next
        (s.answered .ok tag
          ([match s.unit.monitor with
            | .off => 0#8
            | .waiting => 1#8
            | .locked => 2#8
            | .lost => 3#8,
            match s.mgmt.settings.tickSource with
            | .immediate => 0#8
            | .frame => 1#8
            | .timer => 2#8,
            yesNo s.unit.frozen, yesNo (decide (s.unit.window ≠ .closed))] ++
          (match s.unit.window with
            | .closed => [0x00#8, 0x00#8]
            | .opened _ remaining _ => bytes2 (BitVec.ofNat 16 remaining)
            | .permanent => [0xFF#8, 0xFF#8]) ++
          bytes2 s.unit.counter ++ bytes2 (BitVec.ofNat 16 s.log.length) ++
          (s.table.slots.flatMap fun o =>
            match o with
            | none => [0#8, 0#8]
            | some b =>
              [b.id,
                match b.state with
                | .opened => 1#8
                | .sealed => 2#8
                | .applying => 3#8
                | .paused => 4#8
                | .halted => 5#8
                | .aborting => 6#8]) ++
          [BitVec.ofNat 8 s.queue.posted.length, BitVec.ofNat 8 s.queue.reserved,
            match s.host.state with
            | .idle => 0#8
            | .memory _ => 1#8
            | .stalled _ => 2#8
            | .reset => 3#8] ++
          bytes2 (s.events.flags.setWidth 16)))

/-- GET_CONFIG is answered OK with the 22 bytes of the settings record as it stands, the ignored bits of the two option
bytes as 0, whatever the rest of the state, and changes no state; after a SET_CONFIG in range they are the bytes written
(R177, R178, Table 11-3). -/
def Obligations.ConfigReadsBackAsWritten : Prop :=
  (∀ (s : State) (tag : Byte), s.PortOpen →
    let c := s.mgmt.settings
    exec (.getConfig tag) s =
      .next
        (s.answered .ok tag
          ([match c.tickSource with
            | .immediate => 0#8
            | .frame => 1#8
            | .timer => 2#8,
            yesNo c.fallingEdges + 2#8 * yesNo c.fallback, c.prescale] ++
          bytes3 c.frameTimeout ++ bytes3 c.period ++ bytes2 c.budget ++ bytes3 c.windowLength ++
          [yesNo c.autoSeal + 2#8 * yesNo c.split, c.hostShare] ++ bytes3 c.stallTimeout ++ bytes2 c.memTimeout ++
          [c.refdiv]))) ∧
  ∀ (s : State) (tag tag' : Byte) (raw : RawSettings), s.PortOpen → raw.InRange →
    ∃ t, exec (.setConfig tag raw) s = .next t ∧ t.mgmt = { s.mgmt.replied .ok tag [] with settings := t.mgmt.settings } ∧
      exec (.getConfig tag') t =
        .next
          (t.answered .ok tag'
            (rawBytes
              { raw with frameOptions := raw.frameOptions &&& 0x03#8, batchOptions := raw.batchOptions &&& 0x03#8 }))

/-- SET_CONFIG in range: with the tick source unchanged it zeroes a prescale count not below the new N and makes P the
pending period while the period timer runs; a tick-source change closes the window, stops the old sources and starts the
new ones with the same record's fields. Nothing else changes; no admission attempt follows (R52, R53, R54, R57, R61, R66,
R177, R184, R185). That a running timer keeps, through a change of REFDIV, the REFCLK periods counted of its TU under way
is the model's choice (notes/assumptions/23.md). -/
def Obligations.SetConfigActsOnTheWindowUnit : Prop :=
  ∀ (s : State) (tag : Byte) (raw : RawSettings), s.PortOpen → raw.InRange →
    let m : MgmtPort := { s.mgmt.replied .ok tag [] with settings := Settings.ofRaw raw }
    let t (u : WindowUnit) : State := { s with mgmt := m, unit := u }
    let stopped : WindowUnit :=
      { s.unit with
        prescaleCount := 0, frameTimer := none, periodTimer := none, pendingPeriod := none, lengthTimer := none }
    if raw.tickSource = s.mgmt.settings.tickSource.code then
      exec (.setConfig tag raw) s = .next
        (t
          { s.unit with
            prescaleCount := if s.unit.prescaleCount < raw.prescale.toNat then s.unit.prescaleCount else 0
            pendingPeriod := if s.unit.periodTimer = none then s.unit.pendingPeriod else some raw.period.toNat })
    else if raw.tickSource = 0#8 then
      exec (.setConfig tag raw) s = .next
        { t { stopped with monitor := .off, window := .permanent } with
          waiting := { s.waiting with openings := s.waiting.openings + 1 } }
    else if raw.tickSource = 1#8 then
      exec (.setConfig tag raw) s = .next
        (t { stopped with monitor := .waiting, window := .closed, frameTimer := some ⟨raw.frameTimeout.toNat, 0⟩ })
    else
      exec (.setConfig tag raw) s = .next
        (t
          { stopped with
            monitor := .off, window := .closed, periodTimer := some ⟨⟨raw.period.toNat, 0⟩, raw.period.toNat⟩ })

/-! ### The tables -/

/-- GET_WINDOW and GET_WATCH return an entry as it stands, enabled or not, refuse an entry number out of range with
BAD_ARG, and change no state (R120, R149; 11.3.3). -/
def Obligations.EntriesAreReadAsTheyStand : Prop :=
  ∀ (s : State) (tag n : Byte), s.PortOpen →
    (7 < n.toNat → exec (.getWindow tag n) s = .next (s.answered .badArg tag [])) ∧
    (∀ e, n.toNat ≤ 7 → s.windows[n.toNat]? = some e →
      exec (.getWindow tag n) s =
        .next
          (s.answered .ok tag
            ([n,
              (match e.policy with
                | .pass => 0#8
                | .stage => 1#8
                | .block => 2#8) + 4#8 * yesNo e.verify + 8#8 * yesNo e.sealOnLast + 128#8 * yesNo e.enabled] ++
              bytes3 (e.base.setWidth 24) ++ bytes3 (e.limit.setWidth 24)))) ∧
    (15 < n.toNat → exec (.getWatch tag n) s = .next (s.answered .badArg tag [])) ∧
    (∀ e, n.toNat ≤ 15 → s.watch[n.toNat]? = some e →
      exec (.getWatch tag n) s =
        .next
          (s.answered .ok tag
            ([n,
              (match e.sense with
                | .change => 0#8
                | .equal => 1#8) + 2#8 * yesNo e.rearm + 64#8 * yesNo e.hit + 128#8 * yesNo e.enabled] ++
              bytes3 (e.addr.setWidth 24) ++ bytes4 e.mask ++ bytes4 e.reference ++ bytes4 e.lastObserved ++
              [e.hitCount])))

/-- SET_WINDOW in range replaces every field of its one entry while no record is live, and is answered LOG_BUSY and
changes nothing while one is; SET_WATCH in range replaces every field of its one entry, clearing hit, hit count and last
observed, whatever the rest of the state (R121, R148). -/
def Obligations.SetRequestsReplaceOneEntry : Prop :=
  (∀ (s : State) (tag n mode : Byte) (base limit : BitVec 24), s.PortOpen →
    n.toNat ≤ 7 → mode.toNat % 4 ≠ 3 → base.toNat ≤ 4194303 → limit.toNat ≤ 4194303 → base.toNat ≤ limit.toNat →
    (mode.toNat % 4 = 1 ∨ (mode.getLsbD 2 = false ∧ mode.getLsbD 3 = false)) →
      (s.log = [] →
        exec (.setWindow tag n mode base limit) s =
          .next
            { s.answered .ok tag [] with
              windows :=
                s.windows.set n.toNat
                  { enabled := mode.getLsbD 7
                    base := BitVec.ofNat 22 base.toNat
                    limit := BitVec.ofNat 22 limit.toNat
                    policy := if mode.toNat % 4 = 0 then .pass else if mode.toNat % 4 = 1 then .stage else .block
                    verify := mode.getLsbD 2
                    sealOnLast := mode.getLsbD 3 } }) ∧
      (s.log ≠ [] → exec (.setWindow tag n mode base limit) s = .next (s.answered .logBusy tag []))) ∧
  ∀ (s : State) (tag n flags : Byte) (addr : BitVec 24) (mask reference : Word), s.PortOpen →
    n.toNat ≤ 15 → addr.toNat ≤ 4194303 →
      exec (.setWatch tag n flags addr mask reference) s =
        .next
          { s.answered .ok tag [] with
            watch :=
              s.watch.set n.toNat
                { enabled := flags.getLsbD 7
                  addr := BitVec.ofNat 22 addr.toNat
                  mask := mask
                  reference := reference
                  sense := if flags.getLsbD 0 then .equal else .change
                  rearm := flags.getLsbD 1
                  hit := false
                  hitCount := 0#8
                  lastObserved := 0#32 } }

/-- WATCH_ACK sets hit to no in each entry its mask selects, enabled or not, and leaves every other field, every other
entry and the WATCH flag as they are (R150). -/
def Obligations.WatchAckClearsTheSelectedHits : Prop :=
  ∀ (s : State) (tag : Byte) (mask : BitVec 16), s.PortOpen →
    ∃ w : List WatchEntry,
      exec (.watchAck tag mask) s = .next { s.answered .ok tag [] with watch := w } ∧
      ∀ i, w[i]? = s.watch[i]?.map fun e => if mask.getLsbD i then { e with hit := false } else e

/-- LOOKUP answers the lowest-numbered enabled window that contains the address, or 0xFF, its policy, or PASS, and the
chain of the address newest record first as batch id and lanes; it changes no state (R19, R27, R119). -/
def Obligations.LookupReportsTheWindowAndTheChain : Prop :=
  ∀ (s : State) (tag : Byte) (addr : BitVec 24), s.PortOpen → addr.toNat ≤ 4194303 →
    let inside (e : WindowEntry) : Prop :=
      e.enabled = true ∧ e.base.toNat ≤ addr.toNat ∧ addr.toNat ≤ e.limit.toNat
    let records := (s.log.filter fun r => r.addr.toNat = addr.toNat).reverse
    let elements := records.flatMap fun r => [r.batch, r.lanes.setWidth 8]
    ((∀ e ∈ s.windows, ¬ inside e) →
      exec (.lookup tag addr) s =
        .next (s.answered .ok tag ([0xFF#8, 0#8, BitVec.ofNat 8 records.length] ++ elements))) ∧
    ∀ i e, s.windows[i]? = some e → inside e → (∀ j < i, ∀ e', s.windows[j]? = some e' → ¬ inside e') →
      exec (.lookup tag addr) s =
        .next
          (s.answered .ok tag
            ([BitVec.ofNat 8 i,
              match e.policy with
              | .pass => 0#8
              | .stage => 1#8
              | .block => 2#8,
              BitVec.ofNat 8 records.length] ++ elements))

/-! ### Batches -/

/-- SEAL seals the OPEN batch with cause REQUEST and answers its id and record count: the batch becomes SEALED in its
slot and joins the tail of the sealed queue, an admission attempt follows, and nothing else changes. Without an OPEN
batch it answers NOTHING and changes no state (R36, R37). -/
def Obligations.SealClosesTheOpenBatch : Prop :=
  ∀ (s : State) (tag : Byte), s.PortOpen → s.TableOk →
    (∀ b, s.Holds b .opened →
      exec (.seal tag) s =
        .next
          { s.answered .ok tag (b.id :: bytes2 (BitVec.ofNat 16 b.count)) with
            table :=
              { s.table.replace b { b with state := .sealed, cause := some .request } with
                sealedQueue := s.table.sealedQueue ++ [b.id] }
            waiting := { s.waiting with attempts := s.waiting.attempts + 1 } }) ∧
    ((∀ b ∈ s.table.batches, b.state ≠ .opened) → exec (.seal tag) s = .next (s.answered .nothing tag []))

/-- A tick taken at the batch table seals the OPEN batch with cause AUTO while auto-seal is on and the tick source is not
IMMEDIATE; a seal-on-last seal seals the batch whose id it carries with cause SEAL_WORD if that batch is still OPEN, and
never another: a batch opened later, with another id or with the same id again, it leaves alone. Each takes one hand-off; otherwise nothing changes. Without a hand-off nothing changes at all
(R36, R38, R39, R41, R53; notes/assumptions/5.md and 25.md). That a tick already handed over makes no auto-seal after a change to
IMMEDIATE is read from R53 by inference (notes/assumptions/12.md). -/
def Obligations.HandedSealsCloseTheirBatch : Prop :=
  ∀ s : State, s.TableOk →
    let closed (t : State) (b : Batch) (cause : SealCause) : State :=
      { t with
        table :=
          { s.table.replace b { b with state := .sealed, cause := some cause } with
            sealedQueue := s.table.sealedQueue ++ [b.id] }
        waiting := { t.waiting with attempts := t.waiting.attempts + 1 } }
    (s.waiting.autoSeals = 0 → exec .autoSeal s = .next s) ∧
    (∀ n, s.waiting.autoSeals = n + 1 →
      let t : State := { s with waiting := { s.waiting with autoSeals := n } }
      (∀ b, s.Holds b .opened → s.mgmt.settings.autoSeal = true → s.mgmt.settings.tickSource ≠ .immediate →
        exec .autoSeal s = .next (closed t b .auto)) ∧
      ((∀ b ∈ s.table.batches, b.state ≠ .opened) ∨ s.mgmt.settings.autoSeal = false ∨
          s.mgmt.settings.tickSource = .immediate →
        exec .autoSeal s = .next t)) ∧
    (s.waiting.sealsOnLast = [] → exec .sealOnLast s = .next s) ∧
    ∀ i n rest, s.waiting.sealsOnLast = ⟨i, n⟩ :: rest →
      let t : State := { s with waiting := { s.waiting with sealsOnLast := rest } }
      (∀ b, s.Holds b .opened → b.id = i → s.table.opened = n → exec .sealOnLast s = .next (closed t b .sealWord)) ∧
      ((∀ b, s.Holds b .opened → b.id ≠ i) ∨ s.table.opened ≠ n → exec .sealOnLast s = .next t)

/-- DISCARD of an OPEN batch, by id or as id 0, or of a SEALED batch removes it from the table and the sealed queue with
its records, answers its id, record count and REMOVED, posts no entry and makes no attempt; the removal notice follows.
An id held by no batch, 0 without an OPEN batch, is answered NOTHING and the ABORTING batch's id STATE, with no state
changed (R42, R44 to R47). -/
def Obligations.DiscardRemovesAnUnadmittedBatch : Prop :=
  ∀ (s : State) (tag id : Byte), s.PortOpen → s.TableOk →
    (∀ b, (s.Holds b .opened ∧ (id = 0#8 ∨ id = b.id)) ∨ (s.Holds b .sealed ∧ id = b.id) →
      exec (.discard tag id) s =
        .next
          (let t : State :=
            State.removalNotice
              { s with
                table := s.table.without b
                log := recordsWithout s.log b.id
                mgmt := { s.mgmt with state := .idle, scs := false, sdo := none, bits := [] } }
          t.answered .ok tag ([b.id] ++ bytes2 (BitVec.ofNat 16 b.count) ++ [1#8]))) ∧
    ((id = 0#8 ∧ ∀ b ∈ s.table.batches, b.state ≠ .opened) ∨ (id ≠ 0#8 ∧ ∀ b ∈ s.table.batches, b.id ≠ id) →
      exec (.discard tag id) s = .next (s.answered .nothing tag [])) ∧
    ∀ b, s.Holds b .aborting → id = b.id → exec (.discard tag id) s = .next (s.answered .state tag [])

/-- DISCARD of the APPLYING, PAUSED or HALTED batch aborts it: with no access in flight it is removed at once, answered
REMOVED with all its records, a waiting verify read first counting its record as applied; with an access in flight it
goes to ABORTING, answered ABORTING with 0 records dropped, and nothing else changes (R45, R94, R96). -/
def Obligations.DiscardAbortsTheActiveBatch : Prop :=
  ∀ (s : State) (tag : Byte) (b : Batch) (cause : SealCause), s.PortOpen → s.CommitOk → b ∈ s.table.batches →
    b.state.IsActive → b.state ≠ .aborting → b.cause = some cause →
    let removed (t : State) : State :=
      t.removalNotice.answered .ok tag ([b.id] ++ bytes2 (BitVec.ofNat 16 b.count) ++ [1#8])
    (s.engine.access = .idle → exec (.discard tag b.id) s = .next (removed (s.abortEnded b cause))) ∧
    (∀ q, s.engine.access = .waiting q → q.kind = .recordWrite →
      exec (.discard tag b.id) s = .next (removed (s.abortEnded b cause))) ∧
    (∀ q r, s.engine.access = .waiting q → q.kind = .verifyRead → s.Next b r →
      exec (.discard tag b.id) s =
        .next (removed ((s.withApplied b r).abortEnded { b with applied := b.applied + 1 } cause))) ∧
    ∀ q, s.engine.access = .inFlight q →
      exec (.discard tag b.id) s =
        .next
          { s.answered .ok tag ([b.id] ++ bytes2 0#16 ++ [2#8]) with
            table := s.table.replace b { b with state := .aborting, faultPos := none }
            engine := { s.engine with abortPending := true } }

/-- CLEAR removes every OPEN and SEALED batch without an entry and aborts the active batch, at once unless its access is
in flight, and answers the batches removed, the fall of the live record count and the id left ABORTING. One removal
notice follows when at least one batch was removed; the next-id counter stays (R18, R49, R50, R94, R96). -/
def Obligations.ClearEmptiesTheTable : Prop :=
  ∀ (s : State) (tag : Byte), s.PortOpen → s.CommitOk →
    let u := s.activeOnly
    let left := (s.table.batches.filter fun b => decide (b.state = .opened ∨ b.state = .sealed)).length
    let reply (t : State) (gone records : Nat) (aborting : Byte) : State :=
      (if gone = 0 then t else t.removalNotice).answered .ok tag
        ([BitVec.ofNat 8 gone] ++ bytes2 (BitVec.ofNat 16 records) ++ [aborting])
    (s.engine.active = none → exec (.clear tag) s = .next (reply u left s.log.length 0#8)) ∧
    ∀ b cause, b ∈ s.table.batches → b.state.IsActive → b.cause = some cause →
      (b.state = .aborting → exec (.clear tag) s = .next (reply u left (s.log.length - b.count) b.id)) ∧
      (b.state ≠ .aborting →
        (s.engine.access = .idle →
          exec (.clear tag) s = .next (reply (u.abortEnded b cause) (left + 1) s.log.length 0#8)) ∧
        (∀ q, s.engine.access = .waiting q → q.kind = .recordWrite →
          exec (.clear tag) s = .next (reply (u.abortEnded b cause) (left + 1) s.log.length 0#8)) ∧
        (∀ q r, s.engine.access = .waiting q → q.kind = .verifyRead → s.Next b r →
          exec (.clear tag) s =
            .next
              (reply ((u.withApplied b r).abortEnded { b with applied := b.applied + 1 } cause) (left + 1)
                s.log.length 0#8)) ∧
        ∀ q, s.engine.access = .inFlight q →
          exec (.clear tag) s =
            .next
              (reply
                { u with
                  table := u.table.replace b { b with state := .aborting, faultPos := none }
                  engine := { u.engine with abortPending := true } }
                left (s.log.length - b.count) b.id))

/-- RESUME of a HALTED batch makes it APPLYING, answers its id and fault record position, clears that position and places
the request for the rewrite of the failing record, at which the arbiter decides; in every other case it is answered STATE
and changes nothing (R82, R92, R100). -/
def Obligations.ResumeRewritesTheFailingRecord : Prop :=
  ∀ (s : State) (tag : Byte), s.PortOpen → s.CommitOk →
    (∀ b r, s.Holds b .halted → s.Next b r →
      exec (.resume tag) s =
        .next
          ((({ s with table := s.table.replace b { b with state := .applying, faultPos := none } } : State).requests
            .recordWrite r).arbitrate.answered .ok tag ([b.id] ++ bytes2 (BitVec.ofNat 16 r.pos)))) ∧
    ((∀ b ∈ s.table.batches, b.state ≠ .halted) → exec (.resume tag) s = .next (s.answered .state tag []))

/-! ### Commit windows -/

/-- FREEZE above 0 freezes the part, or keeps it frozen, and starts the freeze timer with the duration; THAW of a frozen
part ends the freeze without THAWED and answers 1, else answers 0 and changes nothing; the expiry of the freeze timer,
its remaining time 0, ends the freeze with THAWED. At each end an attempt follows, and under IMMEDIATE the permanent
window is handed over. Before its remaining time is 0 the timer has no expiry (R52, R53, R67, R69, R70;
notes/assumptions/6.md and 19.md). -/
def Obligations.FreezesStartAndEnd : Prop :=
  ∀ s : State,
    let thawed : State :=
      { s with
        unit := { s.unit with frozen := false, freezeTimer := none }
        waiting :=
          { s.waiting with
            attempts := s.waiting.attempts + 1
            openings := s.waiting.openings + if s.mgmt.settings.tickSource = .immediate then 1 else 0 } }
    (∀ (tag : Byte) (d : BitVec 24), s.PortOpen → 1 ≤ d.toNat →
      exec (.freeze tag d) s =
        .next
          { s.answered .ok tag [yesNo s.unit.frozen] with
            unit := { s.unit with frozen := true, freezeTimer := some ⟨d.toNat, 0⟩ } }) ∧
    (∀ tag : Byte, s.PortOpen →
      (s.unit.frozen = true → exec (.thaw tag) s = .next (thawed.answered .ok tag [1#8])) ∧
      (s.unit.frozen = false → exec (.thaw tag) s = .next (s.answered .ok tag [0#8]))) ∧
    ((∀ k, s.unit.freezeTimer ≠ some ⟨0, k⟩) → exec .freezeExpiry s = .next s) ∧
    (∀ k, s.Awake → s.unit.freezeTimer = some ⟨0, k⟩ → exec .freezeExpiry s = .next (thawed.report .thawed))

/-- KICK under FRAME or TIMER makes a tick: the window counter rises, the window opens with the budget in force and
untouched, its length timer starts when L is above 0, the tick and the opening are handed on; it changes nothing else and
answers the new counter. Under IMMEDIATE it is answered NOTHING. The expiry of the period timer, its remaining time 0,
makes the same tick and reloads the timer, from the pending period when one is held; before, the timer has no expiry
(R52, R53, R60 to R63, R66; notes/assumptions/19.md). -/
def Obligations.KickAndPeriodExpiryMakeTicks : Prop :=
  ∀ s : State,
    (∀ tag : Byte, s.PortOpen →
      (s.mgmt.settings.tickSource ≠ .immediate →
        exec (.kick tag) s = .next (s.ticked.answered .ok tag (bytes2 (s.unit.counter + 1#16)))) ∧
      (s.mgmt.settings.tickSource = .immediate → exec (.kick tag) s = .next (s.answered .nothing tag []))) ∧
    ((∀ k reload, s.unit.periodTimer ≠ some ⟨⟨0, k⟩, reload⟩) → exec .periodExpiry s = .next s) ∧
    ∀ k reload, s.Awake → s.unit.periodTimer = some ⟨⟨0, k⟩, reload⟩ →
      (s.unit.pendingPeriod = none →
        exec .periodExpiry s =
          .next { s.ticked with unit := { s.ticked.unit with periodTimer := some ⟨⟨reload, 0⟩, reload⟩ } }) ∧
      ∀ n, s.unit.pendingPeriod = some n →
        exec .periodExpiry s =
          .next { s.ticked with unit := { s.ticked.unit with periodTimer := some ⟨⟨n, 0⟩, n⟩, pendingPeriod := none } }

/-- A transition of FRAME in the chosen direction under FRAME is a counted edge: LOCKED, it restarts the frame timeout
timer and raises the prescale count, which at N becomes 0 with a tick; WAITING or LOST, it first zeroes the count, locks
the monitor, sets FRAME and stops the period timer with its pending period. Any other transition changes nothing
(R55, R56, R58, R63). -/
def Obligations.CountedEdgesMakePrescaledTicks : Prop :=
  ∀ (s : State) (rising : Bool), s.Awake →
    let counted (t : State) (n : Nat) : State :=
      let u := { t.unit with frameTimer := some ⟨s.mgmt.settings.frameTimeout.toNat, 0⟩ }
      if n = s.mgmt.settings.prescale.toNat then State.ticked { t with unit := { u with prescaleCount := 0 } }
      else { t with unit := { u with prescaleCount := n } }
    (s.mgmt.settings.tickSource ≠ .frame ∨ rising = s.mgmt.settings.fallingEdges →
      exec (.countedEdge rising) s = .next s) ∧
    (s.mgmt.settings.tickSource = .frame → rising ≠ s.mgmt.settings.fallingEdges →
      (s.unit.monitor = .locked → exec (.countedEdge rising) s = .next (counted s (s.unit.prescaleCount + 1))) ∧
      (s.unit.monitor = .waiting ∨ s.unit.monitor = .lost →
        exec (.countedEdge rising) s =
          .next
            (counted
              (State.report
                { s with
                  unit :=
                    { s.unit with
                      prescaleCount := 0, monitor := .locked, periodTimer := none, pendingPeriod := none } }
                .frame)
              1)))

/-- The expiry of the frame timeout timer, its remaining time 0, in WAITING or LOCKED moves the monitor to LOST, sets
FRAME, copies the fallback bit into the latch and, when it is on, starts the period timer with P and no pending period;
the timer stays stopped and the prescale count, the window and its timer stay. Before its remaining time is 0 it has no
expiry (R52, R59; notes/assumptions/19.md). -/
def Obligations.FrameTimeoutExpiryLosesTheLine : Prop :=
  ∀ s : State, s.Awake → s.WindowsOk →
    ((∀ k, s.unit.frameTimer ≠ some ⟨0, k⟩) → exec .frameTimeoutExpiry s = .next s) ∧
    ∀ k, s.unit.frameTimer = some ⟨0, k⟩ →
      let u := { s.unit with monitor := .lost, frameTimer := none, latch := s.mgmt.settings.fallback }
      (s.mgmt.settings.fallback = true →
        exec .frameTimeoutExpiry s =
          .next
            (State.report
              { s with
                unit :=
                  { u with
                    periodTimer := some ⟨⟨s.mgmt.settings.period.toNat, 0⟩, s.mgmt.settings.period.toNat⟩
                    pendingPeriod := none } }
              .frame)) ∧
      (s.mgmt.settings.fallback = false →
        exec .frameTimeoutExpiry s = .next (State.report { s with unit := u } .frame))

/-- The expiry of the window-length timer, its remaining time 0, closes the window and stops the timer, and sets OVERRUN
exactly when the active batch is APPLYING; nothing else changes. Before its remaining time is 0 it has no expiry (R52,
R65; notes/assumptions/19.md). -/
def Obligations.WindowLengthExpiryClosesTheWindow : Prop :=
  ∀ s : State, s.Awake → s.TableOk →
    ((∀ k, s.unit.lengthTimer ≠ some ⟨0, k⟩) → exec .windowLengthExpiry s = .next s) ∧
    ∀ k, s.unit.lengthTimer = some ⟨0, k⟩ →
      let t : State := { s with unit := { s.unit with window := .closed, lengthTimer := none } }
      ((∃ b, s.Holds b .applying) → exec .windowLengthExpiry s = .next (t.report .overrun)) ∧
      ((∀ b ∈ s.table.batches, b.state ≠ .applying) → exec .windowLengthExpiry s = .next t)

/-! ### Completion queue and events -/

/-- PEEK_COMPLETION answers the 12 bytes of the oldest entry and changes nothing; RETIRE answers the same, removes that
entry from the head, and an admission attempt follows; on an empty list both answer NOTHING and change nothing, whatever
the reservation (R106, R112, R113, Table 11-4a). -/
def Obligations.OldestEntryIsPeekedAndRetired : Prop :=
  ∀ (s : State) (tag : Byte), s.PortOpen →
    (s.queue.posted = [] →
      exec (.peekCompletion tag) s = .next (s.answered .nothing tag []) ∧
      exec (.retire tag) s = .next (s.answered .nothing tag [])) ∧
    ∀ e rest, s.queue.posted = e :: rest →
      let payload : List Byte :=
        [e.id,
          match e.outcome with
          | .applied => 1#8
          | .appliedTorn => 2#8
          | .aborted => 3#8
          | .refused => 4#8] ++
        bytes2 (BitVec.ofNat 16 e.count) ++ bytes2 (BitVec.ofNat 16 e.applied) ++ [e.windowsUsed, e.halts] ++
        bytes2 e.stamp ++
        [match e.cause with
          | .request => 1#8
          | .sealWord => 2#8
          | .auto => 3#8,
          e.number]
      exec (.peekCompletion tag) s = .next (s.answered .ok tag payload) ∧
      exec (.retire tag) s =
        .next
          { s.answered .ok tag payload with
            queue := { s.queue with posted := rest }
            waiting := { s.waiting with attempts := s.waiting.attempts + 1 } }

/-- READ_EVENTS answers the flags, the enables and the error capture, all 0 while it is not valid, and changes nothing;
ACK_EVENTS in range clears the selected flags and, with capture-clear 1, the capture; SET_EVENT_ENABLE sets all nine
enables. After either IRQ has the level of R156, and nothing else changes (R156 to R159, Table 11-6). -/
def Obligations.EventRequestsReadClearAndEnable : Prop :=
  ∀ (s : State) (tag : Byte), s.PortOpen →
    let level (flags enables : BitVec 9) : Bool := decide (flags &&& enables ≠ 0#9)
    let head := bytes2 (s.events.flags.setWidth 16) ++ bytes2 (s.events.enables.setWidth 16)
    (s.events.capture = none →
      exec (.readEvents tag) s = .next (s.answered .ok tag (head ++ List.replicate 7 0#8))) ∧
    (∀ c, s.events.capture = some c →
      exec (.readEvents tag) s =
        .next
          (s.answered .ok tag
            (head ++
              [match c.cause with
                | .blocked => 0x81#8
                | .stallTimeout => 0x82#8
                | .hostMemTimeout => 0x83#8
                | .engineMemTimeout => 0x84#8
                | .verify => 0x85#8
                | .oversize => 0x86#8,
                c.later] ++
              bytes3 (c.addr.setWidth 24) ++ [c.lanes.setWidth 8, c.batch]))) ∧
    (∀ (mask : BitVec 16) (clear : Byte), clear.toNat ≤ 1 →
      let flags := s.events.flags &&& ~~~(mask.setWidth 9)
      exec (.ackEvents tag mask clear) s =
        .next
          { s.answered .ok tag [] with
            events :=
              { flags := flags, enables := s.events.enables
                capture := if clear = 1#8 then none else s.events.capture
                irq := level flags s.events.enables } }) ∧
    ∀ mask : BitVec 16,
      exec (.setEventEnable tag mask) s =
        .next
          { s.answered .ok tag [] with
            events :=
              { s.events with enables := mask.setWidth 9, irq := level s.events.flags (mask.setWidth 9) } }

/-- A report sets its flag's bit of 11.3.3 and no other; an error fills a capture that is not valid with later count 0,
and on a valid one only raises the later count, up to 255. Neither changes an enable; a report gives IRQ the level of
R156, an error does not change it (R154, R156, R161, R162). -/
def Obligations.ReportsSetOneFlagAndTheFirstErrorIsKept : Prop :=
  (∀ (e : EventUnit), ∀ p ∈ ([(.done, 0), (.torn, 1), (.fault, 2), (.watch, 3), (.full, 4), (.refused, 5), (.frame, 6),
      (.overrun, 7), (.thawed, 8)] : List (EventFlag × Nat)),
    let flags : BitVec 9 := BitVec.ofNat 9 (e.flags.toNat ||| 2 ^ p.2)
    e.report p.1 = { e with flags := flags, irq := decide (flags &&& e.enables ≠ 0#9) }) ∧
  ∀ (e : EventUnit) (cause : ErrorCause) (addr : Addr) (lanes : Lanes) (batch : Byte),
    (e.capture = none → e.offer cause addr lanes batch = { e with capture := some ⟨cause, addr, lanes, batch, 0#8⟩ }) ∧
    ∀ c, e.capture = some c →
      e.offer cause addr lanes batch =
        { e with capture := some { c with later := BitVec.ofNat 8 (min (c.later.toNat + 1) 255) } }

/-- A watch check touches the enabled entries of its address whose mask selects a bit in the lanes written: each takes
the written bits into last observed and fires when CHANGE finds a compared bit different from the reference, or MATCH
none; firing sets hit, raises the hit count up to 255, sets WATCH and, with rearm, copies the compared bits to the
reference. Nothing else changes (R144 to R147). -/
def Obligations.WatchChecksObserveFireAndRearm : Prop :=
  ∀ (s : State) (a : Addr) (lanes : Lanes) (data : Word),
    let bit (e : WatchEntry) (i : Nat) : Bool := e.mask.getLsbD i && lanes.getLsbD (i / 8)
    let takesPart (e : WatchEntry) : Prop := e.enabled = true ∧ e.addr = a ∧ ∃ i < 32, bit e i = true
    let fires (e : WatchEntry) : Prop :=
      takesPart e ∧
        match e.sense with
        | .change => ∃ i < 32, bit e i = true ∧ data.getLsbD i ≠ e.reference.getLsbD i
        | .equal => ∀ i < 32, bit e i = true → data.getLsbD i = e.reference.getLsbD i
    let copied (e : WatchEntry) (w new : Word) : Prop :=
      ∀ i < 32, new.getLsbD i = if bit e i then data.getLsbD i else w.getLsbD i
    ∃ watch : List WatchEntry,
      ((∃ e ∈ s.watch, fires e) → s.watchCheck a lanes data = { s.report .watch with watch := watch }) ∧
      ((∀ e ∈ s.watch, ¬ fires e) → s.watchCheck a lanes data = { s with watch := watch }) ∧
      watch.length = s.watch.length ∧
      ∀ (i : Nat) (e : WatchEntry), s.watch[i]? = some e →
        (¬ takesPart e → watch[i]? = some e) ∧
        (takesPart e → ∃ seen, copied e e.lastObserved seen ∧
          (¬ fires e → watch[i]? = some { e with lastObserved := seen }) ∧
          (fires e → ∃ ref, (if e.rearm then copied e e.reference ref else ref = e.reference) ∧
            watch[i]? =
              some
                { e with
                  lastObserved := seen, hit := true, reference := ref
                  hitCount := BitVec.ofNat 8 (min (e.hitCount.toNat + 1) 255) }))

/-! ### Host port -/

/-- An assertion of HCE in IDLE whose access needs the array enters MEMORY with HWAIT asserted: a PASS write with its
lanes and data, a full-word read of a PASS or BLOCK address, or of a STAGE address with a lane no live record covers. At
a free port it is granted at once, else it waits; the deciding window is kept with it. Where it reaches the arbiter
together with the engine's request granted at this moment, the engine is granted with the host waiting, and the count is
1. Outside IDLE only the levels change, and so they do where HCE was asserted already, which is no assertion of HCE (R23,
R99 to R101, R123, R126 to R128, R137, R187; notes/assumptions/9.md, and 24.md for requests that arrive together). -/
def Obligations.HostAccessesGoToTheArray : Prop :=
  ∀ (s : State) (a : Addr) (lanes : Lanes) (data : Word) (oe : Bool), s.Awake →
    (∀ write together, s.host.state ≠ .idle ∨ s.host.hce = true →
      exec (.hostRequest a write lanes data ⟨oe, together⟩) s = .next (s.sampled a write lanes data oe)) ∧
    (s.host.state = .idle → s.host.hce = false → s.PortOk →
      let entered (write : Bool) (kind : HostKind) (l : Lanes) (d : Word) : Prop :=
        let t := s.requested a write lanes data oe
        let held (granted : Bool) : HostPort :=
          { t.host with
            state := .memory ⟨kind, a, l, d, (s.deciding a).map Prod.fst, granted, false⟩, hwait := true }
        (∀ together, (together = true → ∀ q, ¬ s.GrantedNow q) →
          exec (.hostRequest a write lanes data ⟨oe, together⟩) s =
            .next
              (if s.port.busy = none then
                { t with
                  host := held true
                  port := s.port.granted .host a write l d 0 s.mgmt.settings.memTimeout.toNat }
              else { t with host := held false })) ∧
        ∀ q, s.SettingsInRange → s.GrantedNow q →
          exec (.hostRequest a write lanes data ⟨oe, true⟩) s =
            .next
              { t with
                host := held false
                port :=
                  s.port.granted .engine q.addr (decide (q.kind = .recordWrite)) q.lanes q.data 1
                    s.mgmt.settings.memTimeout.toNat }
      (s.policyOf a = .pass → lanes ≠ 0#4 → entered true .passWrite lanes data) ∧
      (s.policyOf a ≠ .stage → entered false .passRead 0xF#4 0#32) ∧
      (s.policyOf a = .stage → (∃ n < 4, newestOn s.log a n = none) → entered false .forwardedRead 0xF#4 0#32))

/-- A host write decided as BLOCK with a lane selected is refused in the step that takes it: HERR, REFUSED and the cause
BLOCKED with its address, its lanes and batch id 0, with no array access, and the port stays IDLE. A write with no lane
selected is accepted at once under every policy, with no event and no error (R124, R130). -/
def Obligations.BlockedWritesAreRefusedAndEmptyWritesAccepted : Prop :=
  ∀ (s : State) (a : Addr) (lanes : Lanes) (data : Word) (oe together : Bool), s.Awake → s.host.state = .idle →
    s.host.hce = false →
    let t := s.requested a true lanes data oe
    (s.policyOf a = .block → lanes ≠ 0#4 →
      exec (.hostRequest a true lanes data ⟨oe, together⟩) s =
        .next
          ((({ t with host := { t.host with hwait := false, herr := true } } : State).report .refused).offer
            .blocked a lanes 0#8)) ∧
    (lanes = 0#4 → exec (.hostRequest a true lanes data ⟨oe, together⟩) s = .next t)

/-- A host write decided as STAGE that the log has room for is placed and accepted in the step that takes it, merged into
the OPEN batch's record for its address, appended to the OPEN batch, or appended to a batch it opens; at the limit of a
seal-on-last window it hands over a seal with the batch's id. Nothing else changes (R4, R6, R8 to R11, R30, R31, R35,
R131, R132). -/
def Obligations.StagedWritesArePlacedAndAccepted : Prop :=
  ∀ (s t : State) (a : Addr) (lanes : Lanes) (data : Word) (oe together : Bool) (id : Byte), s.Awake → s.TableOk →
    s.LogOk → s.host.state = .idle → s.host.hce = false → lanes ≠ 0#4 → s.policyOf a = .stage → s.Placed a lanes data id t →
      exec (.hostRequest a true lanes data ⟨oe, together⟩) s =
        .next ((t.requested a true lanes data oe).acceptPlaced ((s.deciding a).map Prod.snd) a id)

/-- A host write decided as STAGE that is no merge, with 256 live records, or with no OPEN batch and all four slots in
use, changes nothing in the log or the table: the host port holds it with its deciding window in STALLED with HWAIT
asserted, sets FULL, and starts the stall timer when the setting is above 0 (R12, R133, R136). -/
def Obligations.StagedWritesWithoutRoomStall : Prop :=
  ∀ (s : State) (a : Addr) (lanes : Lanes) (data : Word) (oe together : Bool), s.Awake → s.TableOk → s.LogOk →
    s.host.state = .idle → s.host.hce = false → lanes ≠ 0#4 → s.policyOf a = .stage → s.NoSpace a →
      let t := s.requested a true lanes data oe
      exec (.hostRequest a true lanes data ⟨oe, together⟩) s =
        .next
          (State.report
            { t with
              host :=
                { t.host with
                  state := .stalled ⟨a, lanes, data, (s.deciding a).map Prod.fst⟩
                  hwait := true
                  stallTimer :=
                    if 0 < s.mgmt.settings.stallTimeout.toNat then some ⟨s.mgmt.settings.stallTimeout.toNat, 0⟩
                    else none } }
            .full)

/-- A removal notice retries a stalled write as a new placement: placed, it is accepted with the stall timer stopped and
the seal-on-last check made against the window kept with it; without room nothing changes; and nothing changes when the
host port holds no write (R13, R134). -/
def Obligations.RemovalNoticesRetryTheHeldWrite : Prop :=
  ∀ s : State, s.TableOk → s.LogOk →
    ((∀ w, s.host.state ≠ .stalled w) → s.removalNotice = s) ∧
    ∀ w, s.host.state = .stalled w →
      (∀ id t, s.Placed w.addr w.lanes w.data id t →
        let u := t.acceptPlaced (w.window.bind fun n => s.windows[n]?) w.addr id
        s.removalNotice = { u with host := { u.host with stallTimer := none } }) ∧
      (s.NoSpace w.addr → s.removalNotice = s)

/-- A host read of a STAGE address whose four lanes live records cover is answered in the step that takes it, each lane
from the newest record that covers it, and changes nothing but the host port's own lines. HD carries the word exactly
while HOE is asserted: a change of HOE alone, HCE still asserted, takes it away and brings the same word back, and the
deassertion of HCE takes it away (R23, R24, R123, R137, R186; notes/assumptions/9.md for the change of HOE). -/
def Obligations.CoveredReadsAreAnsweredFromTheLog : Prop :=
  ∀ (s : State) (a : Addr) (lanes : Lanes) (data : Word) (oe together : Bool), s.Awake → s.host.state = .idle →
    s.host.hce = false → s.policyOf a = .stage → (∀ n < 4, newestOn s.log a n ≠ none) →
      let answered (oe : Bool) (w : Word) : State :=
        let t := s.requested a false lanes data oe
        { t with host := { t.host with hwait := false, answer := some w } }
      ∃ w, Composed s.log a 0#32 w ∧
        exec (.hostRequest a false lanes data ⟨oe, together⟩) s = .next (answered oe w) ∧
        (answered oe w).host.hdOut? = (if oe then some w else none) ∧
        (∀ oe', exec (.hostRequest a false lanes data ⟨oe', together⟩) (answered oe w) = .next (answered oe' w)) ∧
        ∃ u, exec .hceDeassert (answered oe w) = .next u ∧ u.host.hdOut? = none

/-- MRDY for the host access on the array bus completes it, frees the port and lets the arbiter decide: a pass-through
read answers the word on MD, a pass-through write makes its watch check and is accepted, a forwarded read answers the
composition over MD of the records as they stand now. The word is there to be driven only when HCE has stayed asserted
since the request was taken (R24, R25, R99, R100, R123, R127, R128, R137, R186; notes/assumptions/8.md for an HCE
asserted again before the completion). -/
def Obligations.HostAccessesCompleteAtMrdy : Prop :=
  ∀ (s : State) (acc : HostAccess) (md : Word), s.Awake → s.host.state = .memory acc → acc.inFlight = true →
    s.port.busy = some .host → s.port.mce = true →
      let done (t : State) (answer : Option Word) : State :=
        { t with
          host := { s.host with state := .idle, hwait := false, answer := answer }
          port := s.port.freed }
      let answered (w : Word) : State :=
        (done s (if s.host.hce = true ∧ acc.dropped = false then some w else none)).arbitrate
      (acc.kind = .passRead → exec (.passThroughReadComplete md) s = .next (answered md)) ∧
      (acc.kind = .passWrite →
        exec .passThroughWriteComplete s =
          .next (done (s.watchCheck acc.addr acc.lanes acc.data) s.host.answer).arbitrate) ∧
      (acc.kind = .forwardedRead →
        ∃ w, Composed s.log acc.addr md w ∧ exec (.forwardedReadComplete md) s = .next (answered w))

/-- The memory timeout of a host access, waiting for MCE or on the bus, and the stall timeout of a held write, the timer's
remaining time 0, refuse it: the port IDLE, HERR while HCE is asserted, REFUSED, and the error with its address, its lanes
and batch id 0; no watch check, no placement. Before its remaining time is 0 the stall timer has no expiry. HCE deasserted
takes HERR and the answer back, marks the access in MEMORY as one whose word is not driven, and changes nothing else (R52,
R123, R129, R135, R186; notes/assumptions/8.md and 19.md). -/
def Obligations.HostTimeoutsRefuseTheAccess : Prop :=
  ∀ s : State,
    let refused (t : State) (cause : ErrorCause) (a : Addr) (l : Lanes) : State :=
      (({ t with
            host := { t.host with state := .idle, hwait := false, herr := s.host.hce } } : State).report
        .refused).offer cause a l 0#8
    (∀ acc k, s.Awake → s.host.state = .memory acc → s.port.busy = some .host → s.port.timer = some ⟨0, k⟩ →
      exec .hostMemTimeout s =
        .next (refused { s with port := s.port.freed } .hostMemTimeout acc.addr acc.lanes).arbitrate) ∧
    (∀ w k, s.Awake → s.host.state = .stalled w → s.host.stallTimer = some ⟨0, k⟩ →
      exec .stallTimeout s =
        .next (refused { s with host := { s.host with stallTimer := none } } .stallTimeout w.addr w.lanes)) ∧
    ((∀ k, s.host.stallTimer ≠ some ⟨0, k⟩) → exec .stallTimeout s = .next s) ∧
    ((∀ acc, s.host.state ≠ .memory acc) →
      exec .hceDeassert s = .next { s with host := { s.host with hce := false, herr := false, answer := none } }) ∧
    ∀ acc, s.host.state = .memory acc →
      exec .hceDeassert s =
        .next
          { s with
            host :=
              { s.host with
                state := .memory { acc with dropped := true }, hce := false, herr := false, answer := none } }

/-! ### Memory port -/

/-- The arbiter decides at a free port by the table of R100: a lone request is granted, the engine goes before the host
while the consecutive-grant count is below K, the host from K on. The count is 0 after a host grant and after an engine
grant with no host waiting, and one more after one with the host waiting. A host request that arrives together with the
engine's at a free port leaves what one decision with both waiting leaves. The granted access is driven as R187 gives, and
MCE is asserted for it later, which changes nothing else; at a free port MCE_ASSERT changes nothing, the model's choice
(R99 to R102, R187; notes/assumptions/19.md, and 24.md for requests that arrive together). -/
def Obligations.ArbiterGrantsByTheTable : Prop :=
  ∀ s : State,
    let K := s.mgmt.settings.hostShare.toNat
    let timeout := s.mgmt.settings.memTimeout.toNat
    let host (a : HostAccess) : State :=
      { s with
        host := { s.host with state := .memory { a with inFlight := true } }
        port := s.port.granted .host a.addr (decide (a.kind = .passWrite)) a.lanes a.data 0 timeout }
    let engine (q : EngineRequest) (count : Nat) : State :=
      { s with
        engine := { s.engine with access := .inFlight q }
        port := s.port.granted .engine q.addr (decide (q.kind = .recordWrite)) q.lanes q.data count timeout }
    (s.port.busy ≠ none → s.arbitrate = s) ∧
    (s.port.busy = none →
      ((∀ q, s.engine.access ≠ .waiting q) → s.hostWaits = false → s.arbitrate = s) ∧
      (∀ a, (∀ q, s.engine.access ≠ .waiting q) → s.host.state = .memory a → a.inFlight = false →
        s.arbitrate = host a) ∧
      (∀ q, s.engine.access = .waiting q → s.hostWaits = false → s.arbitrate = engine q 0) ∧
      (∀ q a, s.engine.access = .waiting q → s.host.state = .memory a → a.inFlight = false →
        s.arbitrate = if s.port.count < K then engine q (s.port.count + 1) else host a) ∧
      (∀ q a lanes data oe, s.Awake → s.engine.access = .waiting q → s.host.state = .idle → s.host.hce = false →
        s.port.count = 0 → s.policyOf a ≠ .stage →
          let t := s.requested a false lanes data oe
          let both : State :=
            { t with
              host :=
                { t.host with
                  state := .memory ⟨.passRead, a, 0xF#4, 0#32, (s.deciding a).map Prod.fst, false, false⟩
                  hwait := true } }
          exec (.hostRequest a false lanes data ⟨oe, true⟩) s.arbitrate = .next both.arbitrate)) ∧
    (s.OutOfReset → s.port.busy ≠ none → exec .mceAssert s = .next { s with port := { s.port with mce := true } }) ∧
    (s.port.busy = none → exec .mceAssert s = .next s)

/-- MRDY changes no state while the port is free or carries an access that has not reached the array bus, or, as the
event of another requester or kind, another access; nor does a memory timeout while the timer is stopped or its remaining
time is above 0, or the port carries the other requester's access (R52, R99, R103; notes/assumptions/19.md). -/
def Obligations.EndsOfNoAccessChangeNothing : Prop :=
  ∀ (s : State) (md : Word),
    (s.port.busy ≠ some .host ∨ s.port.mce = false →
      exec (.passThroughReadComplete md) s = .next s ∧ exec .passThroughWriteComplete s = .next s ∧
        exec (.forwardedReadComplete md) s = .next s) ∧
    (s.port.busy ≠ some .engine ∨ s.port.mce = false →
      exec .recordWriteComplete s = .next s ∧ exec (.verifyReadComplete md) s = .next s) ∧
    (s.port.busy ≠ some .host ∨ (∀ k, s.port.timer ≠ some ⟨0, k⟩) → exec .hostMemTimeout s = .next s) ∧
    (s.port.busy ≠ some .engine ∨ (∀ k, s.port.timer ≠ some ⟨0, k⟩) → exec .engineMemTimeout s = .next s) ∧
    (∀ acc, s.host.state = .memory acc →
      (acc.kind ≠ .passRead → exec (.passThroughReadComplete md) s = .next s) ∧
      (acc.kind ≠ .passWrite → exec .passThroughWriteComplete s = .next s) ∧
      (acc.kind ≠ .forwardedRead → exec (.forwardedReadComplete md) s = .next s)) ∧
    ∀ q, s.engine.access = .inFlight q →
      (q.kind ≠ .recordWrite → exec .recordWriteComplete s = .next s) ∧
      (q.kind ≠ .verifyRead → exec (.verifyReadComplete md) s = .next s)

/-! ### Commit engine -/

/-- A record's success with records and grant remaining counts the record as applied, lowers the grant and places the
request for the next record's write before the port becomes free and the arbiter decides (R82 to R85, R99, R100). -/
def Obligations.RecordSuccessRequestsTheNextRecord : Prop :=
  ∀ (s : State) (c : Instr) (b : Batch) (r r' : Record), s.Succeeds c b r → r.pos + 1 < b.count → 2 ≤ s.engine.grant →
    r' ∈ s.log → r'.batch = b.id → r'.pos = r.pos + 1 →
      exec c s = .next ((s.succeeded b r).requests .recordWrite r').arbitrate

/-- The success of the last record completes the batch: the entry APPLIED when its windows used is 1, else APPLIED_TORN,
with DONE; slot and records freed, the notice given, the engine cleared, HOLD deasserted, an attempt; and the port becomes
free (R85, R88, R89, R110). -/
def Obligations.LastRecordCompletesTheBatch : Prop :=
  ∀ (s : State) (c : Instr) (b : Batch) (r : Record) (cause : SealCause), s.Succeeds c b r → r.pos + 1 = b.count →
    b.cause = some cause →
      exec c s =
        .next
          ((s.succeeded b r).departed { b with applied := b.applied + 1 }
            (if b.windowsUsed = 1#8 then .applied else .appliedTorn) cause).removalNotice.arbitrate

/-- A grant used up with records remaining pauses the batch with TORN; under IMMEDIATE and not frozen it receives in the
same step a continuation of all its unapplied records, charged to no window, with one more window used (R53, R81, R85,
R87). -/
def Obligations.UsedUpGrantPausesTheBatch : Prop :=
  ∀ (s : State) (c : Instr) (b : Batch) (r : Record), s.Succeeds c b r → r.pos + 1 < b.count → s.engine.grant = 1 →
    let t := s.succeeded b r
    (s.mgmt.settings.tickSource ≠ .immediate ∨ s.unit.frozen = true →
      exec c s =
        .next
          (State.arbitrate
            { t.report .torn with
              table := s.table.replace b { b with applied := b.applied + 1, state := .paused } })) ∧
    ∀ r' ∈ s.log, r'.batch = b.id → r'.pos = r.pos + 1 → s.mgmt.settings.tickSource = .immediate →
      s.unit.frozen = false →
        exec c s =
          .next
            (State.arbitrate
              (State.requests
                { t.report .torn with
                  table :=
                    s.table.replace b { b with applied := b.applied + 1, windowsUsed := satInc b.windowsUsed }
                  engine := { t.engine with grant := b.count - (b.applied + 1) } }
                .recordWrite r'))

/-- MRDY for a record write whose deciding window asks for verify places the verify read and marks nothing; a verify read
with a byte that differs on a lane of the record, or a memory timeout of either access, the timer's remaining time 0, is
a fault: HALTED with the fault
record position, halts raised, FAULT and the error with the record's address, lanes and batch id, and the grant as it was
(R83, R84, R90, R99). -/
def Obligations.VerifyAndFaultsEndTheAccess : Prop :=
  ∀ (s : State) (b : Batch) (r : Record) (md : Word),
    let faulted (cause : ErrorCause) : State :=
      let t : State :=
        { s.accessEnded with
          table :=
            s.table.replace b
              { b with state := .halted, faultPos := some s.engine.nextPos, halts := satInc b.halts } }
      ((t.report .fault).offer cause r.addr r.lanes b.id).arbitrate
    (s.OnBus .applying .recordWrite b r → s.verifyAsked r.addr = true →
      exec .recordWriteComplete s = .next (s.accessEnded.requests .verifyRead r).arbitrate) ∧
    (s.OnBus .applying .verifyRead b r → (∃ n < 4, r.lanes.getLsbD n = true ∧ laneByte md n ≠ laneByte r.data n) →
      exec (.verifyReadComplete md) s = .next (faulted .verify)) ∧
    (∀ k, s.Awake → s.CommitOk → s.Holds b .applying → s.Next b r → s.engine.access.granted = true →
      s.port.timer = some ⟨0, k⟩ → exec .engineMemTimeout s = .next (faulted .engineMemTimeout))

/-- The access in flight of an ABORTING batch ends the abort: MRDY of either access counts the record as applied, whatever
the bytes, a timeout does not; then ABORTED is posted with DONE, and TORN when the batch is partly applied, the batch
removed, the notice given, the engine cleared, an attempt, and the port becomes free. No fault, no error (R95, R96). -/
def Obligations.EndOfTheAccessEndsTheAbort : Prop :=
  ∀ (s : State) (b : Batch) (r : Record) (md : Word) (cause : SealCause), b.cause = some cause →
    let applied : State :=
      ((s.accessEnded.withApplied b r).abortEnded { b with applied := b.applied + 1 } cause).removalNotice.arbitrate
    (s.OnBus .aborting .recordWrite b r → exec .recordWriteComplete s = .next applied) ∧
    (s.OnBus .aborting .verifyRead b r → exec (.verifyReadComplete md) s = .next applied) ∧
    (∀ k, s.Awake → s.CommitOk → s.Holds b .aborting → s.Next b r → s.port.timer = some ⟨0, k⟩ →
      exec .engineMemTimeout s = .next (s.accessEnded.abortEnded b cause).removalNotice.arbitrate)

/-- An admission attempt takes the head of the sealed queue by the cases of R76, with no active batch, not frozen, a free
completion place and a window open: admitted with its grant charged to the window, a reservation, HOLD and its first
request; refused as oversize with its REFUSED entry, DONE and the OVERSIZE error, the batch removed, the notice, a new
attempt; or left waiting. Any condition unmet, nothing changes but the waiting attempt (R43, R64, R74 to R78;
notes/assumptions/6.md). -/
def Obligations.AdmissionAttemptsTakeTheHead : Prop :=
  ∀ s : State, s.OutOfReset → s.CommitOk →
    let t : State := { s with waiting := { s.waiting with attempts := s.waiting.attempts - 1 } }
    (s.engine.active ≠ none ∨ s.table.sealedQueue = [] ∨ s.unit.frozen = true ∨
        8 ≤ s.queue.posted.length + s.queue.reserved ∨ s.unit.window = .closed →
      exec .admissionAttempt s = .next t) ∧
    ∀ (b : Batch) (rest : List Byte) (r : Record) (cause : SealCause), s.engine.active = none →
      s.table.sealedQueue = b.id :: rest → b ∈ s.table.batches → b.cause = some cause → r ∈ s.log → r.batch = b.id →
      r.pos = 0 → s.unit.frozen = false → s.queue.posted.length + s.queue.reserved < 8 →
        let admitted (w : CommitWindow) (grant : Nat) : State :=
          State.arbitrate
            { t with
              unit := { s.unit with window := w }
              queue := { s.queue with reserved := 1 }
              table :=
                { s.table.replace b { b with state := .applying, windowsUsed := 1#8 } with sealedQueue := rest }
              engine := ⟨some b.id, grant, 0, false, .waiting ⟨.recordWrite, r.addr, r.lanes, r.data⟩, true⟩ }
        (s.unit.window = .permanent → exec .admissionAttempt s = .next (admitted .permanent b.count)) ∧
        ∀ budget remaining untouched, s.unit.window = .opened budget remaining untouched →
          exec .admissionAttempt s =
            .next
              (if budget < b.count then
                if s.mgmt.settings.split = false then
                  ((t.departed b .refused cause).offer .oversize r.addr r.lanes b.id).removalNotice
                else if untouched then admitted (.opened budget 0 false) budget
                else t
              else if b.count ≤ remaining then admitted (.opened budget (remaining - b.count) false) b.count
              else t)

/-- A window opening taken at the engine is followed by an attempt; before it a PAUSED batch, not frozen, receives its
continuation: all its unapplied records from the permanent window, else the smaller of them and the opening budget,
charged to the window, unless the window is closed again or the grant no longer fits. Without an opening handed over
nothing changes (R64, R65, R74, R80, R184; notes/assumptions/5.md and 12.md). -/
def Obligations.WindowOpeningsContinueAPausedBatch : Prop :=
  ∀ s : State, s.CommitOk →
    (s.waiting.openings = 0 → exec .continuationGrant s = .next s) ∧
    ∀ n, s.waiting.openings = n + 1 →
      let t : State :=
        { s with waiting := { s.waiting with openings := n, attempts := s.waiting.attempts + 1 } }
      ((∀ b ∈ s.table.batches, b.state ≠ .paused) ∨ s.unit.frozen = true → exec .continuationGrant s = .next t) ∧
      ∀ b r, s.Holds b .paused → s.Next b r → s.unit.frozen = false →
        let unapplied := b.count - b.applied
        let continued (w : CommitWindow) (grant : Nat) : State :=
          State.arbitrate
            (State.requests
              { t with
                unit := { s.unit with window := w }
                table := s.table.replace b { b with state := .applying, windowsUsed := satInc b.windowsUsed }
                engine := { s.engine with grant := grant } }
              .recordWrite r)
        exec .continuationGrant s =
          .next
            (match s.unit.window with
            | .closed => t
            | .permanent => continued .permanent unapplied
            | .opened budget remaining _ =>
              if min unapplied budget ≤ remaining then
                continued (.opened budget (remaining - min unapplied budget) false) (min unapplied budget)
              else t)

/-! ### What every step keeps -/

/-- Every step keeps the lines, the posting numbers and the sizes: HOLD exactly while a batch is active, IRQ exactly
while a set flag has its enable on, HWAIT exactly outside IDLE, RESET exactly in pin reset, consecutive posting numbers,
and the number of places of each list. In pin reset with every block in its reset state and nothing waiting (`ResetOk`),
every step keeps them so, and none but an RST_RELEASE ends the pin reset (R28, R51, R71, R98, R104, R111, R116, R125, R136,
R138, R152, R156, R163, R165, R175, R179, R189). -/
def Obligations.StepKeepsLinesNumbersAndSizes : Prop :=
  ∀ s t : State, step s = .next t →
    (s.HoldOk → t.HoldOk) ∧ (s.IrqOk → t.IrqOk) ∧ (s.PinsOk → t.PinsOk) ∧ (s.NumbersOk → t.NumbersOk) ∧
      (s.SizesOk → t.SizesOk) ∧ (s.ResetOk → t.ResetOk) ∧
      (s.ResetOk → ¬ s.OutOfReset → (∀ rest, s.pending ≠ .rstRelease :: rest) → ¬ t.OutOfReset)

/-- Every step keeps the settings in range and the commit window unit as `WindowsOk` says, the budgets of an open window
among them (R53, R54, R56, R59 to R61, R63, R64, R67, R176, R177). -/
def Obligations.StepKeepsTheWindowUnit : Prop :=
  ∀ s t : State, s.SettingsInRange → s.WindowsOk → step s = .next t → t.SettingsInRange ∧ t.WindowsOk

/-- Every step keeps the batch table and the completion queue: distinct non-zero ids, at most one OPEN batch, the sealed
queue with exactly the SEALED batches, one active batch, the engine's, and a reservation exactly while it exists, the
places never above 8 (R30 to R34, R42, R73, R109). -/
def Obligations.StepKeepsTheBatchTable : Prop :=
  ∀ s t : State, s.TableOk → s.QueueOk → step s = .next t → t.TableOk ∧ t.QueueOk

/-- From a state whose ports are in RESET exactly while the part is in pin reset (`PinsOk`, kept by every step as
`StepKeepsLinesNumbersAndSizes` says), every step keeps the whole of the commit path: besides the table, the queue and
the window unit, the log's records, positions and marks as the batch records count them, the engine's grant, next record
and access as the active batch's state asks, and the memory port as its accesses say (R1, R3, R6, R7, R15 to R17, R73,
R85 to R87, R90, R94, R99 to R101). -/
def Obligations.StepKeepsTheCommitPath : Prop :=
  ∀ s t : State, s.CommitOk → s.PinsOk → step s = .next t → t.CommitOk

/-- From a state with `CommitOk` and `PinsOk`, every step keeps every live record's address decided as STAGE, and a held
write one that no room would take (R12 to R14, R134). -/
def Obligations.StepKeepsStagedAddresses : Prop :=
  ∀ s t : State, s.CommitOk → s.PinsOk → s.StagedOk → step s = .next t → t.StagedOk

/-- The state after a pin reset has everything that the steps keep. -/
def Obligations.ResetHasWhatStepsKeep : Prop :=
  State.reset.CommitOk ∧ State.reset.StagedOk ∧ State.reset.HoldOk ∧ State.reset.IrqOk ∧ State.reset.PinsOk ∧
    State.reset.NumbersOk ∧ State.reset.SizesOk ∧ State.reset.ResetOk
end

