-- ==== Sys2Proof/Laws/Lanes.lean ====
section
/-! SUPPORT. Byte lanes: the bits of a mask, the bytes of an overlay, and the forwarding composition lane by lane
(R4, R9, R24). -/

namespace Sys2Proof.Machine

open Sys2Proof

theorem laneFill_getLsbD (b : Bool) {k : Nat} (h : k < 8) : (laneFill b).getLsbD k = b := by
  cases b
  · simp [laneFill]
  · have : k = 0 ∨ k = 1 ∨ k = 2 ∨ k = 3 ∨ k = 4 ∨ k = 5 ∨ k = 6 ∨ k = 7 := by omega
    rcases this with rfl | rfl | rfl | rfl | rfl | rfl | rfl | rfl <;> decide

/-- Bit `i` of a lane mask is the lane it lies in (R4). -/
theorem laneMask_getLsbD (l : Lanes) {i : Nat} (h : i < 32) : (laneMask l).getLsbD i = l.getLsbD (i / 8) := by
  simp only [laneMask, BitVec.getLsbD_append]
  by_cases h1 : i < 8
  · rw [if_pos (by omega), laneFill_getLsbD _ (by omega)]; congr 1; omega
  · by_cases h2 : i < 16
    · rw [if_neg (by omega), if_pos (by omega), laneFill_getLsbD _ (by omega)]; congr 1; omega
    · by_cases h3 : i < 24
      · rw [if_neg (by omega), if_neg (by omega), if_pos (by omega), laneFill_getLsbD _ (by omega)]; congr 1; omega
      · rw [if_neg (by omega), if_neg (by omega), if_neg (by omega), laneFill_getLsbD _ (by omega)]; congr 1; omega

theorem onBits_getLsbD (old mask new : Word) {i : Nat} (h : i < 32) :
    (onBits old mask new).getLsbD i = if mask.getLsbD i then new.getLsbD i else old.getLsbD i := by
  simp only [onBits, BitVec.getLsbD_or, BitVec.getLsbD_and, BitVec.getLsbD_not]
  cases mask.getLsbD i <;> simp [h]

theorem compared_getLsbD (e : WatchEntry) (l : Lanes) {i : Nat} (h : i < 32) :
    (e.compared l).getLsbD i = (e.mask.getLsbD i && l.getLsbD (i / 8)) := by
  simp [WatchEntry.compared, onLanes, laneMask_getLsbD _ h]

theorem word_eq_iff {a b : Word} : a = b ↔ ∀ i < 32, a.getLsbD i = b.getLsbD i := by
  constructor
  · rintro rfl
    simp
  · exact BitVec.eq_of_getLsbD_eq

theorem satInc_eq (n : Byte) : satInc n = BitVec.ofNat 8 (min (n.toNat + 1) 255) := by
  revert n
  decide

/-! ### Bytes -/

theorem laneByte_getLsbD (w : Word) (n : Nat) {k : Nat} (h : k < 8) :
    (laneByte w n).getLsbD k = w.getLsbD (8 * n + k) := by
  simp [laneByte, h]

/-- An overlay has the new byte on its lanes and the old byte on the others (R9). -/
theorem overlaid_overlay (old : Word) (l : Lanes) (new : Word) : Overlaid (overlay old l new) old l new := by
  intro n hn
  apply BitVec.eq_of_getLsbD_eq
  intro k hk
  have h1 : (8 * n + k) / 8 = n := by omega
  rw [laneByte_getLsbD _ _ hk, overlay, onBits_getLsbD _ _ _ (by omega), laneMask_getLsbD _ (by omega), h1]
  split <;> rw [laneByte_getLsbD _ _ hk]

/-- A word is fixed by its four bytes. -/
theorem word_eq_of_laneByte {a b : Word} (h : ∀ n < 4, laneByte a n = laneByte b n) : a = b := by
  rw [word_eq_iff]
  intro i hi
  have := congrArg (fun x : Byte => x.getLsbD (i % 8)) (h (i / 8) (by omega))
  simp only [laneByte_getLsbD _ _ (show i % 8 < 8 by omega)] at this
  rwa [show 8 * (i / 8) + i % 8 = i by omega] at this

theorem Overlaid.eq {w old : Word} {l : Lanes} {new : Word} (h : Overlaid w old l new) : w = overlay old l new :=
  word_eq_of_laneByte fun n hn => by rw [h n hn, overlaid_overlay old l new n hn]

theorem onLanes_eq_overlay (l : Lanes) (d : Word) : onLanes l d = overlay 0#32 l d := by
  simp [onLanes, overlay, onBits]

/-- Two words agree on the lanes of a record exactly when their bytes do (R84). -/
theorem equalOn_eq_true {l : Lanes} {a b : Word} :
    equalOn l a b = true ↔ ∀ n < 4, l.getLsbD n = true → laneByte a n = laneByte b n := by
  rw [equalOn, beq_iff_eq, onLanes_eq_overlay, onLanes_eq_overlay]
  constructor
  · intro h n hn hl
    have ha := overlaid_overlay 0#32 l a n hn
    rw [h, overlaid_overlay 0#32 l b n hn, hl] at ha
    exact ha.symm
  · intro h
    apply word_eq_of_laneByte
    intro n hn
    rw [overlaid_overlay _ _ _ n hn, overlaid_overlay _ _ _ n hn]
    split
    · exact h n hn ‹_›
    · rfl

/-! ### Compositions (R24) -/

/-- The composition over the chain of an address takes each lane from the newest record that covers it. -/
theorem composed_compose (log : List Record) (a : Addr) (array : Word) :
    Composed log a array (compose (chain log a) array) := by
  intro n hn
  have key : ∀ l : List Record, laneByte (compose l.reverse array) n =
      match (l.filter fun r => r.lanes.getLsbD n).getLast? with
      | some r => laneByte r.data n
      | none => laneByte array n := by
    intro l
    induction l using List.reverseRecOn with
    | nil => rfl
    | append_singleton l r ih =>
      have : compose (l ++ [r]).reverse array = overlay (compose l.reverse array) r.lanes r.data := by
        simp [compose]
      rw [this, overlaid_overlay _ _ _ n hn]
      by_cases h : r.lanes.getLsbD n = true
      · simp [h]
      · simp only [h, List.filter_append]
        simpa [h] using ih
  have : newestOn log a n = ((log.filter fun r => decide (r.addr = a)).filter fun r => r.lanes.getLsbD n).getLast? := by
    rw [newestOn, List.filter_filter]
    congr 2
    funext r
    rw [Bool.and_comm]
  rw [this, chain]
  exact key _

/-- The union of a chain covers a lane exactly when a live record of the address does (R19). -/
theorem unionLanes_getLsbD (log : List Record) (a : Addr) (n : Nat) :
    (unionLanes (chain log a)).getLsbD n = (newestOn log a n).isSome := by
  have key : ∀ c : List Record, (unionLanes c).getLsbD n = c.any fun r => r.lanes.getLsbD n := by
    intro c
    induction c with
    | nil => simp [unionLanes]
    | cons r c ih =>
      rw [show unionLanes (r :: c) = r.lanes ||| unionLanes c from rfl, BitVec.getLsbD_or, ih, List.any_cons]
  rw [key, Bool.eq_iff_iff, List.any_eq_true, newestOn, Option.isSome_iff_ne_none, ne_eq, List.getLast?_eq_none_iff,
    List.filter_eq_nil_iff]
  simp [chain, and_assoc]

theorem unionLanes_eq_all (log : List Record) (a : Addr) :
    unionLanes (chain log a) = Lanes.all ↔ ∀ n < 4, newestOn log a n ≠ none := by
  constructor
  · intro h n hn
    have := unionLanes_getLsbD log a n
    rw [h] at this
    rw [← Option.isSome_iff_ne_none, ← this]
    have : n = 0 ∨ n = 1 ∨ n = 2 ∨ n = 3 := by omega
    rcases this with rfl | rfl | rfl | rfl <;> rfl
  · intro h
    apply BitVec.eq_of_getLsbD_eq
    intro n hn
    rw [unionLanes_getLsbD, Option.isSome_iff_ne_none.2 (h n hn)]
    have : n = 0 ∨ n = 1 ∨ n = 2 ∨ n = 3 := by omega
    rcases this with rfl | rfl | rfl | rfl <;> rfl

end Sys2Proof.Machine
end

