-- ==== Sys2Proof/Laws/State.lean ====
section
/-! SUPPORT. What the updates of the state leave in each field. -/

namespace Sys2Proof.Machine

open Sys2Proof

/-! ### Timers (R52) -/

@[simp] theorem Timer.start_eq (n : Nat) : Timer.start n = ⟨n, 0⟩ := rfl
@[simp] theorem PeriodTimer.start_eq (n : Nat) : PeriodTimer.start n = ⟨⟨n, 0⟩, n⟩ := rfl
@[simp] theorem expiryDue_none : expiryDue none = false := rfl
@[simp] theorem expiryDue_some (t : Timer) : expiryDue (some t) = decide (t.remaining = 0) := rfl

/-- A due expiry is that of a running timer with nothing remaining. -/
theorem expiryDue_iff {t : Option Timer} : expiryDue t = true ↔ ∃ k, t = some ⟨0, k⟩ := by
  rcases t with _ | ⟨n, k⟩ <;> simp

/-- Before the remaining time of a timer is 0 it has no expiry. -/
theorem expiryDue_eq_false {t : Option Timer} (h : ∀ k, t ≠ some ⟨0, k⟩) : expiryDue t = false := by
  rw [Bool.eq_false_iff]
  exact fun h' => (expiryDue_iff.1 h').elim h

/-! ### One REFCLK period (R52, R189) -/

@[simp] theorem State.passPeriod_windows (s : State) : s.passPeriod.windows = s.windows := rfl
@[simp] theorem State.passPeriod_log (s : State) : s.passPeriod.log = s.log := rfl
@[simp] theorem State.passPeriod_table (s : State) : s.passPeriod.table = s.table := rfl
@[simp] theorem State.passPeriod_engine (s : State) : s.passPeriod.engine = s.engine := rfl
@[simp] theorem State.passPeriod_queue (s : State) : s.passPeriod.queue = s.queue := rfl
@[simp] theorem State.passPeriod_watch (s : State) : s.passPeriod.watch = s.watch := rfl
@[simp] theorem State.passPeriod_events (s : State) : s.passPeriod.events = s.events := rfl
@[simp] theorem State.passPeriod_mgmt (s : State) : s.passPeriod.mgmt = s.mgmt := rfl
@[simp] theorem State.passPeriod_power (s : State) : s.passPeriod.power = s.power := rfl
@[simp] theorem State.passPeriod_waiting (s : State) : s.passPeriod.waiting = s.waiting := rfl
@[simp] theorem State.passPeriod_freeCount (s : State) : s.passPeriod.freeCount = s.freeCount := rfl
@[simp] theorem State.passPeriod_pending (s : State) : s.passPeriod.pending = s.pending := rfl
@[simp] theorem State.passPeriod_hostState (s : State) : s.passPeriod.host.state = s.host.state := rfl
@[simp] theorem State.passPeriod_busy (s : State) : s.passPeriod.port.busy = s.port.busy := rfl

/-! ### HCE deasserted (R123) -/

@[simp] theorem HostState.dropHce_memory (a : HostAccess) :
    (HostState.memory a).dropHce = .memory { a with dropped := true } := rfl
@[simp] theorem HostState.dropHce_idle : HostState.idle.dropHce = .idle := rfl
@[simp] theorem HostState.dropHce_stalled (w : HeldWrite) : (HostState.stalled w).dropHce = .stalled w := rfl
@[simp] theorem HostState.dropHce_reset : HostState.reset.dropHce = .reset := rfl
@[simp] theorem HostState.dropHce_granted (x : HostState) : x.dropHce.granted = x.granted := by cases x <;> rfl

/-! ### A report (R154) -/

@[simp] theorem State.report_host (s : State) (f : EventFlag) : (s.report f).host = s.host := rfl
@[simp] theorem State.report_windows (s : State) (f : EventFlag) : (s.report f).windows = s.windows := rfl
@[simp] theorem State.report_log (s : State) (f : EventFlag) : (s.report f).log = s.log := rfl
@[simp] theorem State.report_table (s : State) (f : EventFlag) : (s.report f).table = s.table := rfl
@[simp] theorem State.report_unit (s : State) (f : EventFlag) : (s.report f).unit = s.unit := rfl
@[simp] theorem State.report_engine (s : State) (f : EventFlag) : (s.report f).engine = s.engine := rfl
@[simp] theorem State.report_port (s : State) (f : EventFlag) : (s.report f).port = s.port := rfl
@[simp] theorem State.report_queue (s : State) (f : EventFlag) : (s.report f).queue = s.queue := rfl
@[simp] theorem State.report_watch (s : State) (f : EventFlag) : (s.report f).watch = s.watch := rfl
@[simp] theorem State.report_events (s : State) (f : EventFlag) : (s.report f).events = s.events.report f := rfl
@[simp] theorem State.report_mgmt (s : State) (f : EventFlag) : (s.report f).mgmt = s.mgmt := rfl
@[simp] theorem State.report_power (s : State) (f : EventFlag) : (s.report f).power = s.power := rfl
@[simp] theorem State.report_waiting (s : State) (f : EventFlag) : (s.report f).waiting = s.waiting := rfl
@[simp] theorem State.report_freeCount (s : State) (f : EventFlag) : (s.report f).freeCount = s.freeCount := rfl
@[simp] theorem State.report_pending (s : State) (f : EventFlag) : (s.report f).pending = s.pending := rfl

/-! ### An error offered (R162) -/

@[simp] theorem State.offer_host (s : State) (c : ErrorCause) (a : Addr) (l : Lanes) (b : Byte) :
    (s.offer c a l b).host = s.host := rfl
@[simp] theorem State.offer_windows (s : State) (c : ErrorCause) (a : Addr) (l : Lanes) (b : Byte) :
    (s.offer c a l b).windows = s.windows := rfl
@[simp] theorem State.offer_log (s : State) (c : ErrorCause) (a : Addr) (l : Lanes) (b : Byte) :
    (s.offer c a l b).log = s.log := rfl
@[simp] theorem State.offer_table (s : State) (c : ErrorCause) (a : Addr) (l : Lanes) (b : Byte) :
    (s.offer c a l b).table = s.table := rfl
@[simp] theorem State.offer_unit (s : State) (c : ErrorCause) (a : Addr) (l : Lanes) (b : Byte) :
    (s.offer c a l b).unit = s.unit := rfl
@[simp] theorem State.offer_engine (s : State) (c : ErrorCause) (a : Addr) (l : Lanes) (b : Byte) :
    (s.offer c a l b).engine = s.engine := rfl
@[simp] theorem State.offer_port (s : State) (c : ErrorCause) (a : Addr) (l : Lanes) (b : Byte) :
    (s.offer c a l b).port = s.port := rfl
@[simp] theorem State.offer_queue (s : State) (c : ErrorCause) (a : Addr) (l : Lanes) (b : Byte) :
    (s.offer c a l b).queue = s.queue := rfl
@[simp] theorem State.offer_watch (s : State) (c : ErrorCause) (a : Addr) (l : Lanes) (b : Byte) :
    (s.offer c a l b).watch = s.watch := rfl
@[simp] theorem State.offer_events (s : State) (c : ErrorCause) (a : Addr) (l : Lanes) (b : Byte) :
    (s.offer c a l b).events = s.events.offer c a l b := rfl
@[simp] theorem State.offer_mgmt (s : State) (c : ErrorCause) (a : Addr) (l : Lanes) (b : Byte) :
    (s.offer c a l b).mgmt = s.mgmt := rfl
@[simp] theorem State.offer_power (s : State) (c : ErrorCause) (a : Addr) (l : Lanes) (b : Byte) :
    (s.offer c a l b).power = s.power := rfl
@[simp] theorem State.offer_waiting (s : State) (c : ErrorCause) (a : Addr) (l : Lanes) (b : Byte) :
    (s.offer c a l b).waiting = s.waiting := rfl
@[simp] theorem State.offer_freeCount (s : State) (c : ErrorCause) (a : Addr) (l : Lanes) (b : Byte) :
    (s.offer c a l b).freeCount = s.freeCount := rfl
@[simp] theorem State.offer_pending (s : State) (c : ErrorCause) (a : Addr) (l : Lanes) (b : Byte) :
    (s.offer c a l b).pending = s.pending := rfl

/-! ### An attempt that follows (R74) -/

@[simp] theorem State.awaitAttempt_host (s : State) : s.awaitAttempt.host = s.host := rfl
@[simp] theorem State.awaitAttempt_windows (s : State) : s.awaitAttempt.windows = s.windows := rfl
@[simp] theorem State.awaitAttempt_log (s : State) : s.awaitAttempt.log = s.log := rfl
@[simp] theorem State.awaitAttempt_table (s : State) : s.awaitAttempt.table = s.table := rfl
@[simp] theorem State.awaitAttempt_unit (s : State) : s.awaitAttempt.unit = s.unit := rfl
@[simp] theorem State.awaitAttempt_engine (s : State) : s.awaitAttempt.engine = s.engine := rfl
@[simp] theorem State.awaitAttempt_port (s : State) : s.awaitAttempt.port = s.port := rfl
@[simp] theorem State.awaitAttempt_queue (s : State) : s.awaitAttempt.queue = s.queue := rfl
@[simp] theorem State.awaitAttempt_watch (s : State) : s.awaitAttempt.watch = s.watch := rfl
@[simp] theorem State.awaitAttempt_events (s : State) : s.awaitAttempt.events = s.events := rfl
@[simp] theorem State.awaitAttempt_mgmt (s : State) : s.awaitAttempt.mgmt = s.mgmt := rfl
@[simp] theorem State.awaitAttempt_power (s : State) : s.awaitAttempt.power = s.power := rfl
@[simp] theorem State.awaitAttempt_waiting (s : State) :
    s.awaitAttempt.waiting = { s.waiting with attempts := s.waiting.attempts + 1 } := rfl
@[simp] theorem State.awaitAttempt_freeCount (s : State) : s.awaitAttempt.freeCount = s.freeCount := rfl
@[simp] theorem State.awaitAttempt_pending (s : State) : s.awaitAttempt.pending = s.pending := rfl

/-! ### An opening handed over (R63) -/

@[simp] theorem State.handOpening_host (s : State) : s.handOpening.host = s.host := rfl
@[simp] theorem State.handOpening_windows (s : State) : s.handOpening.windows = s.windows := rfl
@[simp] theorem State.handOpening_log (s : State) : s.handOpening.log = s.log := rfl
@[simp] theorem State.handOpening_table (s : State) : s.handOpening.table = s.table := rfl
@[simp] theorem State.handOpening_unit (s : State) : s.handOpening.unit = s.unit := rfl
@[simp] theorem State.handOpening_engine (s : State) : s.handOpening.engine = s.engine := rfl
@[simp] theorem State.handOpening_port (s : State) : s.handOpening.port = s.port := rfl
@[simp] theorem State.handOpening_queue (s : State) : s.handOpening.queue = s.queue := rfl
@[simp] theorem State.handOpening_watch (s : State) : s.handOpening.watch = s.watch := rfl
@[simp] theorem State.handOpening_events (s : State) : s.handOpening.events = s.events := rfl
@[simp] theorem State.handOpening_mgmt (s : State) : s.handOpening.mgmt = s.mgmt := rfl
@[simp] theorem State.handOpening_power (s : State) : s.handOpening.power = s.power := rfl
@[simp] theorem State.handOpening_waiting (s : State) :
    s.handOpening.waiting = { s.waiting with openings := s.waiting.openings + 1 } := rfl
@[simp] theorem State.handOpening_freeCount (s : State) : s.handOpening.freeCount = s.freeCount := rfl
@[simp] theorem State.handOpening_pending (s : State) : s.handOpening.pending = s.pending := rfl

/-! ### The end of a transaction (R165) -/

@[simp] theorem State.endTransaction_host (s : State) : s.endTransaction.host = s.host := rfl
@[simp] theorem State.endTransaction_windows (s : State) : s.endTransaction.windows = s.windows := rfl
@[simp] theorem State.endTransaction_log (s : State) : s.endTransaction.log = s.log := rfl
@[simp] theorem State.endTransaction_table (s : State) : s.endTransaction.table = s.table := rfl
@[simp] theorem State.endTransaction_unit (s : State) : s.endTransaction.unit = s.unit := rfl
@[simp] theorem State.endTransaction_engine (s : State) : s.endTransaction.engine = s.engine := rfl
@[simp] theorem State.endTransaction_port (s : State) : s.endTransaction.port = s.port := rfl
@[simp] theorem State.endTransaction_queue (s : State) : s.endTransaction.queue = s.queue := rfl
@[simp] theorem State.endTransaction_watch (s : State) : s.endTransaction.watch = s.watch := rfl
@[simp] theorem State.endTransaction_events (s : State) : s.endTransaction.events = s.events := rfl
@[simp] theorem State.endTransaction_mgmt (s : State) :
    s.endTransaction.mgmt = { s.mgmt with state := .idle, scs := false, sdo := none, bits := [] } := rfl
@[simp] theorem State.endTransaction_power (s : State) : s.endTransaction.power = s.power := rfl
@[simp] theorem State.endTransaction_waiting (s : State) : s.endTransaction.waiting = s.waiting := rfl
@[simp] theorem State.endTransaction_freeCount (s : State) : s.endTransaction.freeCount = s.freeCount := rfl
@[simp] theorem State.endTransaction_pending (s : State) : s.endTransaction.pending = s.pending := rfl

/-! ### A reply retained (R172) -/

@[simp] theorem State.retain_host (s : State) (x : Status) (tag : Byte) (p : List Byte) :
    (s.retain x tag p).host = s.host := rfl
@[simp] theorem State.retain_windows (s : State) (x : Status) (tag : Byte) (p : List Byte) :
    (s.retain x tag p).windows = s.windows := rfl
@[simp] theorem State.retain_log (s : State) (x : Status) (tag : Byte) (p : List Byte) :
    (s.retain x tag p).log = s.log := rfl
@[simp] theorem State.retain_table (s : State) (x : Status) (tag : Byte) (p : List Byte) :
    (s.retain x tag p).table = s.table := rfl
@[simp] theorem State.retain_unit (s : State) (x : Status) (tag : Byte) (p : List Byte) :
    (s.retain x tag p).unit = s.unit := rfl
@[simp] theorem State.retain_engine (s : State) (x : Status) (tag : Byte) (p : List Byte) :
    (s.retain x tag p).engine = s.engine := rfl
@[simp] theorem State.retain_port (s : State) (x : Status) (tag : Byte) (p : List Byte) :
    (s.retain x tag p).port = s.port := rfl
@[simp] theorem State.retain_queue (s : State) (x : Status) (tag : Byte) (p : List Byte) :
    (s.retain x tag p).queue = s.queue := rfl
@[simp] theorem State.retain_watch (s : State) (x : Status) (tag : Byte) (p : List Byte) :
    (s.retain x tag p).watch = s.watch := rfl
@[simp] theorem State.retain_events (s : State) (x : Status) (tag : Byte) (p : List Byte) :
    (s.retain x tag p).events = s.events := rfl
@[simp] theorem State.retain_mgmt (s : State) (x : Status) (tag : Byte) (p : List Byte) :
    (s.retain x tag p).mgmt = { s.mgmt with retained := frameOf x.code tag p } := rfl
@[simp] theorem State.retain_power (s : State) (x : Status) (tag : Byte) (p : List Byte) :
    (s.retain x tag p).power = s.power := rfl
@[simp] theorem State.retain_waiting (s : State) (x : Status) (tag : Byte) (p : List Byte) :
    (s.retain x tag p).waiting = s.waiting := rfl
@[simp] theorem State.retain_freeCount (s : State) (x : Status) (tag : Byte) (p : List Byte) :
    (s.retain x tag p).freeCount = s.freeCount := rfl
@[simp] theorem State.retain_pending (s : State) (x : Status) (tag : Byte) (p : List Byte) :
    (s.retain x tag p).pending = s.pending := rfl

/-! ### A write accepted (R123) -/

@[simp] theorem State.acceptWrite_host (s : State) :
    s.acceptWrite.host = { s.host with state := .idle, hwait := false } := rfl
@[simp] theorem State.acceptWrite_windows (s : State) : s.acceptWrite.windows = s.windows := rfl
@[simp] theorem State.acceptWrite_log (s : State) : s.acceptWrite.log = s.log := rfl
@[simp] theorem State.acceptWrite_table (s : State) : s.acceptWrite.table = s.table := rfl
@[simp] theorem State.acceptWrite_unit (s : State) : s.acceptWrite.unit = s.unit := rfl
@[simp] theorem State.acceptWrite_engine (s : State) : s.acceptWrite.engine = s.engine := rfl
@[simp] theorem State.acceptWrite_port (s : State) : s.acceptWrite.port = s.port := rfl
@[simp] theorem State.acceptWrite_queue (s : State) : s.acceptWrite.queue = s.queue := rfl
@[simp] theorem State.acceptWrite_watch (s : State) : s.acceptWrite.watch = s.watch := rfl
@[simp] theorem State.acceptWrite_events (s : State) : s.acceptWrite.events = s.events := rfl
@[simp] theorem State.acceptWrite_mgmt (s : State) : s.acceptWrite.mgmt = s.mgmt := rfl
@[simp] theorem State.acceptWrite_power (s : State) : s.acceptWrite.power = s.power := rfl
@[simp] theorem State.acceptWrite_waiting (s : State) : s.acceptWrite.waiting = s.waiting := rfl
@[simp] theorem State.acceptWrite_freeCount (s : State) : s.acceptWrite.freeCount = s.freeCount := rfl
@[simp] theorem State.acceptWrite_pending (s : State) : s.acceptWrite.pending = s.pending := rfl

/-! ### A read answered (R123) -/

@[simp] theorem State.answerRead_host (s : State) (w : Word) (d : Bool) :
    (s.answerRead w d).host =
      { s.host with state := .idle, hwait := false, answer := if s.host.hce && !d then some w else none } := rfl
@[simp] theorem State.answerRead_windows (s : State) (w : Word) (d : Bool) :
    (s.answerRead w d).windows = s.windows := rfl
@[simp] theorem State.answerRead_log (s : State) (w : Word) (d : Bool) :
    (s.answerRead w d).log = s.log := rfl
@[simp] theorem State.answerRead_table (s : State) (w : Word) (d : Bool) :
    (s.answerRead w d).table = s.table := rfl
@[simp] theorem State.answerRead_unit (s : State) (w : Word) (d : Bool) :
    (s.answerRead w d).unit = s.unit := rfl
@[simp] theorem State.answerRead_engine (s : State) (w : Word) (d : Bool) :
    (s.answerRead w d).engine = s.engine := rfl
@[simp] theorem State.answerRead_port (s : State) (w : Word) (d : Bool) :
    (s.answerRead w d).port = s.port := rfl
@[simp] theorem State.answerRead_queue (s : State) (w : Word) (d : Bool) :
    (s.answerRead w d).queue = s.queue := rfl
@[simp] theorem State.answerRead_watch (s : State) (w : Word) (d : Bool) :
    (s.answerRead w d).watch = s.watch := rfl
@[simp] theorem State.answerRead_events (s : State) (w : Word) (d : Bool) :
    (s.answerRead w d).events = s.events := rfl
@[simp] theorem State.answerRead_mgmt (s : State) (w : Word) (d : Bool) :
    (s.answerRead w d).mgmt = s.mgmt := rfl
@[simp] theorem State.answerRead_power (s : State) (w : Word) (d : Bool) :
    (s.answerRead w d).power = s.power := rfl
@[simp] theorem State.answerRead_waiting (s : State) (w : Word) (d : Bool) :
    (s.answerRead w d).waiting = s.waiting := rfl
@[simp] theorem State.answerRead_freeCount (s : State) (w : Word) (d : Bool) :
    (s.answerRead w d).freeCount = s.freeCount := rfl
@[simp] theorem State.answerRead_pending (s : State) (w : Word) (d : Bool) :
    (s.answerRead w d).pending = s.pending := rfl

/-! ### A refused access (R129, R130, R135) -/

@[simp] theorem State.refuseAccess_host (s : State) (c : ErrorCause) (a : Addr) (l : Lanes) :
    (s.refuseAccess c a l).host = { s.host with state := .idle, hwait := false, herr := s.host.hce } := rfl
@[simp] theorem State.refuseAccess_windows (s : State) (c : ErrorCause) (a : Addr) (l : Lanes) :
    (s.refuseAccess c a l).windows = s.windows := rfl
@[simp] theorem State.refuseAccess_log (s : State) (c : ErrorCause) (a : Addr) (l : Lanes) :
    (s.refuseAccess c a l).log = s.log := rfl
@[simp] theorem State.refuseAccess_table (s : State) (c : ErrorCause) (a : Addr) (l : Lanes) :
    (s.refuseAccess c a l).table = s.table := rfl
@[simp] theorem State.refuseAccess_unit (s : State) (c : ErrorCause) (a : Addr) (l : Lanes) :
    (s.refuseAccess c a l).unit = s.unit := rfl
@[simp] theorem State.refuseAccess_engine (s : State) (c : ErrorCause) (a : Addr) (l : Lanes) :
    (s.refuseAccess c a l).engine = s.engine := rfl
@[simp] theorem State.refuseAccess_port (s : State) (c : ErrorCause) (a : Addr) (l : Lanes) :
    (s.refuseAccess c a l).port = s.port := rfl
@[simp] theorem State.refuseAccess_queue (s : State) (c : ErrorCause) (a : Addr) (l : Lanes) :
    (s.refuseAccess c a l).queue = s.queue := rfl
@[simp] theorem State.refuseAccess_watch (s : State) (c : ErrorCause) (a : Addr) (l : Lanes) :
    (s.refuseAccess c a l).watch = s.watch := rfl
@[simp] theorem State.refuseAccess_events (s : State) (c : ErrorCause) (a : Addr) (l : Lanes) :
    (s.refuseAccess c a l).events = (s.events.report .refused).offer c a l 0#8 := rfl
@[simp] theorem State.refuseAccess_mgmt (s : State) (c : ErrorCause) (a : Addr) (l : Lanes) :
    (s.refuseAccess c a l).mgmt = s.mgmt := rfl
@[simp] theorem State.refuseAccess_power (s : State) (c : ErrorCause) (a : Addr) (l : Lanes) :
    (s.refuseAccess c a l).power = s.power := rfl
@[simp] theorem State.refuseAccess_waiting (s : State) (c : ErrorCause) (a : Addr) (l : Lanes) :
    (s.refuseAccess c a l).waiting = s.waiting := rfl
@[simp] theorem State.refuseAccess_freeCount (s : State) (c : ErrorCause) (a : Addr) (l : Lanes) :
    (s.refuseAccess c a l).freeCount = s.freeCount := rfl
@[simp] theorem State.refuseAccess_pending (s : State) (c : ErrorCause) (a : Addr) (l : Lanes) :
    (s.refuseAccess c a l).pending = s.pending := rfl

/-! ### The end of an access on the array bus (R187) -/

@[simp] theorem State.endBus_host (s : State) : s.endBus.host = s.host := rfl
@[simp] theorem State.endBus_windows (s : State) : s.endBus.windows = s.windows := rfl
@[simp] theorem State.endBus_log (s : State) : s.endBus.log = s.log := rfl
@[simp] theorem State.endBus_table (s : State) : s.endBus.table = s.table := rfl
@[simp] theorem State.endBus_unit (s : State) : s.endBus.unit = s.unit := rfl
@[simp] theorem State.endBus_engine (s : State) : s.endBus.engine = s.engine := rfl
@[simp] theorem State.endBus_port (s : State) :
    s.endBus.port =
      { s.port with timer := none, md := none, mbe := 0#4, mce := false, mwe := false, moe := false } := rfl
@[simp] theorem State.endBus_queue (s : State) : s.endBus.queue = s.queue := rfl
@[simp] theorem State.endBus_watch (s : State) : s.endBus.watch = s.watch := rfl
@[simp] theorem State.endBus_events (s : State) : s.endBus.events = s.events := rfl
@[simp] theorem State.endBus_mgmt (s : State) : s.endBus.mgmt = s.mgmt := rfl
@[simp] theorem State.endBus_power (s : State) : s.endBus.power = s.power := rfl
@[simp] theorem State.endBus_waiting (s : State) : s.endBus.waiting = s.waiting := rfl
@[simp] theorem State.endBus_freeCount (s : State) : s.endBus.freeCount = s.freeCount := rfl
@[simp] theorem State.endBus_pending (s : State) : s.endBus.pending = s.pending := rfl

/-! ### A batch that leaves (R17, R44) -/

@[simp] theorem State.dropBatch_host (s : State) (id : Byte) : (s.dropBatch id).host = s.host := rfl
@[simp] theorem State.dropBatch_windows (s : State) (id : Byte) : (s.dropBatch id).windows = s.windows := rfl
@[simp] theorem State.dropBatch_log (s : State) (id : Byte) :
    (s.dropBatch id).log = s.log.filter fun r => decide (r.batch ≠ id) := rfl
@[simp] theorem State.dropBatch_table (s : State) (id : Byte) : (s.dropBatch id).table = s.table.remove id := rfl
@[simp] theorem State.dropBatch_unit (s : State) (id : Byte) : (s.dropBatch id).unit = s.unit := rfl
@[simp] theorem State.dropBatch_engine (s : State) (id : Byte) : (s.dropBatch id).engine = s.engine := rfl
@[simp] theorem State.dropBatch_port (s : State) (id : Byte) : (s.dropBatch id).port = s.port := rfl
@[simp] theorem State.dropBatch_queue (s : State) (id : Byte) : (s.dropBatch id).queue = s.queue := rfl
@[simp] theorem State.dropBatch_watch (s : State) (id : Byte) : (s.dropBatch id).watch = s.watch := rfl
@[simp] theorem State.dropBatch_events (s : State) (id : Byte) : (s.dropBatch id).events = s.events := rfl
@[simp] theorem State.dropBatch_mgmt (s : State) (id : Byte) : (s.dropBatch id).mgmt = s.mgmt := rfl
@[simp] theorem State.dropBatch_power (s : State) (id : Byte) : (s.dropBatch id).power = s.power := rfl
@[simp] theorem State.dropBatch_waiting (s : State) (id : Byte) : (s.dropBatch id).waiting = s.waiting := rfl
@[simp] theorem State.dropBatch_freeCount (s : State) (id : Byte) : (s.dropBatch id).freeCount = s.freeCount := rfl
@[simp] theorem State.dropBatch_pending (s : State) (id : Byte) : (s.dropBatch id).pending = s.pending := rfl

/-! ### A posting (R110) -/

@[simp] theorem State.post_host (s : State) (b : Batch) (o : BatchOutcome) : (s.post b o).host = s.host := rfl
@[simp] theorem State.post_windows (s : State) (b : Batch) (o : BatchOutcome) :
    (s.post b o).windows = s.windows := rfl
@[simp] theorem State.post_log (s : State) (b : Batch) (o : BatchOutcome) : (s.post b o).log = s.log := rfl
@[simp] theorem State.post_table (s : State) (b : Batch) (o : BatchOutcome) : (s.post b o).table = s.table := rfl
@[simp] theorem State.post_unit (s : State) (b : Batch) (o : BatchOutcome) : (s.post b o).unit = s.unit := rfl
@[simp] theorem State.post_engine (s : State) (b : Batch) (o : BatchOutcome) : (s.post b o).engine = s.engine := rfl
@[simp] theorem State.post_port (s : State) (b : Batch) (o : BatchOutcome) : (s.post b o).port = s.port := rfl
@[simp] theorem State.post_queue (s : State) (b : Batch) (o : BatchOutcome) :
    (s.post b o).queue = ⟨s.queue.posted ++ [s.entryFor b o], 0, s.queue.counter + 1#8⟩ := rfl
@[simp] theorem State.post_watch (s : State) (b : Batch) (o : BatchOutcome) : (s.post b o).watch = s.watch := rfl
@[simp] theorem State.post_events (s : State) (b : Batch) (o : BatchOutcome) :
    (s.post b o).events = s.events.report .done := rfl
@[simp] theorem State.post_mgmt (s : State) (b : Batch) (o : BatchOutcome) : (s.post b o).mgmt = s.mgmt := rfl
@[simp] theorem State.post_power (s : State) (b : Batch) (o : BatchOutcome) : (s.post b o).power = s.power := rfl
@[simp] theorem State.post_waiting (s : State) (b : Batch) (o : BatchOutcome) :
    (s.post b o).waiting = s.waiting := rfl
@[simp] theorem State.post_freeCount (s : State) (b : Batch) (o : BatchOutcome) :
    (s.post b o).freeCount = s.freeCount := rfl
@[simp] theorem State.post_pending (s : State) (b : Batch) (o : BatchOutcome) :
    (s.post b o).pending = s.pending := rfl

/-! ### The active batch gone (R88, R96) -/

@[simp] theorem State.clearActive_host (s : State) : s.clearActive.host = s.host := rfl
@[simp] theorem State.clearActive_windows (s : State) : s.clearActive.windows = s.windows := rfl
@[simp] theorem State.clearActive_log (s : State) : s.clearActive.log = s.log := rfl
@[simp] theorem State.clearActive_table (s : State) : s.clearActive.table = s.table := rfl
@[simp] theorem State.clearActive_unit (s : State) : s.clearActive.unit = s.unit := rfl
@[simp] theorem State.clearActive_engine (s : State) : s.clearActive.engine = Engine.reset := rfl
@[simp] theorem State.clearActive_port (s : State) : s.clearActive.port = s.port := rfl
@[simp] theorem State.clearActive_queue (s : State) : s.clearActive.queue = s.queue := rfl
@[simp] theorem State.clearActive_watch (s : State) : s.clearActive.watch = s.watch := rfl
@[simp] theorem State.clearActive_events (s : State) : s.clearActive.events = s.events := rfl
@[simp] theorem State.clearActive_mgmt (s : State) : s.clearActive.mgmt = s.mgmt := rfl
@[simp] theorem State.clearActive_power (s : State) : s.clearActive.power = s.power := rfl
@[simp] theorem State.clearActive_waiting (s : State) :
    s.clearActive.waiting = { s.waiting with attempts := s.waiting.attempts + 1 } := rfl
@[simp] theorem State.clearActive_freeCount (s : State) : s.clearActive.freeCount = s.freeCount := rfl
@[simp] theorem State.clearActive_pending (s : State) : s.clearActive.pending = s.pending := rfl

end Sys2Proof.Machine
end

