-- ==== Sys2Proof/Laws/Table.lean ====
section
/-! SUPPORT. The batch table: what finding, changing and removing a batch does while ids are distinct (R30, R31). -/

namespace Sys2Proof.Machine

open Sys2Proof

/-! ### Reading -/

theorem BatchTable.mem_batches {t : BatchTable} {b : Batch} : b ∈ t.batches ↔ some b ∈ t.slots := by
  simp [BatchTable.batches]

/-- No two different batches share an id. -/
abbrev BatchTable.Distinct (t : BatchTable) : Prop := (t.batches.map Batch.id).Nodup

theorem BatchTable.Distinct.eq {t : BatchTable} (h : t.Distinct) {b b' : Batch} (hb : b ∈ t.batches)
    (hb' : b' ∈ t.batches) (hid : b.id = b'.id) : b = b' :=
  List.inj_on_of_nodup_map h hb hb' hid

theorem BatchTable.find?_eq_some {t : BatchTable} (h : t.Distinct) {id : Byte} {b : Batch} :
    t.find? id = some b ↔ b ∈ t.batches ∧ b.id = id := by
  constructor
  · intro hf
    exact ⟨List.mem_of_find?_eq_some hf, by simpa using List.find?_some hf⟩
  · rintro ⟨hb, rfl⟩
    cases hf : t.find? b.id with
    | none =>
      have := List.find?_eq_none.1 hf b hb
      simp at this
    | some b' =>
      have := List.find?_some hf
      rw [h.eq (List.mem_of_find?_eq_some hf) hb (by simpa using this)]

theorem BatchTable.mem_of_find? {t : BatchTable} {id : Byte} {b : Batch} (h : t.find? id = some b) :
    b ∈ t.batches ∧ b.id = id :=
  ⟨List.mem_of_find?_eq_some h, by simpa using List.find?_some h⟩

theorem BatchTable.find?_eq_none {t : BatchTable} {id : Byte} : t.find? id = none ↔ ∀ b ∈ t.batches, b.id ≠ id := by
  simp [BatchTable.find?]

theorem BatchTable.openBatch?_eq_none {t : BatchTable} :
    t.openBatch? = none ↔ ∀ b ∈ t.batches, b.state ≠ .opened := by
  simp [BatchTable.openBatch?]

theorem BatchTable.mem_of_openBatch? {t : BatchTable} {b : Batch} (h : t.openBatch? = some b) :
    b ∈ t.batches ∧ b.state = .opened :=
  ⟨List.mem_of_find?_eq_some h, by simpa using List.find?_some h⟩

/-- With at most one OPEN batch, the OPEN batch is the one that is found (R34). -/
theorem BatchTable.openBatch?_eq_some {t : BatchTable}
    (h : ∀ b ∈ t.batches, ∀ b' ∈ t.batches, b.state = .opened → b'.state = .opened → b = b') {b : Batch} :
    t.openBatch? = some b ↔ b ∈ t.batches ∧ b.state = .opened := by
  constructor
  · exact BatchTable.mem_of_openBatch?
  · rintro ⟨hb, ho⟩
    cases hf : t.openBatch? with
    | none => exact absurd ho (BatchTable.openBatch?_eq_none.1 hf b hb)
    | some b' =>
      have hb' := BatchTable.mem_of_openBatch? hf
      rw [h b' hb'.1 b hb hb'.2 ho]

/-! ### Changing -/

@[simp] theorem BatchTable.update_nextId (t : BatchTable) (id : Byte) (f : Batch → Batch) :
    (t.update id f).nextId = t.nextId := rfl

@[simp] theorem BatchTable.update_sealedQueue (t : BatchTable) (id : Byte) (f : Batch → Batch) :
    (t.update id f).sealedQueue = t.sealedQueue := rfl

@[simp] theorem BatchTable.update_slots_length (t : BatchTable) (id : Byte) (f : Batch → Batch) :
    (t.update id f).slots.length = t.slots.length := by
  simp [BatchTable.update]

/-- The batches after a change of the one with an id. -/
theorem BatchTable.update_batches (t : BatchTable) (id : Byte) (f : Batch → Batch) :
    (t.update id f).batches = t.batches.map fun b => if b.id = id then f b else b := by
  simp only [BatchTable.batches, BatchTable.update, List.filterMap_map]
  induction t.slots with
  | nil => rfl
  | cons o l ih => cases o <;> simp_all

theorem BatchTable.mem_update {t : BatchTable} {id : Byte} {f : Batch → Batch} {b : Batch} :
    b ∈ (t.update id f).batches ↔ ∃ a ∈ t.batches, (if a.id = id then f a else a) = b := by
  simp [BatchTable.update_batches]

/-- A change that keeps ids leaves the list of ids. -/
theorem BatchTable.update_ids {t : BatchTable} {id : Byte} {f : Batch → Batch} (hf : ∀ b, (f b).id = b.id) :
    (t.update id f).batches.map Batch.id = t.batches.map Batch.id := by
  rw [BatchTable.update_batches, List.map_map]
  apply List.map_congr_left
  intro b _
  simp only [Function.comp]
  split <;> simp [hf]

/-- While ids are distinct, changing the batch with an id replaces that one batch in its slot. -/
theorem BatchTable.update_eq_replace {t : BatchTable} (h : t.Distinct) {b : Batch} (hb : b ∈ t.batches)
    (f : Batch → Batch) : t.update b.id f = t.replace b (f b) := by
  simp only [BatchTable.update, BatchTable.replace]
  congr 1
  apply List.map_congr_left
  intro o ho
  cases o with
  | none => simp
  | some a =>
    have ha : a ∈ t.batches := BatchTable.mem_batches.2 ho
    by_cases hid : a.id = b.id
    · simp [h.eq ha hb hid]
    · have : a ≠ b := fun e => hid (by rw [e])
      simp [hid, this]

/-! ### Removing -/

@[simp] theorem BatchTable.remove_nextId (t : BatchTable) (id : Byte) : (t.remove id).nextId = t.nextId := rfl

@[simp] theorem BatchTable.remove_slots_length (t : BatchTable) (id : Byte) :
    (t.remove id).slots.length = t.slots.length := by
  simp [BatchTable.remove]

/-- The batches after a removal are the others. -/
theorem BatchTable.remove_batches (t : BatchTable) (id : Byte) :
    (t.remove id).batches = t.batches.filter fun b => decide (b.id ≠ id) := by
  simp only [BatchTable.batches, BatchTable.remove, List.filterMap_map]
  induction t.slots with
  | nil => rfl
  | cons o l ih =>
    cases o with
    | none => simpa using ih
    | some b => by_cases hb : b.id = id <;> simp_all [Option.filter]

theorem BatchTable.mem_remove {t : BatchTable} {id : Byte} {b : Batch} :
    b ∈ (t.remove id).batches ↔ b ∈ t.batches ∧ b.id ≠ id := by
  simp [BatchTable.remove_batches]

/-- While ids are distinct, removing the batch with an id empties its slot alone. -/
theorem BatchTable.remove_eq_without {t : BatchTable} (h : t.Distinct) {b : Batch} (hb : b ∈ t.batches) :
    t.remove b.id = t.without b := by
  simp only [BatchTable.remove, BatchTable.without]
  congr 1
  · apply List.map_congr_left
    intro o ho
    cases o with
    | none => simp
    | some a =>
      have ha : a ∈ t.batches := BatchTable.mem_batches.2 ho
      by_cases hid : a.id = b.id
      · simp [h.eq ha hb hid, Option.filter]
      · have : a ≠ b := fun e => hid (by rw [e])
        simp [hid, this, Option.filter]
  · congr 1
    funext i
    by_cases hi : i = b.id <;> simp [hi]

@[simp] theorem BatchTable.dequeue_batches (t : BatchTable) (id : Byte) : (t.dequeue id).batches = t.batches := rfl
@[simp] theorem BatchTable.dequeue_slots (t : BatchTable) (id : Byte) : (t.dequeue id).slots = t.slots := rfl
@[simp] theorem BatchTable.dequeue_nextId (t : BatchTable) (id : Byte) : (t.dequeue id).nextId = t.nextId := rfl

/-! ### Opening (R30, R31, R35) -/

/-- Filling the first free slot adds the batch and keeps the others. -/
theorem mem_putFirstFree {b c : Batch} {l : List (Option Batch)} (h : l.any Option.isNone = true) :
    some c ∈ putFirstFree b l ↔ c = b ∨ some c ∈ l := by
  induction l with
  | nil => simp at h
  | cons o l ih =>
    cases o with
    | none => simp [putFirstFree]
    | some a =>
      have := ih (by simpa using h)
      simp only [putFirstFree, List.mem_cons, this, Option.some.injEq]
      tauto

@[simp] theorem putFirstFree_length (b : Batch) (l : List (Option Batch)) : (putFirstFree b l).length = l.length := by
  induction l with
  | nil => rfl
  | cons o l ih => cases o <;> simp [putFirstFree, ih]

/-- Filling the first free slot puts the batch somewhere among the others. -/
theorem putFirstFree_batches {b : Batch} {l : List (Option Batch)} (h : l.any Option.isNone = true) :
    ((putFirstFree b l).filterMap id).Perm (b :: l.filterMap id) := by
  induction l with
  | nil => simp at h
  | cons o l ih =>
    cases o with
    | none => simp [putFirstFree]
    | some a =>
      have := ih (by simpa using h)
      simp only [putFirstFree, List.filterMap_cons_some (f := id) (a := some a) (b := a) rfl]
      exact (List.Perm.cons a this).trans (List.Perm.swap b a _)

theorem freshId_of_not_holds {t : BatchTable} {n : Nat} {i : Byte} (h : t.holds i = false) : freshId t n i = i := by
  cases n <;> simp [freshId, h]

/-- An id that the search passes over is held. -/
theorem freshId_holds {t : BatchTable} {n : Nat} {i : Byte} (h : t.holds (freshId t n i) = true) :
    ∀ k ≤ n, t.holds (nextBatchId^[k] i) = true := by
  induction n generalizing i with
  | zero =>
    intro k hk
    obtain rfl : k = 0 := by omega
    simpa [freshId] using h
  | succ n ih =>
    by_cases hi : t.holds i = true
    · intro k hk
      cases k with
      | zero => simpa using hi
      | succ k =>
        have h' : t.holds (freshId t n (nextBatchId i)) = true := by simpa [freshId, hi] using h
        simpa using ih h' k (by omega)
    · have hi' : t.holds i = false := by simpa using hi
      rw [freshId_of_not_holds hi'] at h
      exact absurd h hi

end Sys2Proof.Machine
end

