-- ==== Sys2Proof/Laws/Ops.lean ====
section
/-! SUPPORT. The shared operations: when commands are taken, and what an arbiter decision, a watch check, a removal
notice and a charge can change. -/

namespace Sys2Proof.Machine

open Sys2Proof

/-! ### When commands are taken -/

theorem State.Awake.clocked {s : State} (h : s.Awake) : s.clocked = true := by
  simp [State.clocked, State.running, h]

theorem State.OutOfReset.running {s : State} (h : s.OutOfReset) : s.running = true := by
  simp [State.running, h]

theorem State.clocked_eq_true {s : State} : s.clocked = true ↔ s.Awake := by
  simp [State.clocked, State.running, State.Awake, State.OutOfReset]

theorem State.running_eq_true {s : State} : s.running = true ↔ s.OutOfReset := by
  simp [State.running, State.OutOfReset]

theorem State.takesRequests_eq_true {s : State} : s.takesRequests = true ↔ s.PortOpen := by
  simp [State.takesRequests, State.clocked_eq_true, State.PortOpen]

theorem State.PortOpen.takes {s : State} (h : s.PortOpen) : s.takesRequests = true := State.takesRequests_eq_true.2 h

/-- A request out of range is answered BAD_ARG and reaches no block (R171). -/
theorem State.PortOpen.handRequest_out {s : State} (h : s.PortOpen) (tag : Byte) (owner : State → Taken) :
    s.handRequest tag false owner = s.answered .badArg tag [] := by
  simp [State.handRequest, h.takes, State.answered, State.retain, State.endTransaction, MgmtPort.replied]

/-- A request in range is handed to its block, whose reply is retained (R172). -/
theorem State.PortOpen.handRequest_in {s : State} (h : s.PortOpen) (tag : Byte) (owner : State → Taken) :
    s.handRequest tag true owner =
      ((owner s.endTransaction).state.retain (owner s.endTransaction).status tag (owner s.endTransaction).payload) := by
  simp [State.handRequest, h.takes]

/-! ### Arbiter decisions (R100) -/

/-- What an arbiter decision can do: nothing, or grant the host, or grant the engine, from a free port. -/
theorem State.arbitrate_cases (s : State) :
    s.arbitrate = s ∨
    (∃ a, s.port.busy = none ∧ s.host.state = .memory a ∧ a.inFlight = false ∧
      s.arbitrate =
        { s with
          host := { s.host with state := .memory { a with inFlight := true } }
          port :=
            s.port.granted .host a.addr (decide (a.kind = .passWrite)) a.lanes a.data 0
              s.mgmt.settings.memTimeout.toNat }) ∨
    (∃ q, s.port.busy = none ∧ s.engine.access = .waiting q ∧
      (s.hostWaits = true → s.port.count < s.mgmt.settings.hostShare.toNat) ∧
      s.arbitrate =
        { s with
          engine := { s.engine with access := .inFlight q }
          port :=
            s.port.granted .engine q.addr (decide (q.kind = .recordWrite)) q.lanes q.data
              (if s.hostWaits then s.port.count + 1 else 0) s.mgmt.settings.memTimeout.toNat }) := by
  have hostCase : s.port.busy = none → s.hostWaits = true → s.arbitrate = s.grantHost →
      ∃ a, s.port.busy = none ∧ s.host.state = .memory a ∧ a.inFlight = false ∧
        s.arbitrate =
          { s with
            host := { s.host with state := .memory { a with inFlight := true } }
            port :=
              s.port.granted .host a.addr (decide (a.kind = .passWrite)) a.lanes a.data 0
                s.mgmt.settings.memTimeout.toNat } := by
    intro hb hw he
    cases hs : s.host.state with
    | memory a =>
      refine ⟨a, hb, rfl, by simpa [State.hostWaits, hs] using hw, ?_⟩
      simp [he, State.grantHost, hs, State.drive, MemPort.granted, Lanes.all]
    | idle => simp [State.hostWaits, hs] at hw
    | stalled w => simp [State.hostWaits, hs] at hw
    | reset => simp [State.hostWaits, hs] at hw
  cases hb : s.port.busy with
  | some w => exact .inl (by simp [State.arbitrate, hb])
  | none =>
    cases ha : s.engine.access with
    | waiting q =>
      by_cases hw : s.hostWaits = true ∧ s.mgmt.settings.hostShare.toNat ≤ s.port.count
      · refine .inr (.inl ?_)
        obtain ⟨a, -, h⟩ := hostCase hb hw.1 (by simp [State.arbitrate, hb, ha, hw])
        exact ⟨a, rfl, h⟩
      · refine .inr (.inr ⟨q, rfl, rfl, fun h => ?_, ?_⟩)
        · exact Nat.lt_of_not_le fun h' => hw ⟨h, h'⟩
        · have : s.arbitrate = s.grantEngine := by
            simp only [State.arbitrate, hb, ha]
            rw [if_neg (by simpa using hw)]
          simp [this, State.grantEngine, ha, State.drive, MemPort.granted, Lanes.all]
    | idle =>
      by_cases hw : s.hostWaits = true
      · refine .inr (.inl ?_)
        obtain ⟨a, -, h⟩ := hostCase hb hw (by simp [State.arbitrate, hb, ha, hw])
        exact ⟨a, rfl, h⟩
      · exact .inl (by simp [State.arbitrate, hb, ha, hw])
    | inFlight q =>
      by_cases hw : s.hostWaits = true
      · refine .inr (.inl ?_)
        obtain ⟨a, -, h⟩ := hostCase hb hw (by simp [State.arbitrate, hb, ha, hw])
        exact ⟨a, rfl, h⟩
      · exact .inl (by simp [State.arbitrate, hb, ha, hw])

theorem State.arbitrate_busy {s : State} (h : s.port.busy ≠ none) : s.arbitrate = s := by
  cases hb : s.port.busy with
  | none => exact absurd hb h
  | some w => simp [State.arbitrate, hb]

/-- With no request waiting there is nothing to decide. -/
theorem State.arbitrate_none {s : State} (h : ∀ q, s.engine.access ≠ .waiting q) (hw : s.hostWaits = false) :
    s.arbitrate = s := by
  rcases s.arbitrate_cases with h' | ⟨a, -, ha, hf, -⟩ | ⟨q, -, hq, -⟩
  · exact h'
  · simp [State.hostWaits, ha, hf] at hw
  · exact absurd hq (h q)

@[simp] theorem State.arbitrate_windows (s : State) : s.arbitrate.windows = s.windows := by
  rcases s.arbitrate_cases with h | ⟨a, -, -, -, h⟩ | ⟨q, -, -, -, h⟩ <;> rw [h]
@[simp] theorem State.arbitrate_log (s : State) : s.arbitrate.log = s.log := by
  rcases s.arbitrate_cases with h | ⟨a, -, -, -, h⟩ | ⟨q, -, -, -, h⟩ <;> rw [h]
@[simp] theorem State.arbitrate_table (s : State) : s.arbitrate.table = s.table := by
  rcases s.arbitrate_cases with h | ⟨a, -, -, -, h⟩ | ⟨q, -, -, -, h⟩ <;> rw [h]
@[simp] theorem State.arbitrate_unit (s : State) : s.arbitrate.unit = s.unit := by
  rcases s.arbitrate_cases with h | ⟨a, -, -, -, h⟩ | ⟨q, -, -, -, h⟩ <;> rw [h]
@[simp] theorem State.arbitrate_queue (s : State) : s.arbitrate.queue = s.queue := by
  rcases s.arbitrate_cases with h | ⟨a, -, -, -, h⟩ | ⟨q, -, -, -, h⟩ <;> rw [h]
@[simp] theorem State.arbitrate_watch (s : State) : s.arbitrate.watch = s.watch := by
  rcases s.arbitrate_cases with h | ⟨a, -, -, -, h⟩ | ⟨q, -, -, -, h⟩ <;> rw [h]
@[simp] theorem State.arbitrate_events (s : State) : s.arbitrate.events = s.events := by
  rcases s.arbitrate_cases with h | ⟨a, -, -, -, h⟩ | ⟨q, -, -, -, h⟩ <;> rw [h]
@[simp] theorem State.arbitrate_mgmt (s : State) : s.arbitrate.mgmt = s.mgmt := by
  rcases s.arbitrate_cases with h | ⟨a, -, -, -, h⟩ | ⟨q, -, -, -, h⟩ <;> rw [h]
@[simp] theorem State.arbitrate_power (s : State) : s.arbitrate.power = s.power := by
  rcases s.arbitrate_cases with h | ⟨a, -, -, -, h⟩ | ⟨q, -, -, -, h⟩ <;> rw [h]
@[simp] theorem State.arbitrate_waiting (s : State) : s.arbitrate.waiting = s.waiting := by
  rcases s.arbitrate_cases with h | ⟨a, -, -, -, h⟩ | ⟨q, -, -, -, h⟩ <;> rw [h]
@[simp] theorem State.arbitrate_freeCount (s : State) : s.arbitrate.freeCount = s.freeCount := by
  rcases s.arbitrate_cases with h | ⟨a, -, -, -, h⟩ | ⟨q, -, -, -, h⟩ <;> rw [h]
@[simp] theorem State.arbitrate_pending (s : State) : s.arbitrate.pending = s.pending := by
  rcases s.arbitrate_cases with h | ⟨a, -, -, -, h⟩ | ⟨q, -, -, -, h⟩ <;> rw [h]
@[simp] theorem State.arbitrate_active (s : State) : s.arbitrate.engine.active = s.engine.active := by
  rcases s.arbitrate_cases with h | ⟨a, -, -, -, h⟩ | ⟨q, -, -, -, h⟩ <;> rw [h]
@[simp] theorem State.arbitrate_grant (s : State) : s.arbitrate.engine.grant = s.engine.grant := by
  rcases s.arbitrate_cases with h | ⟨a, -, -, -, h⟩ | ⟨q, -, -, -, h⟩ <;> rw [h]
@[simp] theorem State.arbitrate_nextPos (s : State) : s.arbitrate.engine.nextPos = s.engine.nextPos := by
  rcases s.arbitrate_cases with h | ⟨a, -, -, -, h⟩ | ⟨q, -, -, -, h⟩ <;> rw [h]
@[simp] theorem State.arbitrate_abortPending (s : State) :
    s.arbitrate.engine.abortPending = s.engine.abortPending := by
  rcases s.arbitrate_cases with h | ⟨a, -, -, -, h⟩ | ⟨q, -, -, -, h⟩ <;> rw [h]
@[simp] theorem State.arbitrate_hold (s : State) : s.arbitrate.engine.hold = s.engine.hold := by
  rcases s.arbitrate_cases with h | ⟨a, -, -, -, h⟩ | ⟨q, -, -, -, h⟩ <;> rw [h]
@[simp] theorem State.arbitrate_hwait (s : State) : s.arbitrate.host.hwait = s.host.hwait := by
  rcases s.arbitrate_cases with h | ⟨a, -, -, -, h⟩ | ⟨q, -, -, -, h⟩ <;> rw [h]
@[simp] theorem State.arbitrate_stallTimer (s : State) : s.arbitrate.host.stallTimer = s.host.stallTimer := by
  rcases s.arbitrate_cases with h | ⟨a, -, -, -, h⟩ | ⟨q, -, -, -, h⟩ <;> rw [h]

/-- The request of the engine, waiting or in flight, stays the same over a decision. -/
@[simp] theorem State.arbitrate_request (s : State) :
    s.arbitrate.engine.access.request? = s.engine.access.request? := by
  rcases s.arbitrate_cases with h | ⟨a, -, -, -, h⟩ | ⟨q, -, hq, -, h⟩ <;> rw [h]
  simp [EngineAccess.request?, hq]

/-! ### Requests that arrive together (R100) -/

@[simp] theorem State.grantedNow?_eq_some {s : State} {q : EngineRequest} : s.grantedNow? = some q ↔ s.GrantedNow q := by
  simp only [State.grantedNow?, State.GrantedNow]
  cases s.engine.access with
  | inFlight r =>
    rw [Option.ite_none_right_eq_some]
    simp [and_comm]
  | _ => simp

/-- What the decision of two requests that arrive together can do: nothing, or, where the engine's grant is of this moment
and a host request waits, one decision with both waiting. -/
theorem State.decideTogether_cases (s : State) :
    s.decideTogether = s ∨
    ∃ q, s.GrantedNow q ∧ s.hostWaits = true ∧
      s.decideTogether =
        State.arbitrate
          { s with engine := { s.engine with access := .waiting q }, port := { s.port with busy := none } } := by
  unfold State.decideTogether
  split
  · rename_i q hq
    split
    · exact .inr ⟨q, State.grantedNow?_eq_some.mp hq, ‹_›, rfl⟩
    · exact .inl rfl
  · exact .inl rfl

theorem State.decideTogether_of_not_waits {s : State} (h : s.hostWaits = false) : s.decideTogether = s := by
  rcases s.decideTogether_cases with h' | ⟨-, -, hw, -⟩
  · exact h'
  · simp [h] at hw

theorem State.decideTogether_of_not_granted {s : State} (h : ∀ q, ¬ s.GrantedNow q) : s.decideTogether = s := by
  rcases s.decideTogether_cases with h' | ⟨q, hq, -⟩
  · exact h'
  · exact absurd hq (h q)

/-- With the count at 0, as it is while no host request waited before, the engine is granted and the count is 1 (R101). -/
theorem State.decideTogether_grants {s : State} {q : EngineRequest} (h : s.GrantedNow q) (hw : s.hostWaits = true)
    (hc : s.port.count = 0) (hk : 1 ≤ s.mgmt.settings.hostShare.toNat) :
    s.decideTogether =
      { s with
        port :=
          s.port.granted .engine q.addr (decide (q.kind = .recordWrite)) q.lanes q.data 1
            s.mgmt.settings.memTimeout.toNat } := by
  have hg : s.grantedNow? = some q := State.grantedNow?_eq_some.mpr h
  have he := h.1
  simp only [State.decideTogether, hg, hw, if_true, State.arbitrate]
  rw [if_neg (by simp [hc]; omega)]
  simp [State.grantEngine, State.drive, hc, MemPort.granted, Lanes.all, ← he]
  exact hw

/-! ### Watch checks (R144, R146) -/

/-- A watch check changes the watch list, and sets WATCH or no flag. -/
theorem State.watchCheck_eq (s : State) (a : Addr) (l : Lanes) (d : Word) :
    s.watchCheck a l d =
      { s with
        watch := s.watch.map fun e => e.check a l d
        events := if s.watch.any fun e => e.firesAt a l d then s.events.report .watch else s.events } := by
  simp only [State.watchCheck]
  split <;> rfl

/-! ### Charges (R64) -/

/-- A charge changes the open window alone. -/
theorem State.charge_eq (s : State) (g : Nat) :
    s.charge g =
      { s with
        unit :=
          { s.unit with
            window :=
              match s.unit.window with
              | .opened b r _ => .opened b (r - g) false
              | w => w } } := by
  simp only [State.charge]
  cases h : s.unit.window <;> simp [← h]

/-! ### Placements and removal notices (R8, R13) -/

/-- A placement changes the log and the batch table alone. -/
theorem State.place_eq (s : State) (a : Addr) (l : Lanes) (d : Word) :
    (s.place a l d).2 = { s with log := (s.place a l d).2.log, table := (s.place a l d).2.table } := by
  unfold State.place
  split
  · rfl
  · split
    · split
      · rfl
      · split <;> rfl
    · rfl

/-- The seal-on-last check of a placed write adds the batch id to the seals handed over, or nothing (R132). -/
theorem State.sealOnLastCheck_eq (s : State) (window : Option Nat) (a : Addr) (id : Byte) :
    s.sealOnLastCheck window a id =
      { s with
        waiting :=
          { s.waiting with
            sealsOnLast :=
              s.waiting.sealsOnLast ++
                match window.bind fun n => s.windows[n]? with
                | some e => if e.sealOnLast = true ∧ a = e.limit then [⟨id, s.table.opened⟩] else []
                | none => [] } } := by
  unfold State.sealOnLastCheck
  cases window.bind fun n => s.windows[n]? with
  | none => simp
  | some e => by_cases h : e.sealOnLast = true ∧ a = e.limit <;> simp [h]

/-- What a placed write becomes at the host port (R131). -/
theorem State.placed_eq (s : State) (window : Option Nat) (a : Addr) (id : Byte) :
    s.acceptWrite.sealOnLastCheck window a id = s.acceptPlaced (window.bind fun n => s.windows[n]?) a id := by
  rw [State.sealOnLastCheck_eq]
  rfl

/-- A removal notice changes nothing, or places the held write: the log, the table, the host port, and the seals handed
over. -/
theorem State.removalNotice_eq (s : State) :
    s.removalNotice =
      { s with
        host := s.removalNotice.host
        log := s.removalNotice.log
        table := s.removalNotice.table
        waiting := { s.waiting with sealsOnLast := s.removalNotice.waiting.sealsOnLast } } := by
  unfold State.removalNotice
  split
  · rename_i w hw
    cases hr : s.placeForHost w with
    | none => rfl
    | some t =>
      obtain ⟨u, id, hu, rfl⟩ : ∃ (u : State) (id : Byte), u = { s with log := u.log, table := u.table } ∧
          t = u.acceptPlaced (w.window.bind fun n => u.windows[n]?) w.addr id := by
        refine ⟨(s.place w.addr w.lanes w.data).2, ?_⟩
        unfold State.placeForHost at hr
        split at hr <;> rename_i hq
        · exact ⟨_, s.place_eq _ _ _, by rw [← Option.some.inj hr, State.placed_eq, hq]⟩
        · exact ⟨_, s.place_eq _ _ _, by rw [← Option.some.inj hr, State.placed_eq, hq]⟩
        · cases hr
      rw [hu]
      rfl
  · rfl

@[simp] theorem State.removalNotice_windows (s : State) : s.removalNotice.windows = s.windows := by
  rw [s.removalNotice_eq]
@[simp] theorem State.removalNotice_unit (s : State) : s.removalNotice.unit = s.unit := by rw [s.removalNotice_eq]
@[simp] theorem State.removalNotice_engine (s : State) : s.removalNotice.engine = s.engine := by
  rw [s.removalNotice_eq]
@[simp] theorem State.removalNotice_port (s : State) : s.removalNotice.port = s.port := by rw [s.removalNotice_eq]
@[simp] theorem State.removalNotice_queue (s : State) : s.removalNotice.queue = s.queue := by rw [s.removalNotice_eq]
@[simp] theorem State.removalNotice_watch (s : State) : s.removalNotice.watch = s.watch := by rw [s.removalNotice_eq]
@[simp] theorem State.removalNotice_events (s : State) : s.removalNotice.events = s.events := by
  rw [s.removalNotice_eq]
@[simp] theorem State.removalNotice_mgmt (s : State) : s.removalNotice.mgmt = s.mgmt := by rw [s.removalNotice_eq]
@[simp] theorem State.removalNotice_power (s : State) : s.removalNotice.power = s.power := by rw [s.removalNotice_eq]
@[simp] theorem State.removalNotice_freeCount (s : State) : s.removalNotice.freeCount = s.freeCount := by
  rw [s.removalNotice_eq]
@[simp] theorem State.removalNotice_pending (s : State) : s.removalNotice.pending = s.pending := by
  rw [s.removalNotice_eq]

end Sys2Proof.Machine
end

