-- ==== Sys2Proof/Laws/Log.lean ====
section
/-! SUPPORT. The staging log beside the batch table: a record is known by its batch and position, or batch and address,
and what a placement does (R5, R7, R8 to R12). -/

namespace Sys2Proof.Machine

open Sys2Proof

variable {s : State}

/-! ### Records -/

theorem mem_recordsOf {log : List Record} {id : Byte} {r : Record} : r ∈ recordsOf log id ↔ r ∈ log ∧ r.batch = id := by
  simp [recordsOf]

/-- Two records of one batch at one position are one (R6). -/
theorem State.LogOk.eq_of_pos (h : s.LogOk) {r r' : Record} (hr : r ∈ s.log) (hr' : r' ∈ s.log)
    (hb : r.batch = r'.batch) (hp : r.pos = r'.pos) : r = r' := by
  obtain ⟨b, hb1, hb2⟩ := h.owned r hr
  have hn : ((recordsOf s.log b.id).map Record.pos).Nodup := by rw [h.positions b hb1]; exact List.nodup_range
  exact List.inj_on_of_nodup_map hn (mem_recordsOf.2 ⟨hr, hb2.symm⟩) (mem_recordsOf.2 ⟨hr', by rw [← hb, hb2]⟩) hp

/-- Two records of one batch for one address are one (R7). -/
theorem State.LogOk.eq_of_addr (h : s.LogOk) {r r' : Record} (hr : r ∈ s.log) (hr' : r' ∈ s.log)
    (hb : r.batch = r'.batch) (ha : r.addr = r'.addr) : r = r' := by
  obtain ⟨b, hb1, hb2⟩ := h.owned r hr
  exact List.inj_on_of_nodup_map (h.addresses b hb1) (mem_recordsOf.2 ⟨hr, hb2.symm⟩)
    (mem_recordsOf.2 ⟨hr', by rw [← hb, hb2]⟩) ha

/-- A batch has a record at exactly the positions below its record count (R6). -/
theorem State.LogOk.exists_at (h : s.LogOk) {b : Batch} (hb : b ∈ s.table.batches) {n : Nat} :
    (∃ r ∈ s.log, r.batch = b.id ∧ r.pos = n) ↔ n < b.count := by
  have : n ∈ (recordsOf s.log b.id).map Record.pos ↔ n < b.count := by rw [h.positions b hb, List.mem_range]
  rw [← this, List.mem_map]
  simp only [mem_recordsOf, and_assoc]

theorem State.LogOk.recordAt_eq_some (h : s.LogOk) {id : Byte} {n : Nat} {r : Record} :
    recordAt s.log id n = some r ↔ r ∈ s.log ∧ r.batch = id ∧ r.pos = n := by
  constructor
  · intro hf
    have := List.find?_some hf
    simp at this
    exact ⟨List.mem_of_find?_eq_some hf, this⟩
  · rintro ⟨hr, hb, hp⟩
    cases hf : recordAt s.log id n with
    | none =>
      have := List.find?_eq_none.1 hf r hr
      simp [hb, hp] at this
    | some r' =>
      have h1 := List.mem_of_find?_eq_some hf
      have h2 := List.find?_some hf
      simp at h2
      rw [h.eq_of_pos h1 hr (by rw [h2.1, hb]) (by rw [h2.2, hp])]

/-- The mark set at a batch's position is the mark of the one record there (R15). -/
theorem State.LogOk.markApplied_eq (h : s.LogOk) {r : Record} (hr : r ∈ s.log) :
    markApplied s.log r.batch r.pos = s.log.map fun x => if x = r then { x with applied := true } else x := by
  apply List.map_congr_left
  intro x hx
  by_cases hxr : x = r
  · simp [hxr]
  · rw [if_neg hxr, if_neg]
    rintro ⟨h1, h2⟩
    exact hxr (h.eq_of_pos hx hr h1 h2)

/-! ### Placements (R8 to R12) -/

theorem State.TableOk.openBatch? (h : s.TableOk) {b : Batch} : s.table.openBatch? = some b ↔ s.Holds b .opened :=
  BatchTable.openBatch?_eq_some h.oneOpen

/-- The record that heads an address's chain belongs to the OPEN batch exactly when that batch has one (R8, R20). -/
theorem State.mergeTarget_eq_some (ht : s.TableOk) (hl : s.LogOk) {a : Addr} {id : Byte} :
    s.mergeTarget a = some id ↔ ∃ b r, s.Merges a b r ∧ b.id = id := by
  have head : (chain s.log a).head? = (s.log.filter fun r => decide (r.addr = a)).getLast? := by
    rw [chain, List.head?_reverse]
  constructor
  · intro h
    unfold State.mergeTarget at h
    split at h
    · rename_i b r hb hr
      split at h
      · rename_i hrb
        rw [head] at hr
        have hm := List.mem_of_getLast? hr
        simp at hm
        exact ⟨b, r, ⟨ht.openBatch?.1 hb, hm.1, hrb, hm.2⟩, by simpa using h⟩
      · cases h
    · cases h
  · rintro ⟨b, r, ⟨hb, hr, hrb, hra⟩, rfl⟩
    have hb' := ht.openBatch?.2 hb
    have hp : (s.log.filter fun r => decide (r.addr = a)).Pairwise fun r r' => r.batch = b.id → r'.batch = b.id :=
      (hl.openLast b hb.1 hb.2).filter _
    have hm : r ∈ s.log.filter fun r => decide (r.addr = a) := by simp [hr, hra]
    cases hx : (s.log.filter fun r => decide (r.addr = a)).getLast? with
    | none =>
      rw [List.getLast?_eq_none_iff.1 hx] at hm
      cases hm
    | some x =>
      have hxb : x.batch = b.id := by
        obtain ⟨l, hl'⟩ := List.getLast?_eq_some_iff.1 hx
        rw [hl'] at hm hp
        rcases List.mem_append.1 hm with h | h
        · exact (List.pairwise_append.1 hp).2.2 r h x (by simp) hrb
        · simp at h
          rw [← h, hrb]
      simp [State.mergeTarget, hb', head, hx, hxb]

theorem State.mergeTarget_eq_none (ht : s.TableOk) (hl : s.LogOk) {a : Addr} :
    s.mergeTarget a = none ↔ ∀ b r, ¬ s.Merges a b r := by
  constructor
  · intro h b r hm
    have := (State.mergeTarget_eq_some ht hl).2 ⟨b, r, hm, rfl⟩
    rw [h] at this
    cases this
  · intro h
    cases hx : s.mergeTarget a with
    | none => rfl
    | some id =>
      obtain ⟨b, r, hm, -⟩ := (State.mergeTarget_eq_some ht hl).1 hx
      exact absurd hm (h b r)

/-- The first id that no batch holds, from the next id on, is the one the search finds (R31). -/
theorem BatchTable.NextFree.freshId_eq {t : BatchTable} {k n : Nat} (h : t.NextFree k) (hk : k ≤ n) :
    freshId t n t.nextId = nextBatchId^[k] t.nextId := by
  have holds : ∀ i, t.holds i = true ↔ ∃ b ∈ t.batches, b.id = i := by simp [BatchTable.holds]
  have key : ∀ (k n : Nat) (i : Byte), k ≤ n → t.holds (nextBatchId^[k] i) = false →
      (∀ j < k, t.holds (nextBatchId^[j] i) = true) → freshId t n i = nextBatchId^[k] i := by
    intro k
    induction k with
    | zero => intro n i _ h0 _; exact freshId_of_not_holds h0
    | succ k ih =>
      intro n i hkn hn hj
      obtain ⟨n, rfl⟩ : ∃ m, n = m + 1 := ⟨n - 1, by omega⟩
      have h0 : t.holds i = true := hj 0 (by omega)
      simp only [freshId, h0, if_true, Function.iterate_succ_apply]
      exact ih n (nextBatchId i) (by omega) hn fun j hj' => hj (j + 1) (by omega)
  refine key k n t.nextId hk ?_ fun j hj => (holds _).2 (h.2 j hj)
  rw [← Bool.not_eq_true, holds]
  rintro ⟨b, hb, hid⟩
  exact h.1 b hb hid

/-- The lowest-numbered free slot is the one that is filled (R30). -/
theorem putFirstFree_eq_set {b : Batch} {l : List (Option Batch)} {k : Nat} (hk : l[k]? = some none)
    (hl : ∀ j < k, l[j]? ≠ some none) : putFirstFree b l = l.set k (some b) := by
  induction l generalizing k with
  | nil => simp at hk
  | cons o l ih =>
    cases k with
    | zero =>
      simp at hk
      simp [putFirstFree, hk]
    | succ k =>
      cases o with
      | none => exact absurd rfl (hl 0 (by omega))
      | some a =>
        simp only [putFirstFree, List.set_cons_succ]
        rw [ih (by simpa using hk) fun j hj => by simpa using hl (j + 1) (by omega)]

/-- Fewer than `n + 1` ids are held, so a free one stands among the next `n + 1` (R31). -/
theorem BatchTable.exists_nextFree {t : BatchTable} (h0 : t.nextId ≠ 0#8) (hn : t.batches.length ≤ 3) :
    ∃ k ≤ 3, t.NextFree k := by
  by_cases h : ∃ k ≤ 3, ∀ b ∈ t.batches, b.id ≠ nextBatchId^[k] t.nextId
  · classical
    have hf := Nat.find_spec h
    refine ⟨Nat.find h, hf.1, hf.2, fun j hj => ?_⟩
    by_contra hc
    apply Nat.find_min h hj
    exact ⟨by omega, fun b hb hid => hc ⟨b, hb, hid⟩⟩
  · exfalso
    have h' : ∀ k ≤ 3, ∃ b ∈ t.batches, b.id = nextBatchId^[k] t.nextId := by
      intro k hk
      by_contra hc
      exact h ⟨k, hk, fun b hb hid => hc ⟨b, hb, hid⟩⟩
    have hsub : (List.range 4).map (fun k => nextBatchId^[k] t.nextId) ⊆ t.batches.map Batch.id := by
      intro i hi
      obtain ⟨k, hk, rfl⟩ := List.mem_map.1 hi
      obtain ⟨b, hb, hid⟩ := h' k (by have := List.mem_range.1 hk; omega)
      exact List.mem_map.2 ⟨b, hb, hid⟩
    have hnd : ((List.range 4).map (fun k => nextBatchId^[k] t.nextId)).Nodup := by
      have : ∀ i : Byte, i ≠ 0#8 → ((List.range 4).map (fun k => nextBatchId^[k] i)).Nodup := by decide
      exact this _ h0
    have := (hnd.subperm hsub).length_le
    simp at this
    omega

/-- A free slot leaves at most three batches (R30). -/
theorem BatchTable.batches_length_le {t : BatchTable} (h4 : t.slots.length = 4) (hf : none ∈ t.slots) :
    t.batches.length ≤ 3 := by
  have : (t.slots.filterMap id).length < t.slots.length := by
    generalize t.slots = l at hf
    induction l with
    | nil => cases hf
    | cons o l ih =>
      cases o with
      | none => exact Nat.lt_succ_of_le (List.length_filterMap_le id l)
      | some a => exact Nat.succ_lt_succ (ih (by simpa using hf))
  have h2 : t.batches.length < t.slots.length := this
  omega

/-- A change of a batch just put into a free slot. -/
theorem BatchTable.update_opened {t : BatchTable} {slot : Nat} {b : Batch} (hs : t.slots[slot]? = some none)
    (hb : ∀ c ∈ t.batches, c.id ≠ b.id) (n : Byte) (q : List Byte) (o : Nat) (f : Batch → Batch) :
    (⟨t.slots.set slot (some b), n, q, o⟩ : BatchTable).update b.id f = ⟨t.slots.set slot (some (f b)), n, q, o⟩ := by
  simp only [BatchTable.update, BatchTable.mk.injEq, and_true]
  apply List.ext_getElem?
  intro j
  by_cases hj : j = slot
  · have hlt : slot < t.slots.length := by
      by_contra hc
      rw [List.getElem?_eq_none (by omega)] at hs
      cases hs
    subst hj
    simp [hlt]
  · simp only [List.getElem?_map]
    rw [List.getElem?_set_ne (Ne.symm hj), List.getElem?_set_ne (Ne.symm hj)]
    cases ho : t.slots[j]? with
    | none => rfl
    | some o =>
      cases o with
      | none => rfl
      | some c =>
        have := hb c (BatchTable.mem_batches.2 (List.mem_of_getElem? ho))
        simp [this]

/-- What a placement that succeeds is (R8 to R11). -/
theorem State.Placed.place_eq (ht : s.TableOk) (hl : s.LogOk) {a : Addr} {l : Lanes} {d : Word} {id : Byte} {t : State}
    (h : s.Placed a l d id t) :
    s.place a l d = (.merged id, t) ∨ ∃ n, s.place a l d = (.appended id n, t) := by
  cases h with
  | merged b r w hm hw =>
    left
    have := (State.mergeTarget_eq_some ht hl).2 ⟨b, r, hm, rfl⟩
    simp only [State.place, this, hw.eq]
    congr 2
    apply List.map_congr_left
    intro x hx
    by_cases hxr : x = r
    · simp [hxr, hm.2.2.1, hm.2.2.2]
    · rw [if_neg hxr, if_neg]
      rintro ⟨h1, h2⟩
      exact hxr (hl.eq_of_addr hx hm.2.1 (by rw [h1, hm.2.2.1]) (by rw [h2, hm.2.2.2]))
  | appended b w hb hn hf hw =>
    right
    have hmt : s.mergeTarget a = none := (State.mergeTarget_eq_none ht hl).2 fun b' r hm => by
      have := ht.oneOpen b' hm.1.1 b hb.1 hm.1.2 hb.2
      exact hn r (this ▸ hm)
    refine ⟨b.count, ?_⟩
    simp only [State.place, hmt, Config.logSlots, hf, if_true, ht.openBatch?.2 hb, State.appendTo, hw.eq,
      onLanes_eq_overlay, BatchTable.update_eq_replace ht.idsDistinct hb.1]
  | opened slot k w ho hf hs hlo hk hw =>
    right
    have hnone : s.table.openBatch? = none := BatchTable.openBatch?_eq_none.2 ho
    have hmt : s.mergeTarget a = none := (State.mergeTarget_eq_none ht hl).2 fun b' r hm => ho b' hm.1.1 hm.1.2
    have hany : s.table.slots.any Option.isNone = true := List.any_eq_true.2 ⟨none, List.mem_of_getElem? hs, rfl⟩
    have hk3 : k ≤ 4 := by
      by_contra hc
      obtain ⟨k', hk', hfree⟩ := BatchTable.exists_nextFree ht.nextIdNonzero
        (BatchTable.batches_length_le ht.fourSlots (List.mem_of_getElem? hs))
      obtain ⟨b, hb, hid⟩ := hk.2 k' (by omega)
      exact hfree.1 b hb hid
    refine ⟨0, ?_⟩
    simp only [State.place, hmt, Config.logSlots, hf, if_true, hnone, BatchTable.open?, hany, Config.batchSlots,
      hk.freshId_eq hk3, putFirstFree_eq_set hs hlo, State.appendTo, hw.eq, onLanes_eq_overlay, Batch.fresh]
    have hu := BatchTable.update_opened (b := ⟨nextBatchId^[k] s.table.nextId, .opened, 0, none, 0, 0, 0, none⟩) hs
      (fun c hc => hk.1 c hc) (nextBatchId (nextBatchId^[k] s.table.nextId)) s.table.sealedQueue (s.table.opened + 1)
      fun b => { b with count := b.count + 1 }
    simp only at hu
    rw [hu]

/-- A placement without space changes nothing (R12). -/
theorem State.NoSpace.place_eq (ht : s.TableOk) (hl : s.LogOk) {a : Addr} (h : s.NoSpace a) (l : Lanes) (d : Word) :
    s.place a l d = (.noSpace, s) := by
  have hmt : s.mergeTarget a = none := (State.mergeTarget_eq_none ht hl).2 h.1
  simp only [State.place, hmt, Config.logSlots]
  rcases h.2 with hf | ⟨ho, hs⟩
  · simp [hf]
  · have hany : s.table.slots.any Option.isNone = false := by
      rw [← Bool.not_eq_true, List.any_eq_true]
      rintro ⟨o, ho', hn⟩
      exact hs o ho' (by simpa using hn)
    simp [BatchTable.openBatch?_eq_none.2 ho, BatchTable.open?, hany]

/-- A placement succeeds or has no space (R8). -/
theorem State.placed_or_noSpace (ht : s.TableOk) (hl : s.LogOk) (a : Addr) (l : Lanes) (d : Word) :
    (∃ id t, s.Placed a l d id t) ∨ s.NoSpace a := by
  by_cases hm : ∃ b r, s.Merges a b r
  · obtain ⟨b, r, hm⟩ := hm
    exact .inl ⟨_, _, .merged b r _ hm (overlaid_overlay r.data l d)⟩
  · have hm' : ∀ b r, ¬ s.Merges a b r := fun b r h => hm ⟨b, r, h⟩
    by_cases hf : s.log.length < 256
    · by_cases ho : ∃ b, s.Holds b .opened
      · obtain ⟨b, hb⟩ := ho
        exact .inl ⟨_, _, .appended b _ hb (hm' b) hf (overlaid_overlay 0#32 l d)⟩
      · have ho' : ∀ b ∈ s.table.batches, b.state ≠ .opened := fun b hb h => ho ⟨b, hb, h⟩
        by_cases hs : none ∈ s.table.slots
        · obtain ⟨k, -, hk⟩ := BatchTable.exists_nextFree ht.nextIdNonzero
            (BatchTable.batches_length_le ht.fourSlots hs)
          classical
          have hex : ∃ j, s.table.slots[j]? = some none := List.mem_iff_getElem?.1 hs
          exact .inl ⟨_, _, .opened (Nat.find hex) k _ ho' hf (Nat.find_spec hex)
            (fun j hj => Nat.find_min hex hj) hk (overlaid_overlay 0#32 l d)⟩
        · exact .inr ⟨hm', .inr ⟨ho', fun o h1 h2 => hs (h2 ▸ h1)⟩⟩
    · have := hl.fits
      exact .inr ⟨hm', .inl (by simp only [Config.logSlots] at this; omega)⟩

/-! ### Removal notices (R13, R134) -/

theorem State.removalNotice_of_not_stalled (h : ∀ w, s.host.state ≠ .stalled w) : s.removalNotice = s := by
  unfold State.removalNotice
  split
  · rename_i w hw
    exact absurd hw (h w)
  · rfl

theorem State.Placed.placeForHost_eq (ht : s.TableOk) (hl : s.LogOk) {w : HeldWrite} {id : Byte} {t : State}
    (h : s.Placed w.addr w.lanes w.data id t) :
    s.placeForHost w = some (t.acceptPlaced (w.window.bind fun n => s.windows[n]?) w.addr id) := by
  have hw : t.windows = s.windows := by cases h <;> rfl
  rcases h.place_eq ht hl with hp | ⟨n, hp⟩ <;> simp [State.placeForHost, hp, State.placed_eq, hw]

theorem State.NoSpace.placeForHost_eq (ht : s.TableOk) (hl : s.LogOk) {w : HeldWrite} (h : s.NoSpace w.addr) :
    s.placeForHost w = none := by
  simp [State.placeForHost, h.place_eq ht hl]

end Sys2Proof.Machine
end

