-- ==== Sys2Proof/Laws/Engine.lean ====
section
/-! SUPPORT. The active batch: how it and its next record are found, what counting a record as applied does, and how a
batch leaves (R73, R85, R88, R96). -/

namespace Sys2Proof.Machine

open Sys2Proof

variable {s : State}

/-- The active batch is the one batch of the table in an active state (R34, R73). -/
theorem State.TableOk.activeBatch?_eq_some (h : s.TableOk) {b : Batch} :
    s.activeBatch? = some b ↔ b ∈ s.table.batches ∧ b.state.IsActive := by
  unfold State.activeBatch?
  constructor
  · intro hb
    cases ha : s.engine.active with
    | none => simp [ha] at hb
    | some i =>
      rw [ha, Option.bind_some] at hb
      have h1 := (BatchTable.find?_eq_some h.idsDistinct).1 hb
      obtain ⟨b', hb', hid, hact⟩ := h.activeInTable i (by simp [ha])
      have := BatchTable.Distinct.eq h.idsDistinct h1.1 hb' (by rw [h1.2, hid])
      subst this
      exact ⟨hb', hact⟩
  · rintro ⟨hb, ha⟩
    rw [h.activeHeld b hb ha, Option.bind_some]
    exact (BatchTable.find?_eq_some h.idsDistinct).2 ⟨hb, rfl⟩

theorem State.TableOk.activeBatch?_eq_none (h : s.TableOk) :
    s.activeBatch? = none ↔ ∀ b ∈ s.table.batches, ¬ b.state.IsActive := by
  constructor
  · intro hn b hb ha
    rw [h.activeBatch?_eq_some.2 ⟨hb, ha⟩] at hn
    cases hn
  · intro hn
    cases hb : s.activeBatch? with
    | none => rfl
    | some b =>
      have := h.activeBatch?_eq_some.1 hb
      exact absurd this.2 (hn b this.1)

theorem State.TableOk.activeBatch?_isNone (h : s.TableOk) : s.activeBatch? = none ↔ s.engine.active = none := by
  constructor
  · intro hn
    cases ha : s.engine.active with
    | none => rfl
    | some i =>
      obtain ⟨b, hb, -, hact⟩ := h.activeInTable i (by simp [ha])
      exact absurd hact (h.activeBatch?_eq_none.1 hn b hb)
  · intro ha
    simp [State.activeBatch?, ha]

/-- The record at the next record position (R73). -/
theorem State.Next.nextRecord? (hl : s.LogOk) {b : Batch} {r : Record} (h : s.Next b r) : s.nextRecord? = some r := by
  rw [State.nextRecord?, h.1, Option.bind_some]
  exact hl.recordAt_eq_some.2 ⟨h.2.1, h.2.2.1, h.2.2.2⟩

/-- Counting the next record as applied changes that record's mark and its batch's count alone (R85). -/
theorem State.countApplied_eq (ht : s.TableOk) (hl : s.LogOk) {b : Batch} {r : Record} (hb : b ∈ s.table.batches)
    (h : s.Next b r) : s.countApplied b.id r = s.withApplied b r := by
  rw [State.countApplied, State.withApplied, BatchTable.update_eq_replace ht.idsDistinct hb, ← h.2.2.1, ← h.2.2.2,
    hl.markApplied_eq h.2.1]

theorem dropRecords_eq (log : List Record) (id : Byte) :
    (log.filter fun r => decide (r.batch ≠ id)) = recordsWithout log id := by
  unfold recordsWithout
  congr 1
  funext r
  by_cases h : r.batch = id <;> simp [h]

/-- A placement depends on the log and the batch table alone. -/
theorem State.place_congr {u : State} (hl : u.log = s.log) (ht : u.table = s.table) (a : Addr) (l : Lanes) (d : Word) :
    u.place a l d =
      ((s.place a l d).1, { u with log := (s.place a l d).2.log, table := (s.place a l d).2.table }) := by
  have hm : u.mergeTarget a = s.mergeTarget a := by simp only [State.mergeTarget, hl, ht]
  unfold State.place
  rw [hm, hl, ht]
  cases s.mergeTarget a with
  | some id => simp
  | none =>
    by_cases hf : s.log.length < Config.logSlots
    · simp only [hf, if_true]
      cases s.table.openBatch? with
      | some b => simp [State.appendTo, hl, ht]
      | none =>
        cases s.table.open? with
        | some p => simp [State.appendTo]
        | none => simp [← hl, ← ht]
    · simp only [hf, if_false]
      rw [← hl, ← ht]

/-- A notice reads the host port, the log, the table and the windows alone. -/
theorem State.removalNotice_congr {u : State} (hh : u.host = s.host) (hl : u.log = s.log) (ht : u.table = s.table)
    (hw : u.windows = s.windows) :
    u.removalNotice =
      { u with
        host := s.removalNotice.host
        log := s.removalNotice.log
        table := s.removalNotice.table
        waiting :=
          { u.waiting with
            sealsOnLast :=
              u.waiting.sealsOnLast ++ s.removalNotice.waiting.sealsOnLast.drop s.waiting.sealsOnLast.length } } := by
  unfold State.removalNotice
  rw [hh]
  split
  · rename_i w _
    have hp := State.place_congr hl ht w.addr w.lanes w.data
    have hq := s.place_eq w.addr w.lanes w.data
    unfold State.placeForHost
    rw [hp]
    rcases hx : s.place w.addr w.lanes w.data with ⟨o, t⟩
    rw [hx] at hq
    simp only at hq
    have hth : t.host = s.host := by rw [hq]
    have htw : t.windows = s.windows := by rw [hq]
    have hts : t.waiting = s.waiting := by rw [hq]
    cases o with
    | merged id => simp [State.placed_eq, State.acceptPlaced, hh, hw, hth, htw, hts]
    | appended id n => simp [State.placed_eq, State.acceptPlaced, hh, hw, hth, htw, hts]
    | noSpace => simp only [← hh, ← hl, ← ht, List.drop_length, List.append_nil]
  · simp only [← hh, ← hl, ← ht, List.drop_length, List.append_nil]

/-- A notice and an admission attempt that follows commute. -/
theorem State.removalNotice_clearActive (s : State) : s.removalNotice.clearActive = s.clearActive.removalNotice := by
  rw [State.removalNotice_congr (s := s) (u := s.clearActive) rfl rfl rfl rfl, s.removalNotice_eq]
  have : s.removalNotice.waiting.sealsOnLast =
      s.waiting.sealsOnLast ++ s.removalNotice.waiting.sealsOnLast.drop s.waiting.sealsOnLast.length := by
    have h := State.removalNotice_congr (s := s) (u := s) rfl rfl rfl rfl
    have h2 := congrArg (fun x : State => x.waiting.sealsOnLast) h
    exact h2
  simp [State.clearActive, State.awaitAttempt, ← this]

/-- A notice leaves the host port as it is, or has it accept its held write (R134). -/
theorem State.removalNotice_host (s : State) :
    s.removalNotice.host = s.host ∨
      (∃ w, s.host.state = .stalled w) ∧
        s.removalNotice.host = { s.host with state := .idle, hwait := false, stallTimer := none } := by
  unfold State.removalNotice
  split
  · rename_i w hw
    have hq := s.place_eq w.addr w.lanes w.data
    unfold State.placeForHost
    rcases hx : s.place w.addr w.lanes w.data with ⟨o, t⟩
    rw [hx] at hq
    simp only at hq
    have hth : t.host = s.host := by rw [hq]
    cases o with
    | noSpace => exact .inl rfl
    | merged id => exact .inr ⟨⟨w, hw⟩, by simp [State.placed_eq, State.acceptPlaced, hth]⟩
    | appended id n => exact .inr ⟨⟨w, hw⟩, by simp [State.placed_eq, State.acceptPlaced, hth]⟩
  · exact .inl rfl

@[simp] theorem State.removalNotice_hostWaits (s : State) : s.removalNotice.hostWaits = s.hostWaits := by
  rcases s.removalNotice_host with h | ⟨⟨w, hw⟩, h⟩
  · simp [State.hostWaits, h]
  · simp [State.hostWaits, h, hw]

/-- No decision follows while the engine requests nothing and no host request waits at a free port. -/
theorem State.arbitrate_rest (h : ∀ q, s.engine.access ≠ .waiting q) (hw : s.port.busy = none → s.hostWaits = false) :
    s.arbitrate = s := by
  by_cases hb : s.port.busy = none
  · exact State.arbitrate_none h (hw hb)
  · exact State.arbitrate_busy hb

/-- A notice does not read the management port. -/
theorem State.removalNotice_withMgmt (s : State) (m : MgmtPort) :
    State.removalNotice { s with mgmt := m } = { s.removalNotice with mgmt := m } := by
  rw [State.removalNotice_congr (s := s) (u := { s with mgmt := m }) rfl rfl rfl rfl]
  have h := State.removalNotice_congr (s := s) (u := s) rfl rfl rfl rfl
  have h1 : s.removalNotice.waiting =
      { s.waiting with
        sealsOnLast :=
          s.waiting.sealsOnLast ++ s.removalNotice.waiting.sealsOnLast.drop s.waiting.sealsOnLast.length } :=
    congrArg (fun x : State => x.waiting) h
  rw [← h1]
  simp

/-! ### Leaving (R88, R96) -/

theorem State.entryFor_eq {b : Batch} {cause : SealCause} (h : b.cause = some cause) (o : BatchOutcome) :
    s.entryFor b o = s.entryOf b o cause := by
  simp [State.entryFor, State.entryOf, h]

theorem EventUnit.report_comm (e : EventUnit) (f g : EventFlag) : (e.report f).report g = (e.report g).report f := by
  simp only [EventUnit.report, EventUnit.settle, BitVec.or_assoc, BitVec.or_comm f.mask]

/-- What an abort's end leaves (R96). -/
theorem State.abortEnd_eq {b : Batch} {cause : SealCause} (hd : s.table.Distinct) (hb : b ∈ s.table.batches)
    (h : b.cause = some cause) : s.abortEnd b = s.abortEnded b cause := by
  have ht := BatchTable.remove_eq_without hd hb
  simp only [State.abortEnd, State.abortEnded, State.post, State.entryFor_eq h]
  split
  · simp only [State.clearActive, State.dropBatch, State.awaitAttempt, State.departed, State.report, dropRecords_eq, ht]
    rw [EventUnit.report_comm]
    rfl
  · simp only [State.clearActive, State.dropBatch, State.awaitAttempt, State.departed, State.report, dropRecords_eq, ht]
    rfl

/-- What a completion leaves before the notice (R88). -/
theorem State.complete_eq {b : Batch} {cause : SealCause} (hd : s.table.Distinct) (hb : b ∈ s.table.batches)
    (h : b.cause = some cause) :
    s.complete b =
      (s.departed b (if b.windowsUsed = 1#8 then .applied else .appliedTorn) cause).removalNotice := by
  have ht := BatchTable.remove_eq_without hd hb
  simp only [State.complete, State.removalNotice_clearActive]
  congr 1
  simp only [State.post, State.entryFor_eq h, State.clearActive, State.dropBatch, State.awaitAttempt, State.departed,
    State.report, dropRecords_eq, ht]
  rfl

theorem BatchTable.replace_batches {t : BatchTable} (h : t.Distinct) {b b' : Batch} (hb : b ∈ t.batches) :
    (t.replace b b').batches = t.batches.map fun c => if c = b then b' else c := by
  have e : t.replace b b' = t.update b.id fun _ => b' := (BatchTable.update_eq_replace h hb fun _ => b').symm
  rw [e, BatchTable.update_batches]
  apply List.map_congr_left
  intro c hc
  by_cases hcb : c = b
  · simp [hcb]
  · rw [if_neg hcb, if_neg]
    exact fun hid => hcb (h.eq hc hb hid)

theorem BatchTable.Distinct.replace {t : BatchTable} (h : t.Distinct) {b b' : Batch} (hb : b ∈ t.batches)
    (hid : b'.id = b.id) : (t.replace b b').Distinct := by
  rw [BatchTable.Distinct, BatchTable.replace_batches h hb, List.map_map]
  have : List.map (Batch.id ∘ fun c => if c = b then b' else c) t.batches = t.batches.map Batch.id := by
    apply List.map_congr_left
    intro c _
    by_cases hc : c = b <;> simp [hc, hid]
  rw [this]
  exact h

theorem BatchTable.find?_replace {t : BatchTable} (h : t.Distinct) {b b' : Batch} (hb : b ∈ t.batches)
    (hid : b'.id = b.id) : (t.replace b b').find? b.id = some b' := by
  refine (BatchTable.find?_eq_some (h.replace hb hid)).2 ⟨?_, hid⟩
  rw [BatchTable.replace_batches h hb]
  exact List.mem_map.2 ⟨b, hb, by simp⟩

theorem BatchTable.mem_replace {t : BatchTable} (h : t.Distinct) {b b' c : Batch} (hb : b ∈ t.batches) :
    c ∈ (t.replace b b').batches ↔ c = b' ∨ (c ∈ t.batches ∧ c ≠ b) := by
  rw [BatchTable.replace_batches h hb, List.mem_map]
  constructor
  · rintro ⟨a, ha, rfl⟩
    by_cases hab : a = b
    · simp [hab]
    · exact .inr (by simp [hab, ha])
  · rintro (rfl | ⟨hc, hcb⟩)
    · exact ⟨b, hb, by simp⟩
    · exact ⟨c, hc, by simp [hcb]⟩

/-- The batch `b` with one more record applied, in the table after a record of it is counted. -/
theorem State.withApplied_table (s : State) (b : Batch) (r : Record) :
    (s.withApplied b r).table = s.table.replace b { b with applied := b.applied + 1 } := by
  rw [State.withApplied, State.watchCheck_eq]

theorem State.withApplied_mem (ht : s.TableOk) {b : Batch} (hb : b ∈ s.table.batches) (r : Record) :
    (s.withApplied b r).table.Distinct ∧ { b with applied := b.applied + 1 } ∈ (s.withApplied b r).table.batches ∧
      (s.withApplied b r).table.find? b.id = some { b with applied := b.applied + 1 } := by
  rw [State.withApplied_table]
  exact ⟨BatchTable.Distinct.replace ht.idsDistinct hb rfl, (BatchTable.mem_replace ht.idsDistinct hb).2 (.inl rfl),
    BatchTable.find?_replace ht.idsDistinct hb rfl⟩

/-- The end of an abort does not read the engine (R96). -/
theorem State.abortEnded_withEngine (s : State) (e : Engine) (b : Batch) (cause : SealCause) :
    State.abortEnded { s with engine := e } b cause = s.abortEnded b cause := by
  simp only [State.abortEnded]
  split <;> rfl

/-! ### Aborts (R94) -/

theorem State.abortActive_rest (ht : s.TableOk) {b : Batch} {cause : SealCause} (hb : b ∈ s.table.batches)
    (hc : b.cause = some cause)
    (ha : s.engine.access = .idle ∨ ∃ q, s.engine.access = .waiting q ∧ q.kind = .recordWrite) :
    s.abortActive b = (true, s.abortEnded b cause) := by
  have hf : s.table.find? b.id = some b := (BatchTable.find?_eq_some ht.idsDistinct).2 ⟨hb, rfl⟩
  rcases ha with ha | ⟨q, ha, hk⟩
  · simp only [State.abortActive, ha, hf, State.abortEnd_eq ht.idsDistinct hb hc]
  · have : ∀ u : State, u.table = s.table → u.abortEnd b = u.abortEnded b cause := fun u hu =>
      State.abortEnd_eq (s := u) (by rw [hu]; exact ht.idsDistinct) (by rw [hu]; exact hb) hc
    simp only [State.abortActive, ha, hf, hk, this]
    rw [State.abortEnded_withEngine]

theorem State.abortActive_verify (ht : s.TableOk) (hl : s.LogOk) {b : Batch} {cause : SealCause} {r : Record}
    {q : EngineRequest} (hb : b ∈ s.table.batches) (hc : b.cause = some cause) (ha : s.engine.access = .waiting q)
    (hk : q.kind = .verifyRead) (hn : s.Next b r) :
    s.abortActive b = (true, (s.withApplied b r).abortEnded { b with applied := b.applied + 1 } cause) := by
  have hnr := hn.nextRecord? hl
  have hu : State.countApplied { s with engine := { s.engine with access := .idle } } b.id r =
      { s.withApplied b r with engine := { (s.withApplied b r).engine with access := .idle } } := by
    have h := State.countApplied_eq ht hl hb hn
    rw [State.countApplied, State.watchCheck_eq] at h ⊢
    rw [← h]
  have hw := State.withApplied_mem ht hb r
  have hnr' : State.nextRecord? { s with engine := { s.engine with access := .idle } } = some r := hnr
  simp only [State.abortActive, ha, hk, hnr', hu, hw.2.2]
  generalize s.withApplied b r = t at hw ⊢
  have he := State.abortEnd_eq (s := { t with engine := { t.engine with access := .idle } }) hw.1 hw.2.1 hc
  rw [he, State.abortEnded_withEngine]

theorem State.abortActive_inFlight (ht : s.TableOk) {b : Batch} {q : EngineRequest} (hb : b ∈ s.table.batches)
    (ha : s.engine.access = .inFlight q) :
    s.abortActive b =
      (false,
        { s with
          table := s.table.replace b { b with state := .aborting, faultPos := none }
          engine := { s.engine with abortPending := true } }) := by
  simp only [State.abortActive, ha, BatchTable.update_eq_replace ht.idsDistinct hb]

end Sys2Proof.Machine
end

