-- ==== Sys2Proof/Laws/Frames.lean ====
section
/-! SUPPORT. What the receive buffer holds after a run of bytes, and frames: their sum, their length, and what the checks
make of a received frame (R165, R167, R169). -/

namespace Sys2Proof.Machine

open Sys2Proof

/-! ### One byte in -/

@[simp] theorem MgmtPort.byteIn_buffer (m : MgmtPort) (b : Byte) :
    (m.byteIn b).buffer = if m.buffer.length < 36 then m.buffer ++ [b] else m.buffer := rfl

@[simp] theorem MgmtPort.byteIn_count (m : MgmtPort) (b : Byte) : (m.byteIn b).count = min (m.count + 1) 255 := rfl

@[simp] theorem MgmtPort.byteIn_overLong (m : MgmtPort) (b : Byte) :
    (m.byteIn b).overLong = (m.overLong || (m.beyondFrame && decide (b ≠ 0#8))) := rfl

@[simp] theorem MgmtPort.byteIn_state (m : MgmtPort) (b : Byte) : (m.byteIn b).state = m.state := rfl
@[simp] theorem MgmtPort.byteIn_bits (m : MgmtPort) (b : Byte) : (m.byteIn b).bits = m.bits := rfl
@[simp] theorem MgmtPort.byteIn_txPos (m : MgmtPort) (b : Byte) : (m.byteIn b).txPos = m.txPos := rfl
@[simp] theorem MgmtPort.byteIn_sdo (m : MgmtPort) (b : Byte) : (m.byteIn b).sdo = m.sdo := rfl
@[simp] theorem MgmtPort.byteIn_retained (m : MgmtPort) (b : Byte) : (m.byteIn b).retained = m.retained := rfl
@[simp] theorem MgmtPort.byteIn_scs (m : MgmtPort) (b : Byte) : (m.byteIn b).scs = m.scs := rfl
@[simp] theorem MgmtPort.byteIn_settings (m : MgmtPort) (b : Byte) : (m.byteIn b).settings = m.settings := rfl

/-! ### A run of bytes in -/

theorem MgmtPort.received_append (m : MgmtPort) (bytes : List Byte) (b : Byte) :
    m.received (bytes ++ [b]) = (m.received bytes).byteIn b := by
  simp [MgmtPort.received]

@[simp] theorem MgmtPort.received_state (m : MgmtPort) (bytes : List Byte) : (m.received bytes).state = m.state := by
  induction bytes using List.reverseRecOn with
  | nil => rfl
  | append_singleton bytes b ih => simp [MgmtPort.received_append, ih]

@[simp] theorem MgmtPort.received_bits (m : MgmtPort) (bytes : List Byte) : (m.received bytes).bits = [] := by
  induction bytes using List.reverseRecOn with
  | nil => rfl
  | append_singleton bytes b ih => simp [MgmtPort.received_append, ih]

@[simp] theorem MgmtPort.received_retained (m : MgmtPort) (bytes : List Byte) :
    (m.received bytes).retained = m.retained := by
  induction bytes using List.reverseRecOn with
  | nil => rfl
  | append_singleton bytes b ih => simp [MgmtPort.received_append, ih]

@[simp] theorem MgmtPort.received_settings (m : MgmtPort) (bytes : List Byte) :
    (m.received bytes).settings = m.settings := by
  induction bytes using List.reverseRecOn with
  | nil => rfl
  | append_singleton bytes b ih => simp [MgmtPort.received_append, ih]

/-- The buffer holds the first 36 bytes in (R165). -/
@[simp] theorem MgmtPort.received_buffer (m : MgmtPort) (bytes : List Byte) :
    (m.received bytes).buffer = bytes.take 36 := by
  induction bytes using List.reverseRecOn with
  | nil => rfl
  | append_singleton bytes b ih =>
    simp only [MgmtPort.received_append, MgmtPort.byteIn_buffer, ih, List.length_take, List.take_append]
    split
    · rw [List.take_of_length_le (l := [b]) (by simp; omega)]
    · rw [show 36 - bytes.length = 0 by omega]
      simp

/-- The count is the number of bytes in, saturating at 255 (R165). -/
@[simp] theorem MgmtPort.received_count (m : MgmtPort) (bytes : List Byte) :
    (m.received bytes).count = min bytes.length 255 := by
  induction bytes using List.reverseRecOn with
  | nil => rfl
  | append_singleton bytes b ih =>
    simp only [MgmtPort.received_append, MgmtPort.byteIn_count, ih, List.length_append, List.length_singleton]
    omega

/-- The over-long mark stands exactly when a byte other than 0x00 came in after the frame's check byte (R167). -/
theorem MgmtPort.received_overLong (m : MgmtPort) (code tag len : Byte) (rest : List Byte) (h : len.toNat ≤ 32) :
    (m.received (code :: tag :: len :: rest)).overLong = (rest.drop (1 + len.toNat)).any fun b => b ≠ 0#8 := by
  induction rest using List.reverseRecOn with
  | nil =>
    show ((((m.received []).byteIn code).byteIn tag).byteIn len).overLong = _
    simp [MgmtPort.beyondFrame]
    rfl
  | append_singleton rest b ih =>
    rw [show code :: tag :: len :: (rest ++ [b]) = (code :: tag :: len :: rest) ++ [b] by simp,
      MgmtPort.received_append, MgmtPort.byteIn_overLong, ih]
    simp only [MgmtPort.beyondFrame, MgmtPort.received_buffer, MgmtPort.received_count, List.length_cons]
    by_cases hle : 1 + len.toNat ≤ rest.length
    · rw [List.drop_append_of_le_length hle, List.any_append]
      have : 4 + len.toNat ≤ min (rest.length + 1 + 1 + 1) 255 := by omega
      simp [this]
    · rw [List.drop_eq_nil_of_le (as := rest) (by omega),
        List.drop_eq_nil_of_le (as := rest ++ [b]) (by simp; omega)]
      have : ¬ 4 + len.toNat ≤ min (rest.length + 1 + 1 + 1) 255 := by omega
      simp [this]

/-! ### Byte order (R190) -/

/-- Two bytes, most significant first, put together again. -/
@[simp] theorem of2_bytes (x : BitVec 16) : of2 (x.extractLsb' 8 8) (x.extractLsb' 0 8) = x := by
  unfold of2
  ext i hi
  simp only [BitVec.getElem_append, BitVec.getElem_extractLsb']
  split
  · simp [BitVec.getLsbD_eq_getElem, hi]
  · rw [← BitVec.getLsbD_eq_getElem]
    congr 1
    omega

/-- Three bytes, most significant first, put together again. -/
@[simp] theorem of3_bytes (x : BitVec 24) :
    of3 (x.extractLsb' 16 8) (x.extractLsb' 8 8) (x.extractLsb' 0 8) = x := by
  unfold of3
  ext i hi
  simp only [BitVec.getElem_append, BitVec.getElem_extractLsb']
  split
  · simp [BitVec.getLsbD_eq_getElem, hi]
  · split <;> (rw [← BitVec.getLsbD_eq_getElem]; congr 1; omega)

/-- Four bytes, most significant first, put together again. -/
@[simp] theorem of4_bytes (x : BitVec 32) :
    of4 (x.extractLsb' 24 8) (x.extractLsb' 16 8) (x.extractLsb' 8 8) (x.extractLsb' 0 8) = x := by
  unfold of4
  ext i hi
  simp only [BitVec.getElem_append, BitVec.getElem_extractLsb']
  split
  · simp [BitVec.getLsbD_eq_getElem, hi]
  · split
    · rw [← BitVec.getLsbD_eq_getElem]
      congr 1
      omega
    · split <;> (rw [← BitVec.getLsbD_eq_getElem]; congr 1; omega)

/-! ### Frames -/

@[simp] theorem byteSum_nil : byteSum [] = 0#8 := rfl

@[simp] theorem byteSum_cons (b : Byte) (l : List Byte) : byteSum (b :: l) = b + byteSum l := rfl

theorem byteSum_append (l l' : List Byte) : byteSum (l ++ l') = byteSum l + byteSum l' := by
  induction l with
  | nil => simp
  | cons b l ih => simp [ih, BitVec.add_assoc]

/-- The sum of bytes as a number, modulo 256. -/
theorem byteSum_toNat (l : List Byte) : (byteSum l).toNat = (l.map BitVec.toNat).sum % 256 := by
  induction l with
  | nil => rfl
  | cons b l ih => simp [ih]

/-- The check byte makes the sum of a frame 0 modulo 256 (R167). -/
theorem byteSum_frameOf (head tag : Byte) (payload : List Byte) : byteSum (frameOf head tag payload) = 0#8 := by
  simp only [frameOf, byteSum_append, byteSum_cons, byteSum_nil]
  bv_omega

/-- A frame is its head, tag, length, payload and check (R167). -/
theorem frameOf_eq (head tag : Byte) (payload : List Byte) :
    ∃ check, frameOf head tag payload = head :: tag :: BitVec.ofNat 8 payload.length :: (payload ++ [check]) :=
  ⟨_, rfl⟩

@[simp] theorem frameOf_length (head tag : Byte) (payload : List Byte) :
    (frameOf head tag payload).length = 4 + payload.length := by
  simp [frameOf]; omega

/-- A received frame of a catalogued code with its payload length, followed by fill, passes the checks of steps 1 to 4
(R169). -/
theorem checkFrame_received (m : MgmtPort) (code tag : Byte) (payload : List Byte) (fill : Nat) (i : Instr)
    (hcode : catalogueLength code = some payload.length) (hlen : payload.length ≤ 32)
    (hreq : requestOf code tag payload = some i) :
    (m.received (frameOf code tag payload ++ List.replicate fill 0#8)).checkFrame = .request i := by
  obtain ⟨check, hf⟩ := frameOf_eq code tag payload
  have hn : (BitVec.ofNat 8 payload.length).toNat = payload.length := by simp; omega
  have hsum := byteSum_frameOf code tag payload
  have htake : (frameOf code tag payload ++ List.replicate fill 0#8).take (4 + payload.length) =
      frameOf code tag payload := by
    rw [List.take_append_of_le_length (by simp)]
    simp
  have hover : (m.received (frameOf code tag payload ++ List.replicate fill 0#8)).overLong = false := by
    rw [hf]
    simp only [List.cons_append]
    rw [MgmtPort.received_overLong _ _ _ _ _ (by omega), hn]
    simp [List.drop_append]
    rw [List.drop_eq_nil_of_le (by omega)]
    simp
  have hbuf : (m.received (frameOf code tag payload ++ List.replicate fill 0#8)).buffer =
      code :: tag :: BitVec.ofNat 8 payload.length ::
        ((payload ++ [check]) ++ List.replicate fill 0#8).take 33 := by
    rw [MgmtPort.received_buffer, hf]
    simp
  have hcount : ¬ (m.received (frameOf code tag payload ++ List.replicate fill 0#8)).count < 4 + payload.length := by
    simp
    omega
  have hbufsum : byteSum
      ((m.received (frameOf code tag payload ++ List.replicate fill 0#8)).buffer.take (4 + payload.length)) = 0#8 := by
    rw [MgmtPort.received_buffer, List.take_take, min_eq_left (by omega), htake, hsum]
  have hrest : (((payload ++ [check]) ++ List.replicate fill 0#8).take 33).take payload.length = payload := by
    rw [List.take_take, min_eq_left (by omega), List.append_assoc, List.take_append_of_le_length (by simp)]
    simp
  unfold MgmtPort.checkFrame
  rw [hbuf] at hbufsum ⊢
  simp only [hn, hcount, hover, hcode, hrest, hreq, hbufsum]
  simp
  omega

end Sys2Proof.Machine
end

