-- ==== Sys2Proof/Laws/TableOk.lean ====
section
/-! SUPPORT. The batch table and the completion queue stay well formed over the shared operations (R30 to R34, R42, R44,
R109). -/

namespace Sys2Proof.Machine

open Sys2Proof

variable {s t : State}

/-! ### What the two properties read -/

/-- `TableOk` reads the table and which batch is active. -/
theorem State.TableOk.congr (h : s.TableOk) (ht : t.table = s.table) (ha : t.engine.active = s.engine.active) :
    t.TableOk where
  fourSlots := ht ▸ h.fourSlots
  idsDistinct := ht ▸ h.idsDistinct
  idsNonzero := ht ▸ h.idsNonzero
  nextIdNonzero := ht ▸ h.nextIdNonzero
  oneOpen := ht ▸ h.oneOpen
  queueDistinct := ht ▸ h.queueDistinct
  queueSealed := ht ▸ h.queueSealed
  sealedQueued := ht ▸ h.sealedQueued
  activeHeld := by rw [ht, ha]; exact h.activeHeld
  activeInTable := by rw [ht, ha]; exact h.activeInTable
  causeSet := ht ▸ h.causeSet

/-- `QueueOk` reads the queue and which batch is active. -/
theorem State.QueueOk.congr (h : s.QueueOk) (hq : t.queue = s.queue) (ha : t.engine.active = s.engine.active) :
    t.QueueOk := by
  unfold State.QueueOk
  rw [hq, ha]
  exact h

/-! ### A batch changed in its slot -/

/-- A change of a batch that keeps its id, its cause, and whether it is OPEN, SEALED or active. -/
theorem State.TableOk.replace (h : s.TableOk) {b b' : Batch} (hb : b ∈ s.table.batches) (hid : b'.id = b.id)
    (ho : b'.state = .opened ↔ b.state = .opened) (hs : b'.state = .sealed ↔ b.state = .sealed)
    (hc : b'.cause = b.cause) (ht : t.table = s.table.replace b b') (ha : t.engine.active = s.engine.active) :
    t.TableOk := by
  have hm : ∀ c, c ∈ (s.table.replace b b').batches ↔ c = b' ∨ (c ∈ s.table.batches ∧ c ≠ b) := fun c =>
    BatchTable.mem_replace h.idsDistinct hb
  constructor
  · rw [ht]
    simpa [BatchTable.replace] using h.fourSlots
  · rw [ht]
    exact BatchTable.Distinct.replace h.idsDistinct hb hid
  · rw [ht]
    intro c hc
    rcases (hm c).1 hc with rfl | ⟨hc, -⟩
    · rw [hid]
      exact h.idsNonzero b hb
    · exact h.idsNonzero c hc
  · rw [ht]
    exact h.nextIdNonzero
  · rw [ht]
    intro c hc d hd hco hdo
    rcases (hm c).1 hc with hce | ⟨hc, hcb⟩ <;> rcases (hm d).1 hd with hde | ⟨hd, hdb⟩
    · rw [hce, hde]
    · exact absurd (h.oneOpen d hd b hb hdo (ho.1 (hce ▸ hco))) hdb
    · exact absurd (h.oneOpen c hc b hb hco (ho.1 (hde ▸ hdo))) hcb
    · exact h.oneOpen c hc d hd hco hdo
  · rw [ht]
    exact h.queueDistinct
  · rw [ht]
    intro i hi
    obtain ⟨c, hc, hci, hcs⟩ := h.queueSealed i hi
    by_cases hcb : c = b
    · exact ⟨b', (hm b').2 (.inl rfl), by rw [hid, ← hci, hcb], hs.2 (hcb ▸ hcs)⟩
    · exact ⟨c, (hm c).2 (.inr ⟨hc, hcb⟩), hci, hcs⟩
  · rw [ht]
    intro c hc hcs
    rcases (hm c).1 hc with rfl | ⟨hc, -⟩
    · rw [hid]
      exact h.sealedQueued b hb (hs.1 hcs)
    · exact h.sealedQueued c hc hcs
  · rw [ht, ha]
    intro c hc hca
    rcases (hm c).1 hc with rfl | ⟨hc, -⟩
    · rw [hid]
      exact h.activeHeld b hb ⟨fun e => hca.1 (ho.2 e), fun e => hca.2 (hs.2 e)⟩
    · exact h.activeHeld c hc hca
  · rw [ht, ha]
    intro i hi
    obtain ⟨c, hc, hci, hca⟩ := h.activeInTable i hi
    by_cases hcb : c = b
    · refine ⟨b', (hm b').2 (.inl rfl), by rw [hid, ← hci, hcb], ?_⟩
      subst hcb
      exact ⟨fun e => hca.1 (ho.1 e), fun e => hca.2 (hs.1 e)⟩
    · exact ⟨c, (hm c).2 (.inr ⟨hc, hcb⟩), hci, hca⟩
  · rw [ht]
    intro c hcm
    rcases (hm c).1 hcm with rfl | ⟨hcm, -⟩
    · rw [hc, ho]
      exact h.causeSet b hb
    · exact h.causeSet c hcm

/-- A change of an active batch that leaves it active. -/
theorem State.TableOk.replace_active (h : s.TableOk) {b b' : Batch} (hb : b ∈ s.table.batches) (hba : b.state.IsActive)
    (hid : b'.id = b.id) (ha' : b'.state.IsActive) (hc : b'.cause = b.cause) (ht : t.table = s.table.replace b b')
    (ha : t.engine.active = s.engine.active) : t.TableOk :=
  h.replace hb hid (by simp [hba.1, ha'.1]) (by simp [hba.2, ha'.2]) hc ht ha

/-! ### A batch that leaves (R44) -/

/-- A batch out of the table: if it was the active one the engine holds none, else the same one. -/
theorem State.TableOk.without (h : s.TableOk) {b : Batch} (hb : b ∈ s.table.batches)
    (ht : t.table = s.table.without b)
    (ha : t.engine.active = if b.state = .opened ∨ b.state = .sealed then s.engine.active else none) : t.TableOk := by
  have hm : ∀ c, c ∈ (s.table.without b).batches ↔ c ∈ s.table.batches ∧ c.id ≠ b.id := fun c => by
    rw [← BatchTable.remove_eq_without h.idsDistinct hb, BatchTable.mem_remove]
  have hact : ∀ c ∈ s.table.batches, c.id ≠ b.id → c.state.IsActive → b.state = .opened ∨ b.state = .sealed := by
    intro c hc hid hca
    by_contra hn
    rw [not_or] at hn
    have h1 := h.activeHeld c hc hca
    rw [h.activeHeld b hb hn] at h1
    exact hid (Option.some.inj h1).symm
  constructor
  · rw [ht]
    simpa [BatchTable.without] using h.fourSlots
  · rw [ht, ← BatchTable.remove_eq_without h.idsDistinct hb, BatchTable.remove_batches]
    exact h.idsDistinct.sublist (List.filter_sublist.map _)
  · rw [ht]
    intro c hc
    exact h.idsNonzero c ((hm c).1 hc).1
  · rw [ht]
    exact h.nextIdNonzero
  · rw [ht]
    intro c hc d hd
    exact h.oneOpen c ((hm c).1 hc).1 d ((hm d).1 hd).1
  · rw [ht]
    exact h.queueDistinct.filter _
  · rw [ht]
    intro i hi
    rw [BatchTable.without, List.mem_filter] at hi
    obtain ⟨c, hc, hci, hcs⟩ := h.queueSealed i hi.1
    exact ⟨c, (hm c).2 ⟨hc, by rw [hci]; simpa using hi.2⟩, hci, hcs⟩
  · rw [ht]
    intro c hc hcs
    rw [BatchTable.without, List.mem_filter]
    exact ⟨h.sealedQueued c ((hm c).1 hc).1 hcs, by simpa using ((hm c).1 hc).2⟩
  · rw [ht, ha]
    intro c hc hca
    rw [if_pos (hact c ((hm c).1 hc).1 ((hm c).1 hc).2 hca)]
    exact h.activeHeld c ((hm c).1 hc).1 hca
  · rw [ht, ha]
    intro i hi
    by_cases hbs : b.state = .opened ∨ b.state = .sealed
    · rw [if_pos hbs] at hi
      obtain ⟨c, hc, hci, hca⟩ := h.activeInTable i hi
      refine ⟨c, (hm c).2 ⟨hc, fun hid => ?_⟩, hci, hca⟩
      rw [BatchTable.Distinct.eq h.idsDistinct hc hb hid] at hca
      rcases hbs with e | e
      · exact hca.1 e
      · exact hca.2 e
    · rw [if_neg hbs] at hi
      cases hi
  · rw [ht]
    intro c hc
    exact h.causeSet c ((hm c).1 hc).1

/-! ### Seals (R36, R42) -/

/-- A seal of the OPEN batch. -/
theorem State.TableOk.sealed (h : s.TableOk) {b : Batch} (hb : s.Holds b .opened) (cause : SealCause)
    (ht : t.table =
      { s.table.replace b { b with state := .sealed, cause := some cause } with
        sealedQueue := s.table.sealedQueue ++ [b.id] })
    (ha : t.engine.active = s.engine.active) : t.TableOk := by
  let b' : Batch := { b with state := .sealed, cause := some cause }
  have hm : ∀ c, c ∈ (s.table.replace b b').batches ↔ c = b' ∨ (c ∈ s.table.batches ∧ c ≠ b) := fun c =>
    BatchTable.mem_replace h.idsDistinct hb.1
  have hbat : t.table.batches = (s.table.replace b b').batches := by rw [ht]; rfl
  have hnq : b.id ∉ s.table.sealedQueue := by
    intro hi
    obtain ⟨c, hc, hci, hcs⟩ := h.queueSealed _ hi
    rw [BatchTable.Distinct.eq h.idsDistinct hc hb.1 hci, hb.2] at hcs
    cases hcs
  constructor
  · rw [ht]
    simpa [BatchTable.replace] using h.fourSlots
  · rw [hbat]
    exact BatchTable.Distinct.replace h.idsDistinct hb.1 rfl
  · rw [hbat]
    intro c hc
    rcases (hm c).1 hc with rfl | ⟨hc, -⟩
    · exact h.idsNonzero b hb.1
    · exact h.idsNonzero c hc
  · rw [ht]
    exact h.nextIdNonzero
  · rw [hbat]
    intro c hc d hd hco hdo
    rcases (hm c).1 hc with rfl | ⟨hc, hcb⟩
    · cases hco
    · rcases (hm d).1 hd with rfl | ⟨hd, hdb⟩
      · cases hdo
      · exact h.oneOpen c hc d hd hco hdo
  · rw [ht]
    exact List.nodup_append.2 ⟨h.queueDistinct, by simp, fun i hi j hj => by
      simp at hj
      rintro rfl
      exact hnq (hj ▸ hi)⟩
  · intro i hi
    rw [ht] at hi
    rw [hbat]
    rcases List.mem_append.1 hi with hi | hi
    · obtain ⟨c, hc, hci, hcs⟩ := h.queueSealed i hi
      refine ⟨c, (hm c).2 (.inr ⟨hc, ?_⟩), hci, hcs⟩
      rintro rfl
      rw [hb.2] at hcs
      cases hcs
    · exact ⟨b', (hm b').2 (.inl rfl), by simpa using (List.mem_singleton.1 hi).symm, rfl⟩
  · rw [hbat]
    intro c hc hcs
    rw [ht]
    rcases (hm c).1 hc with rfl | ⟨hc, -⟩
    · exact List.mem_append.2 (.inr (by simp [b']))
    · exact List.mem_append.2 (.inl (h.sealedQueued c hc hcs))
  · rw [hbat, ha]
    intro c hc hca
    rcases (hm c).1 hc with rfl | ⟨hc, -⟩
    · exact absurd rfl hca.2
    · exact h.activeHeld c hc hca
  · rw [hbat, ha]
    intro i hi
    obtain ⟨c, hc, hci, hca⟩ := h.activeInTable i hi
    refine ⟨c, (hm c).2 (.inr ⟨hc, ?_⟩), hci, hca⟩
    rintro rfl
    exact hca.1 hb.2
  · rw [hbat]
    intro c hc
    rcases (hm c).1 hc with rfl | ⟨hc, -⟩
    · simp [b']
    · exact h.causeSet c hc

theorem State.sealOpen_eq (h : s.TableOk) (cause : SealCause) :
    (∀ b, s.Holds b .opened →
      s.sealOpen cause =
        { s with
          table :=
            { s.table.replace b { b with state := .sealed, cause := some cause } with
              sealedQueue := s.table.sealedQueue ++ [b.id] }
          waiting := { s.waiting with attempts := s.waiting.attempts + 1 } }) ∧
    ((∀ b ∈ s.table.batches, b.state ≠ .opened) → s.sealOpen cause = s) := by
  refine ⟨fun b hb => ?_, fun hn => ?_⟩
  · simp only [State.sealOpen, h.openBatch?.2 hb, BatchTable.update_eq_replace h.idsDistinct hb.1]
    rfl
  · simp only [State.sealOpen, BatchTable.openBatch?_eq_none.2 hn]

theorem State.TableOk.sealOpen (h : s.TableOk) (cause : SealCause) : (s.sealOpen cause).TableOk := by
  by_cases ho : ∃ b, s.Holds b .opened
  · obtain ⟨b, hb⟩ := ho
    rw [(State.sealOpen_eq h cause).1 b hb]
    exact h.sealed hb cause rfl rfl
  · rw [(State.sealOpen_eq h cause).2 fun b hb hs => ho ⟨b, hb, hs⟩]
    exact h

/-! ### Placements (R10, R11, R31) -/

theorem nextBatchId_ne_zero {i : Byte} (h : i ≠ 0#8) : nextBatchId i ≠ 0#8 := by
  revert i
  decide

/-- A batch opened in the lowest-numbered free slot with the next free id (R30, R31, R35). -/
theorem State.TableOk.opened (h : s.TableOk) {b : Batch} {slot k : Nat} (hb : b.state = .opened)
    (hid : b.id = nextBatchId^[k] s.table.nextId) (hc : b.cause = none)
    (ho : ∀ b ∈ s.table.batches, b.state ≠ .opened) (hs : s.table.slots[slot]? = some none)
    (hk : s.table.NextFree k)
    (ht : t.table = ⟨s.table.slots.set slot (some b), nextBatchId b.id, s.table.sealedQueue, s.table.opened + 1⟩)
    (ha : t.engine.active = s.engine.active) : t.TableOk := by
  have hnz : ∀ k, nextBatchId^[k] s.table.nextId ≠ 0#8 := by
    intro k
    induction k with
    | zero => exact h.nextIdNonzero
    | succ k ih =>
      rw [Function.iterate_succ_apply']
      exact nextBatchId_ne_zero ih
  obtain ⟨l₁, l₂, hl, hlen⟩ : ∃ l₁ l₂, s.table.slots = l₁ ++ none :: l₂ ∧ l₁.length = slot := by
    have hlt : slot < s.table.slots.length := by
      by_contra hc
      rw [List.getElem?_eq_none (by omega)] at hs
      cases hs
    refine ⟨s.table.slots.take slot, s.table.slots.drop (slot + 1), ?_, by simp; omega⟩
    rw [List.getElem?_eq_getElem hlt] at hs
    rw [← Option.some.inj hs, List.cons_getElem_drop_succ, List.take_append_drop]
  have hset : s.table.slots.set slot (some b) = l₁ ++ some b :: l₂ := by
    rw [hl, ← hlen]
    simp
  have hbat : t.table.batches.Perm (b :: s.table.batches) := by
    rw [ht]
    simp only [BatchTable.batches, hset]
    rw [hl, List.filterMap_append, List.filterMap_append]
    exact List.perm_middle
  have hm : ∀ c, c ∈ t.table.batches ↔ c = b ∨ c ∈ s.table.batches := fun c => by
    rw [hbat.mem_iff, List.mem_cons]
  constructor
  · rw [ht]
    simpa using h.fourSlots
  · rw [(hbat.map Batch.id).nodup_iff]
    simp only [List.map_cons, List.nodup_cons, List.mem_map]
    refine ⟨?_, h.idsDistinct⟩
    rintro ⟨c, hc, hcid⟩
    exact hk.1 c hc (hcid.trans hid)
  · intro c hc
    rcases (hm c).1 hc with rfl | hc
    · rw [hid]
      exact hnz k
    · exact h.idsNonzero c hc
  · rw [ht]
    exact nextBatchId_ne_zero (by rw [hid]; exact hnz k)
  · intro c hc d hd hco hdo
    rcases (hm c).1 hc with rfl | hc
    · rcases (hm d).1 hd with rfl | hd
      · rfl
      · exact absurd hdo (ho d hd)
    · exact absurd hco (ho c hc)
  · rw [ht]
    exact h.queueDistinct
  · intro i hi
    rw [ht] at hi
    obtain ⟨c, hc, hci⟩ := h.queueSealed i hi
    exact ⟨c, (hm c).2 (.inr hc), hci⟩
  · intro c hc hcs
    rw [ht]
    rcases (hm c).1 hc with rfl | hc
    · rw [hb] at hcs
      cases hcs
    · exact h.sealedQueued c hc hcs
  · rw [ha]
    intro c hc hca
    rcases (hm c).1 hc with rfl | hc
    · exact absurd hb hca.1
    · exact h.activeHeld c hc hca
  · rw [ha]
    intro i hi
    obtain ⟨c, hc, hci⟩ := h.activeInTable i hi
    exact ⟨c, (hm c).2 (.inr hc), hci⟩
  · intro c hcm
    rcases (hm c).1 hcm with rfl | hcm
    · simp [hb, hc]
    · exact h.causeSet c hcm

/-- A placement keeps the table well formed, whatever the log. -/
theorem State.TableOk.place (h : s.TableOk) (a : Addr) (l : Lanes) (d : Word) : (s.place a l d).2.TableOk := by
  unfold State.place
  split
  · exact h.congr rfl rfl
  · split
    · split
      · rename_i b hb
        have hb' := BatchTable.mem_of_openBatch? hb
        exact h.replace (b := b) (b' := { b with count := b.count + 1 }) hb'.1 rfl Iff.rfl Iff.rfl rfl
          (BatchTable.update_eq_replace h.idsDistinct hb'.1 _) rfl
      · rename_i hn
        split
        · rename_i b u hbu
          unfold BatchTable.open? at hbu
          split at hbu
          · rename_i hany
            simp only [Option.some.injEq, Prod.mk.injEq] at hbu
            obtain ⟨rfl, rfl⟩ := hbu
            obtain ⟨o, ho, hon⟩ := List.any_eq_true.1 hany
            obtain rfl : o = none := by simpa using hon
            classical
            have hex : ∃ j, s.table.slots[j]? = some none := List.mem_iff_getElem?.1 ho
            obtain ⟨k, hk3, hk⟩ := BatchTable.exists_nextFree h.nextIdNonzero
              (BatchTable.batches_length_le h.fourSlots ho)
            have hfid := hk.freshId_eq (n := Config.batchSlots) (by simp [Config.batchSlots]; omega)
            have hset := putFirstFree_eq_set (b := Batch.fresh (nextBatchId^[k] s.table.nextId)) (Nat.find_spec hex)
              (fun j hj => Nat.find_min hex hj)
            refine h.opened (b := { Batch.fresh (nextBatchId^[k] s.table.nextId) with count := 1 }) (slot := Nat.find hex)
              (k := k) rfl rfl rfl (BatchTable.openBatch?_eq_none.1 hn) (Nat.find_spec hex) hk ?_ rfl
            simp only [State.appendTo, hfid, hset]
            exact BatchTable.update_opened (b := Batch.fresh (nextBatchId^[k] s.table.nextId)) (Nat.find_spec hex)
              (fun c hc => hk.1 c hc) _ _ _ fun b => { b with count := b.count + 1 }
          · cases hbu
        · exact h
    · exact h

/-- A notice keeps the table well formed. -/
theorem State.TableOk.removalNotice (h : s.TableOk) : s.removalNotice.TableOk := by
  unfold State.removalNotice
  split
  · rename_i w _
    have hp := h.place w.addr w.lanes w.data
    unfold State.placeForHost
    rcases hx : s.place w.addr w.lanes w.data with ⟨o, u⟩
    rw [hx] at hp
    cases o with
    | noSpace => exact h
    | merged id =>
      simp only [State.placed_eq]
      exact hp.congr rfl rfl
    | appended id n =>
      simp only [State.placed_eq]
      exact hp.congr rfl rfl
  · exact h

/-! ### Removals of unadmitted batches (R44, R49) -/

theorem State.dropBatch_of_mem (h : s.TableOk) {b : Batch} (hb : b ∈ s.table.batches) :
    s.dropBatch b.id = { s with table := s.table.without b, log := recordsWithout s.log b.id } := by
  simp only [State.dropBatch, dropRecords_eq, BatchTable.remove_eq_without h.idsDistinct hb]

theorem State.TableOk.dropBatch (h : s.TableOk) {b : Batch} (hb : b ∈ s.table.batches)
    (hs : b.state = .opened ∨ b.state = .sealed) : (s.dropBatch b.id).TableOk := by
  rw [State.dropBatch_of_mem h hb]
  exact h.without hb rfl (by rw [if_pos hs])

/-- What removing a run of batches leaves. -/
theorem State.foldl_dropBatch (s : State) (ids : List Byte) :
    ids.foldl State.dropBatch s =
      { s with
        table :=
          { s.table with
            slots := s.table.slots.map fun o => o.filter fun b => decide (b.id ∉ ids)
            sealedQueue := s.table.sealedQueue.filter fun i => decide (i ∉ ids) }
        log := s.log.filter fun r => decide (r.batch ∉ ids) } := by
  induction ids generalizing s with
  | nil =>
    have h1 : s.table.slots.map (fun o => o.filter fun _ => true) = s.table.slots := by
      conv_rhs => rw [← List.map_id s.table.slots]
      apply List.map_congr_left
      intro o _
      cases o <;> rfl
    simp [h1]
  | cons i ids ih =>
    rw [List.foldl_cons, ih]
    simp only [State.dropBatch, BatchTable.remove, List.map_map, List.filter_filter]
    congr 1
    · congr 1
      funext r
      by_cases h1 : r.batch = i <;> by_cases h2 : r.batch ∈ ids <;> simp_all
    · congr 1
      · apply List.map_congr_left
        intro o _
        cases o with
        | none => rfl
        | some b => by_cases hb : b.id = i <;> simp [Option.filter, hb]
      · congr 1
        funext j
        by_cases h1 : j = i <;> by_cases h2 : j ∈ ids <;> simp_all

theorem State.TableOk.mem_unadmitted (h : s.TableOk) {b : Batch} (hb : b ∈ s.table.batches) :
    b.id ∈ s.table.unadmitted ↔ b.state = .opened ∨ b.state = .sealed := by
  simp only [BatchTable.unadmitted, List.mem_map, List.mem_filter]
  constructor
  · rintro ⟨c, ⟨hc, hcs⟩, hid⟩
    rw [BatchTable.Distinct.eq h.idsDistinct hc hb hid] at hcs
    simpa using hcs
  · intro hs
    exact ⟨b, ⟨hb, by simpa using hs⟩, rfl⟩

/-- CLEAR's removals leave the active batch alone (R49). -/
theorem State.foldl_unadmitted (h : s.TableOk) (ho : ∀ r ∈ s.log, ∃ b ∈ s.table.batches, b.id = r.batch) :
    s.table.unadmitted.foldl State.dropBatch s = s.activeOnly := by
  rw [State.foldl_dropBatch, State.activeOnly]
  congr 1
  · apply List.filter_congr
    intro r hr
    obtain ⟨b, hb, hid⟩ := ho r hr
    rw [decide_eq_decide, ← hid, h.mem_unadmitted hb]
    constructor
    · intro hn
      exact h.activeHeld b hb (by rwa [not_or] at hn)
    · intro ha hn
      obtain ⟨c, hc, hcid, hca⟩ := h.activeInTable b.id (by simp [ha])
      rw [BatchTable.Distinct.eq h.idsDistinct hc hb hcid] at hca
      rcases hn with e | e
      · exact hca.1 e
      · exact hca.2 e
  · refine (BatchTable.mk.injEq ..).mpr ⟨?_, rfl, ?_, rfl⟩
    · apply List.map_congr_left
      intro o ho
      cases o with
      | none => rfl
      | some b =>
        have hb := BatchTable.mem_batches.2 ho
        simp only [Option.filter, h.mem_unadmitted hb, not_or]
    · rw [List.filter_eq_nil_iff]
      intro i hi
      obtain ⟨b, hb, hid, hs⟩ := h.queueSealed i hi
      simp [← hid, h.mem_unadmitted hb, hs]

end Sys2Proof.Machine
end

