-- ==== Sys2Proof/Laws/LogOk.lean ====
section
/-! SUPPORT. The staging log stays in step with the batch table over the shared operations (R1, R6, R7, R9 to R11, R15 to
R18). -/

namespace Sys2Proof.Machine

open Sys2Proof

variable {s t : State}

/-- `LogOk` reads the log, the table and the host port's state. -/
theorem State.LogOk.congr (h : s.LogOk) (hl : t.log = s.log) (ht : t.table.batches = s.table.batches)
    (hh : ∀ w, t.host.state = .stalled w → s.host.state = .stalled w) : t.LogOk where
  fits := hl ▸ h.fits
  owned := by rw [hl, ht]; exact h.owned
  lanesGiven := by rw [hl]; exact h.lanesGiven
  nonempty := by rw [ht]; exact h.nonempty
  positions := by rw [hl, ht]; exact h.positions
  addresses := by rw [hl, ht]; exact h.addresses
  openLast := by rw [hl, ht]; exact h.openLast
  marks := by rw [hl, ht]; exact h.marks
  appliedWithin := by rw [ht]; exact h.appliedWithin
  waitingUntouched := by rw [ht]; exact h.waitingUntouched
  heldLanes := fun w hw => h.heldLanes w (hh w hw)

/-- A held write of a port that comes to hold it. -/
theorem State.LogOk.withHost (h : s.LogOk) {hp : HostPort} (hh : ∀ w, hp.state = .stalled w → w.lanes ≠ 0#4) :
    State.LogOk { s with host := hp } where
  fits := h.fits
  owned := h.owned
  lanesGiven := h.lanesGiven
  nonempty := h.nonempty
  positions := h.positions
  addresses := h.addresses
  openLast := h.openLast
  marks := h.marks
  appliedWithin := h.appliedWithin
  waitingUntouched := h.waitingUntouched
  heldLanes := hh

/-! ### A batch changed, the log as it is -/

/-- A change of a batch that keeps its id, its counts and that it is not OPEN unless it was, with what an unadmitted batch
must have. -/
theorem State.LogOk.replace (h : s.LogOk) (hd : s.table.Distinct) {b b' : Batch} (hb : b ∈ s.table.batches)
    (hid : b'.id = b.id) (hc : b'.count = b.count) (ha : b'.applied = b.applied)
    (ho : b'.state = .opened → b.state = .opened)
    (hw : ¬ b'.state.IsActive → b'.applied = 0 ∧ b'.windowsUsed = 0 ∧ b'.halts = 0 ∧ b'.faultPos = none)
    (hl : t.log = s.log) (ht : t.table.batches = (s.table.replace b b').batches)
    (hh : ∀ w, t.host.state = .stalled w → s.host.state = .stalled w) : t.LogOk := by
  have hm : ∀ c, c ∈ t.table.batches ↔ c = b' ∨ (c ∈ s.table.batches ∧ c ≠ b) := fun c => by
    rw [ht]
    exact BatchTable.mem_replace hd hb
  constructor
  · exact hl ▸ h.fits
  · rw [hl]
    intro r hr
    obtain ⟨c, hc, hcid⟩ := h.owned r hr
    by_cases hcb : c = b
    · exact ⟨b', (hm b').2 (.inl rfl), by rw [hid, ← hcid, hcb]⟩
    · exact ⟨c, (hm c).2 (.inr ⟨hc, hcb⟩), hcid⟩
  · rw [hl]
    exact h.lanesGiven
  · intro c hcm
    rcases (hm c).1 hcm with rfl | ⟨hcm, -⟩
    · rw [hc]
      exact h.nonempty b hb
    · exact h.nonempty c hcm
  · rw [hl]
    intro c hcm
    rcases (hm c).1 hcm with rfl | ⟨hcm, -⟩
    · rw [hc, hid]
      exact h.positions b hb
    · exact h.positions c hcm
  · rw [hl]
    intro c hcm
    rcases (hm c).1 hcm with rfl | ⟨hcm, -⟩
    · rw [hid]
      exact h.addresses b hb
    · exact h.addresses c hcm
  · rw [hl]
    intro c hcm hco
    rcases (hm c).1 hcm with rfl | ⟨hcm, -⟩
    · rw [hid]
      exact h.openLast b hb (ho hco)
    · exact h.openLast c hcm hco
  · rw [hl]
    intro c hcm
    rcases (hm c).1 hcm with rfl | ⟨hcm, -⟩
    · rw [hid, ha]
      exact h.marks b hb
    · exact h.marks c hcm
  · intro c hcm
    rcases (hm c).1 hcm with rfl | ⟨hcm, -⟩
    · rw [hc, ha]
      exact h.appliedWithin b hb
    · exact h.appliedWithin c hcm
  · intro c hcm hn
    rcases (hm c).1 hcm with rfl | ⟨hcm, -⟩
    · exact hw hn
    · exact h.waitingUntouched c hcm hn
  · exact fun w hw => h.heldLanes w (hh w hw)

/-! ### Batches that leave (R17, R18) -/

theorem recordsOf_filter {log : List Record} {id : Byte} {p : Record → Bool}
    (h : ∀ r ∈ log, r.batch = id → p r = true) : recordsOf (log.filter p) id = recordsOf log id := by
  unfold recordsOf
  rw [List.filter_filter]
  apply List.filter_congr
  intro r hr
  by_cases hb : r.batch = id
  · simp [hb, h r hr hb]
  · simp [hb]

/-- Some of the batches leave, each with all its records. -/
theorem State.LogOk.filter (h : s.LogOk) {p : Record → Bool} (ht : ∀ b ∈ t.table.batches, b ∈ s.table.batches)
    (hl : t.log = s.log.filter p) (hin : ∀ b ∈ t.table.batches, ∀ r ∈ s.log, r.batch = b.id → p r = true)
    (hout : ∀ r ∈ s.log, p r = true → ∃ b ∈ t.table.batches, b.id = r.batch)
    (hh : ∀ w, t.host.state = .stalled w → s.host.state = .stalled w) : t.LogOk := by
  have hm : ∀ r, r ∈ t.log ↔ r ∈ s.log ∧ p r = true := fun r => by rw [hl, List.mem_filter]
  constructor
  · rw [hl]
    exact (List.length_filter_le _ _).trans h.fits
  · intro r hr
    exact hout r ((hm r).1 hr).1 ((hm r).1 hr).2
  · intro r hr
    exact h.lanesGiven r ((hm r).1 hr).1
  · intro b hb
    exact h.nonempty b (ht b hb)
  · intro b hb
    rw [hl, recordsOf_filter (hin b hb)]
    exact h.positions b (ht b hb)
  · intro b hb
    rw [hl, recordsOf_filter (hin b hb)]
    exact h.addresses b (ht b hb)
  · intro b hb hbo
    rw [hl]
    exact (h.openLast b (ht b hb) hbo).filter _
  · intro b hb r hr
    exact h.marks b (ht b hb) r ((hm r).1 hr).1
  · intro b hb
    exact h.appliedWithin b (ht b hb)
  · intro b hb
    exact h.waitingUntouched b (ht b hb)
  · exact fun w hw => h.heldLanes w (hh w hw)

/-- A batch leaves with its records (R17). -/
theorem State.LogOk.without (h : s.LogOk) (hd : s.table.Distinct) {b : Batch} (hb : b ∈ s.table.batches)
    (ht : t.table = s.table.without b) (hl : t.log = recordsWithout s.log b.id)
    (hh : ∀ w, t.host.state = .stalled w → s.host.state = .stalled w) : t.LogOk := by
  have hm : ∀ c, c ∈ t.table.batches ↔ c ∈ s.table.batches ∧ c.id ≠ b.id := fun c => by
    rw [ht, ← BatchTable.remove_eq_without hd hb, BatchTable.mem_remove]
  refine h.filter (fun c hc => ((hm c).1 hc).1) hl (fun c hc r _ hrc => ?_) (fun r hr hp => ?_) hh
  · simpa [hrc] using ((hm c).1 hc).2
  · obtain ⟨c, hc, hcid⟩ := h.owned r hr
    exact ⟨c, (hm c).2 ⟨hc, by rw [hcid]; simpa using hp⟩, hcid⟩

theorem State.activeOnly_batches (s : State) :
    s.activeOnly.table.batches = s.table.batches.filter fun b => decide (b.state ≠ .opened ∧ b.state ≠ .sealed) := by
  simp only [State.activeOnly, BatchTable.batches, List.filterMap_map]
  induction s.table.slots with
  | nil => rfl
  | cons o l ih =>
    cases o with
    | none => simpa using ih
    | some b => by_cases hb : b.state ≠ .opened ∧ b.state ≠ .sealed <;> simp_all [Option.filter]

theorem State.mem_activeOnly {b : Batch} : b ∈ s.activeOnly.table.batches ↔ b ∈ s.table.batches ∧ b.state.IsActive := by
  rw [State.activeOnly_batches, List.mem_filter, decide_eq_true_iff]

/-- CLEAR's removals leave a well-formed table. -/
theorem State.TableOk.activeOnly (h : s.TableOk) : s.activeOnly.TableOk := by
  constructor
  · have := h.fourSlots
    simpa [State.activeOnly] using this
  · rw [State.activeOnly_batches]
    exact h.idsDistinct.sublist (List.filter_sublist.map _)
  · intro b hb
    exact h.idsNonzero b (State.mem_activeOnly.1 hb).1
  · exact h.nextIdNonzero
  · intro b hb c hc
    exact h.oneOpen b (State.mem_activeOnly.1 hb).1 c (State.mem_activeOnly.1 hc).1
  · exact List.nodup_nil
  · intro i hi
    cases hi
  · intro b hb hs
    exact absurd hs (State.mem_activeOnly.1 hb).2.2
  · intro b hb
    exact h.activeHeld b (State.mem_activeOnly.1 hb).1
  · intro i hi
    obtain ⟨b, hb, hid, ha⟩ := h.activeInTable i hi
    exact ⟨b, State.mem_activeOnly.2 ⟨hb, ha⟩, hid, ha⟩
  · intro b hb
    exact h.causeSet b (State.mem_activeOnly.1 hb).1

/-- CLEAR's removals leave a log in step with the table. -/
theorem State.LogOk.activeOnly (h : s.LogOk) (ht : s.TableOk) : s.activeOnly.LogOk := by
  refine h.filter (p := fun r => decide (s.engine.active = some r.batch)) (fun b hb => (State.mem_activeOnly.1 hb).1) rfl
    (fun b hb r _ hrb => ?_) (fun r hr hp => ?_) fun w hw => hw
  · have hb := State.mem_activeOnly.1 hb
    simpa [hrb] using ht.activeHeld b hb.1 hb.2
  · obtain ⟨b, hb, hid, ha⟩ := ht.activeInTable r.batch (by simpa using hp)
    exact ⟨b, State.mem_activeOnly.2 ⟨hb, ha⟩, hid⟩

/-! ### Placements (R9 to R11) -/

/-- A merge of a staged write (R9). -/
theorem State.LogOk.merged (h : s.LogOk) {a : Addr} {l : Lanes} {d w : Word} {b : Batch} {r : Record}
    (hm : s.Merges a b r) (hw : Overlaid w r.data l d)
    (hl : t.log = s.log.map fun x => if x = r then { x with lanes := x.lanes ||| l, data := w } else x)
    (ht : t.table.batches = s.table.batches) (hh : ∀ w, t.host.state = .stalled w → s.host.state = .stalled w) :
    t.LogOk := by
  let f : Record → Record := fun x => if x = r then { x with lanes := x.lanes ||| l, data := w } else x
  have hfb : ∀ x, (f x).batch = x.batch := fun x => by by_cases hx : x = r <;> simp [f, hx]
  have hfp : ∀ x, (f x).pos = x.pos := fun x => by by_cases hx : x = r <;> simp [f, hx]
  have hfa : ∀ x, (f x).addr = x.addr := fun x => by by_cases hx : x = r <;> simp [f, hx]
  have hfm : ∀ x, (f x).applied = x.applied := fun x => by by_cases hx : x = r <;> simp [f, hx]
  have hl : t.log = s.log.map f := hl
  have hrec : ∀ id, recordsOf t.log id = (recordsOf s.log id).map f := fun id => by
    rw [hl, recordsOf, recordsOf, List.filter_map]
    congr 2
    funext x
    simp [hfb]
  constructor
  · rw [hl, List.length_map]
    exact h.fits
  · rw [hl, ht]
    intro x hx
    obtain ⟨y, hy, rfl⟩ := List.mem_map.1 hx
    rw [hfb]
    exact h.owned y hy
  · rw [hl]
    intro x hx
    obtain ⟨y, hy, rfl⟩ := List.mem_map.1 hx
    have hyl := h.lanesGiven y hy
    by_cases hyr : y = r
    · subst hyr
      have hx : f y = { y with lanes := y.lanes ||| l, data := w } := if_pos rfl
      rw [hx]
      refine ⟨fun h0 => hyl.1 ?_, ?_⟩
      · apply BitVec.eq_of_getLsbD_eq
        intro i hi
        have := congrArg (fun v : Lanes => v.getLsbD i) h0
        simp only [BitVec.getLsbD_or, BitVec.getLsbD_zero, Bool.or_eq_false_iff] at this
        rw [this.1, BitVec.getLsbD_zero]
      · rw [onLanes_eq_overlay]
        apply word_eq_of_laneByte
        intro n hn
        rw [overlaid_overlay _ _ _ n hn]
        by_cases hb : (y.lanes ||| l).getLsbD n = true
        · rw [if_pos hb]
        · rw [if_neg hb, hw n hn]
          rw [BitVec.getLsbD_or, Bool.or_eq_true, not_or] at hb
          rw [if_neg hb.2]
          have := overlaid_overlay 0#32 y.lanes y.data n hn
          rw [← onLanes_eq_overlay, hyl.2, if_neg hb.1] at this
          exact this.symm
    · have hx : f y = y := if_neg hyr
      rw [hx]
      exact hyl
  · rw [ht]
    exact h.nonempty
  · rw [ht]
    intro c hc
    rw [hrec, List.map_map, show Record.pos ∘ f = Record.pos from funext hfp]
    exact h.positions c hc
  · rw [ht]
    intro c hc
    rw [hrec, List.map_map, show Record.addr ∘ f = Record.addr from funext hfa]
    exact h.addresses c hc
  · rw [hl, ht]
    intro c hc hco
    rw [List.pairwise_map]
    simp only [hfb]
    exact h.openLast c hc hco
  · rw [hl, ht]
    intro c hc x hx
    obtain ⟨y, hy, rfl⟩ := List.mem_map.1 hx
    rw [hfb, hfm, hfp]
    exact h.marks c hc y hy
  · rw [ht]
    exact h.appliedWithin
  · rw [ht]
    exact h.waitingUntouched
  · exact fun w hw => h.heldLanes w (hh w hw)

/-- A record put at the end of the log for a batch whose count rises by one, which is or becomes the OPEN batch
(R10, R11). -/
theorem State.LogOk.appended (h : s.LogOk) {b' : Batch} {n : Nat} {x : Record} (hf : s.log.length < 256)
    (hm : ∀ c, c ∈ t.table.batches ↔ c = b' ∨ (c ∈ s.table.batches ∧ c.id ≠ b'.id))
    (hb : (∀ c ∈ s.table.batches, c.id ≠ b'.id) ∧ n = 0 ∨
      ∃ b ∈ s.table.batches, b.id = b'.id ∧ b.count = n ∧ b.state = .opened)
    (ho : b'.state = .opened) (hc : b'.count = n + 1) (ha : b'.applied = 0) (hu : b'.windowsUsed = 0) (hh : b'.halts = 0)
    (hfp : b'.faultPos = none) (hoo : ∀ c ∈ t.table.batches, c.state = .opened → c = b')
    (hxb : x.batch = b'.id) (hxp : x.pos = n) (hxa : x.applied = false) (hxl : x.lanes ≠ 0#4)
    (hxd : onLanes x.lanes x.data = x.data)
    (hnew : ∀ r ∈ s.log, r.batch = b'.id → r.addr ≠ x.addr) (hl : t.log = s.log ++ [x])
    (hst : ∀ w, t.host.state = .stalled w → s.host.state = .stalled w) : t.LogOk := by
  have hrecs : recordsOf t.log b'.id = recordsOf s.log b'.id ++ [x] := by
    rw [hl, recordsOf, List.filter_append]
    simp [recordsOf, hxb]
  have hother : ∀ id, id ≠ b'.id → recordsOf t.log id = recordsOf s.log id := fun id hid => by
    rw [hl, recordsOf, List.filter_append]
    have : ¬ x.batch = id := fun e => hid (by rw [← e, hxb])
    simp [recordsOf, this]
  have hold : (recordsOf s.log b'.id).map Record.pos = List.range n := by
    rcases hb with ⟨hno, hn⟩ | ⟨b, hbm, hid, hbc, -⟩
    · have : recordsOf s.log b'.id = [] := by
        rw [recordsOf, List.filter_eq_nil_iff]
        intro r hr he
        obtain ⟨c, hc, hcid⟩ := h.owned r hr
        exact hno c hc (by rw [hcid]; simpa using he)
      rw [this, hn]
      rfl
    · rw [← hid, h.positions b hbm, hbc]
  constructor
  · rw [hl, List.length_append]
    simp only [Config.logSlots, List.length_singleton]
    omega
  · rw [hl]
    intro r hr
    rcases List.mem_append.1 hr with hr | hr
    · obtain ⟨c, hc, hcid⟩ := h.owned r hr
      by_cases hcb : c.id = b'.id
      · exact ⟨b', (hm b').2 (.inl rfl), by rw [← hcb, hcid]⟩
      · exact ⟨c, (hm c).2 (.inr ⟨hc, hcb⟩), hcid⟩
    · rw [List.mem_singleton.1 hr]
      exact ⟨b', (hm b').2 (.inl rfl), hxb.symm⟩
  · rw [hl]
    intro r hr
    rcases List.mem_append.1 hr with hr | hr
    · exact h.lanesGiven r hr
    · rw [List.mem_singleton.1 hr]
      exact ⟨hxl, hxd⟩
  · intro c hcm
    rcases (hm c).1 hcm with rfl | ⟨hcm, -⟩
    · omega
    · exact h.nonempty c hcm
  · intro c hcm
    rcases (hm c).1 hcm with rfl | ⟨hcm, hid⟩
    · rw [hrecs, List.map_append, hold, hc, List.range_succ, List.map_singleton, hxp]
    · rw [hother _ hid]
      exact h.positions c hcm
  · intro c hcm
    rcases (hm c).1 hcm with rfl | ⟨hcm, hid⟩
    · rw [hrecs, List.map_append, List.nodup_append]
      refine ⟨?_, by simp, fun a ha a' ha' => ?_⟩
      · rcases hb with ⟨hno, hn⟩ | ⟨b, hbm, hid, -⟩
        · have := congrArg List.length hold
          rw [hn] at this
          simp at this
          rw [this]
          exact List.nodup_nil
        · rw [← hid]
          exact h.addresses b hbm
      · obtain ⟨r, hr, rfl⟩ := List.mem_map.1 ha
        rw [mem_recordsOf] at hr
        simp only [List.map_singleton, List.mem_singleton] at ha'
        rw [ha']
        exact hnew r hr.1 hr.2
    · rw [hother _ hid]
      exact h.addresses c hcm
  · intro c hcm hco
    have hcb := hoo c hcm hco
    rw [hl, List.pairwise_append]
    refine ⟨?_, List.pairwise_singleton _ _, fun r _ r' hr' _ => ?_⟩
    · rcases hb with ⟨hno, -⟩ | ⟨b, hbm, hid, -, hbo⟩
      · apply List.pairwise_of_forall_mem_list
        intro r hr r' _ he
        obtain ⟨e, he', heid⟩ := h.owned r hr
        exact absurd (heid.trans (he.trans (by rw [hcb]))) (hno e he')
      · rw [hcb, ← hid]
        exact h.openLast b hbm hbo
    · rw [List.mem_singleton.1 hr', hxb, hcb]
  · intro c hcm r hr hrc
    rw [hl] at hr
    rcases (hm c).1 hcm with rfl | ⟨hcm', hid⟩
    · rw [ha]
      rcases List.mem_append.1 hr with hr | hr
      · rcases hb with ⟨hno, -⟩ | ⟨b, hbm, hid, -, hbo⟩
        · obtain ⟨e, he', heid⟩ := h.owned r hr
          exact absurd (heid.trans hrc) (hno e he')
        · have hb0 := (h.waitingUntouched b hbm (fun hact => hact.1 hbo)).1
          have := h.marks b hbm r hr (hrc.trans hid.symm)
          rw [hb0] at this
          exact this
      · rw [List.mem_singleton.1 hr]
        simp [hxa]
    · rcases List.mem_append.1 hr with hr | hr
      · exact h.marks c hcm' r hr hrc
      · rw [List.mem_singleton.1 hr, hxb] at hrc
        exact absurd hrc.symm hid
  · intro c hcm
    rcases (hm c).1 hcm with rfl | ⟨hcm, -⟩
    · omega
    · exact h.appliedWithin c hcm
  · intro c hcm hn
    rcases (hm c).1 hcm with rfl | ⟨hcm, -⟩
    · exact ⟨ha, hu, hh, hfp⟩
    · exact h.waitingUntouched c hcm hn
  · exact fun w hw => h.heldLanes w (hst w hw)

/-- A placement keeps the log in step with the table. -/
theorem State.Placed.logOk (ht : s.TableOk) (h : s.LogOk) {a : Addr} {l : Lanes} {d : Word} {id : Byte}
    (hl : l ≠ 0#4) (hp : s.Placed a l d id t) : t.LogOk := by
  have hgiven : ∀ w, Overlaid w 0#32 l d → onLanes l w = w := fun w hw => by
    rw [onLanes_eq_overlay]
    apply word_eq_of_laneByte
    intro n hn
    rw [overlaid_overlay _ _ _ n hn]
    split
    · rfl
    · rw [hw n hn, if_neg ‹_›]
  cases hp with
  | merged b r w hm hw => exact h.merged hm hw rfl rfl fun w hw => hw
  | appended b w hb hn hf hw =>
    have hm : ∀ c, c ∈ (s.table.replace b { b with count := b.count + 1 }).batches ↔
        c = { b with count := b.count + 1 } ∨ (c ∈ s.table.batches ∧ c.id ≠ b.id) := fun c => by
      rw [BatchTable.mem_replace ht.idsDistinct hb.1]
      refine or_congr_right (and_congr_right fun hc => not_congr ⟨fun e => by rw [e], fun e => ?_⟩)
      exact BatchTable.Distinct.eq ht.idsDistinct hc hb.1 e
    have hu := h.waitingUntouched b hb.1 fun hact => hact.1 hb.2
    refine h.appended (b' := { b with count := b.count + 1 }) (n := b.count) hf hm
      (.inr ⟨b, hb.1, rfl, rfl, hb.2⟩) hb.2 rfl hu.1 hu.2.1 hu.2.2.1 hu.2.2.2 (fun c hc hco => ?_) rfl rfl rfl hl
      (hgiven w hw) (fun r hr hrb hra => hn r ⟨hb, hr, hrb, hra⟩) rfl fun w hw => hw
    rcases (hm c).1 hc with e | ⟨hc, hid⟩
    · exact e
    · exact absurd (congrArg Batch.id (ht.oneOpen c hc b hb.1 hco hb.2)) hid
  | opened slot k w ho hf hs hlo hk hw =>
    let i : Byte := nextBatchId^[k] s.table.nextId
    have hok : State.TableOk { s with table := ⟨s.table.slots.set slot (some ⟨i, .opened, 1, none, 0, 0, 0, none⟩),
        nextBatchId i, s.table.sealedQueue, s.table.opened + 1⟩ } := ht.opened rfl rfl rfl ho hs hk rfl rfl
    have hm : ∀ c, c ∈ (⟨s.table.slots.set slot (some ⟨i, .opened, 1, none, 0, 0, 0, none⟩), nextBatchId i,
        s.table.sealedQueue, s.table.opened + 1⟩ : BatchTable).batches ↔
        c = ⟨i, .opened, 1, none, 0, 0, 0, none⟩ ∨ (c ∈ s.table.batches ∧ c.id ≠ i) := fun c => by
      have hlt : slot < s.table.slots.length := by
        by_contra hc
        rw [List.getElem?_eq_none (by omega)] at hs
        cases hs
      rw [BatchTable.mem_batches, BatchTable.mem_batches]
      constructor
      · intro hc
        obtain ⟨j, hj⟩ := List.mem_iff_getElem?.1 hc
        by_cases hjs : j = slot
        · subst hjs
          simp [hlt] at hj
          exact .inl hj.symm
        · rw [List.getElem?_set_ne (Ne.symm hjs)] at hj
          have hcm := List.mem_of_getElem? hj
          exact .inr ⟨hcm, hk.1 c (BatchTable.mem_batches.2 hcm)⟩
      · rintro (rfl | ⟨hc, -⟩)
        · exact List.mem_iff_getElem?.2 ⟨slot, by simp [hlt]⟩
        · obtain ⟨j, hj⟩ := List.mem_iff_getElem?.1 hc
          refine List.mem_iff_getElem?.2 ⟨j, ?_⟩
          rw [List.getElem?_set_ne]
          · exact hj
          · rintro rfl
            rw [hs] at hj
            cases hj
    refine h.appended (b' := ⟨i, .opened, 1, none, 0, 0, 0, none⟩) (n := 0) hf hm
      (.inl ⟨fun c hc => hk.1 c hc, rfl⟩) rfl rfl rfl rfl rfl rfl (fun c hc hco => ?_) rfl rfl rfl hl (hgiven w hw)
      (fun r hr hrb => ?_) rfl fun w hw => hw
    · rcases (hm c).1 hc with e | ⟨hc, -⟩
      · exact e
      · exact absurd hco (ho c hc)
    · obtain ⟨c, hc, hcid⟩ := h.owned r hr
      exact absurd (hcid.trans hrb) (hk.1 c hc)

/-- A removal notice keeps the log in step with the table. -/
theorem State.LogOk.removalNotice (h : s.LogOk) (ht : s.TableOk) : s.removalNotice.LogOk := by
  unfold State.removalNotice
  split
  · rename_i w hw
    rcases State.placed_or_noSpace ht h w.addr w.lanes w.data with ⟨id, u, hp⟩ | hn
    · rw [hp.placeForHost_eq ht h]
      exact (hp.logOk ht h (h.heldLanes w hw)).congr rfl rfl (fun _ hs => by cases hs)
    · rw [hn.placeForHost_eq ht h]
      exact h
  · exact h

/-! ### Applied records (R15) -/

/-- The next record of the active batch counted as applied. -/
theorem State.LogOk.withApplied (h : s.LogOk) (ht : s.TableOk) {b : Batch} {r : Record} (hb : b ∈ s.table.batches)
    (hba : b.state.IsActive) (hr : s.Next b r) (hn : s.engine.nextPos = b.applied) (hu : b.applied < b.count)
    (hl : t.log = s.log.map fun x => if x = r then { x with applied := true } else x)
    (htab : t.table.batches = (s.table.replace b { b with applied := b.applied + 1 }).batches)
    (hh : ∀ w, t.host.state = .stalled w → s.host.state = .stalled w) : t.LogOk := by
  let f : Record → Record := fun x => if x = r then { x with applied := true } else x
  have hfb : ∀ x, (f x).batch = x.batch := fun x => by by_cases hx : x = r <;> simp [f, hx]
  have hfp : ∀ x, (f x).pos = x.pos := fun x => by by_cases hx : x = r <;> simp [f, hx]
  have hfa : ∀ x, (f x).addr = x.addr := fun x => by by_cases hx : x = r <;> simp [f, hx]
  have hfl : ∀ x, (f x).lanes = x.lanes := fun x => by by_cases hx : x = r <;> simp [f, hx]
  have hfd : ∀ x, (f x).data = x.data := fun x => by by_cases hx : x = r <;> simp [f, hx]
  have hl : t.log = s.log.map f := hl
  have hrec : ∀ id, recordsOf t.log id = (recordsOf s.log id).map f := fun id => by
    rw [hl, recordsOf, recordsOf, List.filter_map]
    congr 2
    funext x
    simp [hfb]
  have hm : ∀ c, c ∈ t.table.batches ↔ c = { b with applied := b.applied + 1 } ∨ (c ∈ s.table.batches ∧ c ≠ b) := by
    intro c
    rw [htab]
    exact BatchTable.mem_replace ht.idsDistinct hb
  constructor
  · rw [hl, List.length_map]
    exact h.fits
  · rw [hl]
    intro x hx
    obtain ⟨y, hy, rfl⟩ := List.mem_map.1 hx
    rw [hfb]
    obtain ⟨c, hc, hcid⟩ := h.owned y hy
    by_cases hcb : c = b
    · exact ⟨_, (hm _).2 (.inl rfl), by rw [← hcid, hcb]⟩
    · exact ⟨c, (hm c).2 (.inr ⟨hc, hcb⟩), hcid⟩
  · rw [hl]
    intro x hx
    obtain ⟨y, hy, rfl⟩ := List.mem_map.1 hx
    rw [hfl, hfd]
    exact h.lanesGiven y hy
  · intro c hc
    rcases (hm c).1 hc with rfl | ⟨hc, -⟩
    · exact h.nonempty b hb
    · exact h.nonempty c hc
  · intro c hc
    rw [hrec, List.map_map, show Record.pos ∘ f = Record.pos from funext hfp]
    rcases (hm c).1 hc with rfl | ⟨hc, -⟩
    · exact h.positions b hb
    · exact h.positions c hc
  · intro c hc
    rw [hrec, List.map_map, show Record.addr ∘ f = Record.addr from funext hfa]
    rcases (hm c).1 hc with rfl | ⟨hc, -⟩
    · exact h.addresses b hb
    · exact h.addresses c hc
  · intro c hc hco
    rw [hl, List.pairwise_map]
    simp only [hfb]
    rcases (hm c).1 hc with rfl | ⟨hc, -⟩
    · exact absurd hco hba.1
    · exact h.openLast c hc hco
  · intro c hc x hx hxc
    rw [hl] at hx
    obtain ⟨y, hy, rfl⟩ := List.mem_map.1 hx
    rw [hfb] at hxc
    rw [hfp]
    rcases (hm c).1 hc with rfl | ⟨hc, hcb⟩
    · by_cases hyr : y = r
      · have hfy : (f y).applied = true := by simp [f, hyr]
        have : y.pos = b.applied := by rw [hyr, hr.2.2.2, hn]
        rw [hfy, this]
        simp
      · have hfy : (f y).applied = y.applied := by simp [f, hyr]
        have hne : y.pos ≠ b.applied := fun e =>
          hyr (h.eq_of_pos hy hr.2.1 (by rw [hr.2.2.1]; exact hxc) (by rw [hr.2.2.2, hn, e]))
        rw [hfy, h.marks b hb y hy hxc]
        simp only
        omega
    · have hyr : y ≠ r := by
        rintro rfl
        exact hcb (BatchTable.Distinct.eq ht.idsDistinct hc hb (by rw [← hxc, hr.2.2.1]))
      have hfy : (f y).applied = y.applied := by simp [f, hyr]
      rw [hfy]
      exact h.marks c hc y hy hxc
  · intro c hc
    rcases (hm c).1 hc with rfl | ⟨hc, -⟩
    · exact hu
    · exact h.appliedWithin c hc
  · intro c hc hna
    rcases (hm c).1 hc with rfl | ⟨hc, -⟩
    · exact absurd hba hna
    · exact h.waitingUntouched c hc hna
  · exact fun w hw => h.heldLanes w (hh w hw)

end Sys2Proof.Machine
end

