-- ==== Sys2Proof/Tests/Slice0.lean ====
section
/-! SUPPORT. The model's own tests: the argument check refuses each ill-formed request, one or two small facts per command
worked out by hand from the manual, and for each statement with hypotheses a witness that meets them. -/

open Sys2Proof Sys2Proof.Machine

namespace Sys2Proof.Tests

/-! ### Well-formedness: each check of Table 9-2 refuses (R171) -/

/-- The settings record of 9.8, T7: TIMER, the other fields as after pin reset. -/
def timerRaw : RawSettings where
  tickSource := 2#8
  frameOptions := 0x02#8
  prescale := 1#8
  frameTimeout := 100000#24
  period := 16667#24
  budget := 64#16
  windowLength := 0#24
  batchOptions := 0x01#8
  hostShare := 4#8
  stallTimeout := 1000#24
  memTimeout := 100#16
  refdiv := 25#8

theorem test_wf_config : (Instr.setConfig 0 timerRaw).wellFormed = true := by decide
theorem test_wf_tick_source : (Instr.setConfig 0 { timerRaw with tickSource := 3 }).wellFormed = false := by decide
theorem test_wf_prescale :
    (Instr.setConfig 0 { timerRaw with prescale := 0 }).wellFormed = false ∧
      (Instr.setConfig 0 { timerRaw with prescale := 65 }).wellFormed = false := by decide
theorem test_wf_frame_timeout : (Instr.setConfig 0 { timerRaw with frameTimeout := 0 }).wellFormed = false := by decide
theorem test_wf_period : (Instr.setConfig 0 { timerRaw with period := 15 }).wellFormed = false := by decide
theorem test_wf_budget :
    (Instr.setConfig 0 { timerRaw with budget := 0 }).wellFormed = false ∧
      (Instr.setConfig 0 { timerRaw with budget := 257 }).wellFormed = false := by decide
theorem test_wf_host_share :
    (Instr.setConfig 0 { timerRaw with hostShare := 0 }).wellFormed = false ∧
      (Instr.setConfig 0 { timerRaw with hostShare := 17 }).wellFormed = false := by decide
theorem test_wf_mem_timeout : (Instr.setConfig 0 { timerRaw with memTimeout := 0 }).wellFormed = false := by decide
theorem test_wf_refdiv : (Instr.setConfig 0 { timerRaw with refdiv := 0 }).wellFormed = false := by decide
theorem test_wf_window_number : (Instr.getWindow 0 8).wellFormed = false ∧
    (Instr.setWindow 0 8 0x81 0 0).wellFormed = false := by decide
theorem test_wf_window_policy : (Instr.setWindow 0 0 0x83 0 0).wellFormed = false := by decide
theorem test_wf_window_range : (Instr.setWindow 0 0 0x81 0 0x400000).wellFormed = false ∧
    (Instr.setWindow 0 0 0x81 2 1).wellFormed = false := by decide
theorem test_wf_window_attributes : (Instr.setWindow 0 0 0x84 0 0).wellFormed = false ∧
    (Instr.setWindow 0 0 0x8A 0 0).wellFormed = false ∧ (Instr.setWindow 0 7 0x8D 0 0x3FFFFF).wellFormed = true := by
  decide
theorem test_wf_watch : (Instr.getWatch 0 16).wellFormed = false ∧ (Instr.setWatch 0 16 0 0 0 0).wellFormed = false ∧
    (Instr.setWatch 0 0 0 0x400000 0 0).wellFormed = false := by decide
theorem test_wf_freeze : (Instr.freeze 0 0).wellFormed = false ∧ (Instr.freeze 0 1).wellFormed = true := by decide
theorem test_wf_ack_events : (Instr.ackEvents 0 0 2).wellFormed = false := by decide
theorem test_wf_lookup : (Instr.lookup 0 0x400000).wellFormed = false ∧ (Instr.lookup 0 0x3FFFFF).wellFormed = true := by
  decide

/-! ### Small states -/

/-- Whether a command answers a next state of which `p` holds. -/
def after (c : Instr) (s : State) (p : State → Bool) : Bool :=
  match exec c s with
  | .next t => p t
  | _ => false

/-- The reply retained after a command is this one. -/
def replies (c : Instr) (s : State) (reply : List Byte) : Bool := after c s fun t => decide (t.mgmt.retained = reply)

/-- The part right after a pin reset. -/
abbrev fresh : State := State.reset

/-- A transaction has begun. -/
def receiving : State := { fresh with mgmt := { fresh.mgmt with state := .receiving, scs := true, sdo := some false } }

/-- Window 0 is STAGE over the addresses 1000 to 1063, with its attributes as given. -/
def windowed (verify sealOnLast : Bool) : State :=
  { fresh with windows := ⟨true, 1000#22, 1063#22, .stage, verify, sealOnLast⟩ :: fresh.windows.tail }

/-- Two records of batch 7: the whole word 1000, and lane 0 of 1001. -/
def twoRecords : List Record :=
  [⟨1000#22, 0xF#4, 0x11223344#32, 7#8, 0, false⟩, ⟨1001#22, 0x1#4, 0xAA#32, 7#8, 1, false⟩]

/-- Batch 7, of two records, in slot 0 and no other batch. -/
def opened : State :=
  { windowed false true with
    log := twoRecords, table := ⟨[some ⟨7#8, .opened, 2, none, 0, 0#8, 0#8, none⟩, none, none, none], 8#8, [], 0⟩ }

/-- Batch 7 SEALED at the head of the queue. -/
def sealed : State :=
  { opened with
    table := ⟨[some ⟨7#8, .sealed, 2, some .request, 0, 0#8, 0#8, none⟩, none, none, none], 8#8, [7#8], 0⟩ }

/-- The engine's request for the record at a position of batch 7. -/
def request (kind : AccessKind) (pos : Nat) : EngineRequest :=
  if pos = 0 then ⟨kind, 1000#22, 0xF#4, 0x11223344#32⟩ else ⟨kind, 1001#22, 0x1#4, 0xAA#32⟩

/-- Batch 7 active under the permanent window, with `applied` records applied. -/
def active (x : BatchState) (verify : Bool) (applied grant : Nat) (access : EngineAccess) : State :=
  { windowed verify true with
    log := twoRecords.map fun r => { r with applied := decide (r.pos < applied) }
    table :=
      ⟨[some ⟨7#8, x, 2, some .request, applied, 1#8, if x = .halted then 1#8 else 0#8,
        if x = .halted then some applied else none⟩, none, none, none], 8#8, [], 0⟩
    engine := ⟨some 7#8, grant, applied, decide (x = .aborting), access, true⟩
    queue := ⟨[], 1, 9#8⟩ }

/-- The engine's access of `active` on the array bus, at the moment its timer's remaining time reaches 0. -/
def onBus (x : BatchState) (verify : Bool) (applied grant : Nat) (kind : AccessKind) : State :=
  let s := active x verify applied grant (.inFlight (request kind applied))
  let q := request kind applied
  let write := decide (kind = .recordWrite)
  { s with
    port := ⟨some .engine, 0, some ⟨0, 0⟩, q.addr, if write then some q.data else none, if write then q.lanes else 0xF#4,
      true, write, !write⟩ }

/-- A pass-through or forwarded access of the host on the array bus, at the moment its timer's remaining time reaches 0.
-/
def hostOnBus (kind : HostKind) (a : Addr) (s : State) : State :=
  { s with
    host := { s.host with state := .memory ⟨kind, a, 0x3#4, 0xBEEF#32, none, true, false⟩, hwait := true, hce := true }
    port := ⟨some .host, 0, some ⟨0, 0⟩, a, none, 0xF#4, true, false, true⟩ }

/-- The engine's request waits behind the host's access. -/
def behindHost (x : BatchState) (kind : AccessKind) : State :=
  let s := active x true 0 2 (.waiting (request kind 0))
  hostOnBus .passRead 5#22 s

/-- The tick source TIMER with this window, at the moment the period timer's remaining time reaches 0. -/
def timed (s : State) (window : CommitWindow) : State :=
  { s with
    mgmt := { s.mgmt with settings := { s.mgmt.settings with tickSource := .timer } }
    unit := { s.unit with periodTimer := some ⟨⟨0, 0⟩, 16667⟩, window := window } }

/-- The tick source FRAME with this monitor, the frame timeout timer, if it runs, at remaining time 0. -/
def framed (monitor : Monitor) : State :=
  { fresh with
    mgmt := { fresh.mgmt with settings := { fresh.mgmt.settings with tickSource := .frame } }
    unit :=
      { fresh.unit with
        monitor := monitor, window := .closed
        frameTimer := if monitor = .lost then none else some ⟨0, 0⟩ } }

/-- Four SEALED batches of one record each: no batch slot is free. -/
def slotsFull : State :=
  { windowed false false with
    log := (List.range 4).map fun n => ⟨BitVec.ofNat 22 (1000 + n), 0xF#4, 0#32, BitVec.ofNat 8 (n + 1), 0, false⟩
    table :=
      ⟨(List.range 4).map fun n => some ⟨BitVec.ofNat 8 (n + 1), .sealed, 1, some .request, 0, 0#8, 0#8, none⟩, 5#8,
        [1#8, 2#8, 3#8, 4#8], 0⟩ }

/-- A host write to 1040 held for want of a batch slot, the stall timer at remaining time 0. -/
def stalled (s : State) : State :=
  { s with
    host :=
      { s.host with
        state := .stalled ⟨1040#22, 0xF#4, 5#32, some 0⟩, stallTimer := some ⟨0, 0⟩, hwait := true, hce := true } }

/-- One completion entry is posted (the example of 11.3.5). -/
def posted : State := { fresh with queue := ⟨[⟨1#8, .applied, 4, 4, 1#8, 0#8, .sealWord, 121#16, 9#8⟩], 0, 10#8⟩ }

/-! ### Management requests (09; the frames of 9.8 and 11.3.5) -/

theorem test_identify : replies (.identify 0x12) fresh
    [0#8, 0x12#8, 9#8, 0x34#8, 0#8, 1#8, 1#8, 0#8, 4#8, 8#8, 16#8, 8#8, 0x8B#8] = true := by decide
theorem test_status : after (.status 0x11) sealed (fun t => decide (t.mgmt.retained.take 19 =
    [0#8, 0x11#8, 23#8, 0#8, 0#8, 0#8, 1#8, 0xFF#8, 0xFF#8, 0#8, 0#8, 0#8, 2#8, 7#8, 2#8, 0#8, 0#8, 0#8, 0#8])) =
      true := by decide
theorem test_replay : replies (.replay 0x16) fresh [0x20#8, 0#8, 0#8, 0xE0#8] = true := by decide
theorem test_get_config : after (.getConfig 1) fresh
    (fun t => decide (t.mgmt.retained.take 8 = [0#8, 1#8, 22#8, 0#8, 2#8, 1#8, 1#8, 0x86#8])) = true := by decide
theorem test_set_config_to_timer : after (.setConfig 0x17 timerRaw) fresh (fun t =>
    decide (t.mgmt.retained = [0#8, 0x17#8, 0#8, 0xE9#8] ∧ t.unit.periodTimer = some ⟨⟨16667, 0⟩, 16667⟩ ∧
      t.unit.window = .closed)) = true := by decide
theorem test_set_config_bad_argument : after (.setConfig 0x14 { timerRaw with hostShare := 0 }) fresh (fun t =>
    decide (t.mgmt.retained = [0x13#8, 0x14#8, 0#8, 0xD9#8] ∧ t.mgmt.settings = Settings.reset)) = true := by decide
theorem test_get_window : replies (.getWindow 1 0) (windowed true false)
    [0#8, 1#8, 8#8, 0#8, 0x85#8, 0#8, 3#8, 0xE8#8, 0#8, 4#8, 0x27#8, 0x5C#8] = true := by decide
theorem test_set_window_busy : after (.setWindow 1 0 0x80 0 0) opened (fun t =>
    decide (t.windows = opened.windows ∧ t.mgmt.retained.head? = some 0x03#8)) = true := by decide
theorem test_get_watch : replies (.getWatch 1 15) fresh
    ([0#8, 1#8, 18#8, 15#8] ++ List.replicate 17 0#8 ++ [0xDE#8]) = true := by decide
theorem test_set_watch : after (.setWatch 1 2 0x83 5 0xFF 0x12) fresh (fun t =>
    decide (t.watch[2]? = some ⟨true, 5#22, 0xFF#32, 0x12#32, .equal, true, false, 0#8, 0#32⟩)) = true := by decide
theorem test_watch_ack : after (.watchAck 1 0x8000)
    { fresh with watch := fresh.watch.map fun e => { e with hit := true } }
    (fun t => decide (t.watch[15]?.map WatchEntry.hit = some false ∧ t.watch[0]?.map WatchEntry.hit = some true)) =
      true := by decide
theorem test_seal : after (.seal 9) opened (fun t =>
    decide (t.mgmt.retained = [0#8, 9#8, 3#8, 7#8, 0#8, 2#8, 0xEB#8] ∧ t.table.sealedQueue = [7#8] ∧
      t.waiting.attempts = 1)) = true := by decide
theorem test_seal_nothing : replies (.seal 9) sealed [1#8, 9#8, 0#8, 0xF6#8] = true := by decide
theorem test_discard_open : after (.discard 1 0) opened (fun t =>
    decide (t.log = [] ∧ t.table.batches = [] ∧ t.queue.posted = [] ∧ t.waiting.attempts = 0)) = true := by decide
theorem test_discard_in_flight : after (.discard 1 7) (onBus .applying false 0 2 .recordWrite) (fun t =>
    decide (t.mgmt.retained = [0#8, 1#8, 4#8, 7#8, 0#8, 0#8, 2#8, 0xF2#8] ∧ t.engine.abortPending = true)) = true := by
  decide
theorem test_clear : after (.clear 1) (active .paused false 1 0 .idle) (fun t =>
    decide (t.mgmt.retained = [0#8, 1#8, 4#8, 1#8, 0#8, 2#8, 0#8, 0xF8#8] ∧ t.events.flags = 0b11#9 ∧
      t.engine = Engine.reset)) = true := by decide
theorem test_resume : after (.resume 7) (active .halted false 1 1 .idle) (fun t =>
    decide (t.mgmt.retained = [0#8, 7#8, 3#8, 7#8, 0#8, 1#8, 0xEE#8] ∧ t.port.busy = some .engine ∧ t.port.ma = 1001#22)) =
      true := by decide
theorem test_freeze : after (.freeze 1 1000) fresh (fun t =>
    decide (t.unit.frozen = true ∧ t.unit.freezeTimer = some ⟨1000, 0⟩ ∧ t.mgmt.retained = [0#8, 1#8, 1#8, 0#8, 0xFE#8])) =
      true := by decide
theorem test_thaw_not_frozen : replies (.thaw 1) fresh [0#8, 1#8, 1#8, 0#8, 0xFE#8] = true := by decide
theorem test_kick_immediate : replies (.kick 0x13) fresh [0x01#8, 0x13#8, 0#8, 0xEC#8] = true := by decide
theorem test_kick_wraps : after (.kick 1)
    (let s := timed fresh .closed; { s with unit := { s.unit with counter := 0xFFFF#16 } })
    (fun t => decide (t.unit.counter = 0#16 ∧ t.unit.window = .opened 64 64 true)) = true := by decide
theorem test_peek_completion : after (.peekCompletion 5) posted (fun t =>
    decide (t.queue = posted.queue ∧ t.waiting.attempts = 0)) = true := by decide
theorem test_retire : after (.retire 5) posted (fun t =>
    decide (t.mgmt.retained = [0#8, 5#8, 12#8, 1#8, 1#8, 0#8, 4#8, 0#8, 4#8, 1#8, 0#8, 0#8, 121#8, 2#8, 9#8, 0x60#8] ∧
      t.queue.posted = [])) = true := by decide
theorem test_read_events : replies (.readEvents 1)
    { fresh with events := ⟨0b100000#9, 0b1#9, some ⟨.blocked, 2#22, 0x3#4, 0#8, 1#8⟩, false⟩ }
    [0#8, 1#8, 11#8, 0#8, 0x20#8, 0#8, 1#8, 0x81#8, 1#8, 0#8, 0#8, 2#8, 3#8, 0#8, 0x4C#8] = true := by decide
theorem test_ack_events : after (.ackEvents 1 0xFE01 1)
    { fresh with events := ⟨0b100000001#9, 0x1FF#9, some ⟨.verify, 0#22, 1#4, 7#8, 0#8⟩, true⟩ }
    (fun t => decide (t.events = ⟨0b100000000#9, 0x1FF#9, none, true⟩)) = true := by decide
theorem test_set_event_enable : after (.setEventEnable 1 0xFE01)
    { fresh with events := ⟨1#9, 0#9, none, false⟩ } (fun t => decide (t.events = ⟨1#9, 1#9, none, true⟩)) = true := by
  decide
theorem test_lookup : replies (.lookup 1 1001) opened
    [0#8, 1#8, 5#8, 0#8, 1#8, 1#8, 7#8, 1#8, 0xF0#8] = true := by decide

/-! ### SPI events (9.1 to 9.3) -/

theorem test_transaction_begin : after .transactionBegin fresh (fun t =>
    decide (t.mgmt.state = .receiving ∧ t.mgmt.sdo = some false)) = true := by decide
theorem test_sck_falling_edge : after .sckFallingEdge { receiving with mgmt := { receiving.mgmt with txPos := 1 } }
    (fun t => decide (t.mgmt.sdo = some true)) = true := by decide
theorem test_sck_rising_edge : after (.sckRisingEdge true)
    { receiving with mgmt := { receiving.mgmt with bits := [false, false, false, false, false, true, false] } }
    (fun t => decide (t.mgmt.buffer = [0x05#8] ∧ t.mgmt.bits = [])) = true := by decide
theorem test_transaction_end : replies .transactionEnd
    { receiving with mgmt := receiving.mgmt.received [0x32#8, 0x13#8, 0#8, 0xBB#8] } [1#8, 0x13#8, 0#8, 0xEC#8] = true := by
  decide
theorem test_transaction_end_bad_check : replies .transactionEnd
    { receiving with mgmt := receiving.mgmt.received [0x32#8, 0x15#8, 0#8, 0xBB#8] } [0x10#8, 0x15#8, 0#8, 0xDB#8] =
      true := by decide

/-- R170: a frame whose transaction ends while REFCLK is stopped is not resumed by the next transaction. -/
theorem test_frame_not_resumed :
    (match execAll [.refclkStop, .transactionEnd, .refclkRestart, .transactionBegin]
        { receiving with mgmt := receiving.mgmt.received [0x22#8, 0#8] } with
     | .next t => decide (t.mgmt.state = .receiving ∧ t.mgmt.buffer = [] ∧ t.mgmt.count = 0)
     | _ => false) = true := by decide

/-! ### Host bus (06; 1.10.1) -/

theorem test_host_write_appends : after (.hostRequest 1002#22 true 0x3#4 0xAABBCCDD#32 ⟨false, false⟩) opened (fun t =>
    decide (t.log.getLast? = some ⟨1002#22, 0x3#4, 0xCCDD#32, 7#8, 2, false⟩ ∧ t.host.hwait = false)) = true := by decide
theorem test_host_read_passes : after (.hostRequest 5#22 false 0#4 0#32 ⟨true, false⟩) fresh (fun t =>
    decide (t.host.hwait = true ∧ t.port = ⟨some .host, 0, some ⟨100, 0⟩, 5#22, none, 0xF#4, false, false, true⟩)) = true := by
  decide
/-- R100 and R101: an admission and a host read at a free port. Together, the engine is granted with the host waiting, and
the count is 1; the engine's first, the host finds the count at 0; the host's first, the host is granted. -/
theorem test_requests_together :
    (let s : State := { windowed false false with log := sealed.log, table := sealed.table, waiting := ⟨1, 0, 0, []⟩ }
     let after (cs : List Instr) (port : MemPort → Bool) : Bool :=
       match execAll cs s with
       | .next t => port t.port && decide (t.host.hwait = true ∧ t.engine.access ≠ .idle)
       | _ => false
     let read (together : Bool) : Instr := .hostRequest 5#22 false 0#4 0#32 ⟨true, together⟩
     after [.admissionAttempt, read true] (fun p => decide (p.busy = some .engine ∧ p.count = 1)) &&
       after [.admissionAttempt, read false] (fun p => decide (p.busy = some .engine ∧ p.count = 0)) &&
       after [read false, .admissionAttempt] (fun p => decide (p.busy = some .host ∧ p.count = 0))) = true := by decide
theorem test_hce_deassert : after .hceDeassert
    { fresh with host := { fresh.host with hce := true, herr := true } } (fun t =>
    decide (t.host.herr = false ∧ t.host.hce = false)) = true := by decide
theorem test_seal_on_last_later_batch : after .sealOnLast { opened with waiting := ⟨0, 0, 0, [⟨6#8, 0⟩]⟩ } (fun t =>
    decide (t.table = opened.table ∧ t.waiting.sealsOnLast = [])) = true := by decide
/-- R38: a seal handed over for a batch 7 that has left does not seal a later batch 7. -/
theorem test_seal_on_last_reused_id : after .sealOnLast
    { opened with table := { opened.table with opened := 256 }, waiting := ⟨0, 0, 0, [⟨7#8, 1⟩]⟩ } (fun t =>
    decide (t.table.batches = opened.table.batches ∧ t.waiting.sealsOnLast = [])) = true := by decide
theorem test_stall_timeout : after .stallTimeout (stalled slotsFull) (fun t =>
    decide (t.host.state = .idle ∧ t.host.herr = true ∧
      t.events.capture = some ⟨.stallTimeout, 1040#22, 0xF#4, 0#8, 0#8⟩)) = true := by decide
theorem test_pass_through_read : after (.passThroughReadComplete 0x12345678#32) (hostOnBus .passRead 5#22 fresh) (fun t =>
    decide (t.host.answer = some 0x12345678#32 ∧ t.port.busy = none)) = true := by decide
theorem test_pass_through_write : after .passThroughWriteComplete
    { hostOnBus .passWrite 5#22 fresh with
      watch := ⟨true, 5#22, 0xFFFFFF#32, 0x11223344#32, .change, true, false, 255#8, 0#32⟩ :: fresh.watch.tail }
    (fun t => decide (t.watch.head? =
      some ⟨true, 5#22, 0xFFFFFF#32, 0x1122BEEF#32, .change, true, true, 255#8, 0xBEEF#32⟩)) = true := by decide
/-- R186: a read whose HCE was deasserted before its completion drives nothing, also when HCE is asserted again. -/
theorem test_dropped_read :
    (let s := hostOnBus .passRead 5#22 fresh
     match execAll [.hceDeassert, .hostRequest 6#22 false 0#4 0#32 ⟨true, false⟩, .passThroughReadComplete 0x12345678#32] s with
     | .next t => decide (t.host.hdOut? = none ∧ t.host.hce = true ∧ t.host.state = .idle)
     | _ => false) = true := by decide
theorem test_forwarded_read : after (.forwardedReadComplete 0x12345678#32) (hostOnBus .forwardedRead 1001#22 opened)
    (fun t => decide (t.host.answer = some 0x123456AA#32)) = true := by decide
theorem test_host_mem_timeout : after .hostMemTimeout (hostOnBus .passWrite 5#22 fresh) (fun t =>
    decide (t.events.capture = some ⟨.hostMemTimeout, 5#22, 0x3#4, 0#8, 0#8⟩ ∧ t.events.flags = 0b100000#9)) = true := by
  decide

/-! ### Array bus and commit engine (04; 10.6.4, 10.6.5) -/

theorem test_mce_assert : after .mceAssert
    { fresh with port := { fresh.port with busy := some .host } } (fun t => t.port.mce) = true := by decide
theorem test_record_write : after .recordWriteComplete (onBus .applying false 0 2 .recordWrite) (fun t =>
    decide (t.engine = ⟨some 7#8, 1, 1, false, .inFlight (request .recordWrite 1), true⟩)) = true := by decide
theorem test_last_record : after .recordWriteComplete (onBus .applying false 1 1 .recordWrite) (fun t =>
    decide (t.queue = ⟨[⟨7#8, .applied, 2, 2, 1#8, 0#8, .request, 0#16, 9#8⟩], 0, 10#8⟩ ∧ t.log = [])) = true := by decide
theorem test_verify_mismatch : after (.verifyReadComplete 0xAB#32) (onBus .applying true 1 1 .verifyRead) (fun t =>
    decide (t.table.batches = [⟨7#8, .halted, 2, some .request, 1, 1#8, 1#8, some 1⟩] ∧
      t.events.capture = some ⟨.verify, 1001#22, 1#4, 7#8, 0#8⟩)) = true := by decide
theorem test_verify_ignores_other_lanes : after (.verifyReadComplete 0xFFFFFFAA#32) (onBus .applying true 1 1 .verifyRead)
    (fun t => decide (t.engine.active = none)) = true := by decide
theorem test_engine_mem_timeout_aborting : after .engineMemTimeout (onBus .aborting false 1 1 .recordWrite) (fun t =>
    decide (t.queue.posted.map CompletionEntry.applied = [1] ∧ t.events.flags = 0b11#9 ∧ t.events.capture = none)) =
      true := by decide
theorem test_admission_attempt : after .admissionAttempt (timed sealed (.opened 2 2 true)) (fun t =>
    decide (t.unit.window = .opened 2 0 false ∧ t.engine.grant = 2 ∧ t.engine.hold = true ∧ t.queue.reserved = 1)) =
      true := by decide
theorem test_admission_oversize : after .admissionAttempt (timed sealed (.opened 1 1 true)) (fun t =>
    decide (t.queue.posted.map CompletionEntry.outcome = [.refused] ∧
      t.events.capture = some ⟨.oversize, 1000#22, 0xF#4, 7#8, 0#8⟩)) = true := by decide
theorem test_continuation_grant : after .continuationGrant
    { timed (active .paused false 1 0 .idle) (.opened 1 1 true) with waiting := ⟨0, 0, 1, []⟩ } (fun t =>
    decide (t.unit.window = .opened 1 0 false ∧ t.engine.grant = 1 ∧
      t.table.batches.map Batch.windowsUsed = [2#8])) = true := by decide

/-! ### Commit windows and batches (03; 10.6.6) -/

theorem test_counted_edge : after (.countedEdge true) (framed .lost) (fun t =>
    decide (t.unit.monitor = .locked ∧ t.unit.counter = 1#16 ∧ t.events.flags = 0b1000000#9)) = true := by decide
theorem test_counted_edge_other_direction : after (.countedEdge false) (framed .locked) (fun t =>
    decide (t = framed .locked)) = true := by decide
theorem test_frame_timeout : after .frameTimeoutExpiry (framed .locked) (fun t =>
    decide (t.unit.monitor = .lost ∧ t.unit.periodTimer = some ⟨⟨16667, 0⟩, 16667⟩ ∧ t.unit.latch = true)) = true := by decide
theorem test_period_expiry : after .periodExpiry (timed fresh .closed) (fun t =>
    decide (t.unit.periodTimer = some ⟨⟨16667, 0⟩, 16667⟩ ∧ t.waiting = ⟨0, 1, 1, []⟩)) = true := by decide
theorem test_window_length : after .windowLengthExpiry
    (let s := timed (onBus .applying false 0 2 .recordWrite) (.opened 2 0 false)
     { s with unit := { s.unit with lengthTimer := some ⟨0, 0⟩ } }) (fun t =>
    decide (t.unit.window = .closed ∧ t.events.flags = 0b10000000#9)) = true := by decide
theorem test_freeze_expiry : after .freezeExpiry
    { fresh with unit := { fresh.unit with frozen := true, freezeTimer := some ⟨0, 0⟩ } } (fun t =>
    decide (t.unit.frozen = false ∧ t.events.flags = 0b100000000#9)) = true := by decide
/-- R54: an expiry of the old source behind the tick-source change does not occur. -/
theorem test_stale_period_expiry : after .periodExpiry
    (let s := timed fresh .closed
     { s with unit := { s.unit with periodTimer := some ⟨⟨16667, 0⟩, 16667⟩ } }) (fun t =>
    decide (t.unit.counter = 0#16 ∧ t.unit.window = .closed)) = true := by decide
/-- R65: the expiry of the old window's length, behind the tick that restarts the timer, is not taken. -/
theorem test_stale_length_expiry : after .windowLengthExpiry
    (let s := timed fresh (.opened 2 2 true)
     { s with unit := { s.unit with lengthTimer := some ⟨4000, 0⟩ } }) (fun t =>
    decide (t.unit.window = .opened 2 2 true)) = true := by decide
theorem test_auto_seal : after .autoSeal { timed opened .closed with waiting := ⟨0, 1, 0, []⟩ } (fun t =>
    decide (t.table.batches.map Batch.cause = [some .auto] ∧ t.waiting = ⟨1, 0, 0, []⟩)) = true := by decide

/-! ### Reset, supply and clock (R189) -/

theorem test_rst_assert : after .rstAssert sealed (fun t =>
    decide (t.log = [] ∧ t.host.hwait = true ∧ t.mgmt.state = .reset)) = true := by decide
theorem test_rst_release_low_scs : after .rstRelease
    { fresh with
      power := ⟨true, false, true⟩, mgmt := { fresh.mgmt with state := .reset, scs := true }
      host := { fresh.host with state := .reset, hwait := true } }
    (fun t => decide (t.mgmt.state = .skipping ∧ t.host.hwait = false)) = true := by decide
theorem test_power_up : after .powerUp fresh (fun t => decide (t.power.powerHold = true ∧ t.freeCount = 1)) = true := by
  decide
theorem test_refclk_stop : after .refclkStop fresh (fun t => !t.power.refclk) = true := by decide
theorem test_refclk_restart : after .refclkRestart { fresh with power := { fresh.power with refclk := false } }
    (fun t => t.power.refclk) = true := by decide

/-! ### States with the invariants, for the witnesses -/

theorem fresh_commitOk : fresh.CommitOk where
  settings := by decide
  windows := by constructor <;> first | decide | trivial
  table := by constructor <;> decide
  queue := by decide
  log := ⟨by decide, by decide, by decide, by decide, by decide, by decide, by decide, by decide, by decide, by decide,
    fun _ h => by cases h⟩
  engine := ⟨by decide, fun _ h => by cases h⟩
  port := by constructor <;> decide

/-- The window opening of 12.3: a batch sealed, the tick source TIMER and a window of this kind. -/
def sealedIn (window : CommitWindow) : State := timed sealed window

theorem unadmitted_commitOk :
    opened.CommitOk ∧ sealed.CommitOk ∧ (sealedIn .closed).CommitOk ∧ (sealedIn (.opened 1 1 true)).CommitOk ∧
      (sealedIn (.opened 2 2 true)).CommitOk ∧ (sealedIn (.opened 2 1 false)).CommitOk := by
  refine ⟨?_, ?_, ?_, ?_, ?_, ?_⟩ <;>
  exact
    { settings := by decide
      windows := by constructor <;> first | decide | trivial
      table := by constructor <;> decide
      queue := by decide
      log := ⟨by decide, by decide, by decide, by decide, by decide, by decide, by decide, by decide, by decide,
        by decide, fun _ h => by cases h⟩
      engine := ⟨by decide, fun _ h => by cases h⟩
      port := by constructor <;> decide }

theorem onBus_commitOk :
    (onBus .applying true 0 2 .recordWrite).CommitOk ∧ (onBus .applying false 0 2 .recordWrite).CommitOk ∧
      (onBus .applying true 0 2 .verifyRead).CommitOk ∧ (onBus .applying false 1 1 .recordWrite).CommitOk ∧
      (onBus .applying true 1 1 .verifyRead).CommitOk ∧ (onBus .applying false 0 1 .recordWrite).CommitOk ∧
      (timed (onBus .applying false 0 1 .recordWrite) (.opened 1 0 false)).CommitOk ∧
      (onBus .aborting false 0 2 .recordWrite).CommitOk ∧ (onBus .aborting true 1 1 .verifyRead).CommitOk := by
  refine ⟨?_, ?_, ?_, ?_, ?_, ?_, ?_, ?_, ?_⟩ <;>
  exact
    { settings := by decide
      windows := by constructor <;> first | decide | trivial
      table := by constructor <;> decide
      queue := by decide
      log := ⟨by decide, by decide, by decide, by decide, by decide, by decide, by decide, by decide, by decide,
        by decide, fun _ h => by cases h⟩
      engine := ⟨by decide, fun b h => by cases Option.some.inj h; constructor <;> decide⟩
      port := by constructor <;> decide }

/-- A PAUSED batch with one window opening handed over. -/
def pausedIn (window : CommitWindow) : State :=
  { timed (active .paused false 1 0 .idle) window with waiting := ⟨0, 0, 1, []⟩ }

theorem resting_commitOk :
    (active .halted false 1 1 .idle).CommitOk ∧ (active .paused false 1 0 .idle).CommitOk ∧
      (pausedIn .closed).CommitOk ∧ (pausedIn (.opened 1 1 true)).CommitOk ∧ (pausedIn (.opened 1 0 false)).CommitOk ∧
      (behindHost .applying .recordWrite).CommitOk ∧ (behindHost .applying .verifyRead).CommitOk := by
  refine ⟨?_, ?_, ?_, ?_, ?_, ?_, ?_⟩ <;>
  exact
    { settings := by decide
      windows := by constructor <;> first | decide | trivial
      table := by constructor <;> decide
      queue := by decide
      log := ⟨by decide, by decide, by decide, by decide, by decide, by decide, by decide, by decide, by decide,
        by decide, fun _ h => by cases h⟩
      engine := ⟨by decide, fun b h => by cases Option.some.inj h; constructor <;> decide⟩
      port := by constructor <;> decide }

theorem slotsFull_ok : slotsFull.TableOk ∧ slotsFull.LogOk ∧ (stalled slotsFull).TableOk ∧ (stalled slotsFull).LogOk :=
  ⟨by constructor <;> decide,
    ⟨by decide, by decide, by decide, by decide, by decide, by decide, by decide, by decide, by decide, by decide,
      fun _ h => by cases h⟩,
    by constructor <;> decide,
    ⟨by decide, by decide, by decide, by decide, by decide, by decide, by decide, by decide, by decide, by decide,
      fun _ h => by cases h; decide⟩⟩

theorem active_onBus :
    (onBus .applying true 0 2 .recordWrite).OnBus .applying .recordWrite ⟨7#8, .applying, 2, some .request, 0, 1#8, 0#8, none⟩
        ⟨1000#22, 0xF#4, 0x11223344#32, 7#8, 0, false⟩ ∧
      (onBus .applying false 0 2 .recordWrite).OnBus .applying .recordWrite
        ⟨7#8, .applying, 2, some .request, 0, 1#8, 0#8, none⟩ ⟨1000#22, 0xF#4, 0x11223344#32, 7#8, 0, false⟩ ∧
      (onBus .applying true 0 2 .verifyRead).OnBus .applying .verifyRead
        ⟨7#8, .applying, 2, some .request, 0, 1#8, 0#8, none⟩ ⟨1000#22, 0xF#4, 0x11223344#32, 7#8, 0, false⟩ ∧
      (onBus .applying false 1 1 .recordWrite).OnBus .applying .recordWrite
        ⟨7#8, .applying, 2, some .request, 1, 1#8, 0#8, none⟩ ⟨1001#22, 0x1#4, 0xAA#32, 7#8, 1, false⟩ ∧
      (onBus .applying true 1 1 .verifyRead).OnBus .applying .verifyRead
        ⟨7#8, .applying, 2, some .request, 1, 1#8, 0#8, none⟩ ⟨1001#22, 0x1#4, 0xAA#32, 7#8, 1, false⟩ ∧
      (onBus .applying false 0 1 .recordWrite).OnBus .applying .recordWrite
        ⟨7#8, .applying, 2, some .request, 0, 1#8, 0#8, none⟩ ⟨1000#22, 0xF#4, 0x11223344#32, 7#8, 0, false⟩ ∧
      (timed (onBus .applying false 0 1 .recordWrite) (.opened 1 0 false)).OnBus .applying .recordWrite
        ⟨7#8, .applying, 2, some .request, 0, 1#8, 0#8, none⟩ ⟨1000#22, 0xF#4, 0x11223344#32, 7#8, 0, false⟩ ∧
      (onBus .aborting false 0 2 .recordWrite).OnBus .aborting .recordWrite
        ⟨7#8, .aborting, 2, some .request, 0, 1#8, 0#8, none⟩ ⟨1000#22, 0xF#4, 0x11223344#32, 7#8, 0, false⟩ ∧
      (onBus .aborting true 1 1 .verifyRead).OnBus .aborting .verifyRead
        ⟨7#8, .aborting, 2, some .request, 1, 1#8, 0#8, none⟩ ⟨1001#22, 0x1#4, 0xAA#32, 7#8, 1, false⟩ := by
  obtain ⟨h1, h2, h3, h4, h5, h6, h7, h8, h9⟩ := onBus_commitOk
  exact
    ⟨⟨by decide, h1, by decide, by decide, ⟨_, rfl, rfl⟩, rfl⟩, ⟨by decide, h2, by decide, by decide, ⟨_, rfl, rfl⟩, rfl⟩,
      ⟨by decide, h3, by decide, by decide, ⟨_, rfl, rfl⟩, rfl⟩, ⟨by decide, h4, by decide, by decide, ⟨_, rfl, rfl⟩, rfl⟩,
      ⟨by decide, h5, by decide, by decide, ⟨_, rfl, rfl⟩, rfl⟩, ⟨by decide, h6, by decide, by decide, ⟨_, rfl, rfl⟩, rfl⟩,
      ⟨by decide, h7, by decide, by decide, ⟨_, rfl, rfl⟩, rfl⟩, ⟨by decide, h8, by decide, by decide, ⟨_, rfl, rfl⟩, rfl⟩,
      ⟨by decide, h9, by decide, by decide, ⟨_, rfl, rfl⟩, rfl⟩⟩

/-! ### Witnesses: for each statement with hypotheses, states and operands that meet them, clause by clause -/

theorem witness_StepTakesTheFrontCommand :
    ({ fresh with pending := [.seal 9, .kick 1] } : State).pending = .seal 9 :: [.kick 1] := rfl

/-- A state for each command the part brings to the front; those after it in the order are waiting or due there too. -/
theorem witness_EmptyQueueRunsThePartOn :
    (let busy (s : State) : State := { s with port := { s.port with busy := some .host } };
      let s (seals : List LastSeal) (ticks openings attempts : Nat) : State :=
        busy { fresh with waiting := ⟨attempts, ticks, openings, seals⟩ };
      (s [⟨3#8, 1⟩] 1 1 1).pending = [] ∧ (s [⟨3#8, 1⟩] 1 1 1).waitingEvent? = some .sealOnLast ∧
      (s [] 1 1 1).waitingEvent? = some .autoSeal ∧ (s [] 0 1 1).waitingEvent? = some .continuationGrant ∧
      (s [] 0 0 1).waitingEvent? = some .admissionAttempt ∧ (s [] 0 0 0).waitingEvent? = some .mceAssert) ∧
    (let s : State := { fresh with power := ⟨false, false, false⟩ };
      s.pending = [] ∧ s.waitingEvent? = none ∧ ¬ s.Awake) ∧
    (let due : Option Timer := some ⟨0, 0⟩;
      let s (frame period length freeze stall mem : Option Timer) : State :=
        { fresh with
          unit :=
            { fresh.unit with
              frameTimer := frame, periodTimer := period.map (⟨·, 20⟩), lengthTimer := length, freezeTimer := freeze }
          host := { fresh.host with stallTimer := stall }, port := { fresh.port with timer := mem } };
      (s due due due due due due).Awake ∧ (s due due due due due due).dueExpiry? = some .frameTimeoutExpiry ∧
      (s none due due due due due).dueExpiry? = some .periodExpiry ∧
      (s none none due due due due).dueExpiry? = some .windowLengthExpiry ∧
      (s none none none due due due).dueExpiry? = some .freezeExpiry ∧
      (s none none none none due due).dueExpiry? = some .stallTimeout ∧
      (s none none none none none due).dueExpiry? = some .engineMemTimeout ∧
      ({ fresh with port := { fresh.port with busy := some .host, mce := true, timer := due } } : State).dueExpiry? =
        some .hostMemTimeout ∧
      (s none none none (some ⟨1, 24⟩) none none).dueExpiry? = none ∧
      24 + 1 = (s none none none none none none).mgmt.settings.refdiv.toNat) ∧
    1 ≤ 25 := by
  decide

theorem witness_StoppedClockAndResetTakeNoEvent :
    (let s : State := { fresh with power := ⟨false, false, false⟩ }; ¬ s.Awake ∧ s.pending = []) ∧
      (let s : State := { fresh with power := ⟨true, false, true⟩ }; ¬ s.Awake) ∧
      (let s : State := { fresh with power := ⟨false, true, true⟩ }; ¬ s.Awake) ∧
      (let s : State := { receiving with power := ⟨false, false, false⟩ };
        ¬ s.Awake ∧ s.OutOfReset ∧ s.mgmt.state = .receiving) ∧
      requestFrame (.identify 1) ≠ none := by decide

theorem witness_RstReleaseLeavesPinReset :
    fresh.OutOfReset ∧
    (let s : State := { fresh with power := ⟨true, true, false⟩ };
      s.power.powerHold = true ∧ s.power.refclk = false) ∧
    (let s : State := { fresh with power := ⟨true, false, true⟩ };
      ¬ s.OutOfReset ∧ s.power.powerHold = false ∧ s.host.hce = false) ∧
    (let s : State := { fresh with power := ⟨true, true, true⟩, host := { fresh.host with hce := true } };
      ¬ s.OutOfReset ∧ s.power.refclk = true ∧ s.host.hce = true) := by decide

theorem witness_OutOfRangeRequestsAnswerBadArg :
    fresh.PortOpen ∧ ¬ RawSettings.InRange { timerRaw with hostShare := 0 } ∧
      ¬ RawSettings.InRange { timerRaw with budget := 257 } ∧ 7 < (8#8).toNat ∧ (0x83#8).toNat % 4 = 3 ∧
      4194303 < (0x400000#24).toNat ∧ (1#24).toNat < (2#24).toNat ∧
      ((0x84#8).toNat % 4 ≠ 1 ∧ (0x84#8).getLsbD 2 = true) ∧ ((0x8A#8).toNat % 4 ≠ 1 ∧ (0x8A#8).getLsbD 3 = true) ∧
      15 < (16#8).toNat ∧ 1 < (2#8).toNat := by decide

theorem witness_FrameBytesAreTakenAsTheirRequest :
    requestFrame (.lookup 3 0x3FFFFF) = some [0x60#8, 3#8, 3#8, 0x3F#8, 0xFF#8, 0xFF#8, 0x5D#8] ∧ receiving.Awake ∧
      receiving.mgmt.state = .receiving := by decide

theorem witness_ClockedFrameActsAsItsRequest :
    requestFrame (.kick 0x13) = some [0x32#8, 0x13#8, 0#8, 0xBB#8] ∧ fresh.Awake ∧ fresh.mgmt.state = .idle := by decide

theorem witness_FrameFaultsAreAnsweredInOrder :
    receiving.Awake ∧ receiving.mgmt.state = .receiving ∧ [2#8, 1#8].length < 3 ∧ 32 < (33#8).toNat ∧
      [1#8, 2#8, 1#8, 0#8].length < 4 + (1#8).toNat ∧
      (∃ b ∈ [1#8, 2#8, 0#8, 0xFD#8, 1#8].drop (4 + (0#8).toNat), b ≠ 0#8) ∧
      ([0x15#8, 0x15#8, 0#8, 0#8].map BitVec.toNat).sum % 256 ≠ 0 ∧
      (([0x77#8, 3#8, 0#8, 0x86#8].map BitVec.toNat).sum % 256 = 0 ∧ 0x77#8 ∉ catalogue.map Prod.fst) ∧
      (([1#8, 3#8, 1#8, 0#8, 0xFB#8].map BitVec.toNat).sum % 256 = 0 ∧ 1#8 ∈ catalogue.map Prod.fst ∧
        (1#8, 1) ∉ catalogue) := by decide

theorem witness_TransactionsBeginEmptyAndKeepTheReply :
    (fresh.Awake ∧ fresh.mgmt.state = .idle) ∧
      (receiving.Awake ∧ receiving.mgmt.state = .receiving ∧ receiving.mgmt.count = 0) ∧
      (let s : State := { fresh with mgmt := { fresh.mgmt with state := .skipping, scs := true } };
        s.Awake ∧ s.mgmt.state = .skipping) := by decide

theorem witness_SckRisingEdgeShiftsABitIn :
    (receiving.Awake ∧ receiving.mgmt.state = .receiving ∧ receiving.mgmt.bits.length < 7) ∧
      (let s : State :=
        { receiving with mgmt := { receiving.mgmt with bits := [true, false, false, false, false, false, false] } };
      s.Awake ∧ s.mgmt.state = .receiving ∧ s.mgmt.bits ++ [(0x81#8).getLsbD 0] = bitsOf 0x81#8) ∧
      (let m := receiving.mgmt.received [1#8, 2#8, 0#8, 0xFD#8];
        m.buffer[2]? = some 0#8 ∧ 4 + (0#8).toNat ≤ m.count ∧ 0x81#8 ≠ 0#8) := by decide

theorem witness_SdoSendsTheRetainedReply :
    (receiving.Awake ∧ receiving.mgmt.state = .receiving) ∧ fresh.Awake ∧ fresh.mgmt.state = .idle := by decide

/-- Meets the hypothesis of the statements about a request from an open port: IDENTIFY, STATUS, WATCH_ACK and others. -/
theorem witness_IdentifyAnswersTheFixedValues : fresh.PortOpen ∧ receiving.PortOpen := by decide

theorem witness_StatusReportsOneMoment : fresh.PortOpen ∧ (sealedIn (.opened 2 1 false)).PortOpen := by decide

theorem witness_ConfigReadsBackAsWritten : fresh.PortOpen ∧ timerRaw.InRange := by decide

theorem witness_SetConfigActsOnTheWindowUnit :
    fresh.PortOpen ∧ timerRaw.InRange ∧ timerRaw.tickSource ≠ fresh.mgmt.settings.tickSource.code ∧
      timerRaw.tickSource = (timed fresh .closed).mgmt.settings.tickSource.code ∧
      (let raw := { timerRaw with tickSource := 0 };
        raw.InRange ∧ raw.tickSource ≠ (timed fresh .closed).mgmt.settings.tickSource.code) ∧
      (let raw := { timerRaw with tickSource := 1 };
        raw.InRange ∧ raw.tickSource ≠ fresh.mgmt.settings.tickSource.code) := by decide

theorem witness_EntriesAreReadAsTheyStand :
    fresh.PortOpen ∧ 7 < (8#8).toNat ∧ ((7#8).toNat ≤ 7 ∧ fresh.windows[(7#8).toNat]? = some WindowEntry.reset) ∧
      15 < (16#8).toNat ∧ (15#8).toNat ≤ 15 ∧ fresh.watch[(15#8).toNat]? = some WatchEntry.reset := by decide

theorem witness_SetRequestsReplaceOneEntry :
    fresh.PortOpen ∧ opened.PortOpen ∧ (7#8).toNat ≤ 7 ∧ (0x8D#8).toNat % 4 = 1 ∧
      ((0x82#8).toNat % 4 ≠ 3 ∧ (0x82#8).getLsbD 2 = false ∧ (0x82#8).getLsbD 3 = false) ∧
      (0x3FFFFF#24).toNat ≤ 4194303 ∧ fresh.log = [] ∧ opened.log ≠ [] ∧ (15#8).toNat ≤ 15 := by decide

theorem witness_WatchAckClearsTheSelectedHits : fresh.PortOpen := by decide

theorem witness_LookupReportsTheWindowAndTheChain :
    opened.PortOpen ∧ (0x3FFFFF#24).toNat ≤ 4194303 ∧
      (∀ e ∈ opened.windows, ¬ (e.enabled = true ∧ e.base.toNat ≤ 999 ∧ 999 ≤ e.limit.toNat)) ∧
      opened.windows[0]? = some ⟨true, 1000#22, 1063#22, .stage, false, true⟩ ∧
      (1000#22).toNat ≤ (1063#24).toNat ∧ (1063#24).toNat ≤ (1063#22).toNat := by decide

theorem witness_SealClosesTheOpenBatch :
    opened.PortOpen ∧ opened.TableOk ∧ opened.Holds ⟨7#8, .opened, 2, none, 0, 0#8, 0#8, none⟩ .opened ∧
      sealed.TableOk ∧ ∀ b ∈ sealed.table.batches, b.state ≠ .opened :=
  ⟨by decide, unadmitted_commitOk.1.table, by decide, unadmitted_commitOk.2.1.table, by decide⟩

theorem witness_HandedSealsCloseTheirBatch :
    (let s : State := { timed opened .closed with waiting := ⟨0, 1, 0, [⟨7#8, 0⟩]⟩ };
      s.TableOk ∧ s.waiting.autoSeals = 0 + 1 ∧ s.Holds ⟨7#8, .opened, 2, none, 0, 0#8, 0#8, none⟩ .opened ∧
        s.mgmt.settings.autoSeal = true ∧ s.mgmt.settings.tickSource ≠ .immediate ∧
        s.waiting.sealsOnLast = ⟨7#8, 0⟩ :: []) ∧
    (let s : State := { opened with waiting := ⟨0, 1, 0, [⟨6#8, 0⟩]⟩ };
      s.TableOk ∧ s.mgmt.settings.tickSource = .immediate ∧ s.waiting.sealsOnLast = ⟨6#8, 0⟩ :: [] ∧
        ∀ b ∈ s.table.batches, b.state = .opened → b.id ≠ 6#8) ∧
    (let s : State := { opened with waiting := ⟨0, 0, 0, [⟨7#8, 1⟩]⟩ };
      s.TableOk ∧ s.waiting.sealsOnLast = ⟨7#8, 1⟩ :: [] ∧ s.table.opened ≠ 1) ∧
    opened.waiting.autoSeals = 0 ∧ opened.waiting.sealsOnLast = [] := by
  refine ⟨⟨by constructor <;> decide, ?_⟩, ⟨by constructor <;> decide, ?_⟩, ⟨by constructor <;> decide, ?_⟩, ?_⟩ <;> decide

theorem witness_DiscardRemovesAnUnadmittedBatch :
    (opened.PortOpen ∧ opened.TableOk ∧ opened.Holds ⟨7#8, .opened, 2, none, 0, 0#8, 0#8, none⟩ .opened) ∧
      (sealed.TableOk ∧ sealed.Holds ⟨7#8, .sealed, 2, some .request, 0, 0#8, 0#8, none⟩ .sealed ∧
        (∀ b ∈ sealed.table.batches, b.state ≠ .opened) ∧ ∀ b ∈ sealed.table.batches, b.id ≠ 8#8) ∧
      (let s := onBus .aborting false 0 2 .recordWrite;
        s.PortOpen ∧ s.TableOk ∧ s.Holds ⟨7#8, .aborting, 2, some .request, 0, 1#8, 0#8, none⟩ .aborting) :=
  ⟨⟨by decide, unadmitted_commitOk.1.table, by decide⟩, ⟨unadmitted_commitOk.2.1.table, by decide, by decide, by decide⟩,
    by decide, active_onBus.2.2.2.2.2.2.2.1.ok.table, by decide⟩

theorem witness_DiscardAbortsTheActiveBatch :
    (let s := active .halted false 1 1 .idle;
      s.PortOpen ∧ s.CommitOk ∧ ⟨7#8, .halted, 2, some .request, 1, 1#8, 1#8, some 1⟩ ∈ s.table.batches ∧
        s.engine.access = .idle) ∧
    (let s := behindHost .applying .recordWrite;
      s.PortOpen ∧ s.CommitOk ∧ ⟨7#8, .applying, 2, some .request, 0, 1#8, 0#8, none⟩ ∈ s.table.batches ∧
        s.engine.access = .waiting (request .recordWrite 0)) ∧
    (let s := behindHost .applying .verifyRead;
      s.PortOpen ∧ s.CommitOk ∧ s.engine.access = .waiting (request .verifyRead 0) ∧
        s.Next ⟨7#8, .applying, 2, some .request, 0, 1#8, 0#8, none⟩ ⟨1000#22, 0xF#4, 0x11223344#32, 7#8, 0, false⟩) ∧
    (let s := onBus .applying false 0 2 .recordWrite;
      s.PortOpen ∧ s.CommitOk ∧ s.engine.access = .inFlight (request .recordWrite 0)) := by
  obtain ⟨h1, -, -, -, -, h2, h3⟩ := resting_commitOk
  exact ⟨⟨by decide, h1, by decide, rfl⟩, ⟨by decide, h2, by decide, rfl⟩, ⟨by decide, h3, rfl, by decide⟩,
    by decide, onBus_commitOk.2.1, rfl⟩

theorem witness_ClearEmptiesTheTable :
    (opened.PortOpen ∧ opened.CommitOk ∧ opened.engine.active = none) ∧
    (let s := onBus .aborting false 0 2 .recordWrite;
      s.PortOpen ∧ s.CommitOk ∧ ⟨7#8, .aborting, 2, some .request, 0, 1#8, 0#8, none⟩ ∈ s.table.batches) ∧
    (let s := active .paused false 1 0 .idle;
      s.CommitOk ∧ ⟨7#8, .paused, 2, some .request, 1, 1#8, 0#8, none⟩ ∈ s.table.batches ∧ s.engine.access = .idle) ∧
    (let s := behindHost .applying .recordWrite;
      s.CommitOk ∧ s.engine.access = .waiting (request .recordWrite 0)) ∧
    (let s := behindHost .applying .verifyRead;
      s.CommitOk ∧ s.engine.access = .waiting (request .verifyRead 0) ∧
        s.Next ⟨7#8, .applying, 2, some .request, 0, 1#8, 0#8, none⟩ ⟨1000#22, 0xF#4, 0x11223344#32, 7#8, 0, false⟩) ∧
    (let s := onBus .applying false 0 2 .recordWrite;
      s.CommitOk ∧ s.engine.access = .inFlight (request .recordWrite 0)) := by
  obtain ⟨-, h1, -, -, -, h2, h3⟩ := resting_commitOk
  exact ⟨⟨by decide, unadmitted_commitOk.1, rfl⟩, ⟨by decide, active_onBus.2.2.2.2.2.2.2.1.ok, by decide⟩,
    ⟨h1, by decide, rfl⟩, ⟨h2, rfl⟩, ⟨h3, rfl, by decide⟩, onBus_commitOk.2.1, rfl⟩

theorem witness_ResumeRewritesTheFailingRecord :
    (let s := active .halted false 1 1 .idle;
      s.PortOpen ∧ s.CommitOk ∧ s.Holds ⟨7#8, .halted, 2, some .request, 1, 1#8, 1#8, some 1⟩ .halted ∧
        s.Next ⟨7#8, .halted, 2, some .request, 1, 1#8, 1#8, some 1⟩ ⟨1001#22, 0x1#4, 0xAA#32, 7#8, 1, false⟩) ∧
    (sealed.PortOpen ∧ sealed.CommitOk ∧ ∀ b ∈ sealed.table.batches, b.state ≠ .halted) :=
  ⟨⟨by decide, resting_commitOk.1, by decide, by decide⟩, by decide, unadmitted_commitOk.2.1, by decide⟩

theorem witness_FreezesStartAndEnd :
    (fresh.PortOpen ∧ 1 ≤ (1#24).toNat ∧ fresh.unit.frozen = false ∧ fresh.unit.freezeTimer = none) ∧
      (let s : State := { fresh with unit := { fresh.unit with frozen := true, freezeTimer := some ⟨0, 0⟩ } };
        s.PortOpen ∧ s.unit.frozen = true ∧ s.Awake ∧ s.unit.freezeTimer = some ⟨0, 0⟩) := by decide

theorem witness_KickAndPeriodExpiryMakeTicks :
    (fresh.PortOpen ∧ fresh.mgmt.settings.tickSource = .immediate ∧ fresh.unit.periodTimer = none) ∧
      (let s := timed fresh .closed;
        s.PortOpen ∧ s.mgmt.settings.tickSource ≠ .immediate ∧ s.unit.periodTimer = some ⟨⟨0, 0⟩, 16667⟩ ∧
          s.unit.pendingPeriod = none) ∧
      (let s := timed fresh .closed;
        let t : State := { s with unit := { s.unit with pendingPeriod := some 16 } };
        t.Awake ∧ t.unit.periodTimer = some ⟨⟨0, 0⟩, 16667⟩ ∧ t.unit.pendingPeriod = some 16) := by decide

theorem witness_CountedEdgesMakePrescaledTicks :
    fresh.mgmt.settings.tickSource ≠ .frame ∧ false = (framed .locked).mgmt.settings.fallingEdges ∧
      (∀ m ∈ [Monitor.locked, .waiting, .lost],
        let s := framed m;
        s.Awake ∧ s.mgmt.settings.tickSource = .frame ∧ true ≠ s.mgmt.settings.fallingEdges ∧ s.unit.monitor = m) := by
  decide

theorem witness_FrameTimeoutExpiryLosesTheLine :
    (fresh.Awake ∧ fresh.WindowsOk ∧ fresh.unit.frameTimer = none) ∧
    (let s := framed .locked;
      s.Awake ∧ s.WindowsOk ∧ s.unit.frameTimer = some ⟨0, 0⟩ ∧ s.mgmt.settings.fallback = true) ∧
    (let s := framed .waiting;
      let t : State := { s with mgmt := { s.mgmt with settings := { s.mgmt.settings with fallback := false } } };
      t.Awake ∧ t.WindowsOk ∧ t.unit.frameTimer = some ⟨0, 0⟩ ∧ t.mgmt.settings.fallback = false) :=
  ⟨⟨by decide, fresh_commitOk.windows, rfl⟩, ⟨by decide, by constructor <;> first | decide | trivial, rfl, rfl⟩, by decide,
    by constructor <;> first | decide | trivial, rfl, rfl⟩

theorem witness_WindowLengthExpiryClosesTheWindow :
    (fresh.Awake ∧ fresh.TableOk ∧ fresh.unit.lengthTimer = none) ∧
    (let s := timed (onBus .applying false 0 2 .recordWrite) (.opened 2 0 false);
      let t : State := { s with unit := { s.unit with lengthTimer := some ⟨0, 0⟩ } };
      t.Awake ∧ t.TableOk ∧ t.unit.lengthTimer = some ⟨0, 0⟩ ∧ ∃ b ∈ t.table.batches, b.state = .applying) ∧
    (let s := timed sealed (.opened 2 2 true);
      let t : State := { s with unit := { s.unit with lengthTimer := some ⟨0, 0⟩ } };
      t.Awake ∧ t.TableOk ∧ t.unit.lengthTimer = some ⟨0, 0⟩ ∧ ∀ b ∈ t.table.batches, b.state ≠ .applying) :=
  ⟨⟨by decide, fresh_commitOk.table, rfl⟩, ⟨by decide, by constructor <;> decide, rfl, by decide⟩, by decide,
    by constructor <;> decide, rfl, by decide⟩

theorem witness_OldestEntryIsPeekedAndRetired :
    (fresh.PortOpen ∧ fresh.queue.posted = []) ∧ posted.PortOpen ∧
      posted.queue.posted = ⟨1#8, .applied, 4, 4, 1#8, 0#8, .sealWord, 121#16, 9#8⟩ :: [] := by decide

theorem witness_EventRequestsReadClearAndEnable :
    (fresh.PortOpen ∧ fresh.events.capture = none) ∧ (1#8).toNat ≤ 1 ∧
      (let s : State := { fresh with events := ⟨4#9, 4#9, some ⟨.verify, 0#22, 1#4, 7#8, 255#8⟩, true⟩ };
        s.PortOpen ∧ s.events.capture = some ⟨.verify, 0#22, 1#4, 7#8, 255#8⟩) := by decide

theorem witness_ReportsSetOneFlagAndTheFirstErrorIsKept :
    fresh.events.capture = none ∧
      (⟨4#9, 4#9, some ⟨.verify, 0#22, 1#4, 7#8, 255#8⟩, true⟩ : EventUnit).capture =
        some ⟨.verify, 0#22, 1#4, 7#8, 255#8⟩ := by decide

/-- A check of lane 0 of address 5 makes the first entry fire, lets the second take part without firing, and does not
touch the third. -/
theorem witness_WatchChecksObserveFireAndRearm :
    let a : WatchEntry := ⟨true, 5#22, 0xFFFF#32, 0x1200#32, .change, true, false, 255#8, 0#32⟩;
    let b : WatchEntry := ⟨true, 5#22, 0xFF#32, 0x1200#32, .equal, false, false, 0#8, 0#32⟩;
    let c : WatchEntry := ⟨true, 5#22, 0xFF00#32, 0#32, .change, false, false, 0#8, 0#32⟩;
    a.firesAt 5#22 1#4 0x34#32 = true ∧ b.takesPart 5#22 1#4 = true ∧ b.firesAt 5#22 1#4 0x34#32 = false ∧
      c.takesPart 5#22 1#4 = false := by decide

/-- The engine's write of the first record, granted at this moment. -/
def grantedNow : State :=
  let s := onBus .applying false 0 2 .recordWrite
  { s with port := { s.port with mce := false, timer := some ⟨100, 0⟩ } }

theorem witness_HostAccessesGoToTheArray_together :
    grantedNow.Awake ∧ (grantedNow.host.state = .idle ∧ grantedNow.host.hce = false) ∧ grantedNow.PortOk ∧
      grantedNow.SettingsInRange ∧ grantedNow.GrantedNow (request .recordWrite 0) ∧
      (grantedNow.policyOf 5#22 = .pass ∧ grantedNow.policyOf 5#22 ≠ .stage) ∧
      (grantedNow.policyOf 1002#22 = .stage ∧ ∃ n < 4, newestOn grantedNow.log 1002#22 n = none) :=
  ⟨by decide, ⟨rfl, rfl⟩, by constructor <;> decide, by decide, by decide, by decide, by decide⟩

theorem witness_HostAccessesGoToTheArray :
    (fresh.Awake ∧ (fresh.host.state = .idle ∧ fresh.host.hce = false) ∧ fresh.PortOk ∧ fresh.policyOf 5#22 = .pass ∧ 1#4 ≠ 0#4 ∧
      fresh.policyOf 5#22 ≠ .stage ∧ fresh.port.busy = none) ∧
    (opened.PortOk ∧ opened.host.hce = false ∧ opened.policyOf 1001#22 = .stage ∧ ∃ n < 4, newestOn opened.log 1001#22 n = none) ∧
    (let s := onBus .applying false 0 2 .recordWrite;
      s.Awake ∧ (s.host.state = .idle ∧ s.host.hce = false) ∧ s.PortOk ∧ s.policyOf 5#22 = .pass ∧
        s.port.busy ≠ none) ∧
    (hostOnBus .passRead 5#22 fresh).host.state ≠ .idle := by
  refine ⟨⟨by decide, ⟨rfl, rfl⟩, fresh_commitOk.port, ?_⟩, ⟨unadmitted_commitOk.1.port, ?_⟩,
    ⟨by decide, ⟨rfl, rfl⟩, onBus_commitOk.2.1.port, ?_⟩, ?_⟩ <;> decide

theorem witness_BlockedWritesAreRefusedAndEmptyWritesAccepted :
    (let s : State := { fresh with windows := ⟨true, 5#22, 5#22, .block, false, false⟩ :: fresh.windows.tail };
      s.Awake ∧ s.host.state = .idle ∧ s.host.hce = false ∧ s.policyOf 5#22 = .block ∧ 1#4 ≠ 0#4) := by decide

theorem witness_StagedWritesArePlacedAndAccepted_merged :
    opened.Awake ∧ opened.TableOk ∧ opened.LogOk ∧ (opened.host.state = .idle ∧ opened.host.hce = false) ∧
      opened.policyOf 1001#22 = .stage ∧ ∃ t, opened.Placed 1001#22 0x2#4 0x5500#32 7#8 t :=
  ⟨by decide, unadmitted_commitOk.1.table, unadmitted_commitOk.1.log, ⟨rfl, rfl⟩, by decide,
    _, .merged ⟨7#8, .opened, 2, none, 0, 0#8, 0#8, none⟩ ⟨1001#22, 0x1#4, 0xAA#32, 7#8, 1, false⟩ 0x55AA#32 (by decide)
      (by decide)⟩

/-- The write at the limit of the seal-on-last window. -/
theorem witness_StagedWritesArePlacedAndAccepted_appended :
    opened.policyOf 1063#22 = .stage ∧ ∃ t, opened.Placed 1063#22 0x1#4 0x77#32 7#8 t :=
  ⟨by decide, _, .appended ⟨7#8, .opened, 2, none, 0, 0#8, 0#8, none⟩ 0x77#32 (by decide)
    (fun r h => by
      have : ∀ r ∈ opened.log, r.addr ≠ 1063#22 := by decide
      exact this r h.2.1 h.2.2.2) (by decide) (by decide)⟩

/-- A batch opens in slot 1, with id 1 after 255 is passed over. -/
theorem witness_StagedWritesArePlacedAndAccepted_opened :
    let b : Batch := ⟨255#8, .sealed, 1, some .request, 0, 0#8, 0#8, none⟩;
    let s : State :=
      { windowed false false with
        log := [⟨1000#22, 0xF#4, 0#32, 255#8, 0, false⟩], table := ⟨[some b, none, none, none], 255#8, [255#8], 0⟩ }
    s.TableOk ∧ s.LogOk ∧ s.policyOf 1000#22 = .stage ∧ ∃ t, s.Placed 1000#22 0x1#4 0x77#32 1#8 t :=
  ⟨by constructor <;> decide,
    ⟨by decide, by decide, by decide, by decide, by decide, by decide, by decide, by decide, by decide, by decide,
      fun _ h => by cases h⟩, by decide,
    _, .opened 1 1 0x77#32 (by decide) (by decide) (by decide) (by decide) (by decide) (by decide)⟩

theorem witness_StagedWritesWithoutRoomStall :
    slotsFull.Awake ∧ slotsFull.TableOk ∧ slotsFull.LogOk ∧ (slotsFull.host.state = .idle ∧ slotsFull.host.hce = false) ∧
      slotsFull.policyOf 1040#22 = .stage ∧ slotsFull.NoSpace 1040#22 :=
  ⟨by decide, slotsFull_ok.1, slotsFull_ok.2.1, ⟨rfl, rfl⟩, by decide,
    fun b r h => by
      have : ∀ r ∈ slotsFull.log, r.addr ≠ 1040#22 := by decide
      exact this r h.2.1 h.2.2.2, .inr (by decide)⟩

/-- One OPEN batch with all 256 records. -/
def logFull : State :=
  { windowed false false with
    log := (List.range 256).map fun n => ⟨BitVec.ofNat 22 n, 0xF#4, 0#32, 7#8, n, false⟩
    table := ⟨[some ⟨7#8, .opened, 256, none, 0, 0#8, 0#8, none⟩, none, none, none], 8#8, [], 0⟩ }

theorem logFull_records :
    recordsOf logFull.log 7#8 = (List.range 256).map fun n => ⟨BitVec.ofNat 22 n, 0xF#4, 0#32, 7#8, n, false⟩ := by
  simp [logFull, recordsOf, List.filter_eq_self]

theorem logFull_logOk : logFull.LogOk where
  fits := by simp [logFull]
  owned := by simp [logFull, BatchTable.batches]
  lanesGiven := fun r h => by
    simp only [logFull, List.mem_map] at h
    obtain ⟨n, -, rfl⟩ := h
    exact ⟨(by decide : (0xF#4 : Lanes) ≠ 0#4), (by decide : onLanes 0xF#4 0#32 = 0#32)⟩
  nonempty := by decide
  positions := fun b h => by
    obtain rfl : b = ⟨7#8, .opened, 256, none, 0, 0#8, 0#8, none⟩ := by simpa [logFull, BatchTable.batches] using h
    simp [logFull_records, Function.comp_def]
  addresses := fun b h => by
    obtain rfl : b = ⟨7#8, .opened, 256, none, 0, 0#8, 0#8, none⟩ := by simpa [logFull, BatchTable.batches] using h
    rw [logFull_records, List.map_map, List.nodup_map_iff_inj_on List.nodup_range]
    intro x hx y hy h
    have h := congrArg BitVec.toNat h
    simp at hx hy h
    omega
  openLast := by
    simp only [logFull, List.pairwise_map]
    exact fun _ _ _ => List.pairwise_of_forall fun _ _ h => h
  marks := by simp [logFull, BatchTable.batches]
  appliedWithin := by decide
  waitingUntouched := by decide
  heldLanes := fun _ h => by cases h

theorem witness_StagedWritesWithoutRoomStall_fullLog :
    logFull.Awake ∧ logFull.TableOk ∧ logFull.LogOk ∧ logFull.policyOf 1040#22 = .stage ∧ logFull.NoSpace 1040#22 :=
  ⟨by decide, by constructor <;> decide, logFull_logOk, by decide, fun b r h => by
    have h2 := h.2.1
    have h3 := h.2.2.2
    simp only [logFull, List.mem_map, List.mem_range] at h2
    obtain ⟨n, hn, rfl⟩ := h2
    have h3 := congrArg BitVec.toNat h3
    simp at h3
    omega, .inl (by simp [logFull])⟩

theorem witness_RemovalNoticesRetryTheHeldWrite :
    ((∀ w, fresh.host.state ≠ .stalled w) ∧ fresh.TableOk ∧ fresh.LogOk) ∧
    (let s := stalled slotsFull;
      s.TableOk ∧ s.LogOk ∧ s.host.state = .stalled ⟨1040#22, 0xF#4, 5#32, some 0⟩ ∧ s.NoSpace 1040#22) ∧
    (let s := stalled opened;
      s.TableOk ∧ s.LogOk ∧ ∃ t, s.Placed 1040#22 0xF#4 5#32 7#8 t) := by
  refine ⟨⟨fun w h => (by cases h), fresh_commitOk.table, fresh_commitOk.log⟩,
    ⟨slotsFull_ok.2.2.1, slotsFull_ok.2.2.2, rfl, fun b r h => ?_, .inr (by decide)⟩,
    ⟨by constructor <;> decide,
      ⟨by decide, by decide, by decide, by decide, by decide, by decide, by decide, by decide, by decide, by decide,
        fun _ h => by cases h; decide⟩,
      _, .appended ⟨7#8, .opened, 2, none, 0, 0#8, 0#8, none⟩ 5#32 (by decide) (fun r h => ?_) (by decide) (by decide)⟩⟩
  · have : ∀ r ∈ (stalled slotsFull).log, r.addr ≠ 1040#22 := by decide
    exact this r h.2.1 h.2.2.2
  · have : ∀ r ∈ (stalled opened).log, r.addr ≠ 1040#22 := by decide
    exact this r h.2.1 h.2.2.2

theorem witness_CoveredReadsAreAnsweredFromTheLog :
    opened.Awake ∧ opened.host.state = .idle ∧ opened.host.hce = false ∧ opened.policyOf 1000#22 = .stage ∧
      ∀ n < 4, newestOn opened.log 1000#22 n ≠ none := by decide

theorem witness_HostAccessesCompleteAtMrdy :
    ∀ k ∈ [HostKind.passRead, .passWrite, .forwardedRead],
      let s := hostOnBus k 1001#22 opened;
      s.Awake ∧ s.host.state = .memory ⟨k, 1001#22, 0x3#4, 0xBEEF#32, none, true, false⟩ ∧ s.port.busy = some .host ∧
        s.port.mce = true := by decide

theorem witness_HostTimeoutsRefuseTheAccess :
    (let s := hostOnBus .passRead 5#22 fresh;
      s.Awake ∧ s.host.state = .memory ⟨.passRead, 5#22, 0x3#4, 0xBEEF#32, none, true, false⟩ ∧ s.port.busy = some .host ∧
        s.port.timer = some ⟨0, 0⟩) ∧
    (let s := stalled slotsFull;
      s.Awake ∧ s.host.state = .stalled ⟨1040#22, 0xF#4, 5#32, some 0⟩ ∧ s.host.stallTimer = some ⟨0, 0⟩) ∧
    (∀ k, fresh.host.stallTimer ≠ some ⟨0, k⟩) ∧ ∀ acc, fresh.host.state ≠ .memory acc :=
  ⟨by decide, by decide, fun _ h => (by cases h), fun _ h => by cases h⟩

theorem witness_ArbiterGrantsByTheTable :
    (∀ r, fresh.engine.access ≠ .waiting r) ∧ fresh.port.busy = none ∧ fresh.hostWaits = false ∧ fresh.OutOfReset ∧
    (∀ count ∈ [0, 3, 4],
      let s : State :=
        { active .applying false 0 2 (.waiting (request .recordWrite 0)) with
          host := { fresh.host with state := .memory ⟨.passRead, 5#22, 0xF#4, 0#32, none, false, false⟩ }
          port := { fresh.port with count := count } };
      s.port.busy = none ∧ s.engine.access = .waiting (request .recordWrite 0) ∧
        s.host.state = .memory ⟨.passRead, 5#22, 0xF#4, 0#32, none, false, false⟩ ∧
        (s.port.count < s.mgmt.settings.hostShare.toNat ↔ count ≠ 4)) ∧
    (hostOnBus .passRead 5#22 fresh).port.busy ≠ none ∧ (hostOnBus .passRead 5#22 fresh).OutOfReset :=
  ⟨fun r h => (by cases h), by decide, by decide, by decide, by decide, by decide, by decide⟩

theorem witness_ArbiterGrantsByTheTable_together :
    let s := active .applying false 0 2 (.waiting (request .recordWrite 0));
    s.Awake ∧ s.port.busy = none ∧ s.engine.access = .waiting (request .recordWrite 0) ∧ s.host.state = .idle ∧
      s.host.hce = false ∧ s.port.count = 0 ∧ s.policyOf 5#22 ≠ .stage := by decide

theorem witness_EndsOfNoAccessChangeNothing :
    fresh.port.busy ≠ some .host ∧ fresh.port.timer = none ∧
      (let s := hostOnBus .passRead 5#22 fresh;
        let t : State := { s with port := { s.port with timer := some ⟨1, 24⟩ } };
        ∀ k, t.port.timer ≠ some ⟨0, k⟩) ∧
      (hostOnBus .passRead 5#22 fresh).host.state = .memory ⟨.passRead, 5#22, 0x3#4, 0xBEEF#32, none, true, false⟩ ∧
      HostKind.passRead ≠ .passWrite ∧
      (onBus .applying false 0 2 .recordWrite).engine.access = .inFlight (request .recordWrite 0) :=
  ⟨by decide, by decide, fun k h => (by cases h), by decide, by decide, by decide⟩

theorem witness_RecordSuccessRequestsTheNextRecord :
    (let s := onBus .applying false 0 2 .recordWrite;
      let b : Batch := ⟨7#8, .applying, 2, some .request, 0, 1#8, 0#8, none⟩;
      let r : Record := ⟨1000#22, 0xF#4, 0x11223344#32, 7#8, 0, false⟩;
      s.Succeeds .recordWriteComplete b r ∧ r.pos + 1 < b.count ∧ 2 ≤ s.engine.grant ∧
        ⟨1001#22, 0x1#4, 0xAA#32, 7#8, 1, false⟩ ∈ s.log) ∧
    (let s := onBus .applying true 0 2 .verifyRead;
      let b : Batch := ⟨7#8, .applying, 2, some .request, 0, 1#8, 0#8, none⟩;
      let r : Record := ⟨1000#22, 0xF#4, 0x11223344#32, 7#8, 0, false⟩;
      s.Succeeds (.verifyReadComplete 0x11223344#32) b r ∧ 2 ≤ s.engine.grant) :=
  ⟨⟨.inl ⟨rfl, active_onBus.2.1, by decide⟩, by decide, by decide, by decide⟩,
    .inr ⟨0x11223344#32, rfl, active_onBus.2.2.1, by decide⟩, by decide⟩

theorem witness_LastRecordCompletesTheBatch :
    let b : Batch := ⟨7#8, .applying, 2, some .request, 1, 1#8, 0#8, none⟩;
    let r : Record := ⟨1001#22, 0x1#4, 0xAA#32, 7#8, 1, false⟩;
    (onBus .applying false 1 1 .recordWrite).Succeeds .recordWriteComplete b r ∧
      (onBus .applying true 1 1 .verifyRead).Succeeds (.verifyReadComplete 0xFFFFFFAA#32) b r ∧ r.pos + 1 = b.count ∧
      b.cause = some .request :=
  ⟨.inl ⟨rfl, active_onBus.2.2.2.1, by decide⟩, .inr ⟨0xFFFFFFAA#32, rfl, active_onBus.2.2.2.2.1, by decide⟩, by decide,
    by decide⟩

theorem witness_UsedUpGrantPausesTheBatch :
    let b : Batch := ⟨7#8, .applying, 2, some .request, 0, 1#8, 0#8, none⟩;
    let r : Record := ⟨1000#22, 0xF#4, 0x11223344#32, 7#8, 0, false⟩;
    let s := onBus .applying false 0 1 .recordWrite;
    let t := timed s (.opened 1 0 false);
    (s.Succeeds .recordWriteComplete b r ∧ r.pos + 1 < b.count ∧ s.engine.grant = 1 ∧
      ⟨1001#22, 0x1#4, 0xAA#32, 7#8, 1, false⟩ ∈ s.log ∧ s.mgmt.settings.tickSource = .immediate ∧
      s.unit.frozen = false) ∧
    (t.Succeeds .recordWriteComplete b r ∧ t.engine.grant = 1 ∧ t.mgmt.settings.tickSource ≠ .immediate) :=
  ⟨⟨.inl ⟨rfl, active_onBus.2.2.2.2.2.1, by decide⟩, by decide, by decide, by decide, by decide, by decide⟩,
    .inl ⟨rfl, active_onBus.2.2.2.2.2.2.1, by decide⟩, by decide, by decide⟩

theorem witness_VerifyAndFaultsEndTheAccess :
    let b : Batch := ⟨7#8, .applying, 2, some .request, 0, 1#8, 0#8, none⟩;
    let r : Record := ⟨1000#22, 0xF#4, 0x11223344#32, 7#8, 0, false⟩;
    (let s := onBus .applying true 0 2 .recordWrite;
      s.OnBus .applying .recordWrite b r ∧ s.verifyAsked r.addr = true ∧ s.Awake ∧ s.CommitOk ∧ s.Holds b .applying ∧
        s.Next b r ∧ s.engine.access.granted = true ∧ s.port.timer = some ⟨0, 0⟩) ∧
    (onBus .applying true 0 2 .verifyRead).OnBus .applying .verifyRead b r ∧
      ∃ n < 4, r.lanes.getLsbD n = true ∧ laneByte 0x10223344#32 n ≠ laneByte r.data n :=
  ⟨⟨active_onBus.1, by decide, by decide, onBus_commitOk.1, by decide, by decide, rfl, rfl⟩, active_onBus.2.2.1,
    by decide⟩

theorem witness_EndOfTheAccessEndsTheAbort :
    let b : Batch := ⟨7#8, .aborting, 2, some .request, 0, 1#8, 0#8, none⟩;
    let r : Record := ⟨1000#22, 0xF#4, 0x11223344#32, 7#8, 0, false⟩;
    (let s := onBus .aborting false 0 2 .recordWrite;
      b.cause = some .request ∧ s.OnBus .aborting .recordWrite b r ∧ s.Awake ∧ s.CommitOk ∧ s.Holds b .aborting ∧
        s.Next b r ∧ s.port.timer = some ⟨0, 0⟩) ∧
    (onBus .aborting true 1 1 .verifyRead).OnBus .aborting .verifyRead { b with applied := 1 }
      ⟨1001#22, 0x1#4, 0xAA#32, 7#8, 1, false⟩ :=
  ⟨⟨rfl, active_onBus.2.2.2.2.2.2.2.1, by decide, onBus_commitOk.2.2.2.2.2.2.2.1, by decide, by decide, rfl⟩,
    active_onBus.2.2.2.2.2.2.2.2⟩

theorem witness_AdmissionAttemptsTakeTheHead :
    let b : Batch := ⟨7#8, .sealed, 2, some .request, 0, 0#8, 0#8, none⟩;
    ((sealedIn .closed).OutOfReset ∧ (sealedIn .closed).CommitOk ∧ (sealedIn .closed).unit.window = .closed) ∧
    (fresh.CommitOk ∧ fresh.table.sealedQueue = []) ∧
    (∀ s ∈ [sealed, sealedIn (.opened 1 1 true), sealedIn (.opened 2 2 true), sealedIn (.opened 2 1 false)],
      s.OutOfReset ∧ s.CommitOk ∧ s.engine.active = none ∧ s.table.sealedQueue = b.id :: [] ∧ b ∈ s.table.batches ∧
        ⟨1000#22, 0xF#4, 0x11223344#32, 7#8, 0, false⟩ ∈ s.log ∧ s.unit.frozen = false ∧
        s.queue.posted.length + s.queue.reserved < 8) := by
  obtain ⟨-, h1, h2, h3, h4, h5⟩ := unadmitted_commitOk
  refine ⟨⟨by decide, h2, rfl⟩, ⟨fresh_commitOk, rfl⟩, ?_⟩
  simp only [List.forall_mem_cons, List.not_mem_nil, false_implies, implies_true, and_true]
  refine ⟨⟨?_, h1, ?_⟩, ⟨?_, h3, ?_⟩, ⟨?_, h4, ?_⟩, ?_, h5, ?_⟩ <;> decide

theorem witness_WindowOpeningsContinueAPausedBatch :
    let b : Batch := ⟨7#8, .paused, 2, some .request, 1, 1#8, 0#8, none⟩;
    (fresh.CommitOk ∧ fresh.waiting.openings = 0) ∧
    (∀ s ∈ [pausedIn .closed, pausedIn (.opened 1 1 true), pausedIn (.opened 1 0 false)],
      s.CommitOk ∧ s.waiting.openings = 0 + 1 ∧ s.Holds b .paused ∧
        s.Next b ⟨1001#22, 0x1#4, 0xAA#32, 7#8, 1, false⟩ ∧ s.unit.frozen = false) := by
  obtain ⟨-, -, h1, h2, h3, -, -⟩ := resting_commitOk
  refine ⟨⟨fresh_commitOk, rfl⟩, ?_⟩
  simp only [List.forall_mem_cons, List.not_mem_nil, false_implies, implies_true, and_true]
  refine ⟨⟨h1, ?_⟩, ⟨h2, ?_⟩, h3, ?_⟩ <;> decide

/-- The premises of the statements about what every step keeps: a state with all of the invariants, and a step from it. -/
theorem witness_StepKeepsTheCommitPath :
    let s : State := { onBus .applying false 0 2 .recordWrite with pending := [.recordWriteComplete] };
    s.CommitOk ∧ s.PinsOk ∧ (∃ t, step s = .next t) ∧ s.HoldOk ∧ s.SizesOk ∧ s.NumbersOk :=
  ⟨{ settings := by decide
     windows := by constructor <;> first | decide | trivial
     table := by constructor <;> decide
     queue := by decide
     log := ⟨by decide, by decide, by decide, by decide, by decide, by decide, by decide, by decide, by decide, by decide,
       fun _ h => by cases h⟩
     engine := ⟨by decide, fun b h => by cases Option.some.inj h; constructor <;> decide⟩
     port := by constructor <;> decide }, by constructor <;> first | decide | (intro h; cases h), ⟨_, rfl⟩, by decide,
    by decide, by decide⟩

theorem witness_StepKeepsStagedAddresses :
    opened.CommitOk ∧ opened.PinsOk ∧ opened.StagedOk ∧ ∃ t, step opened = .next t :=
  ⟨unadmitted_commitOk.1, by constructor <;> first | decide | (intro h; cases h),
    ⟨by decide, fun w h => (by cases h), fun w h => by cases h⟩, ⟨_, rfl⟩⟩

theorem witness_StepKeepsLinesNumbersAndSizes :
    (posted.NumbersOk ∧ posted.SizesOk ∧ posted.HoldOk ∧ posted.IrqOk ∧ posted.PinsOk ∧ ∃ t, step posted = .next t) ∧
    let held : State := { State.pinReset { posted with power := ⟨true, false, true⟩ } with pending := [.refclkStop] };
    held.ResetOk ∧ ¬ held.OutOfReset ∧ (∀ rest, held.pending ≠ .rstRelease :: rest) ∧ ∃ t, step held = .next t :=
  ⟨⟨by decide, by decide, by decide, by decide, by constructor <;> first | decide | (intro h; cases h), ⟨_, rfl⟩⟩,
    fun _ => rfl, by decide, fun _ h => (by cases h), ⟨_, rfl⟩⟩

theorem witness_StepKeepsTheWindowUnit :
    fresh.SettingsInRange ∧ fresh.WindowsOk ∧ fresh.TableOk ∧ fresh.QueueOk ∧ ∃ t, step fresh = .next t :=
  ⟨fresh_commitOk.settings, fresh_commitOk.windows, fresh_commitOk.table, fresh_commitOk.queue, ⟨_, rfl⟩⟩

theorem witness_StepKeepsTheBatchTable : sealed.TableOk ∧ sealed.QueueOk ∧ ∃ t, step sealed = .next t :=
  ⟨unadmitted_commitOk.2.1.table, unadmitted_commitOk.2.1.queue, ⟨_, rfl⟩⟩

end Sys2Proof.Tests
end

section
/-! PROOFS. Every step keeps the batch table and the completion queue well formed (R30 to R34, R42, R73, R109): first what
the shared operations leave of them, then each command, then the step. -/

namespace Sys2Proof.Machine

open Sys2Proof

variable {s t : State}

/-! ### What the operations leave of the table, the completion queue and the active batch -/

@[simp] theorem State.sealOpen_queue (s : State) (c : SealCause) : (s.sealOpen c).queue = s.queue := by
  unfold State.sealOpen
  split <;> rfl

@[simp] theorem State.sealOpen_engine (s : State) (c : SealCause) : (s.sealOpen c).engine = s.engine := by
  unfold State.sealOpen
  split <;> rfl

@[simp] theorem State.placeRequest_table (s : State) (k : AccessKind) : (s.placeRequest k).table = s.table := by
  unfold State.placeRequest
  split <;> simp

@[simp] theorem State.placeRequest_queue (s : State) (k : AccessKind) : (s.placeRequest k).queue = s.queue := by
  unfold State.placeRequest
  split <;> simp

@[simp] theorem State.placeRequest_active (s : State) (k : AccessKind) :
    (s.placeRequest k).engine.active = s.engine.active := by
  unfold State.placeRequest
  split <;> simp

@[simp] theorem State.countApplied_table (s : State) (id : Byte) (r : Record) :
    (s.countApplied id r).table = s.table.update id fun b => { b with applied := b.applied + 1 } := by
  rw [State.countApplied, State.watchCheck_eq]

@[simp] theorem State.countApplied_queue (s : State) (id : Byte) (r : Record) :
    (s.countApplied id r).queue = s.queue := by
  rw [State.countApplied, State.watchCheck_eq]

@[simp] theorem State.countApplied_active (s : State) (id : Byte) (r : Record) :
    (s.countApplied id r).engine.active = s.engine.active := by
  rw [State.countApplied, State.watchCheck_eq]

@[simp] theorem State.charge_table (s : State) (g : Nat) : (s.charge g).table = s.table := by rw [State.charge_eq]
@[simp] theorem State.charge_queue (s : State) (g : Nat) : (s.charge g).queue = s.queue := by rw [State.charge_eq]
@[simp] theorem State.charge_engine (s : State) (g : Nat) : (s.charge g).engine = s.engine := by rw [State.charge_eq]

/-! ### Both properties together -/

/-- The batch table and the completion queue are well formed (R30 to R34, R42, R73, R109). -/
structure State.BatchesOk (s : State) : Prop where
  table : s.TableOk
  queue : s.QueueOk

/-- Only the table, the completion queue and which batch is active are read. -/
theorem State.BatchesOk.congr (h : s.BatchesOk) (ht : t.table = s.table) (hq : t.queue = s.queue)
    (ha : t.engine.active = s.engine.active) : t.BatchesOk :=
  ⟨h.table.congr ht ha, h.queue.congr hq ha⟩

/-- A change of the active batch that leaves it active, with its id and cause. -/
theorem State.BatchesOk.update_active (h : s.BatchesOk) {i : Byte} {f : Batch → Batch} (hi : s.engine.active = some i)
    (hid : ∀ b, (f b).id = b.id) (hc : ∀ b, (f b).cause = b.cause) (hf : ∀ b, b.state.IsActive → (f b).state.IsActive)
    (ht : t.table = s.table.update i f) (hq : t.queue = s.queue) (ha : t.engine.active = s.engine.active) :
    t.BatchesOk := by
  obtain ⟨b, hb, rfl, hba⟩ := h.table.activeInTable i hi
  have hr : t.table = s.table.replace b (f b) :=
    ht.trans (BatchTable.update_eq_replace h.table.idsDistinct hb f)
  exact ⟨h.table.replace_active hb hba (hid b) (hf b hba) (hc b) hr ha, h.queue.congr hq ha⟩

/-- The batch that is found by the id of the active one is in the table and active (R73). -/
theorem State.TableOk.of_find_active (h : s.TableOk) {i : Byte} {b : Batch} (hi : s.engine.active = some i)
    (hf : s.table.find? i = some b) : b ∈ s.table.batches ∧ b.state.IsActive :=
  h.activeBatch?_eq_some.1 (by rw [State.activeBatch?, hi, Option.bind_some, hf])

/-- A batch past its seal has a cause (R32). -/
theorem State.TableOk.exists_cause (h : s.TableOk) {b : Batch} (hb : b ∈ s.table.batches) (ho : b.state ≠ .opened) :
    ∃ cause, b.cause = some cause :=
  Option.ne_none_iff_exists'.1 fun hn => ho ((h.causeSet b hb).1 hn)

/-- A batch leaves with its entry while no other batch is active and the queue has a place for the entry (R44, R110). -/
theorem State.BatchesOk.departed (h : s.BatchesOk) {b : Batch} (hb : b ∈ s.table.batches)
    (ha : b.state.IsActive ∨ s.engine.active = none) (hq : s.queue.posted.length < Config.completionPlaces)
    (o : BatchOutcome) (cause : SealCause) : (s.departed b o cause).BatchesOk := by
  refine ⟨h.table.without hb rfl ?_, ?_, rfl⟩
  · rcases ha with ha | ha
    · rw [if_neg (not_or.2 ha)]
      rfl
    · rw [ha, ite_self]
      rfl
  · have : (s.departed b o cause).queue.posted.length = s.queue.posted.length + 1 := List.length_append
    exact this ▸ hq

/-- The reservation of the active batch leaves a place for its entry (R109). -/
theorem State.BatchesOk.placeFree_of_active (h : s.BatchesOk) {b : Batch} (hb : b ∈ s.table.batches)
    (ha : b.state.IsActive) : s.queue.posted.length < Config.completionPlaces := by
  obtain ⟨hle, hr⟩ := h.queue
  rw [h.table.activeHeld b hb ha] at hr
  simp only [Option.isSome_some, if_true] at hr
  omega

/-! ### Seals, placements and arbiter decisions -/

theorem State.BatchesOk.sealOpen (h : s.BatchesOk) (cause : SealCause) : (s.sealOpen cause).BatchesOk :=
  ⟨h.table.sealOpen cause, h.queue.congr (by simp) (by simp)⟩

theorem State.BatchesOk.removalNotice (h : s.BatchesOk) : s.removalNotice.BatchesOk :=
  ⟨h.table.removalNotice, h.queue.congr (by simp) (by simp)⟩

theorem State.BatchesOk.arbitrate (h : s.BatchesOk) : s.arbitrate.BatchesOk :=
  h.congr (by simp) (by simp) (by simp)

theorem State.BatchesOk.freePort (h : s.BatchesOk) : s.freePort.BatchesOk :=
  State.BatchesOk.arbitrate (h.congr rfl rfl rfl)

theorem State.BatchesOk.placeRequest (h : s.BatchesOk) (k : AccessKind) : (s.placeRequest k).BatchesOk :=
  h.congr (by simp) (by simp) (by simp)

theorem State.BatchesOk.placeForHost (h : s.BatchesOk) {w : HeldWrite} (hp : s.placeForHost w = some t) :
    t.BatchesOk := by
  have hq := s.place_eq w.addr w.lanes w.data
  have hs : (s.place w.addr w.lanes w.data).2.BatchesOk :=
    ⟨h.table.place _ _ _, h.queue.congr (by rw [hq]) (by rw [hq])⟩
  have hk : ∀ (u : State) (id : Byte), u.BatchesOk →
      (u.acceptWrite.sealOnLastCheck w.window w.addr id).BatchesOk := fun u id hu => by
    rw [State.placed_eq]
    exact hu.congr rfl rfl rfl
  unfold State.placeForHost at hp
  split at hp <;> rename_i hx
  · rw [← Option.some.inj hp]
    exact hk _ _ (by rwa [hx] at hs)
  · rw [← Option.some.inj hp]
    exact hk _ _ (by rwa [hx] at hs)
  · cases hp

/-! ### The active batch (R81, R85 to R96) -/

theorem State.BatchesOk.countApplied (h : s.BatchesOk) {i : Byte} (hi : s.engine.active = some i) (r : Record) :
    (s.countApplied i r).BatchesOk :=
  h.update_active hi (f := fun b => { b with applied := b.applied + 1 }) (fun _ => rfl) (fun _ => rfl)
    (fun _ hb => hb) (by simp) (by simp) (by simp)

theorem State.BatchesOk.giveGrant (h : s.BatchesOk) {i : Byte} (hi : s.engine.active = some i) (g : Nat) :
    (s.giveGrant i g).BatchesOk := by
  unfold State.giveGrant
  refine State.BatchesOk.placeRequest ?_ .recordWrite
  exact h.update_active hi (f := fun b => { b with state := .applying, windowsUsed := satInc b.windowsUsed })
    (fun _ => rfl) (fun _ => rfl) (fun _ _ => ⟨nofun, nofun⟩) rfl rfl rfl

theorem State.BatchesOk.complete (h : s.BatchesOk) {b : Batch} (hb : b ∈ s.table.batches) (ha : b.state.IsActive) :
    (s.complete b).BatchesOk := by
  obtain ⟨cause, hc⟩ := h.table.exists_cause hb ha.1
  rw [State.complete_eq h.table.idsDistinct hb hc]
  exact (h.departed hb (.inl ha) (h.placeFree_of_active hb ha) _ cause).removalNotice

theorem State.BatchesOk.abortEnd (h : s.BatchesOk) {b : Batch} (hb : b ∈ s.table.batches) (ha : b.state.IsActive) :
    (s.abortEnd b).BatchesOk := by
  obtain ⟨cause, hc⟩ := h.table.exists_cause hb ha.1
  have hq := h.placeFree_of_active hb ha
  rw [State.abortEnd_eq h.table.idsDistinct hb hc]
  unfold State.abortEnded
  split
  · exact State.BatchesOk.departed (s := s.report .torn) (h.congr rfl rfl rfl) hb (.inl ha) hq .aborted cause
  · exact h.departed hb (.inl ha) hq .aborted cause

theorem State.BatchesOk.pause (h : s.BatchesOk) {b : Batch} (hi : s.engine.active = some b.id) :
    (s.pause b).BatchesOk := by
  have hp : State.BatchesOk
      (State.report { s with table := s.table.update b.id fun b => { b with state := .paused } } .torn) :=
    h.update_active hi (f := fun b => { b with state := .paused }) (fun _ => rfl) (fun _ => rfl)
      (fun _ _ => ⟨nofun, nofun⟩) rfl rfl rfl
  unfold State.pause
  dsimp only
  split
  · exact hp.giveGrant hi _
  · exact hp

theorem State.BatchesOk.recordSuccess (h : s.BatchesOk) {i : Byte} (hi : s.engine.active = some i) (r : Record) :
    (s.recordSuccess i r).BatchesOk := by
  unfold State.recordSuccess
  dsimp only
  have hi' : (s.countApplied i r).engine.active = some i := by simpa using hi
  have hu : State.BatchesOk
      { s.countApplied i r with
        engine := { (s.countApplied i r).engine with grant := (s.countApplied i r).engine.grant - 1 } } :=
    (h.countApplied hi r).congr rfl rfl rfl
  split
  · exact hu
  · rename_i b hf
    obtain ⟨hb, ha⟩ := hu.table.of_find_active hi' hf
    split
    · exact hu.complete hb ha
    · split
      · exact hu.pause (hu.table.activeHeld b hb ha)
      · exact hu.placeRequest .recordWrite

theorem State.BatchesOk.takeFault (h : s.BatchesOk) {i : Byte} (hi : s.engine.active = some i) (r : Record)
    (cause : ErrorCause) : (s.takeFault i r cause).BatchesOk :=
  h.update_active hi
    (f := fun b => { b with state := .halted, faultPos := some s.engine.nextPos, halts := satInc b.halts })
    (fun _ => rfl) (fun _ => rfl) (fun _ _ => ⟨nofun, nofun⟩) rfl rfl rfl

theorem State.BatchesOk.applyingEnd (h : s.BatchesOk) {i : Byte} (hi : s.engine.active = some i) (r : Record)
    (e : AccessEnd) : (s.applyingEnd i r e).BatchesOk := by
  cases e <;> simp only [State.applyingEnd]
  case writeDone =>
    split
    · exact h.placeRequest .verifyRead
    · exact h.recordSuccess hi r
  case verifyDone md =>
    split
    · exact h.recordSuccess hi r
    · exact h.takeFault hi r .verify
  case timedOut => exact h.takeFault hi r .engineMemTimeout

theorem State.BatchesOk.abortingEnd (h : s.BatchesOk) {i : Byte} (hi : s.engine.active = some i) (r : Record)
    (e : AccessEnd) : (s.abortingEnd i r e).BatchesOk := by
  have hend : ∀ u : State, u.BatchesOk → u.engine.active = some i →
      State.BatchesOk
        (match u.table.find? i with
        | some b => (u.abortEnd b).removalNotice
        | none => u) := fun u hu hi' => by
    split
    · rename_i b hf
      obtain ⟨hb, ha⟩ := hu.table.of_find_active hi' hf
      exact (hu.abortEnd hb ha).removalNotice
    · exact hu
  cases e with
  | timedOut => exact hend s h hi
  | writeDone => exact hend _ (h.countApplied hi r) (by simpa using hi)
  | verifyDone md => exact hend _ (h.countApplied hi r) (by simpa using hi)

theorem State.BatchesOk.engineAccessEnd (h : s.BatchesOk) (e : AccessEnd) : (s.engineAccessEnd e).BatchesOk := by
  have hu : State.BatchesOk { s.endBus with engine := { s.endBus.engine with access := .idle } } :=
    h.congr rfl rfl rfl
  unfold State.engineAccessEnd
  refine State.BatchesOk.freePort ?_
  dsimp only
  split
  · rename_i b r hb _
    obtain ⟨hm, ha⟩ := hu.table.activeBatch?_eq_some.1 hb
    have hi := hu.table.activeHeld b hm ha
    split
    · exact hu.abortingEnd hi r e
    · exact hu.applyingEnd hi r e
  · exact hu

theorem State.BatchesOk.abortActive (h : s.BatchesOk) {b : Batch} (hi : s.engine.active = some b.id) :
    (s.abortActive b).2.BatchesOk := by
  have hend : ∀ u : State, u.BatchesOk → u.engine.active = some b.id →
      State.BatchesOk
        (match u.table.find? b.id with
        | some c => (true, u.abortEnd c)
        | none => (true, u)).2 := fun u hu hi' => by
    split
    · rename_i c hf
      obtain ⟨hc, ha⟩ := hu.table.of_find_active hi' hf
      exact hu.abortEnd hc ha
    · exact hu
  have hidle : State.BatchesOk { s with engine := { s.engine with access := .idle } } := h.congr rfl rfl rfl
  unfold State.abortActive
  dsimp only
  split
  · exact hend s h hi
  · split
    · exact hend _ (hidle.countApplied hi _) (by simpa using hi)
    · exact hend _ hidle hi
  · exact h.update_active hi (f := fun b => { b with state := .aborting, faultPos := none }) (fun _ => rfl)
      (fun _ => rfl) (fun _ _ => ⟨nofun, nofun⟩) rfl rfl rfl

/-! ### Admission attempts (R75 to R78) -/

/-- The candidate of an attempt is the head of the sealed queue, under the conditions of R75. -/
theorem State.TableOk.candidate?_eq_some (h : s.TableOk) {b : Batch} :
    s.candidate? = some b ↔
      s.engine.active = none ∧ (∃ rest, s.table.sealedQueue = b.id :: rest) ∧ b ∈ s.table.batches ∧
        s.unit.frozen = false ∧ s.queue.posted.length + s.queue.reserved < Config.completionPlaces ∧
        s.unit.window ≠ .closed := by
  unfold State.candidate?
  cases s.engine.active with
  | some i => simp
  | none =>
    cases s.table.sealedQueue with
    | nil => simp
    | cons i rest =>
      simp only [Option.ite_none_left_eq_some, BatchTable.find?_eq_some h.idsDistinct, Bool.or_eq_true,
        decide_eq_true_eq, not_or, Bool.not_eq_true, Nat.not_le]
      constructor
      · rintro ⟨⟨⟨hf, hq⟩, hw⟩, hb, rfl⟩
        exact ⟨trivial, ⟨rest, rfl⟩, hb, hf, hq, hw⟩
      · rintro ⟨-, ⟨_, hr⟩, hb, hf, hq, hw⟩
        exact ⟨⟨⟨hf, hq⟩, hw⟩, hb, (List.cons.inj hr).1.symm⟩

/-- What an attempt can do: nothing, refuse its candidate as oversize, or admit it with some grant, charged to the window
(R76). -/
theorem State.attempt_cases (s : State) :
    s.attempt = s ∨
    ∃ b, s.candidate? = some b ∧
      (s.attempt = s.refuseOversize b ∨
        ∃ w g, s.attempt = State.admitHead { s with unit := { s.unit with window := w } } b.id g) := by
  have hcharge : ∀ (b : Batch) (c g : Nat), ∃ w k,
      (s.charge c).admitHead b.id g = State.admitHead { s with unit := { s.unit with window := w } } b.id k :=
    fun b c g => ⟨_, g, by rw [s.charge_eq]⟩
  unfold State.attempt
  split
  · exact .inl rfl
  · rename_i b hb
    split
    · exact .inl rfl
    · exact .inr ⟨b, hb, .inr ⟨s.unit.window, b.count, rfl⟩⟩
    · split
      · split
        · split
          · exact .inr ⟨b, hb, .inr (hcharge b _ _)⟩
          · exact .inl rfl
        · exact .inr ⟨b, hb, .inl rfl⟩
      · split
        · exact .inr ⟨b, hb, .inr (hcharge b _ _)⟩
        · exact .inl rfl

/-- A SEALED batch is in the sealed queue's place that carries its id (R42). -/
theorem State.TableOk.sealed_of_queued (h : s.TableOk) {b : Batch} (hb : b ∈ s.table.batches)
    (hq : b.id ∈ s.table.sealedQueue) : b.state = .sealed := by
  obtain ⟨c, hc, hid, hs⟩ := h.queueSealed b.id hq
  rwa [← BatchTable.Distinct.eq h.idsDistinct hc hb hid]

/-- The head of the sealed queue becomes the active batch, and the queue's rest waits (R77). -/
theorem State.admitHead_eq (h : s.TableOk) {b : Batch} {rest : List Byte} (hb : b ∈ s.table.batches)
    (hq : s.table.sealedQueue = b.id :: rest) (g : Nat) :
    s.admitHead b.id g =
      State.placeRequest
        { s with
          queue := { s.queue with reserved := 1 }
          table :=
            { s.table.replace b { b with state := .applying, windowsUsed := satInc b.windowsUsed } with
              sealedQueue := rest }
          engine := ⟨some b.id, g, 0, false, s.engine.access, true⟩ }
        .recordWrite := by
  have hd := h.queueDistinct
  rw [hq, List.nodup_cons] at hd
  have hrest : (b.id :: rest).filter (fun i => decide (i ≠ b.id)) = rest := by
    rw [List.filter_cons_of_neg (by simp), List.filter_eq_self]
    exact fun i hi => decide_eq_true fun e => hd.1 (e ▸ hi)
  have hu := BatchTable.update_eq_replace h.idsDistinct hb
    fun b => { b with state := .applying, windowsUsed := satInc b.windowsUsed }
  simp only [State.admitHead, State.giveGrant, ← hu, BatchTable.dequeue, BatchTable.update, hq, hrest]

/-- The head of the sealed queue, admitted, is the one active batch (R34, R42, R77). -/
theorem State.TableOk.admitted (h : s.TableOk) {b b' : Batch} {rest : List Byte} (hb : b ∈ s.table.batches)
    (hq : s.table.sealedQueue = b.id :: rest) (hn : s.engine.active = none) (hid : b'.id = b.id)
    (hs : b'.state.IsActive) (hc : b'.cause = b.cause)
    (ht : t.table = { s.table.replace b b' with sealedQueue := rest }) (ha : t.engine.active = some b.id) :
    t.TableOk := by
  have hbs : b.state = .sealed := h.sealed_of_queued hb (by rw [hq]; exact List.mem_cons_self)
  have hbat : t.table.batches = (s.table.replace b b').batches := by rw [ht]; rfl
  have hm : ∀ c, c ∈ t.table.batches ↔ c = b' ∨ (c ∈ s.table.batches ∧ c ≠ b) := fun c => by
    rw [hbat, BatchTable.mem_replace h.idsDistinct hb]
  have hne : ∀ c ∈ s.table.batches, c.id ≠ b.id → c ≠ b := fun c _ hid e => hid (by rw [e])
  have hd := h.queueDistinct
  rw [hq, List.nodup_cons] at hd
  have hinactive : ∀ c ∈ s.table.batches, ¬ c.state.IsActive := fun c hc hca => by
    have := h.activeHeld c hc hca
    rw [hn] at this
    cases this
  constructor
  · rw [ht]
    simpa [BatchTable.replace] using h.fourSlots
  · rw [hbat]
    exact BatchTable.Distinct.replace h.idsDistinct hb hid
  · intro c hcm
    rcases (hm c).1 hcm with rfl | ⟨hcm, -⟩
    · rw [hid]
      exact h.idsNonzero b hb
    · exact h.idsNonzero c hcm
  · rw [ht]
    exact h.nextIdNonzero
  · intro c hcm d hdm hco hdo
    rcases (hm c).1 hcm with rfl | ⟨hcm, -⟩
    · exact absurd hco hs.1
    · rcases (hm d).1 hdm with rfl | ⟨hdm, -⟩
      · exact absurd hdo hs.1
      · exact h.oneOpen c hcm d hdm hco hdo
  · rw [ht]
    exact hd.2
  · rw [ht]
    intro i hi
    obtain ⟨c, hcm, hci, hcs⟩ := h.queueSealed i (by rw [hq]; exact List.mem_cons_of_mem _ hi)
    rw [← ht]
    exact ⟨c, (hm c).2 (.inr ⟨hcm, hne c hcm fun e => hd.1 (by rw [← e, hci]; exact hi)⟩), hci, hcs⟩
  · intro c hcm hcs
    rw [ht]
    rcases (hm c).1 hcm with rfl | ⟨hcm, hcb⟩
    · exact absurd hcs hs.2
    · have := h.sealedQueued c hcm hcs
      rw [hq] at this
      exact (List.mem_cons.1 this).resolve_left fun e => hcb (BatchTable.Distinct.eq h.idsDistinct hcm hb e)
  · intro c hcm hca
    rcases (hm c).1 hcm with rfl | ⟨hcm, -⟩
    · rw [ha, hid]
    · exact absurd hca (hinactive c hcm)
  · rw [ha]
    rintro i ⟨⟩
    exact ⟨b', (hm b').2 (.inl rfl), hid, hs⟩
  · intro c hcm
    rcases (hm c).1 hcm with rfl | ⟨hcm, -⟩
    · rw [hc, h.causeSet b hb, hbs]
      exact ⟨nofun, fun e => absurd e hs.1⟩
    · exact h.causeSet c hcm

theorem State.BatchesOk.admitHead (h : s.BatchesOk) {b : Batch} {rest : List Byte} (hb : b ∈ s.table.batches)
    (hq : s.table.sealedQueue = b.id :: rest) (hn : s.engine.active = none)
    (hp : s.queue.posted.length + s.queue.reserved < Config.completionPlaces) (g : Nat) :
    (s.admitHead b.id g).BatchesOk := by
  rw [State.admitHead_eq h.table hb hq]
  refine State.BatchesOk.placeRequest ⟨?_, ?_, rfl⟩ .recordWrite
  · exact h.table.admitted (b' := { b with state := .applying, windowsUsed := satInc b.windowsUsed }) hb hq hn rfl
      ⟨nofun, nofun⟩ rfl rfl rfl
  · exact Nat.succ_le_of_lt (Nat.lt_of_le_of_lt (Nat.le_add_right _ _) hp)

/-- A SEALED batch refused with no active batch leaves the table with its entry in a free place (R78, R110). -/
theorem State.BatchesOk.refuseOversize (h : s.BatchesOk) {b : Batch} (hb : b ∈ s.table.batches)
    (hs : b.state = .sealed) (hn : s.engine.active = none)
    (hp : s.queue.posted.length + s.queue.reserved < Config.completionPlaces) : (s.refuseOversize b).BatchesOk := by
  have hpost : ∀ c o, (s.post c o).BatchesOk := fun c o => by
    refine ⟨h.table.congr rfl rfl, ?_, ?_⟩
    · have : (s.post c o).queue.posted.length = s.queue.posted.length + 1 := List.length_append
      exact this ▸ Nat.succ_le_of_lt (Nat.lt_of_le_of_lt (Nat.le_add_right _ _) hp)
    · change 0 = if s.engine.active.isSome then 1 else 0
      rw [hn]
      rfl
  have hdrop : ∀ u : State, u.BatchesOk → u.table = s.table →
      ((u.dropBatch b.id).removalNotice.awaitAttempt).BatchesOk := fun u hu ht => by
    have hd : (u.dropBatch b.id).BatchesOk := ⟨hu.table.dropBatch (ht ▸ hb) (.inr hs), hu.queue.congr rfl rfl⟩
    exact hd.removalNotice.congr rfl rfl rfl
  unfold State.refuseOversize
  dsimp only
  split
  · exact hdrop _ ((hpost _ _).congr rfl rfl rfl) rfl
  · exact hdrop _ (hpost _ _) rfl

theorem State.BatchesOk.attempt (h : s.BatchesOk) : s.attempt.BatchesOk := by
  rcases s.attempt_cases with he | ⟨b, hc, he | ⟨w, g, he⟩⟩ <;> rw [he]
  · exact h
  · obtain ⟨hn, ⟨rest, hq⟩, hb, -, hp, -⟩ := h.table.candidate?_eq_some.1 hc
    exact h.refuseOversize hb (h.table.sealed_of_queued hb (by rw [hq]; exact List.mem_cons_self)) hn hp
  · obtain ⟨hn, ⟨rest, hq⟩, hb, -, hp, -⟩ := h.table.candidate?_eq_some.1 hc
    exact State.BatchesOk.admitHead (s := { s with unit := { s.unit with window := w } }) (h.congr rfl rfl rfl) hb hq hn
      hp g

/-! ### Host accesses (R123 to R137) -/

theorem State.BatchesOk.startHostAccess (h : s.BatchesOk) (k : HostKind) (a : Addr) (l : Lanes) (d : Word)
    (w : Option Nat) : (s.startHostAccess k a l d w).BatchesOk :=
  State.BatchesOk.arbitrate (h.congr rfl rfl rfl)

theorem State.BatchesOk.decideTogether (h : s.BatchesOk) : s.decideTogether.BatchesOk := by
  rcases s.decideTogether_cases with he | ⟨q, -, -, he⟩ <;> rw [he]
  · exact h
  · exact State.BatchesOk.arbitrate (h.congr rfl rfl rfl)

theorem State.BatchesOk.stageWrite (h : s.BatchesOk) (w : HeldWrite) : (s.stageWrite w).BatchesOk := by
  unfold State.stageWrite
  split
  · exact h.placeForHost ‹_›
  · exact h.congr rfl rfl rfl

theorem State.BatchesOk.forwardRead (h : s.BatchesOk) (a : Addr) (w : Option Nat) : (s.forwardRead a w).BatchesOk := by
  unfold State.forwardRead
  dsimp only
  split
  · exact h.congr rfl rfl rfl
  · exact h.startHostAccess _ _ _ _ _

theorem State.BatchesOk.takeHostRequest (h : s.BatchesOk) : s.takeHostRequest.BatchesOk := by
  have hu : State.BatchesOk { s with host := { s.host with herr := false, answer := none } } := h.congr rfl rfl rfl
  unfold State.takeHostRequest
  dsimp only
  split
  · split
    · exact hu
    · split
      · exact hu.startHostAccess _ _ _ _ _
      · exact hu.stageWrite _
      · exact hu.congr rfl rfl rfl
  · split
    · exact hu.forwardRead _ _
    · exact hu.startHostAccess _ _ _ _ _

/-! ### Window unit, settings and pin reset -/

theorem State.BatchesOk.countEdge (h : s.BatchesOk) : s.countEdge.BatchesOk := by
  unfold State.countEdge
  dsimp only
  split <;> exact h.congr rfl rfl rfl

theorem State.BatchesOk.endFreeze (h : s.BatchesOk) : s.endFreeze.BatchesOk := by
  unfold State.endFreeze
  dsimp only
  split <;> exact h.congr rfl rfl rfl

theorem State.BatchesOk.setConfig (h : s.BatchesOk) (c : Settings) : (s.setConfig c).BatchesOk := by
  unfold State.setConfig State.changeTickSource
  dsimp only
  split
  · exact h.congr rfl rfl rfl
  · split <;> exact h.congr rfl rfl rfl

/-- A table, an engine and a completion queue at their pin-reset values are well formed, whatever they were (R51, R104,
R116). -/
theorem State.batchesOk_of_reset (ht : s.table = BatchTable.reset) (he : s.engine = Engine.reset)
    (hq : s.queue = CompletionQueue.reset) : s.BatchesOk := by
  have hr : State.BatchesOk State.reset := ⟨by constructor <;> decide, by decide⟩
  exact hr.congr ht hq (congrArg Engine.active he)

theorem State.BatchesOk.leaveReset (h : s.BatchesOk) : s.leaveReset.BatchesOk := by
  unfold State.leaveReset
  dsimp only
  generalize (if s.mgmt.scs = true then PortState.skipping else PortState.idle) = p
  split
  · exact State.BatchesOk.takeHostRequest (h.congr rfl rfl rfl)
  · exact h.congr rfl rfl rfl

/-! ### Requests of the management port -/

theorem State.BatchesOk.ite {c : Prop} [Decidable c] {u v : State} (hu : u.BatchesOk) (hv : v.BatchesOk) :
    (if c then u else v).BatchesOk := by
  split
  · exact hu
  · exact hv

/-- A request keeps what its owning block keeps (R172). -/
theorem State.BatchesOk.handRequest (h : s.BatchesOk) (tag : Byte) (inRange : Bool) {owner : State → Taken}
    (ho : ∀ u : State, u.BatchesOk → (owner u).state.BatchesOk) : (s.handRequest tag inRange owner).BatchesOk := by
  unfold State.handRequest
  split
  · split
    · exact (ho s.endTransaction (h.congr rfl rfl rfl)).congr rfl rfl rfl
    · exact h.congr rfl rfl rfl
  · exact h

theorem State.BatchesOk.dropBatch (h : s.BatchesOk) {b : Batch} (hb : b ∈ s.table.batches)
    (hs : b.state = .opened ∨ b.state = .sealed) : (s.dropBatch b.id).BatchesOk :=
  ⟨h.table.dropBatch hb hs, h.queue.congr rfl rfl⟩

/-- CLEAR's removals leave the batches that `activeOnly` leaves, whatever the log holds (R49). -/
theorem State.BatchesOk.dropUnadmitted (h : s.BatchesOk) :
    (s.table.unadmitted.foldl State.dropBatch s).BatchesOk := by
  have hlog : State.TableOk { s with log := [] } := h.table.congr rfl rfl
  have he := State.foldl_unadmitted hlog nofun
  have hok := hlog.activeOnly
  rw [← he, State.foldl_dropBatch] at hok
  rw [State.foldl_dropBatch]
  exact ⟨hok.congr rfl rfl, h.queue.congr rfl rfl⟩

theorem State.BatchesOk.clearAbort (h : s.BatchesOk) : s.clearAbort.2.2.BatchesOk := by
  unfold State.clearAbort
  split
  · exact h
  · rename_i b hb
    obtain ⟨hm, ha⟩ := h.table.activeBatch?_eq_some.1 hb
    have hok := h.abortActive (h.table.activeHeld b hm ha)
    split
    · exact h
    · split <;> rename_i hx <;> rw [hx] at hok
      · exact hok.arbitrate
      · exact hok

theorem State.BatchesOk.execSeal (h : s.BatchesOk) (tag : Byte) : ∃ t, execSeal tag s = .next t ∧ t.BatchesOk := by
  refine ⟨_, rfl, h.handRequest tag true fun u hu => ?_⟩
  split
  · exact hu.sealOpen .request
  · exact hu

theorem State.BatchesOk.execDiscard (h : s.BatchesOk) (tag i : Byte) :
    ∃ t, execDiscard tag i s = .next t ∧ t.BatchesOk := by
  refine ⟨_, rfl, h.handRequest tag true fun u hu => ?_⟩
  split
  · exact hu
  · rename_i b hb
    have hm : b ∈ u.table.batches := by
      unfold State.discardTarget? at hb
      split at hb
      · exact (BatchTable.mem_of_openBatch? hb).1
      · exact (BatchTable.mem_of_find? hb).1
    split
    · exact (hu.dropBatch hm (.inl ‹_›)).removalNotice
    · exact (hu.dropBatch hm (.inr ‹_›)).removalNotice
    · exact hu
    · have hok := hu.abortActive (hu.table.activeHeld b hm ⟨‹_›, ‹_›⟩)
      split <;> rename_i hx <;> rw [hx] at hok
      · exact hok.removalNotice.arbitrate
      · exact hok

theorem State.BatchesOk.execClear (h : s.BatchesOk) (tag : Byte) : ∃ t, execClear tag s = .next t ∧ t.BatchesOk := by
  refine ⟨_, rfl, h.handRequest tag true fun u hu => ?_⟩
  have hok := hu.dropUnadmitted.clearAbort
  dsimp only
  split
  · exact hok
  · exact hok.removalNotice

theorem State.BatchesOk.execResume (h : s.BatchesOk) (tag : Byte) : ∃ t, execResume tag s = .next t ∧ t.BatchesOk := by
  refine ⟨_, rfl, h.handRequest tag true fun u hu => ?_⟩
  split
  · rename_i b hb
    obtain ⟨hm, ha⟩ := hu.table.activeBatch?_eq_some.1 hb
    split
    · refine State.BatchesOk.placeRequest ?_ .recordWrite
      exact hu.update_active (hu.table.activeHeld b hm ha)
        (f := fun b => { b with state := .applying, faultPos := none }) (fun _ => rfl) (fun _ => rfl)
        (fun _ _ => ⟨nofun, nofun⟩) rfl rfl rfl
    · exact hu
  · exact hu

theorem State.BatchesOk.execRetire (h : s.BatchesOk) (tag : Byte) : ∃ t, execRetire tag s = .next t ∧ t.BatchesOk := by
  refine ⟨_, rfl, h.handRequest tag true fun u hu => ?_⟩
  split
  · rename_i e rest hp
    refine ⟨hu.table.congr rfl rfl, ?_, hu.queue.2⟩
    have := hu.queue.1
    rw [hp, List.length_cons] at this
    change rest.length + u.queue.reserved ≤ Config.completionPlaces
    omega
  · exact hu

theorem State.BatchesOk.execContinuationGrant (h : s.BatchesOk) :
    ∃ t, execContinuationGrant s = .next t ∧ t.BatchesOk := by
  unfold Machine.execContinuationGrant
  split
  · exact ⟨_, rfl, h⟩
  · rename_i n _
    have hu : State.BatchesOk (State.awaitAttempt { s with waiting := { s.waiting with openings := n } }) :=
      h.congr rfl rfl rfl
    dsimp only
    split
    · rename_i b hb
      obtain ⟨hm, ha⟩ := hu.table.activeBatch?_eq_some.1 hb
      have hi := hu.table.activeHeld b hm ha
      split
      · split
        · rename_i g _
          have hc : ∀ u : State, u.BatchesOk → (u.charge g).BatchesOk := fun u h =>
            h.congr (by simp) (by simp) (by simp)
          exact ⟨_, rfl, (hc _ hu).giveGrant (by rw [State.charge_engine, hi]) g⟩
        · exact ⟨_, rfl, hu⟩
      · exact ⟨_, rfl, hu⟩
    · exact ⟨_, rfl, hu⟩

/-- A request handed to its owning block, whichever it is (R172, Table 9-3). -/
theorem State.BatchesOk.handOver (h : s.BatchesOk) (i : Instr) : ∃ t, s.handOver i = .next t ∧ t.BatchesOk := by
  match i with
  | .identify tag => exact ⟨_, rfl, h.handRequest _ _ fun _ hu => hu⟩
  | .status tag => exact ⟨_, rfl, h.handRequest _ _ fun _ hu => hu⟩
  | .replay tag => exact ⟨_, rfl, .ite (h.congr rfl rfl rfl) h⟩
  | .getConfig tag => exact ⟨_, rfl, h.handRequest _ _ fun _ hu => hu⟩
  | .setConfig tag raw => exact ⟨_, rfl, h.handRequest _ _ fun _ hu => hu.setConfig _⟩
  | .getWindow tag n => exact ⟨_, rfl, h.handRequest _ _ fun _ hu => hu⟩
  | .setWindow tag n mode base limit =>
    refine ⟨_, rfl, h.handRequest _ _ fun u hu => ?_⟩
    split
    · exact hu.congr rfl rfl rfl
    · exact hu
  | .getWatch tag n => exact ⟨_, rfl, h.handRequest _ _ fun _ hu => hu⟩
  | .setWatch tag n flags addr mask reference =>
    exact ⟨_, rfl, h.handRequest _ _ fun _ hu => hu.congr rfl rfl rfl⟩
  | .watchAck tag mask => exact ⟨_, rfl, h.handRequest _ _ fun _ hu => hu.congr rfl rfl rfl⟩
  | .seal tag => exact h.execSeal tag
  | .discard tag i => exact h.execDiscard tag i
  | .clear tag => exact h.execClear tag
  | .resume tag => exact h.execResume tag
  | .freeze tag duration => exact ⟨_, rfl, h.handRequest _ _ fun _ hu => hu.congr rfl rfl rfl⟩
  | .thaw tag =>
    refine ⟨_, rfl, h.handRequest _ _ fun u hu => ?_⟩
    split
    · exact hu.endFreeze
    · exact hu
  | .kick tag =>
    refine ⟨_, rfl, h.handRequest _ _ fun u hu => ?_⟩
    split
    · exact hu
    · exact hu.congr rfl rfl rfl
  | .peekCompletion tag =>
    refine ⟨_, rfl, h.handRequest _ _ fun u hu => ?_⟩
    split <;> exact hu
  | .retire tag => exact h.execRetire tag
  | .readEvents tag => exact ⟨_, rfl, h.handRequest _ _ fun _ hu => hu⟩
  | .ackEvents tag mask captureClear => exact ⟨_, rfl, h.handRequest _ _ fun _ hu => hu.congr rfl rfl rfl⟩
  | .setEventEnable tag mask => exact ⟨_, rfl, h.handRequest _ _ fun _ hu => hu.congr rfl rfl rfl⟩
  | .lookup tag addr => exact ⟨_, rfl, h.handRequest _ _ fun _ hu => hu⟩
  | .transactionBegin | .transactionEnd | .hostRequest .. | .hceDeassert | .sealOnLast | .stallTimeout
  | .passThroughReadComplete _ | .passThroughWriteComplete | .forwardedReadComplete _ | .hostMemTimeout
  | .recordWriteComplete | .verifyReadComplete _ | .engineMemTimeout | .admissionAttempt | .countedEdge _
  | .frameTimeoutExpiry | .periodExpiry | .windowLengthExpiry | .freezeExpiry | .autoSeal | .continuationGrant
  | .rstAssert | .rstRelease | .powerUp | .refclkStop | .refclkRestart | .sckRisingEdge _ | .sckFallingEdge
  | .mceAssert => exact ⟨_, rfl, h⟩

/-! ### Events -/

theorem State.BatchesOk.execTransactionEnd (h : s.BatchesOk) : ∃ t, execTransactionEnd s = .next t ∧ t.BatchesOk := by
  unfold Machine.execTransactionEnd
  split
  · split
    · exact ⟨_, rfl, h.congr rfl rfl rfl⟩
    · split
      · exact ⟨_, rfl, h.congr rfl rfl rfl⟩
      · exact h.handOver _
  · exact ⟨_, rfl, h.congr rfl rfl rfl⟩
  · exact ⟨_, rfl, h.congr rfl rfl rfl⟩

theorem State.BatchesOk.execHostRequest (h : s.BatchesOk) (addr : Addr) (write : Bool) (lanes : Lanes) (data : Word)
    (hce : HceAssertion) : ∃ t, execHostRequest addr write lanes data hce s = .next t ∧ t.BatchesOk := by
  have hu : (s.sampled addr write lanes data hce.oe).BatchesOk := h.congr rfl rfl rfl
  exact ⟨_, rfl, .ite (.ite hu.takeHostRequest.decideTogether hu.takeHostRequest) hu⟩

theorem State.BatchesOk.execSealOnLast (h : s.BatchesOk) : ∃ t, execSealOnLast s = .next t ∧ t.BatchesOk := by
  unfold Machine.execSealOnLast
  split
  · exact ⟨_, rfl, h⟩
  · rename_i w rest _
    have hu : State.BatchesOk { s with waiting := { s.waiting with sealsOnLast := rest } } := h.congr rfl rfl rfl
    dsimp only
    split
    · exact ⟨_, rfl, .ite (hu.sealOpen .sealWord) hu⟩
    · exact ⟨_, rfl, hu⟩

theorem State.BatchesOk.execAutoSeal (h : s.BatchesOk) : ∃ t, execAutoSeal s = .next t ∧ t.BatchesOk := by
  unfold Machine.execAutoSeal
  split
  · exact ⟨_, rfl, h⟩
  · rename_i n _
    have hu : State.BatchesOk { s with waiting := { s.waiting with autoSeals := n } } := h.congr rfl rfl rfl
    exact ⟨_, rfl, .ite (hu.sealOpen .auto) hu⟩

theorem State.BatchesOk.execCountedEdge (h : s.BatchesOk) (rising : Bool) :
    ∃ t, execCountedEdge rising s = .next t ∧ t.BatchesOk := by
  unfold Machine.execCountedEdge
  split
  · split
    · exact ⟨_, rfl, h⟩
    · exact ⟨_, rfl, h.countEdge⟩
    · exact ⟨_, rfl, State.BatchesOk.countEdge (h.congr rfl rfl rfl)⟩
  · exact ⟨_, rfl, h⟩

theorem State.BatchesOk.execWindowLengthExpiry (h : s.BatchesOk) :
    ∃ t, execWindowLengthExpiry s = .next t ∧ t.BatchesOk := by
  unfold Machine.execWindowLengthExpiry
  split
  · dsimp only
    split
    · exact ⟨_, rfl, .ite (h.congr rfl rfl rfl) (h.congr rfl rfl rfl)⟩
    · exact ⟨_, rfl, h.congr rfl rfl rfl⟩
  · exact ⟨_, rfl, h⟩

theorem State.BatchesOk.execRstRelease (h : s.BatchesOk) : ∃ t, execRstRelease s = .next t ∧ t.BatchesOk := by
  unfold Machine.execRstRelease
  split
  · exact ⟨_, rfl, h⟩
  · exact ⟨_, rfl, .ite (State.BatchesOk.leaveReset (h.congr rfl rfl rfl)) (h.congr rfl rfl rfl)⟩

/-- Every command keeps the batch table and the completion queue. -/
theorem State.BatchesOk.exec (h : s.BatchesOk) (c : Instr) : ∃ t, exec c s = .next t ∧ t.BatchesOk := by
  have hrequest := h.handOver c
  cases c with
  | transactionBegin =>
    simp only [Machine.exec, execTransactionBegin]
    split <;> exact ⟨_, rfl, h.congr rfl rfl rfl⟩
  | transactionEnd => exact h.execTransactionEnd
  | hostRequest addr write lanes data hce => exact h.execHostRequest addr write lanes data hce
  | hceDeassert => exact ⟨_, rfl, h.congr rfl rfl rfl⟩
  | sealOnLast => exact h.execSealOnLast
  | stallTimeout =>
    simp only [Machine.exec, execStallTimeout]
    split
    · exact ⟨_, rfl, h.congr rfl rfl rfl⟩
    · exact ⟨_, rfl, h⟩
  | passThroughReadComplete md =>
    simp only [Machine.exec, execPassThroughReadComplete]
    split
    · exact ⟨_, rfl, State.BatchesOk.freePort (h.congr rfl rfl rfl)⟩
    · exact ⟨_, rfl, h⟩
  | passThroughWriteComplete =>
    simp only [Machine.exec, execPassThroughWriteComplete, State.watchCheck_eq]
    split
    · exact ⟨_, rfl, State.BatchesOk.freePort (h.congr rfl rfl rfl)⟩
    · exact ⟨_, rfl, h⟩
  | forwardedReadComplete md =>
    simp only [Machine.exec, execForwardedReadComplete]
    split
    · exact ⟨_, rfl, State.BatchesOk.freePort (h.congr rfl rfl rfl)⟩
    · exact ⟨_, rfl, h⟩
  | hostMemTimeout =>
    simp only [Machine.exec, execHostMemTimeout]
    split
    · exact ⟨_, rfl, State.BatchesOk.freePort (h.congr rfl rfl rfl)⟩
    · exact ⟨_, rfl, h⟩
  | recordWriteComplete => exact ⟨_, rfl, .ite (h.engineAccessEnd .writeDone) h⟩
  | verifyReadComplete md => exact ⟨_, rfl, .ite (h.engineAccessEnd (.verifyDone md)) h⟩
  | engineMemTimeout => exact ⟨_, rfl, .ite (h.engineAccessEnd .timedOut) h⟩
  | admissionAttempt => exact ⟨_, rfl, .ite (State.BatchesOk.attempt (h.congr rfl rfl rfl)) h⟩
  | countedEdge rising => exact h.execCountedEdge rising
  | frameTimeoutExpiry =>
    simp only [Machine.exec, execFrameTimeoutExpiry]
    split
    · exact ⟨_, rfl, h.congr rfl rfl rfl⟩
    · exact ⟨_, rfl, h⟩
  | periodExpiry =>
    simp only [Machine.exec, execPeriodExpiry]
    split
    · split
      · exact ⟨_, rfl, h.congr rfl rfl rfl⟩
      · exact ⟨_, rfl, h⟩
    · exact ⟨_, rfl, h⟩
  | windowLengthExpiry => exact h.execWindowLengthExpiry
  | freezeExpiry =>
    simp only [Machine.exec, execFreezeExpiry]
    split
    · exact ⟨_, rfl, h.endFreeze.congr rfl rfl rfl⟩
    · exact ⟨_, rfl, h⟩
  | autoSeal => exact h.execAutoSeal
  | continuationGrant => exact h.execContinuationGrant
  | rstAssert => exact ⟨_, rfl, State.batchesOk_of_reset rfl rfl rfl⟩
  | rstRelease => exact h.execRstRelease
  | powerUp => exact ⟨_, rfl, State.batchesOk_of_reset rfl rfl rfl⟩
  | refclkStop => exact ⟨_, rfl, h.congr rfl rfl rfl⟩
  | refclkRestart => exact ⟨_, rfl, h.congr rfl rfl rfl⟩
  | sckRisingEdge sdi => exact ⟨_, rfl, .ite (h.congr rfl rfl rfl) h⟩
  | sckFallingEdge => exact ⟨_, rfl, .ite (h.congr rfl rfl rfl) h⟩
  | mceAssert => exact ⟨_, rfl, .ite (h.congr rfl rfl rfl) h⟩
  | _ => exact hrequest

/-- What the part does on an empty queue changes no batch and no entry. -/
theorem State.BatchesOk.idle (h : s.BatchesOk) : s.idle.BatchesOk := by
  unfold State.idle
  split
  · exact h.congr rfl rfl rfl
  · split
    · split <;> exact h.congr rfl rfl rfl
    · exact h

theorem State.BatchesOk.step (h : s.BatchesOk) : ∃ t, step s = .next t ∧ t.BatchesOk := by
  unfold Machine.step
  split
  · exact ⟨_, rfl, h.idle⟩
  · refine State.BatchesOk.exec ?_ _
    exact h.congr rfl rfl rfl

/-- Settles O57: every shared operation keeps the table and the completion queue, so every command does. -/
theorem stepKeepsTheBatchTable : Obligations.StepKeepsTheBatchTable := by
  unfold Obligations.StepKeepsTheBatchTable
  intro s t ht hq hstep
  obtain ⟨u, hu, hok⟩ := State.BatchesOk.step ⟨ht, hq⟩
  obtain rfl : u = t := Host.Outcome.next.inj (hu.symm.trans hstep)
  exact ⟨hok.table, hok.queue⟩

end Sys2Proof.Machine
end

section
/-! PROOFS. SEAL, the handed seals, DISCARD and the admission attempt (R36 to R47, R74 to R78, R94, R96): what each leaves,
by the laws of the operation it calls. -/

namespace Sys2Proof.Machine

open Sys2Proof

variable {s t : State}

/-! ### Replies (R165, R172) -/

/-- A reply retained when the transaction has ended is the answer of the port. -/
theorem State.retain_eq_answered (hm : t.mgmt = s.endTransaction.mgmt) (x : Status) (tag : Byte) (p : List Byte) :
    t.retain x tag p = t.answered x tag p := by
  simp [State.retain, State.answered, MgmtPort.replied, hm]

/-- The end of the transaction is the answer's own, so it may be made before or with it. -/
theorem State.retain_withMgmt (hm : t.mgmt = s.mgmt) (x : Status) (tag : Byte) (p : List Byte) :
    State.retain { t with mgmt := s.endTransaction.mgmt } x tag p = t.answered x tag p := by
  simp [State.retain, State.answered, MgmtPort.replied, hm]

/-! ### Seals (R36 to R41) -/

/-- Settles O23: SEAL is the seal of the OPEN batch, or nothing, on the state whose transaction has ended. -/
theorem sealClosesTheOpenBatch : Obligations.SealClosesTheOpenBatch := by
  unfold Obligations.SealClosesTheOpenBatch
  intro s tag hp ht
  have hseal : exec (.seal tag) s = .next (s.handRequest tag true _) := rfl
  rw [hseal, hp.handRequest_in]
  refine ⟨fun b hb => ?_, fun hn => ?_⟩
  · have hopen : s.endTransaction.table.openBatch? = some b := ht.openBatch?.2 hb
    have hu : s.endTransaction.TableOk := ht.congr rfl rfl
    simp only [hopen, (State.sealOpen_eq hu .request).1 b hb]
    rfl
  · have hopen : s.endTransaction.table.openBatch? = none := BatchTable.openBatch?_eq_none.2 hn
    simp only [hopen]
    rfl

/-- Settles O24: each handed seal takes its hand-off away and then seals the OPEN batch or leaves it. -/
theorem handedSealsCloseTheirBatch : Obligations.HandedSealsCloseTheirBatch := by
  unfold Obligations.HandedSealsCloseTheirBatch
  intro s ht
  refine ⟨fun h0 => ?_, fun n hn => ⟨fun b hb hauto hsrc => ?_, fun hno => ?_⟩, fun h0 => ?_,
    fun i n rest hw => ⟨fun b hb hi hopened => ?_, fun hno => ?_⟩⟩
  · simp only [exec, execAutoSeal, h0]
  · have hu : State.TableOk { s with waiting := { s.waiting with autoSeals := n } } := ht.congr rfl rfl
    simp only [exec, execAutoSeal, hn, hauto, (State.sealOpen_eq hu .auto).1 b hb]
    rw [if_pos (by simp [hsrc])]
  · have hu : State.TableOk { s with waiting := { s.waiting with autoSeals := n } } := ht.congr rfl rfl
    simp only [exec, execAutoSeal, hn]
    split
    · rename_i hc
      simp only [Bool.and_eq_true, decide_eq_true_eq] at hc
      rcases hno with hno | hno | hno
      · rw [(State.sealOpen_eq hu .auto).2 hno]
      · exact absurd hc.1 (by simp [hno])
      · exact absurd hno hc.2
    · rfl
  · simp only [exec, execSealOnLast, h0]
  · have hu : State.TableOk { s with waiting := { s.waiting with sealsOnLast := rest } } := ht.congr rfl rfl
    simp only [exec, execSealOnLast, hw, ht.openBatch?.2 hb, hi, hopened, and_self, if_true,
      (State.sealOpen_eq hu .sealWord).1 b hb]
  · simp only [exec, execSealOnLast, hw]
    split
    · rename_i b hb
      have hne : ¬ (b.id = i ∧ s.table.opened = n) := by
        rintro ⟨hid, hopened⟩
        exact hno.elim (fun h => h b (ht.openBatch?.1 hb) hid) (fun h => h hopened)
      rw [if_neg hne]
    · rfl

/-! ### DISCARD (R44 to R47, R94, R96) -/

theorem State.TableOk.discardTarget?_id (ht : s.TableOk) {b : Batch} (hb : b ∈ s.table.batches) :
    s.discardTarget? b.id = some b := by
  rw [State.discardTarget?, if_neg (ht.idsNonzero b hb)]
  exact (BatchTable.find?_eq_some ht.idsDistinct).2 ⟨hb, rfl⟩

theorem State.TableOk.discardTarget?_zero (ht : s.TableOk) {b : Batch} (hb : s.Holds b .opened) :
    s.discardTarget? 0#8 = some b := by
  rw [State.discardTarget?, if_pos rfl]
  exact ht.openBatch?.2 hb

/-- Settles O25: distinct non-zero ids make the named batch the one that DISCARD finds, and its state decides. -/
theorem discardRemovesAnUnadmittedBatch : Obligations.DiscardRemovesAnUnadmittedBatch := by
  unfold Obligations.DiscardRemovesAnUnadmittedBatch
  intro s tag id hp ht
  have hu : s.endTransaction.TableOk := ht.congr rfl rfl
  have hdiscard : exec (.discard tag id) s = .next (s.handRequest tag true _) := rfl
  rw [hdiscard, hp.handRequest_in]
  refine ⟨fun b hb => ?_, fun hnone => ?_, fun b hb hid => ?_⟩
  · obtain ⟨hm, hs, hf⟩ : b ∈ s.table.batches ∧ (b.state = .opened ∨ b.state = .sealed) ∧
        s.endTransaction.discardTarget? id = some b := by
      rcases hb with ⟨hb, rfl | rfl⟩ | ⟨hb, rfl⟩
      · exact ⟨hb.1, .inl hb.2, hu.discardTarget?_zero hb⟩
      · exact ⟨hb.1, .inl hb.2, hu.discardTarget?_id hb.1⟩
      · exact ⟨hb.1, .inr hb.2, hu.discardTarget?_id hb.1⟩
    rcases hs with hs | hs
    all_goals
      simp only [hf, hs, State.dropBatch_of_mem hu hm]
      rw [State.retain_eq_answered (s := s) (by simp)]
      rfl
  · have hf : s.endTransaction.discardTarget? id = none := by
      unfold State.discardTarget?
      rcases hnone with ⟨rfl, hn⟩ | ⟨hid, hn⟩
      · exact BatchTable.openBatch?_eq_none.2 hn
      · rw [if_neg hid]
        exact BatchTable.find?_eq_none.2 hn
    simp only [hf]
    rfl
  · subst hid
    simp only [hu.discardTarget?_id hb.1, hb.2]
    rfl

/-- DISCARD of the active batch that is not ABORTING yet answers as its abort goes (R45, R94). -/
theorem State.PortOpen.exec_discard_active (hp : s.PortOpen) (ht : s.TableOk) {b : Batch} (hb : b ∈ s.table.batches)
    (ha : b.state.IsActive) (hna : b.state ≠ .aborting) (tag : Byte) :
    exec (.discard tag b.id) s =
      .next
        (if (s.endTransaction.abortActive b).1 then
          (s.endTransaction.abortActive b).2.removalNotice.arbitrate.retain .ok tag
            (discardPayload b.id b.count .removed)
        else (s.endTransaction.abortActive b).2.retain .ok tag (discardPayload b.id 0 .aborting)) := by
  have hu : s.endTransaction.TableOk := ht.congr rfl rfl
  have hdiscard : exec (.discard tag b.id) s = .next (s.handRequest tag true _) := rfl
  rw [hdiscard, hp.handRequest_in]
  simp only [hu.discardTarget?_id hb]
  rcases s.endTransaction.abortActive b with ⟨atOnce, u⟩
  cases hs : b.state with
  | opened => exact absurd hs ha.1
  | sealed => exact absurd hs ha.2
  | aborting => exact absurd hs hna
  | _ => cases atOnce <;> rfl

/-- The end of an abort does not read the management port (R96). -/
theorem State.abortEnded_withMgmt (s : State) (m : MgmtPort) (b : Batch) (cause : SealCause) :
    State.abortEnded { s with mgmt := m } b cause = { s.abortEnded b cause with mgmt := m } := by
  simp only [State.abortEnded]
  split <;> rfl

/-- An abort's end leaves the port, the management port and the host's request, and no request of the engine. -/
theorem State.abortEnded_frame (s : State) (b : Batch) (cause : SealCause) :
    (s.abortEnded b cause).mgmt = s.mgmt ∧ (s.abortEnded b cause).port = s.port ∧
      (s.abortEnded b cause).hostWaits = s.hostWaits ∧ (s.abortEnded b cause).engine.access = .idle := by
  simp only [State.abortEnded]
  split <;> exact ⟨rfl, rfl, rfl, rfl⟩

/-- Counting a record as applied does not read the management port (R85). -/
theorem State.withApplied_withMgmt (s : State) (m : MgmtPort) (b : Batch) (r : Record) :
    State.withApplied { s with mgmt := m } b r = { s.withApplied b r with mgmt := m } := by
  simp only [State.withApplied, State.watchCheck_eq]

theorem State.withApplied_frame (s : State) (b : Batch) (r : Record) :
    (s.withApplied b r).mgmt = s.mgmt ∧ (s.withApplied b r).port = s.port ∧
      (s.withApplied b r).hostWaits = s.hostWaits := by
  rw [State.withApplied, State.watchCheck_eq]
  exact ⟨rfl, rfl, rfl⟩

/-- A batch that its abort removes at once: the notice is given, and no decision follows, since no request is left at a
free port (R94, R96, R100). -/
theorem State.PortOpen.exec_discard_removed (hp : s.PortOpen) (hok : s.CommitOk) {b b' : Batch} {cause : SealCause}
    {u : State} (hb : b ∈ s.table.batches) (ha : b.state.IsActive) (hna : b.state ≠ .aborting)
    (habort : s.endTransaction.abortActive b =
      (true, State.abortEnded { u with mgmt := s.endTransaction.mgmt } b' cause))
    (hmgmt : u.mgmt = s.mgmt) (hport : u.port = s.port) (hwaits : u.hostWaits = s.hostWaits) (tag : Byte) :
    exec (.discard tag b.id) s =
      .next
        ((u.abortEnded b' cause).removalNotice.answered .ok tag
          ([b.id] ++ bytes2 (BitVec.ofNat 16 b.count) ++ [1#8])) := by
  obtain ⟨hm, hp', hw, hidle⟩ := u.abortEnded_frame b' cause
  rw [hp.exec_discard_active hok.table hb ha hna, habort, if_pos rfl, State.abortEnded_withMgmt,
    State.removalNotice_withMgmt, State.arbitrate_rest]
  · rw [State.retain_withMgmt (by simp [hm, hmgmt])]
    rfl
  · intro q
    simp [hidle]
  · intro hbusy
    have hfree : s.port.busy = none := by simpa [hp', hport] using hbusy
    have : (u.abortEnded b' cause).removalNotice.hostWaits = false := by
      rw [State.removalNotice_hostWaits, hw, hwaits, (hok.port.noneWaits hfree).2]
    exact this

/-- Settles O26, by the stage of the engine's access, as the abort settles it (R94). -/
theorem discardAbortsTheActiveBatch : Obligations.DiscardAbortsTheActiveBatch := by
  unfold Obligations.DiscardAbortsTheActiveBatch
  intro s tag b cause hp hok hb ha hna hcause
  have hu : s.endTransaction.TableOk := hok.table.congr rfl rfl
  have hl : s.endTransaction.LogOk := hok.log.congr rfl rfl fun _ hw => hw
  refine ⟨fun hacc => ?_, fun q hacc hk => ?_, fun q r hacc hk hn => ?_, fun q hacc => ?_⟩
  · exact hp.exec_discard_removed hok hb ha hna (State.abortActive_rest hu hb hcause (.inl hacc)) rfl rfl rfl tag
  · exact hp.exec_discard_removed hok hb ha hna (State.abortActive_rest hu hb hcause (.inr ⟨q, hacc, hk⟩)) rfl rfl rfl tag
  · have hv := State.abortActive_verify hu hl hb hcause hacc hk hn
    obtain ⟨hmgmt, hport, hwaits⟩ := s.withApplied_frame b r
    have hu' : s.endTransaction.withApplied b r = { s.withApplied b r with mgmt := s.endTransaction.mgmt } :=
      s.withApplied_withMgmt _ b r
    rw [hu'] at hv
    exact hp.exec_discard_removed hok hb ha hna hv hmgmt hport hwaits tag
  · rw [hp.exec_discard_active hok.table hb ha hna, State.abortActive_inFlight hu hb hacc]
    rfl

/-! ### Admission attempts (R74 to R78) -/

/-- A notice and an attempt that follows commute while the engine is at rest. -/
theorem State.removalNotice_awaitAttempt (he : s.engine = Engine.reset) :
    s.removalNotice.awaitAttempt = s.awaitAttempt.removalNotice := by
  have hclear : ∀ u : State, u.engine = Engine.reset → u.awaitAttempt = u.clearActive := fun u hu => by
    rw [State.clearActive, ← hu]
  rw [hclear s he, hclear _ (by simpa using he), State.removalNotice_clearActive]

/-- The refusal of a SEALED batch with its first record `r` (R78). -/
theorem State.refuseOversize_eq (ht : s.TableOk) (hl : s.LogOk) {b : Batch} {r : Record} {cause : SealCause}
    (hb : b ∈ s.table.batches) (hs : b.state = .sealed) (hc : b.cause = some cause) (hr : r ∈ s.log)
    (hrb : r.batch = b.id) (hr0 : r.pos = 0) (he : s.engine = Engine.reset) :
    s.refuseOversize b = ((s.departed b .refused cause).offer .oversize r.addr r.lanes b.id).removalNotice := by
  obtain ⟨happ, hwin, hhalts, -⟩ := hl.waitingUntouched b hb fun ha => ha.2 hs
  have hb0 : { b with applied := 0, windowsUsed := 0, halts := 0 } = b := by
    cases b
    simp_all
  have hrec : recordAt (s.post b .refused).log b.id 0 = some r := hl.recordAt_eq_some.2 ⟨hr, hrb, hr0⟩
  simp only [State.refuseOversize, hb0, hrec]
  rw [State.removalNotice_awaitAttempt (by simpa using he)]
  congr 1
  simp only [State.post, State.entryFor_eq hc, State.dropBatch, State.awaitAttempt, State.departed, State.report,
    State.offer, dropRecords_eq, BatchTable.remove_eq_without ht.idsDistinct hb, he]
  rfl

/-- The admission of the head of the sealed queue with its first record `r` (R77, R82). -/
theorem State.admitHead_requests (ht : s.TableOk) (hl : s.LogOk) {b : Batch} {r : Record} {rest : List Byte}
    (hb : b ∈ s.table.batches) (hq : s.table.sealedQueue = b.id :: rest) (hr : r ∈ s.log) (hrb : r.batch = b.id)
    (hr0 : r.pos = 0) (g : Nat) :
    s.admitHead b.id g =
      State.arbitrate
        { s with
          queue := { s.queue with reserved := 1 }
          table :=
            { s.table.replace b { b with state := .applying, windowsUsed := 1#8 } with sealedQueue := rest }
          engine := ⟨some b.id, g, 0, false, .waiting ⟨.recordWrite, r.addr, r.lanes, r.data⟩, true⟩ } := by
  have hs : b.state = .sealed := ht.sealed_of_queued hb (by rw [hq]; exact List.mem_cons_self)
  obtain ⟨-, hwin, -⟩ := hl.waitingUntouched b hb fun ha => ha.2 hs
  have hone : satInc b.windowsUsed = 1#8 := by rw [hwin]; decide
  have hrec : recordAt s.log b.id 0 = some r := hl.recordAt_eq_some.2 ⟨hr, hrb, hr0⟩
  rw [State.admitHead_eq ht hb hq, hone]
  simp only [State.placeRequest, State.nextRecord?, Option.bind_some, hrec]

/-- An attempt whose conditions do not all hold changes nothing (R74, R75). -/
theorem State.attempt_unmet (ht : s.TableOk)
    (h : s.engine.active ≠ none ∨ s.table.sealedQueue = [] ∨ s.unit.frozen = true ∨
      Config.completionPlaces ≤ s.queue.posted.length + s.queue.reserved ∨ s.unit.window = .closed) :
    s.attempt = s := by
  have hnone : s.candidate? = none := by
    rw [Option.eq_none_iff_forall_ne_some]
    intro b hb
    obtain ⟨hactive, ⟨rest, hq⟩, -, hfrozen, hplace, hwindow⟩ := ht.candidate?_eq_some.1 hb
    rcases h with h | h | h | h | h
    · exact h hactive
    · rw [h] at hq
      cases hq
    · rw [h] at hfrozen
      cases hfrozen
    · exact absurd hplace (Nat.not_lt.2 h)
    · exact hwindow h
  rw [State.attempt, hnone]

/-- From the permanent window the candidate is granted all its records (R76). -/
theorem State.attempt_permanent {b : Batch} (hc : s.candidate? = some b) (hw : s.unit.window = .permanent) :
    s.attempt = State.admitHead { s with unit := { s.unit with window := .permanent } } b.id b.count := by
  simp only [State.attempt, hc, hw]
  rw [← hw]

/-- From an open window the candidate is admitted whole when it fits, split over an untouched window, refused, or left
waiting (R64, R76). -/
theorem State.attempt_opened {b : Batch} {budget remaining : Nat} {untouched : Bool} (hc : s.candidate? = some b)
    (hw : s.unit.window = .opened budget remaining untouched) :
    s.attempt =
      if budget < b.count then
        if s.mgmt.settings.split = false then s.refuseOversize b
        else if untouched then
          State.admitHead { s with unit := { s.unit with window := .opened budget (remaining - budget) false } } b.id
            budget
        else s
      else if b.count ≤ remaining then
        State.admitHead { s with unit := { s.unit with window := .opened budget (remaining - b.count) false } } b.id
          b.count
      else s := by
  simp only [State.attempt, State.charge_eq, hc, hw]
  cases s.mgmt.settings.split <;> rfl

/-- Settles O53: the candidate is the head of the sealed queue, and the window says what its attempt does. -/
theorem admissionAttemptsTakeTheHead : Obligations.AdmissionAttemptsTakeTheHead := by
  unfold Obligations.AdmissionAttemptsTakeTheHead
  intro s hout hok t
  have hexec : exec .admissionAttempt s = .next t.attempt := by
    simp only [exec, execAdmissionAttempt, hout.running, if_true, t]
  have ht : t.TableOk := hok.table.congr rfl rfl
  have hl : t.LogOk := hok.log.congr rfl rfl fun _ hw => hw
  rw [hexec]
  refine ⟨fun hunmet => by rw [State.attempt_unmet ht hunmet], ?_⟩
  intro b rest r cause hn hq hb hc hr hrb hr0 hf hp admitted
  have hcand : t.unit.window ≠ .closed → t.candidate? = some b := fun hw =>
    ht.candidate?_eq_some.2 ⟨hn, ⟨rest, hq⟩, hb, hf, hp, hw⟩
  have hadmit : ∀ w g, State.admitHead { t with unit := { t.unit with window := w } } b.id g = admitted w g :=
    fun w g => State.admitHead_requests (s := { t with unit := { t.unit with window := w } }) (ht.congr rfl rfl)
      (hl.congr rfl rfl fun _ hw => hw) hb hq hr hrb hr0 g
  have hrefuse : t.refuseOversize b =
      ((t.departed b .refused cause).offer .oversize r.addr r.lanes b.id).removalNotice :=
    State.refuseOversize_eq ht hl hb (ht.sealed_of_queued hb (by rw [hq]; exact List.mem_cons_self)) hc hr hrb hr0
      (hok.engine.1 hn)
  refine ⟨fun hw => ?_, fun budget remaining untouched hw => ?_⟩
  · have hw' : t.unit.window = .permanent := hw
    rw [State.attempt_permanent (hcand (by simp [hw'])) hw', hadmit]
  · have hw' : t.unit.window = .opened budget remaining untouched := hw
    have hspent : untouched = true → remaining - budget = 0 := fun hu => by
      have hwithin := hok.windows.budget
      rw [hw] at hwithin
      obtain ⟨-, -, -, hfull⟩ := hwithin
      rw [hfull hu, Nat.sub_self]
    rw [State.attempt_opened (hcand (by simp [hw'])) hw', hrefuse, hadmit, hadmit]
    cases untouched with
    | false => rfl
    | true => rw [hspent rfl]

end Sys2Proof.Machine
end

section
/-! PROOFS. Every step keeps the settings in range and the commit window unit consistent (R53 to R67, R176): first the
operations that change neither the unit nor the settings, then the unit's own operations, then each command and the
step. -/

namespace Sys2Proof.Machine

open Sys2Proof

variable {s t : State}

/-! ### Operations that leave the window unit and the management port alone -/

@[simp] theorem State.sealOpen_unit_mgmt (s : State) (c : SealCause) :
    (s.sealOpen c).unit = s.unit ∧ (s.sealOpen c).mgmt = s.mgmt := by
  unfold State.sealOpen
  split <;> simp

@[simp] theorem State.watchCheck_unit_mgmt (s : State) (a : Addr) (l : Lanes) (d : Word) :
    (s.watchCheck a l d).unit = s.unit ∧ (s.watchCheck a l d).mgmt = s.mgmt := by
  simp [State.watchCheck_eq]

@[simp] theorem State.freePort_unit_mgmt (s : State) :
    s.freePort.unit = s.unit ∧ s.freePort.mgmt = s.mgmt := by
  simp [State.freePort]

@[simp] theorem State.placeRequest_unit_mgmt (s : State) (k : AccessKind) :
    (s.placeRequest k).unit = s.unit ∧ (s.placeRequest k).mgmt = s.mgmt := by
  unfold State.placeRequest
  split <;> simp

@[simp] theorem State.giveGrant_unit_mgmt (s : State) (i : Byte) (g : Nat) :
    (s.giveGrant i g).unit = s.unit ∧ (s.giveGrant i g).mgmt = s.mgmt := by
  simp [State.giveGrant]

@[simp] theorem State.admitHead_unit_mgmt (s : State) (i : Byte) (g : Nat) :
    (s.admitHead i g).unit = s.unit ∧ (s.admitHead i g).mgmt = s.mgmt := by
  simp [State.admitHead]

@[simp] theorem State.refuseOversize_unit_mgmt (s : State) (b : Batch) :
    (s.refuseOversize b).unit = s.unit ∧ (s.refuseOversize b).mgmt = s.mgmt := by
  unfold State.refuseOversize
  dsimp only
  split <;> simp

@[simp] theorem State.countApplied_unit_mgmt (s : State) (i : Byte) (r : Record) :
    (s.countApplied i r).unit = s.unit ∧ (s.countApplied i r).mgmt = s.mgmt := by
  simp [State.countApplied]

@[simp] theorem State.complete_unit_mgmt (s : State) (b : Batch) :
    (s.complete b).unit = s.unit ∧ (s.complete b).mgmt = s.mgmt := by
  simp [State.complete]

@[simp] theorem State.abortEnd_unit_mgmt (s : State) (b : Batch) :
    (s.abortEnd b).unit = s.unit ∧ (s.abortEnd b).mgmt = s.mgmt := by
  unfold State.abortEnd
  dsimp only
  split <;> simp

@[simp] theorem State.pause_unit_mgmt (s : State) (b : Batch) :
    (s.pause b).unit = s.unit ∧ (s.pause b).mgmt = s.mgmt := by
  unfold State.pause
  dsimp only
  split <;> simp

@[simp] theorem State.recordSuccess_unit_mgmt (s : State) (i : Byte) (r : Record) :
    (s.recordSuccess i r).unit = s.unit ∧ (s.recordSuccess i r).mgmt = s.mgmt := by
  unfold State.recordSuccess
  dsimp only
  split
  · simp
  · split
    · simp
    · split <;> simp

@[simp] theorem State.takeFault_unit_mgmt (s : State) (i : Byte) (r : Record) (c : ErrorCause) :
    (s.takeFault i r c).unit = s.unit ∧ (s.takeFault i r c).mgmt = s.mgmt := by
  simp [State.takeFault]

@[simp] theorem State.applyingEnd_unit_mgmt (s : State) (i : Byte) (r : Record) (e : AccessEnd) :
    (s.applyingEnd i r e).unit = s.unit ∧ (s.applyingEnd i r e).mgmt = s.mgmt := by
  cases e <;> simp only [State.applyingEnd]
  case timedOut => simp
  all_goals split <;> simp

@[simp] theorem State.abortingEnd_unit_mgmt (s : State) (i : Byte) (r : Record) (e : AccessEnd) :
    (s.abortingEnd i r e).unit = s.unit ∧ (s.abortingEnd i r e).mgmt = s.mgmt := by
  cases e <;> simp only [State.abortingEnd]
  all_goals split <;> simp

@[simp] theorem State.engineAccessEnd_unit_mgmt (s : State) (e : AccessEnd) :
    (s.engineAccessEnd e).unit = s.unit ∧ (s.engineAccessEnd e).mgmt = s.mgmt := by
  unfold State.engineAccessEnd
  dsimp only
  split
  · split <;> simp
  · simp

@[simp] theorem State.abortActive_unit_mgmt (s : State) (b : Batch) :
    (s.abortActive b).2.unit = s.unit ∧ (s.abortActive b).2.mgmt = s.mgmt := by
  unfold State.abortActive
  dsimp only
  split
  · split <;> simp
  · split <;> split <;> simp
  · simp

@[simp] theorem State.clearAbort_unit_mgmt (s : State) :
    s.clearAbort.2.2.unit = s.unit ∧ s.clearAbort.2.2.mgmt = s.mgmt := by
  unfold State.clearAbort
  split
  · simp
  · rename_i b _
    have habort := s.abortActive_unit_mgmt b
    split
    · simp
    · split <;> rename_i hx <;> rw [hx] at habort <;> simpa using habort

@[simp] theorem State.startHostAccess_unit_mgmt (s : State) (k : HostKind) (a : Addr) (l : Lanes) (d : Word)
    (w : Option Nat) :
    (s.startHostAccess k a l d w).unit = s.unit ∧ (s.startHostAccess k a l d w).mgmt = s.mgmt := by
  simp [State.startHostAccess]

@[simp] theorem State.decideTogether_unit_mgmt (s : State) :
    s.decideTogether.unit = s.unit ∧ s.decideTogether.mgmt = s.mgmt := by
  rcases s.decideTogether_cases with h | ⟨q, -, -, h⟩ <;> simp [h]

@[simp] theorem State.place_unit_mgmt (s : State) (a : Addr) (l : Lanes) (d : Word) :
    (s.place a l d).2.unit = s.unit ∧ (s.place a l d).2.mgmt = s.mgmt := by
  rw [s.place_eq]
  exact ⟨rfl, rfl⟩

@[simp] theorem State.sealOnLastCheck_unit_mgmt (s : State) (w : Option Nat) (a : Addr) (i : Byte) :
    (s.sealOnLastCheck w a i).unit = s.unit ∧ (s.sealOnLastCheck w a i).mgmt = s.mgmt := by
  simp [State.sealOnLastCheck_eq]

theorem State.placeForHost_unit_mgmt {w : HeldWrite} (hp : s.placeForHost w = some t) :
    t.unit = s.unit ∧ t.mgmt = s.mgmt := by
  have hplace := s.place_unit_mgmt w.addr w.lanes w.data
  unfold State.placeForHost at hp
  split at hp <;> rename_i hx <;> rw [hx] at hplace
  · rw [← Option.some.inj hp]
    simpa using hplace
  · rw [← Option.some.inj hp]
    simpa using hplace
  · cases hp

@[simp] theorem State.stageWrite_unit_mgmt (s : State) (w : HeldWrite) :
    (s.stageWrite w).unit = s.unit ∧ (s.stageWrite w).mgmt = s.mgmt := by
  unfold State.stageWrite
  split
  · exact State.placeForHost_unit_mgmt ‹_›
  · simp

@[simp] theorem State.forwardRead_unit_mgmt (s : State) (a : Addr) (w : Option Nat) :
    (s.forwardRead a w).unit = s.unit ∧ (s.forwardRead a w).mgmt = s.mgmt := by
  unfold State.forwardRead
  dsimp only
  split <;> simp

@[simp] theorem State.takeHostRequest_unit_mgmt (s : State) :
    s.takeHostRequest.unit = s.unit ∧ s.takeHostRequest.mgmt = s.mgmt := by
  unfold State.takeHostRequest
  dsimp only
  split
  · split
    · simp
    · split <;> simp
  · split <;> simp

/-! ### The settings and the window unit together -/

/-- The settings are in range and the window unit is consistent with them (R53 to R67, R176). -/
structure State.UnitOk (s : State) : Prop where
  settings : s.SettingsInRange
  windows : s.WindowsOk

/-- Only the window unit and the settings record are read. -/
theorem State.UnitOk.congr (h : s.UnitOk) (hf : t.unit = s.unit ∧ t.mgmt.settings = s.mgmt.settings) : t.UnitOk := by
  obtain ⟨hu, hm⟩ := hf
  refine ⟨(congrArg Settings.InRange hm).mpr h.settings, ?_⟩
  exact
    { permanent := by rw [hu, hm]; exact h.windows.permanent
      monitorOff := by rw [hu, hm]; exact h.windows.monitorOff
      frameTimer := hu ▸ h.windows.frameTimer
      timerRuns := by rw [hu, hm]; exact h.windows.timerRuns
      periodTimer := by rw [hu, hm]; exact h.windows.periodTimer
      pendingPeriod := hu ▸ h.windows.pendingPeriod
      prescale := by rw [hu, hm]; exact h.windows.prescale
      budget := hu ▸ h.windows.budget
      lengthTimer := hu ▸ h.windows.lengthTimer
      freezeTimer := hu ▸ h.windows.freezeTimer }

theorem State.UnitOk.ite {c : Prop} [Decidable c] {u v : State} (hu : u.UnitOk) (hv : v.UnitOk) :
    (if c then u else v).UnitOk := by
  split
  · exact hu
  · exact hv

/-! ### Charges (R64) -/

/-- A charge lowers the remaining budget of an open window and leaves its opening budget (R64). -/
theorem State.UnitOk.charge (h : s.UnitOk) (g : Nat) : (s.charge g).UnitOk := by
  cases hw : s.unit.window with
  | opened b r untouched =>
    obtain ⟨hlow, hhigh, hle, -⟩ : 1 ≤ b ∧ b ≤ 256 ∧ r ≤ b ∧ _ := hw ▸ h.windows.budget
    have hperm := h.windows.permanent
    rw [s.charge_eq, hw]
    rw [hw] at hperm
    exact
      { settings := h.settings
        windows :=
          { h.windows with
            permanent := by simpa using hperm
            budget := ⟨hlow, hhigh, (Nat.sub_le r g).trans hle, nofun⟩
            lengthTimer := fun _ => ⟨nofun, nofun⟩ } }
  | _ =>
    rw [State.charge, hw]
    exact h

/-! ### Ticks (R63) -/

/-- A tick leaves what R63 says. -/
theorem State.tick_eq (s : State) : s.tick = s.ticked := by
  have hl : s.mgmt.settings.windowLength = 0#24 ↔ ¬ 0 < s.mgmt.settings.windowLength.toNat := by bv_omega
  simp only [State.tick, State.ticked, State.handOpening, hl, Timer.start_eq, ite_not]

/-- Away from IMMEDIATE a tick opens a window with the budget in force. -/
theorem State.UnitOk.tick (h : s.UnitOk) (hs : s.mgmt.settings.tickSource ≠ .immediate) : s.tick.UnitOk := by
  obtain ⟨-, -, -, -, hlow, hhigh, -⟩ := h.settings
  rw [s.tick_eq]
  exact
    { settings := h.settings
      windows :=
        { h.windows with
          permanent := iff_of_false nofun hs
          budget := ⟨hlow, hhigh, Nat.le_refl _, fun _ => rfl⟩
          lengthTimer := fun _ => ⟨nofun, nofun⟩ } }

/-- With the frame timeout timer restarted, a counted edge keeps the prescale count below N (R56). -/
theorem State.UnitOk.countEdge (hs : s.mgmt.settings.tickSource = .frame)
    (h : State.UnitOk
      { s with unit := { s.unit with frameTimer := some (.start s.mgmt.settings.frameTimeout.toNat) } }) :
    s.countEdge.UnitOk := by
  have hcount : s.unit.prescaleCount < s.mgmt.settings.prescale.toNat := h.windows.prescale
  have hcounted : ∀ n < s.mgmt.settings.prescale.toNat,
      State.UnitOk
        { s with
          unit :=
            { s.unit with
              frameTimer := some (.start s.mgmt.settings.frameTimeout.toNat)
              prescaleCount := n } } := fun n hn =>
    ⟨h.settings, { h.windows with prescale := hn }⟩
  unfold State.countEdge
  dsimp only
  split
  · exact (hcounted 0 (Nat.zero_lt_of_lt hcount)).tick (by simp [hs])
  · exact hcounted _ (by omega)

/-! ### Settings (R54, R57, R61, R176, R177) -/

theorem rawInRange_iff {r : RawSettings} : rawInRange r = true ↔ r.InRange := by
  simp only [rawInRange, RawSettings.InRange, Bool.and_eq_true, decide_eq_true_eq]
  tauto

theorem Settings.inRange_ofRaw {r : RawSettings} (h : r.InRange) : (Settings.ofRaw r).InRange := by
  obtain ⟨-, h⟩ := h
  exact h

/-- A SET_CONFIG in range keeps the unit consistent, with the new tick source's parts where the source changes. -/
theorem State.UnitOk.setConfig (h : s.UnitOk) {c : Settings} (hc : c.InRange) : (s.setConfig c).UnitOk := by
  have hN : 1 ≤ c.prescale.toNat := hc.1
  unfold State.setConfig
  dsimp only
  split
  · rename_i hsame
    exact
      { settings := hc
        windows :=
          { h.windows with
            permanent := hsame ▸ h.windows.permanent
            monitorOff := hsame ▸ h.windows.monitorOff
            timerRuns := hsame ▸ h.windows.timerRuns
            periodTimer := hsame ▸ h.windows.periodTimer
            pendingPeriod := fun hp => by
              by_cases hrun : s.unit.periodTimer.isSome = true
              · exact hrun
              · exact h.windows.pendingPeriod (by simpa [WindowUnit.newSettings, hrun] using hp)
            prescale := by
              simp only [WindowUnit.newSettings]
              split <;> omega } }
  · unfold State.changeTickSource
    dsimp only
    split <;> rename_i hsrc
    all_goals
      refine ⟨hc, ?_⟩
      constructor
      case freezeTimer => exact h.windows.freezeTimer
      case prescale => exact hN
      case budget => trivial
      all_goals simp [hsrc]

/-! ### Freezes, expiries, pin reset and time -/

theorem State.UnitOk.endFreeze (h : s.UnitOk) : s.endFreeze.UnitOk := by
  have hthawed : State.UnitOk { s with unit := { s.unit with frozen := false, freezeTimer := none } } :=
    ⟨h.settings, { h.windows with freezeTimer := rfl }⟩
  unfold State.endFreeze
  dsimp only
  split <;> exact hthawed.congr ⟨rfl, rfl⟩

theorem State.UnitOk.execFrameTimeoutExpiry (h : s.UnitOk) :
    ∃ t, execFrameTimeoutExpiry s = .next t ∧ t.UnitOk := by
  unfold Machine.execFrameTimeoutExpiry
  split
  · rename_i hc
    have hmon : s.unit.monitor ≠ .off := by
      simp only [Bool.and_eq_true, Bool.or_eq_true, decide_eq_true_eq] at hc
      rcases hc.2 with hm | hm <;> simp [hm]
    have hsrc : s.mgmt.settings.tickSource = .frame := not_not.1 fun hn => hmon (h.windows.monitorOff.2 hn)
    exact ⟨_, rfl,
      { settings := h.settings
        windows :=
          { h.windows with
            monitorOff := iff_of_false nofun (not_not.2 hsrc)
            frameTimer := by simp
            timerRuns := fun ht => nomatch hsrc.symm.trans ht
            periodTimer := fun _ => .inr rfl
            pendingPeriod := nofun } }⟩
  · exact ⟨_, rfl, h⟩

/-- A running period timer means FRAME or TIMER (R54, R59). -/
theorem State.WindowsOk.not_immediate (h : s.WindowsOk) (hp : s.unit.periodTimer.isSome = true) :
    s.mgmt.settings.tickSource ≠ .immediate := by
  intro hs
  rcases h.periodTimer hp with ht | hm
  · simp [hs] at ht
  · have := h.monitorOff.2 (by simp [hs])
    simp [hm] at this

theorem State.UnitOk.execPeriodExpiry (h : s.UnitOk) : ∃ t, execPeriodExpiry s = .next t ∧ t.UnitOk := by
  unfold Machine.execPeriodExpiry
  split
  · rename_i p _ hp
    have hrun : s.unit.periodTimer.isSome = true := by simp [hp]
    have ht := h.tick (h.windows.not_immediate hrun)
    split
    · exact ⟨_, rfl, ht.settings,
        { ht.windows with
          timerRuns := fun _ => rfl
          periodTimer := fun _ => h.windows.periodTimer hrun
          pendingPeriod := nofun }⟩
    · exact ⟨_, rfl, h⟩
  · exact ⟨_, rfl, h⟩

theorem State.UnitOk.execWindowLengthExpiry (h : s.UnitOk) :
    ∃ t, execWindowLengthExpiry s = .next t ∧ t.UnitOk := by
  unfold Machine.execWindowLengthExpiry
  split
  · rename_i hc
    have hrun : s.unit.lengthTimer.isSome = true := by
      simp only [Bool.and_eq_true] at hc
      obtain ⟨k, hk⟩ := expiryDue_iff.1 hc.2
      simp [hk]
    have hclosed : State.UnitOk { s with unit := { s.unit with window := .closed, lengthTimer := none } } :=
      { settings := h.settings
        windows :=
          { h.windows with
            permanent := iff_of_false nofun fun hs => (h.windows.lengthTimer hrun).2 (h.windows.permanent.2 hs)
            budget := trivial
            lengthTimer := nofun } }
    dsimp only
    split
    · exact ⟨_, rfl, .ite (hclosed.congr ⟨rfl, rfl⟩) hclosed⟩
    · exact ⟨_, rfl, hclosed⟩
  · exact ⟨_, rfl, h⟩

theorem State.UnitOk.execCountedEdge (h : s.UnitOk) (rising : Bool) :
    ∃ t, execCountedEdge rising s = .next t ∧ t.UnitOk := by
  unfold Machine.execCountedEdge
  split
  · rename_i hc
    have hsrc : s.mgmt.settings.tickSource = .frame := by
      simp only [Bool.and_eq_true, decide_eq_true_eq] at hc
      obtain ⟨⟨-, hsrc⟩, -⟩ := hc
      exact hsrc
    split
    · exact ⟨_, rfl, h⟩
    · rename_i hm
      exact ⟨_, rfl, .countEdge hsrc
        ⟨h.settings, { h.windows with frameTimer := iff_of_true rfl (.inr hm) }⟩⟩
    · exact ⟨_, rfl, .countEdge hsrc
        ⟨h.settings,
          { h.windows with
            monitorOff := iff_of_false nofun (not_not.2 hsrc)
            frameTimer := iff_of_true rfl (.inr rfl)
            timerRuns := fun ht => nomatch hsrc.symm.trans ht
            periodTimer := nofun
            pendingPeriod := nofun
            prescale := Nat.zero_lt_of_lt h.windows.prescale }⟩⟩
  · exact ⟨_, rfl, h⟩

/-- A pin reset leaves the values of R71 and R179, whatever the state was. -/
theorem State.unitOk_of_reset (hf : s.unit = WindowUnit.reset ∧ s.mgmt.settings = Settings.reset) : s.UnitOk := by
  have hr : State.reset.UnitOk := by
    refine ⟨by decide, ?_⟩
    constructor
    case budget => trivial
    all_goals decide
  exact hr.congr hf

theorem State.UnitOk.passPeriod (h : s.UnitOk) : s.passPeriod.UnitOk where
  settings := h.settings
  windows :=
    { h.windows with
      frameTimer := by simpa [State.passPeriod] using h.windows.frameTimer
      timerRuns := by simpa [State.passPeriod] using h.windows.timerRuns
      periodTimer := by simpa [State.passPeriod] using h.windows.periodTimer
      pendingPeriod := by simpa [State.passPeriod] using h.windows.pendingPeriod
      lengthTimer := by simpa [State.passPeriod] using h.windows.lengthTimer
      freezeTimer := by simpa [State.passPeriod] using h.windows.freezeTimer }

/-! ### Commands -/

/-- An attempt charges the window at most once, and changes nothing else of the unit (R64, R76). -/
theorem State.UnitOk.attempt (h : s.UnitOk) : s.attempt.UnitOk := by
  unfold State.attempt
  split
  · exact h
  · rename_i b _
    split
    · exact h
    · exact h.congr (by simp)
    · rename_i budget remaining untouched _
      refine .ite (.ite (.ite ((h.charge budget).congr (by simp)) h) (h.congr (by simp))) ?_
      exact .ite ((h.charge b.count).congr (by simp)) h

theorem State.UnitOk.execContinuationGrant (h : s.UnitOk) :
    ∃ t, execContinuationGrant s = .next t ∧ t.UnitOk := by
  unfold Machine.execContinuationGrant
  split
  · exact ⟨_, rfl, h⟩
  · rename_i n _
    have hu : State.UnitOk (State.awaitAttempt { s with waiting := { s.waiting with openings := n } }) :=
      h.congr ⟨rfl, rfl⟩
    dsimp only
    split
    · split
      · split
        · rename_i g _
          exact ⟨_, rfl, (hu.charge g).congr (by simp)⟩
        · exact ⟨_, rfl, hu⟩
      · exact ⟨_, rfl, hu⟩
    · exact ⟨_, rfl, hu⟩

theorem State.UnitOk.leaveReset (h : s.UnitOk) : s.leaveReset.UnitOk :=
  .ite (h.congr (by simp)) (h.congr ⟨rfl, rfl⟩)

/-- A request in range keeps what its owning block keeps (R171, R172). -/
theorem State.UnitOk.handRequest (h : s.UnitOk) (tag : Byte) (inRange : Bool) {owner : State → Taken}
    (ho : inRange = true → ∀ u : State, u.UnitOk → (owner u).state.UnitOk) :
    (s.handRequest tag inRange owner).UnitOk := by
  unfold State.handRequest
  split
  · split
    · rename_i hin
      exact (ho hin s.endTransaction (h.congr ⟨rfl, rfl⟩)).congr ⟨rfl, rfl⟩
    · exact h.congr ⟨rfl, rfl⟩
  · exact h

theorem State.UnitOk.execDiscard (h : s.UnitOk) (tag i : Byte) : ∃ t, execDiscard tag i s = .next t ∧ t.UnitOk := by
  refine ⟨_, rfl, h.handRequest tag true fun _ u hu => ?_⟩
  split
  · exact hu
  · rename_i b _
    have habort : (u.abortActive b).2.UnitOk := hu.congr (by simp)
    split
    · exact hu.congr (by simp)
    · exact hu.congr (by simp)
    · exact hu
    · split <;> rename_i hx <;> rw [hx] at habort <;> exact habort.congr (by simp)

theorem State.UnitOk.execClear (h : s.UnitOk) (tag : Byte) : ∃ t, execClear tag s = .next t ∧ t.UnitOk := by
  refine ⟨_, rfl, h.handRequest tag true fun _ u hu => ?_⟩
  have hclear : (u.table.unadmitted.foldl State.dropBatch u).clearAbort.2.2.UnitOk :=
    hu.congr (by simp [State.foldl_dropBatch])
  exact .ite hclear (hclear.congr (by simp))

/-- A request handed to its owning block, whichever it is (R172, Table 9-3). -/
theorem State.UnitOk.handOver (h : s.UnitOk) (i : Instr) : ∃ t, s.handOver i = .next t ∧ t.UnitOk := by
  match i with
  | .identify _ | .status _ | .getConfig _ | .getWindow .. | .getWatch .. | .readEvents _ | .lookup .. =>
    exact ⟨_, rfl, h.handRequest _ _ fun _ _ hu => hu⟩
  | .setWatch .. | .watchAck .. | .ackEvents .. | .setEventEnable .. =>
    exact ⟨_, rfl, h.handRequest _ _ fun _ _ hu => hu.congr ⟨rfl, rfl⟩⟩
  | .replay _ => exact ⟨_, rfl, .ite (h.congr ⟨rfl, rfl⟩) h⟩
  | .setConfig _ _ =>
    exact ⟨_, rfl, h.handRequest _ _ fun hin _ hu => hu.setConfig (Settings.inRange_ofRaw (rawInRange_iff.1 hin))⟩
  | .setWindow .. =>
    refine ⟨_, rfl, h.handRequest _ _ fun _ u hu => ?_⟩
    split
    · exact hu.congr ⟨rfl, rfl⟩
    · exact hu
  | .seal _ =>
    refine ⟨_, rfl, h.handRequest _ _ fun _ u hu => ?_⟩
    split
    · exact hu.congr (by simp)
    · exact hu
  | .discard tag i => exact h.execDiscard tag i
  | .clear tag => exact h.execClear tag
  | .resume _ =>
    refine ⟨_, rfl, h.handRequest _ _ fun _ u hu => ?_⟩
    split
    · split
      · exact hu.congr (by simp)
      · exact hu
    · exact hu
  | .freeze _ _ =>
    exact ⟨_, rfl, h.handRequest _ _ fun _ _ hu => ⟨hu.settings, { hu.windows with freezeTimer := rfl }⟩⟩
  | .thaw _ =>
    refine ⟨_, rfl, h.handRequest _ _ fun _ u hu => ?_⟩
    split
    · exact hu.endFreeze
    · exact hu
  | .kick _ =>
    refine ⟨_, rfl, h.handRequest _ _ fun _ u hu => ?_⟩
    split
    · exact hu
    · exact hu.tick ‹_›
  | .peekCompletion _ =>
    refine ⟨_, rfl, h.handRequest _ _ fun _ u hu => ?_⟩
    split <;> exact hu
  | .retire _ =>
    refine ⟨_, rfl, h.handRequest _ _ fun _ u hu => ?_⟩
    split
    · exact hu.congr ⟨rfl, rfl⟩
    · exact hu
  | .transactionBegin | .transactionEnd | .hostRequest .. | .hceDeassert | .sealOnLast | .stallTimeout
  | .passThroughReadComplete _ | .passThroughWriteComplete | .forwardedReadComplete _ | .hostMemTimeout
  | .recordWriteComplete | .verifyReadComplete _ | .engineMemTimeout | .admissionAttempt | .countedEdge _
  | .frameTimeoutExpiry | .periodExpiry | .windowLengthExpiry | .freezeExpiry | .autoSeal | .continuationGrant
  | .rstAssert | .rstRelease | .powerUp | .refclkStop | .refclkRestart | .sckRisingEdge _ | .sckFallingEdge
  | .mceAssert => exact ⟨_, rfl, h⟩

theorem State.UnitOk.execTransactionEnd (h : s.UnitOk) : ∃ t, execTransactionEnd s = .next t ∧ t.UnitOk := by
  unfold Machine.execTransactionEnd
  split
  · split
    · exact ⟨_, rfl, h.congr ⟨rfl, rfl⟩⟩
    · split
      · exact ⟨_, rfl, h.congr ⟨rfl, rfl⟩⟩
      · exact h.handOver _
  · exact ⟨_, rfl, h.congr ⟨rfl, rfl⟩⟩
  · exact ⟨_, rfl, h.congr ⟨rfl, rfl⟩⟩

@[simp] theorem MgmtPort.bitIn_settings (m : MgmtPort) (b : Bool) : (m.bitIn b).settings = m.settings := by
  unfold MgmtPort.bitIn
  dsimp only
  split <;> rfl

/-- Every command keeps the settings in range and the window unit consistent. -/
theorem State.UnitOk.exec (h : s.UnitOk) (c : Instr) : ∃ t, exec c s = .next t ∧ t.UnitOk := by
  have hrequest := h.handOver c
  cases c with
  | transactionBegin =>
    simp only [Machine.exec, execTransactionBegin]
    split <;> exact ⟨_, rfl, h.congr ⟨rfl, rfl⟩⟩
  | transactionEnd => exact h.execTransactionEnd
  | hostRequest addr write lanes data hce =>
    exact ⟨_, rfl, .ite (.ite (h.congr (by simp)) (h.congr (by simp))) (h.congr ⟨rfl, rfl⟩)⟩
  | sealOnLast =>
    simp only [Machine.exec, execSealOnLast]
    split
    · exact ⟨_, rfl, h⟩
    · split
      · exact ⟨_, rfl, .ite (h.congr (by simp)) (h.congr ⟨rfl, rfl⟩)⟩
      · exact ⟨_, rfl, h.congr ⟨rfl, rfl⟩⟩
  | autoSeal =>
    simp only [Machine.exec, execAutoSeal]
    split
    · exact ⟨_, rfl, h⟩
    · exact ⟨_, rfl, .ite (h.congr (by simp)) (h.congr ⟨rfl, rfl⟩)⟩
  | stallTimeout =>
    simp only [Machine.exec, execStallTimeout]
    split
    · exact ⟨_, rfl, h.congr ⟨rfl, rfl⟩⟩
    · exact ⟨_, rfl, h⟩
  | passThroughReadComplete md =>
    simp only [Machine.exec, execPassThroughReadComplete]
    split
    · exact ⟨_, rfl, h.congr (by simp)⟩
    · exact ⟨_, rfl, h⟩
  | passThroughWriteComplete =>
    simp only [Machine.exec, execPassThroughWriteComplete]
    split
    · exact ⟨_, rfl, h.congr (by simp)⟩
    · exact ⟨_, rfl, h⟩
  | forwardedReadComplete md =>
    simp only [Machine.exec, execForwardedReadComplete]
    split
    · exact ⟨_, rfl, h.congr (by simp)⟩
    · exact ⟨_, rfl, h⟩
  | hostMemTimeout =>
    simp only [Machine.exec, execHostMemTimeout]
    split
    · exact ⟨_, rfl, h.congr (by simp)⟩
    · exact ⟨_, rfl, h⟩
  | recordWriteComplete => exact ⟨_, rfl, .ite (h.congr (by simp)) h⟩
  | verifyReadComplete md => exact ⟨_, rfl, .ite (h.congr (by simp)) h⟩
  | engineMemTimeout => exact ⟨_, rfl, .ite (h.congr (by simp)) h⟩
  | admissionAttempt => exact ⟨_, rfl, .ite (State.UnitOk.attempt (h.congr ⟨rfl, rfl⟩)) h⟩
  | countedEdge rising => exact h.execCountedEdge rising
  | frameTimeoutExpiry => exact h.execFrameTimeoutExpiry
  | periodExpiry => exact h.execPeriodExpiry
  | windowLengthExpiry => exact h.execWindowLengthExpiry
  | freezeExpiry =>
    simp only [Machine.exec, execFreezeExpiry]
    split
    · exact ⟨_, rfl, h.endFreeze.congr ⟨rfl, rfl⟩⟩
    · exact ⟨_, rfl, h⟩
  | continuationGrant => exact h.execContinuationGrant
  | rstAssert => exact ⟨_, rfl, State.unitOk_of_reset ⟨rfl, rfl⟩⟩
  | powerUp => exact ⟨_, rfl, State.unitOk_of_reset ⟨rfl, rfl⟩⟩
  | rstRelease =>
    simp only [Machine.exec, execRstRelease]
    split
    · exact ⟨_, rfl, h⟩
    · exact ⟨_, rfl, .ite (State.UnitOk.leaveReset (h.congr ⟨rfl, rfl⟩)) (h.congr ⟨rfl, rfl⟩)⟩
  | hceDeassert | refclkStop | refclkRestart => exact ⟨_, rfl, h.congr ⟨rfl, rfl⟩⟩
  | sckRisingEdge sdi => exact ⟨_, rfl, .ite (h.congr (by simp)) h⟩
  | sckFallingEdge | mceAssert => exact ⟨_, rfl, .ite (h.congr ⟨rfl, rfl⟩) h⟩
  | _ => exact hrequest

/-- On an empty queue the timers count, and none starts or stops. -/
theorem State.UnitOk.idle (h : s.UnitOk) : s.idle.UnitOk := by
  unfold State.idle
  split
  · exact h.congr ⟨rfl, rfl⟩
  · split
    · split
      · exact h.congr ⟨rfl, rfl⟩
      · exact h.passPeriod
    · exact h

theorem State.UnitOk.step (h : s.UnitOk) : ∃ t, step s = .next t ∧ t.UnitOk := by
  unfold Machine.step
  split
  · exact ⟨_, rfl, h.idle⟩
  · refine State.UnitOk.exec ?_ _
    exact h.congr ⟨rfl, rfl⟩

/-- Settles O56: the unit's own operations keep it consistent, and every other one leaves it and the settings alone. -/
theorem stepKeepsTheWindowUnit : Obligations.StepKeepsTheWindowUnit := by
  unfold Obligations.StepKeepsTheWindowUnit
  intro s t hs hw hstep
  obtain ⟨u, hu, hok⟩ := State.UnitOk.step ⟨hs, hw⟩
  obtain rfl : u = t := Host.Outcome.next.inj (hu.symm.trans hstep)
  exact ⟨hok.settings, hok.windows⟩

end Sys2Proof.Machine
end

section
/-! PROOFS. The commit window unit's requests and expiries (R52 to R70, R177): the operation behind each in the spec's
terms, then the statements. -/

namespace Sys2Proof.Machine

open Sys2Proof

/-! ### SET_CONFIG (R54, R57, R61, R177) -/

/-- The codes in range name the tick sources (R176). -/
theorem TickSource.ofCode_eq_iff {c : Byte} (h : c.toNat ≤ 2) (x : TickSource) :
    TickSource.ofCode c = x ↔ c = x.code := by
  have hc : c = 0#8 ∨ c = 1#8 ∨ c = 2#8 := by bv_omega
  rcases hc with rfl | rfl | rfl <;> cases x <;> decide

theorem WindowUnit.newSettings_eq (u : WindowUnit) (c : Settings) :
    u.newSettings c =
      { u with
        prescaleCount := if u.prescaleCount < c.prescale.toNat then u.prescaleCount else 0
        pendingPeriod := if u.periodTimer = none then u.pendingPeriod else some c.period.toNat } := by
  have hcount : c.prescale.toNat ≤ u.prescaleCount ↔ ¬ u.prescaleCount < c.prescale.toNat := Nat.not_lt.symm
  simp only [WindowUnit.newSettings, hcount, ite_not]
  cases u.periodTimer <;> rfl

/-- Settles O18: the codes tell whether the tick source changes, and to which one. -/
theorem setConfigActsOnTheWindowUnit : Obligations.SetConfigActsOnTheWindowUnit := by
  unfold Obligations.SetConfigActsOnTheWindowUnit
  intro s tag raw hp hr m t stopped
  have hsrc : ∀ x, (Settings.ofRaw raw).tickSource = x ↔ raw.tickSource = x.code :=
    TickSource.ofCode_eq_iff hr.1
  have hexec : exec (.setConfig tag raw) s =
      .next ((s.endTransaction.setConfig (Settings.ofRaw raw)).retain .ok tag []) := by
    rw [← hp.handRequest_in tag fun u => ⟨.ok, [], u.setConfig (Settings.ofRaw raw)⟩, ← rawInRange_iff.2 hr]
    rfl
  have hsame : (Settings.ofRaw raw).tickSource = s.endTransaction.mgmt.settings.tickSource ↔
      raw.tickSource = s.mgmt.settings.tickSource.code := hsrc _
  rw [hexec, State.setConfig]
  simp only [hsame]
  split
  · rw [WindowUnit.newSettings_eq]
    rfl
  · unfold State.changeTickSource
    dsimp only
    cases hx : (Settings.ofRaw raw).tickSource <;> rw [hsrc] at hx <;> simp only [hx]
    all_goals rfl

/-! ### Freezes (R67 to R70) -/

theorem flagByte_eq_yesNo (b : Bool) : flagByte b = yesNo b := by
  cases b <;> rfl

/-- What the end of a freeze hands on (R69, R70). -/
theorem State.endFreeze_eq (s : State) :
    s.endFreeze =
      { s with
        unit := { s.unit with frozen := false, freezeTimer := none }
        waiting :=
          { s.waiting with
            attempts := s.waiting.attempts + 1
            openings := s.waiting.openings + if s.mgmt.settings.tickSource = .immediate then 1 else 0 } } := by
  by_cases hs : s.mgmt.settings.tickSource = .immediate <;>
    simp [State.endFreeze, State.handOpening, State.awaitAttempt, hs]

/-- Settles O29: THAW and the expiry both end the freeze as `State.endFreeze_eq` says. -/
theorem freezesStartAndEnd : Obligations.FreezesStartAndEnd := by
  unfold Obligations.FreezesStartAndEnd
  intro s thawed
  have hend : s.endFreeze = thawed := s.endFreeze_eq
  refine ⟨fun tag d hp hd => ?_, fun tag hp => ?_, fun hnone => ?_, fun k hawake hk => ?_⟩
  · have hfreeze : exec (.freeze tag d) s = .next (s.handRequest tag (decide (d ≠ 0#24)) _) := rfl
    have hpos : d ≠ 0#24 := by bv_omega
    rw [hfreeze, decide_eq_true hpos, hp.handRequest_in]
    simp only [flagByte_eq_yesNo]
    rfl
  · have hthaw : exec (.thaw tag) s = .next (s.handRequest tag true _) := rfl
    rw [hthaw, hp.handRequest_in]
    refine ⟨fun hf => ?_, fun hf => ?_⟩
    · simp only [State.endTransaction_unit, hf, if_true, State.endFreeze_eq]
      rfl
    · simp only [State.endTransaction_unit, hf]
      rfl
  · simp [exec, execFreezeExpiry, expiryDue_eq_false hnone]
  · simp [exec, execFreezeExpiry, hawake.clocked, hk, hend]

/-! ### Ticks (R56, R60 to R63) -/

/-- Settles O30: KICK and the period expiry make the one tick of `State.tick_eq`. -/
theorem kickAndPeriodExpiryMakeTicks : Obligations.KickAndPeriodExpiryMakeTicks := by
  unfold Obligations.KickAndPeriodExpiryMakeTicks
  intro s
  refine ⟨fun tag hp => ?_, fun hnone => ?_, fun k reload hawake hk => ?_⟩
  · have hkick : exec (.kick tag) s = .next (s.handRequest tag true _) := rfl
    rw [hkick, hp.handRequest_in]
    refine ⟨fun hs => ?_, fun hs => ?_⟩
    · have hs' : ¬ s.endTransaction.mgmt.settings.tickSource = .immediate := hs
      simp only [hs', if_false, State.tick_eq]
      rfl
    · have hs' : s.endTransaction.mgmt.settings.tickSource = .immediate := hs
      simp only [hs', if_true]
      rfl
  · cases hp : s.unit.periodTimer with
    | none => simp [exec, execPeriodExpiry, hp]
    | some p =>
      have hrun : p.timer.remaining ≠ 0 := fun h0 => hnone p.timer.periods p.reload (by rw [hp, ← h0])
      cases hc : s.clocked <;> simp [exec, execPeriodExpiry, hp, hc, hrun]
  · have hexec : exec .periodExpiry s =
        .next
          { s.ticked with
            unit :=
              { s.ticked.unit with
                periodTimer := some (.start (s.unit.pendingPeriod.getD reload)), pendingPeriod := none } } := by
      simp only [exec, execPeriodExpiry, hawake.clocked, hk, if_true, State.tick_eq]
      rfl
    refine ⟨fun hpend => ?_, fun n hpend => ?_⟩
    · simp only [hexec, hpend, State.ticked]
      rfl
    · rw [hexec, hpend]
      rfl

/-- Settles O31: an edge that locks the monitor is then counted from 0 as any other (R56, R58). -/
theorem countedEdgesMakePrescaledTicks : Obligations.CountedEdgesMakePrescaledTicks := by
  unfold Obligations.CountedEdgesMakePrescaledTicks
  intro s rising hawake counted
  have hcount : ∀ t : State, t.mgmt = s.mgmt → t.countEdge = counted t (t.unit.prescaleCount + 1) := by
    intro t ht
    simp only [State.countEdge, State.tick_eq, counted, ht, Timer.start_eq]
  refine ⟨fun hno => ?_, fun hs hr => ⟨fun hm => ?_, fun hm => ?_⟩⟩
  · rcases hno with hs | rfl
    · simp [exec, execCountedEdge, hs]
    · simp [exec, execCountedEdge]
  · simp [exec, execCountedEdge, hawake.clocked, hs, hr, hm, hcount s rfl]
  · rcases hm with hm | hm
    all_goals
      simp only [exec, execCountedEdge, hawake.clocked, hs, bne_iff_ne.2 hr, decide_true, Bool.and_self, if_true, hm]
      refine congrArg _ (hcount _ ?_)
      rfl

/-! ### Expiries of the unit's timers (R59, R65) -/

/-- While the monitor is WAITING or LOCKED no period timer runs, so no pending period is held (R59, R61). -/
theorem State.WindowsOk.pendingPeriod_eq_none {s : State} (h : s.WindowsOk)
    (hm : s.unit.monitor = .waiting ∨ s.unit.monitor = .locked) : s.unit.pendingPeriod = none := by
  have hoff : s.unit.monitor ≠ .off := by rcases hm with hm | hm <;> simp [hm]
  have hlost : s.unit.monitor ≠ .lost := by rcases hm with hm | hm <;> simp [hm]
  rw [← Option.not_isSome_iff_eq_none]
  intro hp
  rcases h.periodTimer (h.pendingPeriod hp) with hs | hl
  · exact hoff (h.monitorOff.2 (by simp [hs]))
  · exact hlost hl

/-- Settles O32: a running frame timeout timer means WAITING or LOCKED (`WindowsOk`). -/
theorem frameTimeoutExpiryLosesTheLine : Obligations.FrameTimeoutExpiryLosesTheLine := by
  unfold Obligations.FrameTimeoutExpiryLosesTheLine
  intro s hawake hw
  refine ⟨fun hnone => ?_, fun k hk => ?_⟩
  · simp [exec, execFrameTimeoutExpiry, expiryDue_eq_false hnone]
  · intro u
    have hm : s.unit.monitor = .waiting ∨ s.unit.monitor = .locked := hw.frameTimer.1 (by simp [hk])
    have hpend : u.pendingPeriod = none := hw.pendingPeriod_eq_none hm
    have hexec : exec .frameTimeoutExpiry s =
        .next
          (State.report
            { s with
              unit :=
                { u with
                  periodTimer :=
                    if s.mgmt.settings.fallback then some (.start s.mgmt.settings.period.toNat) else u.periodTimer
                  pendingPeriod := none } }
            .frame) := by
      simp only [exec, execFrameTimeoutExpiry]
      rw [if_pos (by simpa [hawake.clocked, hk] using hm)]
    rw [hexec]
    refine ⟨fun hf => by rw [if_pos hf]; rfl, fun hf => ?_⟩
    rw [if_neg (by simp [hf]), ← hpend]

/-- Settles O33: the batch that can be APPLYING is the active one (R34). -/
theorem windowLengthExpiryClosesTheWindow : Obligations.WindowLengthExpiryClosesTheWindow := by
  unfold Obligations.WindowLengthExpiryClosesTheWindow
  intro s hawake ht
  refine ⟨fun hnone => ?_, fun k hk => ?_⟩
  · simp [exec, execWindowLengthExpiry, expiryDue_eq_false hnone]
  · intro t
    have hdue : (s.clocked && expiryDue s.unit.lengthTimer) = true := by simp [hawake.clocked, hk]
    refine ⟨fun ⟨b, hb, hs⟩ => ?_, fun hno => ?_⟩ <;> simp only [exec, execWindowLengthExpiry, hdue, if_true]
    · have hactive : ∀ u, State.activeBatch? { s with unit := u } = some b := fun _ =>
        ht.activeBatch?_eq_some.2 ⟨hb, by rw [hs]; exact ⟨nofun, nofun⟩⟩
      simp only [hactive, hs, if_true, t]
    · split
      · rename_i b hb
        rw [if_neg (hno b (ht.activeBatch?_eq_some.1 hb).1)]
      · rfl

end Sys2Proof.Machine
end

section
/-! PROOFS. The ends of host accesses that no MRDY makes, and the events that end no access (R52, R99, R103, R123, R129,
R135). -/

namespace Sys2Proof.Machine

open Sys2Proof

variable {s : State}

/-! ### Refusals at a timeout and HCE deasserted (R123, R129, R135) -/

/-- A host access past its memory timeout is refused as the array bus is released, and then the port is free (R129). -/
theorem State.exec_hostMemTimeout (hawake : s.Awake) {acc : HostAccess} (hs : s.host.state = .memory acc)
    (hb : s.port.busy = some .host) (hd : expiryDue s.port.timer = true) :
    exec .hostMemTimeout s = .next (s.endBus.refuseAccess .hostMemTimeout acc.addr acc.lanes).freePort := by
  simp only [exec, execHostMemTimeout, hawake.clocked, hb, hd, hs, decide_true, Bool.and_self]

/-- Without a due stall timer there is no stall timeout (R52). -/
theorem State.exec_stallTimeout_none (h : expiryDue s.host.stallTimer = false) : exec .stallTimeout s = .next s := by
  simp only [exec, execStallTimeout, h, Bool.and_false]

/-- Settles O45: each timeout is the refusal that R129 and R135 name, and HCE marks the access it leaves. -/
theorem hostTimeoutsRefuseTheAccess : Obligations.HostTimeoutsRefuseTheAccess := by
  unfold Obligations.HostTimeoutsRefuseTheAccess
  intro s refused
  refine ⟨fun acc k hawake hs hb ht => ?_, fun w k hawake hs ht => ?_, fun hnone => ?_, fun hno => ?_,
    fun acc hs => ?_⟩
  · rw [State.exec_hostMemTimeout hawake hs hb (expiryDue_iff.2 ⟨k, ht⟩)]
    rfl
  · simp only [exec, execStallTimeout, hawake.clocked, expiryDue_iff.2 ⟨k, ht⟩, hs, Bool.and_self]
    rfl
  · exact State.exec_stallTimeout_none (expiryDue_eq_false hnone)
  · have hkeep : s.host.state.dropHce = s.host.state := by
      cases hs : s.host.state with
      | memory acc => exact absurd hs (hno acc)
      | _ => rfl
    simp only [exec, execHceDeassert, hkeep]
  · simp only [exec, execHceDeassert, hs, HostState.dropHce_memory]

/-! ### Events that end no access (R52, R99, R103) -/

/-- MRDY is taken for a host access exactly when the port carries it, on the array bus, and it is of the event's kind
(R99, R103). -/
theorem State.hostOnBus?_eq_some {kind : HostKind} {acc : HostAccess} :
    s.hostOnBus? kind = some acc ↔
      s.Awake ∧ s.port.busy = some .host ∧ s.port.mce = true ∧ s.host.state = .memory acc ∧ acc.kind = kind ∧
        acc.inFlight = true := by
  unfold State.hostOnBus?
  cases hs : s.host.state with
  | memory a =>
    simp only [Option.ite_none_right_eq_some, Bool.and_eq_true, decide_eq_true_eq, State.clocked_eq_true,
      Option.some.injEq, HostState.memory.injEq]
    constructor
    · rintro ⟨⟨⟨ha, hb⟩, hm⟩, ⟨hk, hf⟩, rfl⟩
      exact ⟨ha, hb, hm, rfl, hk, hf⟩
    · rintro ⟨ha, hb, hm, rfl, hk, hf⟩
      exact ⟨⟨⟨ha, hb⟩, hm⟩, ⟨hk, hf⟩, rfl⟩
  | _ => simp

/-- MRDY is taken for an access of the engine exactly when the port carries it, on the array bus, and it is of the
event's kind (R99, R103). -/
theorem State.engineOnBus_eq_true {kind : AccessKind} :
    s.engineOnBus kind = true ↔
      s.Awake ∧ s.port.busy = some .engine ∧ s.port.mce = true ∧
        ∃ q, s.engine.access = .inFlight q ∧ q.kind = kind := by
  unfold State.engineOnBus
  simp only [Bool.and_eq_true, decide_eq_true_eq, State.clocked_eq_true, and_assoc]
  cases s.engine.access <;> simp

/-- No access of the host ends by an MRDY that is not for it (R103). -/
theorem State.exec_hostComplete_none (md : Word) :
    (s.hostOnBus? .passRead = none → exec (.passThroughReadComplete md) s = .next s) ∧
    (s.hostOnBus? .passWrite = none → exec .passThroughWriteComplete s = .next s) ∧
    (s.hostOnBus? .forwardedRead = none → exec (.forwardedReadComplete md) s = .next s) := by
  refine ⟨fun h => ?_, fun h => ?_, fun h => ?_⟩
  · simp only [exec, execPassThroughReadComplete, h]
  · simp only [exec, execPassThroughWriteComplete, h]
  · simp only [exec, execForwardedReadComplete, h]

/-- No access of the engine ends by an MRDY that is not for it (R103). -/
theorem State.exec_engineComplete_none (md : Word) :
    (¬ s.engineOnBus .recordWrite = true → exec .recordWriteComplete s = .next s) ∧
    (¬ s.engineOnBus .verifyRead = true → exec (.verifyReadComplete md) s = .next s) := by
  refine ⟨fun h => ?_, fun h => ?_⟩
  · simp only [exec, execRecordWriteComplete, if_neg h]
  · simp only [exec, execVerifyReadComplete, if_neg h]

/-- A memory timeout for an access that the port does not carry, or not due, changes nothing (R52). -/
theorem State.exec_memTimeout_none :
    (s.port.busy ≠ some .host ∨ expiryDue s.port.timer = false → exec .hostMemTimeout s = .next s) ∧
    (s.port.busy ≠ some .engine ∨ expiryDue s.port.timer = false → exec .engineMemTimeout s = .next s) := by
  refine ⟨fun h => ?_, fun h => ?_⟩
  · rcases h with h | h <;> simp [exec, execHostMemTimeout, h]
  · rcases h with h | h <;> simp [exec, execEngineMemTimeout, h]

/-- Settles O47: an event that is not for the access on the array bus, or not due, is none. -/
theorem endsOfNoAccessChangeNothing : Obligations.EndsOfNoAccessChangeNothing := by
  unfold Obligations.EndsOfNoAccessChangeNothing
  intro s md
  obtain ⟨hread, hwrite, hforward⟩ := s.exec_hostComplete_none md
  obtain ⟨hrecord, hverify⟩ := s.exec_engineComplete_none md
  obtain ⟨hhost, hengine⟩ := s.exec_memTimeout_none
  refine ⟨fun hport => ?_, fun hport => ?_, fun h => hhost (h.imp_right expiryDue_eq_false),
    fun h => hengine (h.imp_right expiryDue_eq_false), fun acc hs => ?_, fun q hq => ?_⟩
  · have hnone : ∀ kind, s.hostOnBus? kind = none := fun kind =>
      Option.eq_none_iff_forall_ne_some.2 fun acc hacc => by
        obtain ⟨-, hb, hm, -⟩ := State.hostOnBus?_eq_some.1 hacc
        simp [hb, hm] at hport
    exact ⟨hread (hnone _), hwrite (hnone _), hforward (hnone _)⟩
  · have hnone : ∀ kind, ¬ s.engineOnBus kind = true := fun kind hon => by
      obtain ⟨-, hb, hm, -⟩ := State.engineOnBus_eq_true.1 hon
      simp [hb, hm] at hport
    exact ⟨hrecord (hnone _), hverify (hnone _)⟩
  · have hnone : ∀ kind, acc.kind ≠ kind → s.hostOnBus? kind = none := fun kind hk =>
      Option.eq_none_iff_forall_ne_some.2 fun acc' hacc => by
        obtain ⟨-, -, -, hs', hk', -⟩ := State.hostOnBus?_eq_some.1 hacc
        obtain rfl : acc = acc' := HostState.memory.inj (hs.symm.trans hs')
        exact hk hk'
    exact ⟨fun hk => hread (hnone _ hk), fun hk => hwrite (hnone _ hk), fun hk => hforward (hnone _ hk)⟩
  · have hnone : ∀ kind, q.kind ≠ kind → ¬ s.engineOnBus kind = true := fun kind hk hon => by
      obtain ⟨-, -, -, q', hq', hk'⟩ := State.engineOnBus_eq_true.1 hon
      obtain rfl : q = q' := EngineAccess.inFlight.inj (hq.symm.trans hq')
      exact hk hk'
    exact ⟨fun hk => hrecord (hnone _ hk), fun hk => hverify (hnone _ hk)⟩

end Sys2Proof.Machine
end

section
/-! PROOFS. An empty queue, and STATUS (R52, R60, R181, R189). -/

namespace Sys2Proof.Machine

open Sys2Proof

/-! ### An empty queue (R52, R189) -/

/-- One REFCLK period of a running timer, with the end of a TU second. -/
theorem Timer.count_eq (d : Nat) (t : Timer) :
    t.count d = if t.periods + 1 < d then ⟨t.remaining, t.periods + 1⟩ else ⟨t.remaining - 1, 0⟩ := by
  unfold Timer.count
  rw [← ite_not]
  simp only [Nat.not_le]

/-- After `k` REFCLK periods a timer loaded with `n` has counted `k / d` TU and `k % d` periods of the next one (0.7,
R52). -/
theorem Timer.count_iterate {d : Nat} (hd : 1 ≤ d) (n k : Nat) : (Timer.count d)^[k] ⟨n, 0⟩ = ⟨n - k / d, k % d⟩ := by
  induction k with
  | zero => simp
  | succ k ih =>
    have hk : k + 1 = d * (k / d) + (k % d + 1) := by rw [← Nat.add_assoc, Nat.div_add_mod]
    rw [Function.iterate_succ_apply', ih, Timer.count_eq]
    split
    · rename_i hlt
      have hq : (k + 1) / d = k / d := by rw [hk, Nat.mul_add_div hd, Nat.div_eq_of_lt hlt, Nat.add_zero]
      have hr : (k + 1) % d = k % d + 1 := by rw [hk, Nat.mul_add_mod, Nat.mod_eq_of_lt hlt]
      rw [hq, hr]
    · rename_i hge
      have hfull : k % d + 1 = d := Nat.le_antisymm (Nat.mod_lt k hd) (Nat.le_of_not_lt hge)
      have hq : (k + 1) / d = k / d + 1 := by rw [hk, hfull, Nat.mul_add_div hd, Nat.div_self hd]
      have hr : (k + 1) % d = 0 := by rw [hk, hfull, Nat.mul_add_mod, Nat.mod_self]
      rw [hq, hr, Nat.sub_sub]

theorem expiryDue_iff_map {t : Option Timer} : expiryDue t = true ↔ t.map Timer.remaining = some 0 := by
  cases t <;> simp

/-- Settles O3: `State.idle` by what waits and what is due, and a timer's periods by `Timer.count_iterate`. -/
theorem emptyQueueRunsThePartOn : Obligations.EmptyQueueRunsThePartOn := by
  unfold Obligations.EmptyQueueRunsThePartOn
  intro count
  have hcount : count = Timer.count := by
    funext d t
    exact (Timer.count_eq d t).symm
  rw [hcount]
  refine ⟨fun s hpend => ?_, fun d n k hd => Timer.count_iterate hd n k⟩
  intro waits due
  have hwaits : waits = s.waitingEvent? := by
    simp [waits, State.waitingEvent?, Nat.pos_iff_ne_zero, Option.isSome_iff_ne_none]
  have hdue : due = s.dueExpiry? := by
    simp only [due, State.dueExpiry?, expiryDue_iff_map, Option.map_map, Function.comp_def,
      apply_ite some]
  have hstep : step s = .next s.idle := by simp only [step, hpend]
  rw [hwaits, hdue, hstep, State.idle]
  refine ⟨fun c hc => ?_, fun hnone hasleep => ?_, fun hnone hawake c hc => ?_, fun hnone hawake hno => ?_⟩
  · simp only [hc]
  · simp only [hnone]
    rw [if_neg (fun hc => hasleep (State.clocked_eq_true.1 hc))]
  · simp only [hnone, hawake.clocked, if_true, hc]
  · simp only [hnone, hawake.clocked, if_true, hno]
    rfl

/-! ### STATUS (R52, R181) -/

theorem CommitWindow.openField_eq (w : CommitWindow) : w.openField = yesNo (decide (w ≠ .closed)) := by
  cases w <;> rfl

/-- Settles O16: the payload is read from the state whose transaction has ended, which differs in the port alone. -/
theorem statusReportsOneMoment : Obligations.StatusReportsOneMoment := by
  unfold Obligations.StatusReportsOneMoment
  intro s tag hp
  have hstatus : exec (.status tag) s = .next (s.handRequest tag true _) := rfl
  rw [hstatus, hp.handRequest_in]
  simp only [State.statusPayload, CommitWindow.openField_eq, State.endTransaction_unit]
  cases hw : s.unit.window <;> rfl

end Sys2Proof.Machine
end

section
/-! PROOFS. The grants that continue a batch: the pause at a used-up grant, and a window opening taken at the engine
(R53, R64, R80, R81, R85, R87). -/

namespace Sys2Proof.Machine

open Sys2Proof

variable {s t : State}

/-! ### Requests and grants (R80, R82) -/

theorem State.placeRequest_eq {r : Record} (hr : s.nextRecord? = some r) (k : AccessKind) :
    s.placeRequest k = (s.requests k r).arbitrate := by
  simp only [State.placeRequest, hr, State.requests]

/-- A grant to the batch `b` of the table requests the write of its next record `r` (R77, R80, R81). -/
theorem State.giveGrant_eq (hd : s.table.Distinct) {b : Batch} {r : Record} (hb : b ∈ s.table.batches)
    (hr : s.nextRecord? = some r) (g : Nat) :
    s.giveGrant b.id g =
      State.arbitrate
        (State.requests
          { s with
            table := s.table.replace b { b with state := .applying, windowsUsed := satInc b.windowsUsed }
            engine := { s.engine with grant := g } }
          .recordWrite r) := by
  rw [State.giveGrant, BatchTable.update_eq_replace hd hb]
  refine State.placeRequest_eq ?_ .recordWrite
  exact hr

/-- A batch replaced twice in its slot. -/
theorem BatchTable.replace_replace {t : BatchTable} (h : t.Distinct) {b : Batch} (hb : b ∈ t.batches)
    (b' b'' : Batch) (hid : b'.id = b.id) : (t.replace b b').replace b' b'' = t.replace b b'' := by
  simp only [BatchTable.replace, List.map_map]
  congr 1
  apply List.map_congr_left
  intro o ho
  by_cases hob : o = some b
  · simp [hob]
  · have hob' : o ≠ some b' := by
      rintro rfl
      exact hob (congrArg some (h.eq (BatchTable.mem_batches.2 ho) hb hid))
    simp [hob, hob']

/-! ### The success of a record (R83 to R85) -/

/-- The engine's access is over and off the array bus; the port is not free before its outcome is taken (R99). -/
def State.released (s : State) : State :=
  { s.endBus with engine := { s.endBus.engine with access := .idle } }

/-- The record `r` of `b` a success, while the port is not free yet (R85 steps 1 to 4). -/
def State.counted (s : State) (b : Batch) (r : Record) : State :=
  let t := s.released.withApplied b r
  { t with engine := { t.engine with grant := t.engine.grant - 1 } }

/-- A record's success does not read the memory port, so the port may become free before or after it. -/
theorem State.succeeded_eq (s : State) (b : Batch) (r : Record) :
    s.succeeded b r = { s.counted b r with port := s.port.freed } := by
  simp only [State.succeeded, State.counted, State.withApplied, State.watchCheck_eq]
  rfl

@[simp] theorem State.counted_frame (s : State) (b : Batch) (r : Record) :
    (s.counted b r).port = s.endBus.port ∧ (s.counted b r).unit = s.unit ∧ (s.counted b r).mgmt = s.mgmt ∧
      (s.counted b r).host = s.host ∧ (s.counted b r).engine.active = s.engine.active ∧
      (s.counted b r).engine.nextPos = s.engine.nextPos + 1 ∧
      (s.counted b r).engine.grant = s.engine.grant - 1 := by
  simp only [State.counted, State.withApplied, State.watchCheck_eq]
  exact ⟨rfl, rfl, rfl, rfl, rfl, rfl, rfl⟩

theorem State.counted_table (s : State) (b : Batch) (r : Record) :
    (s.counted b r).table = s.table.replace b { b with applied := b.applied + 1 } :=
  s.released.withApplied_table b r

theorem State.counted_log (s : State) (b : Batch) (r : Record) :
    (s.counted b r).log = s.log.map fun x => if x = r then { x with applied := true } else x := by
  simp only [State.counted, State.withApplied, State.watchCheck_eq]
  rfl

/-- The requester has taken the outcome of an access that left the bus as it ended (R99). -/
theorem State.freePort_eq (hp : t.port = s.endBus.port) :
    t.freePort = State.arbitrate { t with port := s.port.freed } := by
  rw [State.freePort, hp]
  rfl

section
variable {c : Instr} {b : Batch} {r : Record}

/-- The end of an access of the APPLYING batch `b` for its record `r` (R83, R99). -/
theorem State.engineAccessEnd_applying (ht : s.TableOk) (hl : s.LogOk) (hb : s.Holds b .applying) (hn : s.Next b r)
    (e : AccessEnd) : s.engineAccessEnd e = (s.released.applyingEnd b.id r e).freePort := by
  have htr : s.released.TableOk := ht.congr rfl rfl
  have hlr : s.released.LogOk := hl.congr rfl rfl fun _ hw => hw
  have hactive : s.released.activeBatch? = some b :=
    htr.activeBatch?_eq_some.2 ⟨hb.1, by rw [hb.2]; exact ⟨nofun, nofun⟩⟩
  have hnext : s.released.nextRecord? = some r := State.Next.nextRecord? (s := s.released) hlr hn
  rw [State.engineAccessEnd]
  simp only [State.released] at hactive hnext
  simp only [hactive, hnext, hb.2]
  rfl

/-- What every success of a record starts from. -/
theorem State.Succeeds.onBus (h : s.Succeeds c b r) : ∃ kind, s.OnBus .applying kind b r := by
  rcases h with ⟨-, h, -⟩ | ⟨-, -, h, -⟩
  · exact ⟨_, h⟩
  · exact ⟨_, h⟩

/-- The port carries the engine's access while it is in flight (R99). -/
theorem State.OnBus.busy_eq {x : BatchState} {kind : AccessKind} (h : s.OnBus x kind b r) :
    s.port.busy = some .engine := by
  obtain ⟨q, hq, -⟩ := h.inFlight
  exact h.ok.port.engineCarried.2 (by rw [hq]; rfl)

theorem State.OnBus.engineOnBus {x : BatchState} {kind : AccessKind} (h : s.OnBus x kind b r) :
    s.engineOnBus kind = true :=
  State.engineOnBus_eq_true.2 ⟨h.awake, h.busy_eq, h.onBus, h.inFlight⟩

theorem State.OnBus.activeOk {kind : AccessKind} (h : s.OnBus .applying kind b r) : s.ActiveOk b :=
  h.ok.engine.2 b (h.ok.table.activeBatch?_eq_some.2 ⟨h.holds.1, by rw [h.holds.2]; exact ⟨nofun, nofun⟩⟩)

/-- The record under way is at the position of records applied (R73). -/
theorem State.OnBus.pos_eq {kind : AccessKind} (h : s.OnBus .applying kind b r) : r.pos = b.applied := by
  obtain ⟨-, -, -, hp⟩ := h.next
  exact hp.trans h.activeOk.nextPos

/-- A success, by a write without verify or by a verify read with equal bytes, is taken as R85 says, and then the port
becomes free (R83, R84, R99). -/
theorem State.Succeeds.exec_eq (h : s.Succeeds c b r) :
    exec c s = .next (s.released.recordSuccess b.id r).freePort := by
  rcases h with ⟨rfl, h, hv⟩ | ⟨md, rfl, h, heq⟩
  · have hv' : s.released.verifyAsked r.addr = false := hv
    simp only [exec, execRecordWriteComplete, h.engineOnBus, if_true,
      State.engineAccessEnd_applying h.ok.table h.ok.log h.holds h.next, State.applyingEnd, hv']
    rfl
  · simp only [exec, execVerifyReadComplete, h.engineOnBus, if_true,
      State.engineAccessEnd_applying h.ok.table h.ok.log h.holds h.next, State.applyingEnd,
      equalOn_eq_true.2 heq]

/-- The batch and the log after the success of `r` (R85). -/
theorem State.Succeeds.counted_ok (h : s.Succeeds c b r) :
    (s.counted b r).table.Distinct ∧ { b with applied := b.applied + 1 } ∈ (s.counted b r).table.batches ∧
      (s.counted b r).LogOk := by
  obtain ⟨kind, h⟩ := h.onBus
  have htr : s.released.TableOk := h.ok.table.congr rfl rfl
  obtain ⟨hd, hm, -⟩ := State.withApplied_mem htr h.holds.1 r
  have hact : b.state.IsActive := by rw [h.holds.2]; exact ⟨nofun, nofun⟩
  refine ⟨hd, hm, ?_⟩
  exact h.ok.log.withApplied h.ok.table h.holds.1 hact h.next h.activeOk.nextPos h.activeOk.unapplied
    (s.counted_log b r) (congrArg _ (s.counted_table b r)) fun w hw => by simpa using hw

/-- What follows the success of `r`: the completion after the last record, the pause at a used-up grant, else the next
request (R85). -/
theorem State.Succeeds.recordSuccess_eq (h : s.Succeeds c b r) :
    s.released.recordSuccess b.id r =
      if b.count ≤ r.pos + 1 then (s.counted b r).complete { b with applied := b.applied + 1 }
      else if s.engine.grant - 1 = 0 then (s.counted b r).pause { b with applied := b.applied + 1 }
      else (s.counted b r).placeRequest .recordWrite := by
  obtain ⟨hd, hm, -⟩ := h.counted_ok
  obtain ⟨kind, h⟩ := h.onBus
  have hcount : s.released.countApplied b.id r = s.released.withApplied b r :=
    State.countApplied_eq (s := s.released) (h.ok.table.congr rfl rfl) (h.ok.log.congr rfl rfl fun _ hw => hw)
      h.holds.1 h.next
  have hfind : (s.counted b r).table.find? b.id = some { b with applied := b.applied + 1 } :=
    (BatchTable.find?_eq_some hd).2 ⟨hm, rfl⟩
  have hsucc : s.released.recordSuccess b.id r =
      match (s.counted b r).table.find? b.id with
      | none => s.counted b r
      | some b' =>
        if b'.count ≤ b'.applied then (s.counted b r).complete b'
        else if (s.counted b r).engine.grant = 0 then (s.counted b r).pause b'
        else (s.counted b r).placeRequest .recordWrite := by
    rw [State.recordSuccess, hcount]
    rfl
  rw [hsucc, hfind, h.pos_eq]
  simp only [State.counted_frame]

end

/-- A pause away from IMMEDIATE, or frozen (R87). -/
theorem State.pause_resting (hd : s.table.Distinct) {b : Batch} (hb : b ∈ s.table.batches)
    (hno : s.mgmt.settings.tickSource ≠ .immediate ∨ s.unit.frozen = true) :
    s.pause b = { s.report .torn with table := s.table.replace b { b with state := .paused } } := by
  have hcond : ¬ (s.mgmt.settings.tickSource = .immediate ∧ s.unit.frozen = false) := by
    rintro ⟨hs, hf⟩
    rcases hno with h | h
    · exact h hs
    · simp [hf] at h
  rw [State.pause, BatchTable.update_eq_replace hd hb]
  exact if_neg hcond

/-- A pause under IMMEDIATE, not frozen, is ended at once by a grant of all unapplied records (R53, R81, R87). -/
theorem State.pause_continued (hd : s.table.Distinct) {b : Batch} {r : Record} (hb : b ∈ s.table.batches)
    (hr : s.nextRecord? = some r) (hs : s.mgmt.settings.tickSource = .immediate) (hf : s.unit.frozen = false) :
    s.pause b =
      State.arbitrate
        (State.requests
          { s.report .torn with
            table := s.table.replace b { b with state := .applying, windowsUsed := satInc b.windowsUsed }
            engine := { s.engine with grant := b.count - b.applied } }
          .recordWrite r) := by
  have hpaused : s.pause b =
      State.giveGrant { s.report .torn with table := s.table.replace b { b with state := .paused } } b.id
        (b.count - b.applied) := by
    rw [State.pause, BatchTable.update_eq_replace hd hb]
    exact if_pos ⟨hs, hf⟩
  have hgrant := State.giveGrant_eq
    (s := { s.report .torn with table := s.table.replace b { b with state := .paused } })
    (b := { b with state := .paused }) (r := r) (BatchTable.Distinct.replace hd hb rfl)
    ((BatchTable.mem_replace hd hb).2 (.inl rfl)) hr (b.count - b.applied)
  dsimp only at hgrant
  rw [BatchTable.replace_replace hd hb { b with state := .paused } _ rfl] at hgrant
  exact hpaused.trans hgrant

/-- The record after `r` is the next one once `r` is counted (R82, R85). -/
theorem State.Succeeds.counted_nextRecord? {c : Instr} {b : Batch} {r r' : Record} (h : s.Succeeds c b r)
    (hr' : r' ∈ s.log) (hb : r'.batch = b.id) (hp : r'.pos = r.pos + 1) : (s.counted b r).nextRecord? = some r' := by
  obtain ⟨-, -, hlog⟩ := h.counted_ok
  obtain ⟨-, -, -, -, hactive, hpos, -⟩ := s.counted_frame b r
  obtain ⟨kind, hon⟩ := h.onBus
  obtain ⟨hact, -, -, hrp⟩ := hon.next
  have hne : r' ≠ r := by
    rintro rfl
    omega
  have hmem : r' ∈ (s.counted b r).log := by
    rw [s.counted_log]
    exact List.mem_map.2 ⟨r', hr', if_neg hne⟩
  exact State.Next.nextRecord? hlog (b := b) ⟨hactive.trans hact, hmem, hb, by omega⟩

/-- Settles O50: the pause of the counted batch, with its continuation while the port is still held, and then the port
becomes free. -/
theorem usedUpGrantPausesTheBatch : Obligations.UsedUpGrantPausesTheBatch := by
  unfold Obligations.UsedUpGrantPausesTheBatch
  intro s c b r h hmore hg t
  obtain ⟨hd, hm, -⟩ := h.counted_ok
  obtain ⟨hport, hunit, hmgmt, -⟩ := s.counted_frame b r
  obtain ⟨kind, hon⟩ := h.onBus
  have ht : t = { s.counted b r with port := s.port.freed } := s.succeeded_eq b r
  have hexec : exec c s = .next ((s.counted b r).pause { b with applied := b.applied + 1 }).freePort := by
    rw [h.exec_eq, h.recordSuccess_eq, if_neg (Nat.not_le.2 hmore), if_pos (by rw [hg])]
  have hreplace : ∀ b', (s.counted b r).table.replace { b with applied := b.applied + 1 } b' = s.table.replace b b' :=
    fun b' => by
      rw [s.counted_table]
      exact BatchTable.replace_replace hon.ok.table.idsDistinct hon.holds.1 _ b' rfl
  rw [hexec, ht]
  refine ⟨fun hno => ?_, fun r' hr' hrb hrp hs hf => ?_⟩
  · rw [State.pause_resting hd hm (by rwa [hunit, hmgmt]), hreplace]
    exact congrArg _ (State.freePort_eq (s := s) (by exact hport))
  · have hbusy : (s.counted b r).port.busy ≠ none := by
      rw [hport]
      simp [hon.busy_eq]
    rw [State.pause_continued hd hm (h.counted_nextRecord? hr' hrb hrp) (by rwa [hmgmt]) (by rwa [hunit]), hreplace,
      State.arbitrate_busy (by exact hbusy), hon.holds.2]
    exact congrArg _ (State.freePort_eq (s := s) (by exact hport))

/-! ### A window opening taken at the engine (R64, R65, R80) -/

/-- Settles O54: the active batch is the one that can be PAUSED, and the window says what it is granted. -/
theorem windowOpeningsContinueAPausedBatch : Obligations.WindowOpeningsContinueAPausedBatch := by
  unfold Obligations.WindowOpeningsContinueAPausedBatch
  intro s hok
  refine ⟨fun h0 => by simp only [exec, execContinuationGrant, h0], fun n hn => ?_⟩
  intro t
  have ht : t.TableOk := hok.table.congr rfl rfl
  have hl : t.LogOk := hok.log.congr rfl rfl fun _ hw => hw
  have htaken : State.awaitAttempt { s with waiting := { s.waiting with openings := n } } = t := rfl
  refine ⟨fun hno => ?_, fun b r hb hr hf => ?_⟩
  · simp only [exec, execContinuationGrant, hn, htaken]
    split
    · rename_i b hb
      have hrest : ¬ (b.state = .paused ∧ t.unit.frozen = false) := by
        rintro ⟨hp, hf⟩
        rcases hno with hno | hno
        · exact hno b (ht.activeBatch?_eq_some.1 hb).1 hp
        · exact absurd (hno.symm.trans hf) nofun
      rw [if_neg hrest]
    · rfl
  · intro unapplied continued
    have hactive : t.activeBatch? = some b :=
      ht.activeBatch?_eq_some.2 ⟨hb.1, by rw [hb.2]; exact ⟨nofun, nofun⟩⟩
    have hgrant : ∀ w g, State.giveGrant { t with unit := { t.unit with window := w } } b.id g = continued w g :=
      fun w g => State.giveGrant_eq (s := { t with unit := { t.unit with window := w } }) ht.idsDistinct hb.1
        (State.Next.nextRecord? (s := t) hl hr) g
    have hfree : b.state = .paused ∧ t.unit.frozen = false := ⟨hb.2, hf⟩
    simp only [exec, execContinuationGrant, hn, htaken, hactive, if_pos hfree, State.charge_eq, hgrant]
    cases s.unit.window with
    | closed => simp only [CommitWindow.continuation]
    | permanent => simp only [CommitWindow.continuation, unapplied]
    | opened budget remaining untouched =>
      by_cases hfit : min unapplied budget ≤ remaining
      · simp only [CommitWindow.continuation, unapplied, if_pos hfit]
      · simp only [CommitWindow.continuation, unapplied, if_neg hfit]

end Sys2Proof.Machine
end

section
/-! PROOFS. The arbiter's table, and requests that arrive together (R99 to R102, R187). -/

namespace Sys2Proof.Machine

open Sys2Proof

variable {s : State}

/-! ### Grants (R100, R101, R187) -/

/-- The port granted to the waiting host access `a` (R101, R187). -/
def State.hostGranted (s : State) (a : HostAccess) : State :=
  { s with
    host := { s.host with state := .memory { a with inFlight := true } }
    port :=
      s.port.granted .host a.addr (decide (a.kind = .passWrite)) a.lanes a.data 0 s.mgmt.settings.memTimeout.toNat }

/-- The port granted to the engine's waiting request `q`, with this count of consecutive grants (R101, R187). -/
def State.engineGranted (s : State) (q : EngineRequest) (count : Nat) : State :=
  { s with
    engine := { s.engine with access := .inFlight q }
    port :=
      s.port.granted .engine q.addr (decide (q.kind = .recordWrite)) q.lanes q.data count
        s.mgmt.settings.memTimeout.toNat }

theorem State.grantHost_eq {a : HostAccess} (hs : s.host.state = .memory a) : s.grantHost = s.hostGranted a := by
  rw [State.grantHost, hs]
  rfl

theorem State.grantEngine_eq {q : EngineRequest} (hq : s.engine.access = .waiting q) :
    s.grantEngine = s.engineGranted q (if s.hostWaits then s.port.count + 1 else 0) := by
  rw [State.grantEngine, hq]
  rfl

theorem State.hostWaits_of_memory {a : HostAccess} (hs : s.host.state = .memory a) (hf : a.inFlight = false) :
    s.hostWaits = true := by
  simp [State.hostWaits, hs, hf]

/-- A host request alone at a free port is granted (R100). -/
theorem State.arbitrate_host_alone {a : HostAccess} (hb : s.port.busy = none)
    (hq : ∀ q, s.engine.access ≠ .waiting q) (hs : s.host.state = .memory a) (hf : a.inFlight = false) :
    s.arbitrate = s.hostGranted a := by
  have hw := State.hostWaits_of_memory hs hf
  rw [← State.grantHost_eq hs]
  cases hacc : s.engine.access with
  | waiting q => exact absurd hacc (hq q)
  | _ => simp only [State.arbitrate, hb, hacc, hw, if_true]

/-- The engine's request alone at a free port is granted (R100, R101). -/
theorem State.arbitrate_engine_alone {q : EngineRequest} (hb : s.port.busy = none)
    (hq : s.engine.access = .waiting q) (hw : s.hostWaits = false) : s.arbitrate = s.engineGranted q 0 := by
  simp only [State.arbitrate, hb, hq, hw, Bool.false_and, Bool.false_eq_true, if_false, State.grantEngine_eq hq]

/-- With both requests waiting at a free port, the consecutive-grant count against the host share decides (R100,
R101). -/
theorem State.arbitrate_both {q : EngineRequest} {a : HostAccess} (hb : s.port.busy = none)
    (hq : s.engine.access = .waiting q) (hs : s.host.state = .memory a) (hf : a.inFlight = false) :
    s.arbitrate =
      if s.port.count < s.mgmt.settings.hostShare.toNat then s.engineGranted q (s.port.count + 1)
      else s.hostGranted a := by
  have hw := State.hostWaits_of_memory hs hf
  simp only [State.arbitrate, hb, hq, hw, Bool.true_and, decide_eq_true_eq, State.grantEngine_eq hq,
    State.grantHost_eq hs, if_true]
  rw [← ite_not]
  simp only [Nat.not_le]

/-! ### Requests that arrive together (R100) -/

/-- A read outside STAGE enters MEMORY, and its request reaches the arbiter (R127). -/
theorem State.takeHostRequest_read (hw : s.host.hwe = false) (hp : s.policyOf s.host.ha ≠ .stage) :
    s.takeHostRequest =
      State.startHostAccess { s with host := { s.host with herr := false, answer := none } } .passRead s.host.ha 0xF#4
        0#32 ((s.deciding s.host.ha).map Prod.fst) := by
  simp only [State.takeHostRequest, hw]
  split
  · contradiction
  · split
    · rename_i h
      exact absurd h hp
    · rfl

/-- The port free again, with the engine's request `q` waiting: the decision with both waiting is made here (R100). -/
def State.ungranted (s : State) (q : EngineRequest) : State :=
  { s with engine := { s.engine with access := .waiting q }, port := { s.port with busy := none } }

theorem State.GrantedNow.decideTogether_eq {q : EngineRequest} (h : s.GrantedNow q) (hw : s.hostWaits = true) :
    s.decideTogether = (s.ungranted q).arbitrate := by
  rw [State.decideTogether, State.grantedNow?_eq_some.2 h]
  exact if_pos hw

/-- A grant of the host sets every line of the port, so a grant of the engine taken back leaves no trace in it. -/
theorem State.ungranted_hostGranted {q : EngineRequest} (hq : s.engine.access = .waiting q) (a : HostAccess) (n : Nat) :
    ((s.engineGranted q n).ungranted q).hostGranted a = s.hostGranted a := by
  have hkept : { s.engine with access := .waiting q } = s.engine := by rw [← hq]
  simp only [State.ungranted, State.engineGranted, State.hostGranted, hkept]
  rfl

/-- A host request that arrives together with the engine's, just granted at the free port: the decision is the one with
both waiting, whatever the grant drove onto the array bus (R100). -/
theorem State.decideTogether_engineGranted {q : EngineRequest} {a : HostAccess} (hb : s.port.busy = none)
    (hq : s.engine.access = .waiting q) (hs : s.host.state = .memory a) (hf : a.inFlight = false)
    (hc : s.port.count = 0) : (s.engineGranted q 0).decideTogether = s.arbitrate := by
  have hnow : (s.engineGranted q 0).GrantedNow q := ⟨rfl, rfl, rfl, rfl⟩
  have hboth := State.arbitrate_both (s := (s.engineGranted q 0).ungranted q) rfl rfl hs hf
  rw [hnow.decideTogether_eq (State.hostWaits_of_memory hs hf), hboth, State.arbitrate_both hb hq hs hf,
    State.ungranted_hostGranted hq, hc]
  rfl

/-- An assertion of HCE in IDLE is taken as a host request on the sampled pins, decided together with the engine's
request where it arrived so (R123, R126). -/
theorem State.exec_hostRequest_taken (hawake : s.Awake) (hidle : s.host.state = .idle) (hhce : s.host.hce = false)
    (a : Addr) (write : Bool) (lanes : Lanes) (data : Word) (oe together : Bool) :
    exec (.hostRequest a write lanes data ⟨oe, together⟩) s =
      .next
        (if together then (s.sampled a write lanes data oe).takeHostRequest.decideTogether
        else (s.sampled a write lanes data oe).takeHostRequest) := by
  have htaken : (s.clocked && !s.host.hce && decide (s.host.state = .idle)) = true := by
    simp [hawake.clocked, hidle, hhce]
  exact congrArg Host.Outcome.next (if_pos htaken)

/-- Settles O46, by the rows of the table; the read that arrives together finds the engine's grant of this moment. -/
theorem arbiterGrantsByTheTable : Obligations.ArbiterGrantsByTheTable := by
  unfold Obligations.ArbiterGrantsByTheTable
  intro s K timeout host engine
  refine ⟨State.arbitrate_busy, fun hb => ⟨State.arbitrate_none, fun a => State.arbitrate_host_alone hb,
    fun q => State.arbitrate_engine_alone hb, fun q a => State.arbitrate_both hb,
    fun q a lanes data oe hawake hq hidle hhce hcount hpol => ?_⟩,
    fun hout hb => ?_, fun hb => ?_⟩
  · intro t both
    have hw : s.hostWaits = false := by simp [State.hostWaits, hidle]
    have hgrant : s.arbitrate = s.engineGranted q 0 := State.arbitrate_engine_alone hb hq hw
    have hread : ((s.engineGranted q 0).sampled a false lanes data oe).takeHostRequest = both.engineGranted q 0 := by
      rw [State.takeHostRequest_read rfl (by exact hpol)]
      exact State.arbitrate_busy nofun
    rw [hgrant, State.exec_hostRequest_taken (s := s.engineGranted q 0) hawake hidle hhce, if_pos rfl, hread,
      State.decideTogether_engineGranted (s := both) hb hq rfl rfl hcount]
  · simp only [exec, execMceAssert, hout.running, Option.isSome_iff_ne_none.2 hb, Bool.and_self, if_true]
  · simp only [exec, execMceAssert, hb, Option.isSome_none, Bool.and_false, Bool.false_eq_true, if_false]

end Sys2Proof.Machine
end

section
/-! PROOFS. The end of the engine's access, and RESUME: the next record after a success, the completion after the last
one, verify reads, faults, and the end of an abort (R82 to R96, R99). -/

namespace Sys2Proof.Machine

open Sys2Proof

variable {s t : State}

/-! ### What does not read the memory port or the management port -/

/-- A notice does not read the memory port. -/
theorem State.removalNotice_withPort (s : State) (p : MemPort) :
    State.removalNotice { s with port := p } = { s.removalNotice with port := p } := by
  rw [State.removalNotice_congr (s := s) (u := { s with port := p }) rfl rfl rfl rfl]
  have hself := State.removalNotice_congr (s := s) (u := s) rfl rfl rfl rfl
  have hwaiting := congrArg State.waiting hself
  dsimp only at hwaiting ⊢
  rw [← hwaiting]
  simp

/-- The end of an abort does not read the memory port (R96). -/
theorem State.abortEnded_withPort (s : State) (p : MemPort) (b : Batch) (cause : SealCause) :
    State.abortEnded { s with port := p } b cause = { s.abortEnded b cause with port := p } := by
  simp only [State.abortEnded]
  split <;> rfl

/-- Counting a record as applied does not read the memory port (R85). -/
theorem State.withApplied_withPort (s : State) (p : MemPort) (b : Batch) (r : Record) :
    State.withApplied { s with port := p } b r = { s.withApplied b r with port := p } := by
  simp only [State.withApplied, State.watchCheck_eq]

/-- A decision reads the settings of the management port alone. -/
theorem State.arbitrate_withMgmt {m : MgmtPort} (hm : m.settings = s.mgmt.settings) :
    State.arbitrate { s with mgmt := m } = { s.arbitrate with mgmt := m } := by
  have hhost : State.grantHost { s with mgmt := m } = { s.grantHost with mgmt := m } := by
    simp only [State.grantHost, State.drive, hm]
    split <;> rfl
  have hengine : State.grantEngine { s with mgmt := m } = { s.grantEngine with mgmt := m } := by
    simp only [State.grantEngine, State.drive, hm]
    split <;> rfl
  have hwaits : State.hostWaits { s with mgmt := m } = s.hostWaits := rfl
  simp only [State.arbitrate, hhost, hengine, hwaits, hm]
  split
  · rfl
  · split <;> split <;> rfl

/-- A request is placed and decided alike before and after a transaction ends. -/
theorem State.placeRequest_withMgmt {m : MgmtPort} (hm : m.settings = s.mgmt.settings) {r : Record}
    (hr : s.nextRecord? = some r) (k : AccessKind) :
    State.placeRequest { s with mgmt := m } k = { (s.requests k r).arbitrate with mgmt := m } := by
  rw [State.placeRequest_eq (s := { s with mgmt := m }) hr]
  exact State.arbitrate_withMgmt (s := s.requests k r) hm

/-! ### The outcome of an access, and the port free (R99) -/

/-- A batch that leaves, with the notice, before its access has freed the port, leaves as if the port were free
already (R99). -/
theorem State.freePort_removalNotice (ht : t.port = s.endBus.port) :
    t.removalNotice.freePort = (State.removalNotice { t with port := s.port.freed }).arbitrate := by
  have hport : t.removalNotice.port = s.endBus.port := by rw [State.removalNotice_port, ht]
  rw [State.freePort_eq hport]
  exact congrArg State.arbitrate (t.removalNotice_withPort _).symm

section
variable {b : Batch} {r : Record}

/-- A request placed while the port still carries the access that ended waits for its release (R82, R99). -/
theorem State.placeRequest_freePort (hp : t.port = s.endBus.port) (hbusy : s.port.busy ≠ none)
    (hr : t.nextRecord? = some r) (k : AccessKind) :
    (t.placeRequest k).freePort = (State.requests { t with port := s.port.freed } k r).arbitrate := by
  rw [State.placeRequest_eq hr, State.arbitrate_busy (by rw [State.requests, hp]; exact hbusy)]
  exact State.freePort_eq (s := s) hp

/-- A fault taken while the port still carries the access that ended (R90, R99). -/
theorem State.takeFault_freePort (hd : s.table.Distinct) (hb : b ∈ s.table.batches) (cause : ErrorCause) :
    (s.released.takeFault b.id r cause).freePort =
      State.arbitrate
        (State.offer
          (State.report
            { s.accessEnded with
              table :=
                s.table.replace b
                  { b with state := .halted, faultPos := some s.engine.nextPos, halts := satInc b.halts } }
            .fault)
          cause r.addr r.lanes b.id) := by
  have hd' : s.released.table.Distinct := hd
  rw [State.takeFault, BatchTable.update_eq_replace hd' hb]
  exact State.freePort_eq (s := s) rfl

theorem State.TableOk.released (h : s.TableOk) : s.released.TableOk := h.congr rfl rfl

theorem State.LogOk.released (h : s.LogOk) : s.released.LogOk := h.congr rfl rfl fun _ hw => hw

/-- The end of an access leaves the record at the next record position (R73). -/
theorem State.Next.released_nextRecord? (hl : s.LogOk) (hn : s.Next b r) : s.released.nextRecord? = some r :=
  State.Next.nextRecord? (s := s.released) hl.released hn

/-- A batch held in an active state is the active one (R34, R73). -/
theorem State.TableOk.activeBatch?_of_holds (h : s.TableOk) {x : BatchState} (hb : s.Holds b x) (hx : x.IsActive) :
    s.activeBatch? = some b :=
  h.activeBatch?_eq_some.2 ⟨hb.1, hb.2.symm ▸ hx⟩

/-- What the engine holds for a batch in an active state (R73). -/
theorem State.CommitOk.activeOk (h : s.CommitOk) {x : BatchState} (hb : s.Holds b x) (hx : x.IsActive) :
    s.ActiveOk b :=
  h.engine.2 b (h.table.activeBatch?_of_holds hb hx)

/-- The end of an access of the ABORTING batch `b` for its record `r` (R95, R99). -/
theorem State.engineAccessEnd_aborting (ht : s.TableOk) (hl : s.LogOk) (hb : s.Holds b .aborting) (hn : s.Next b r)
    (e : AccessEnd) : s.engineAccessEnd e = (s.released.abortingEnd b.id r e).freePort := by
  have hactive : s.released.activeBatch? = some b := ht.released.activeBatch?_of_holds hb ⟨nofun, nofun⟩
  have hnext := hn.released_nextRecord? hl
  rw [State.engineAccessEnd]
  simp only [State.released] at hactive hnext
  simp only [hactive, hnext, hb.2]
  rfl

/-- An abort ended by MRDY counts the record (R95, R96). -/
theorem State.abortingEnd_applied (ht : s.TableOk) (hl : s.LogOk) (hb : b ∈ s.table.batches) (hn : s.Next b r)
    {cause : SealCause} (hc : b.cause = some cause) {e : AccessEnd} (he : e ≠ .timedOut) :
    s.abortingEnd b.id r e =
      ((s.withApplied b r).abortEnded { b with applied := b.applied + 1 } cause).removalNotice := by
  obtain ⟨hd, hm, hf⟩ := State.withApplied_mem ht hb r
  have hcount := State.countApplied_eq ht hl hb hn
  have hend := State.abortEnd_eq hd hm hc
  cases e with
  | timedOut => exact absurd rfl he
  | _ => simp only [State.abortingEnd, hcount, hf, hend]

/-- An abort ended by a timeout does not count the record (R95, R96). -/
theorem State.abortingEnd_timedOut (ht : s.TableOk) (hb : b ∈ s.table.batches) {cause : SealCause}
    (hc : b.cause = some cause) :
    s.abortingEnd b.id r .timedOut = (s.abortEnded b cause).removalNotice := by
  have hf : s.table.find? b.id = some b := (BatchTable.find?_eq_some ht.idsDistinct).2 ⟨hb, rfl⟩
  simp only [State.abortingEnd, hf, State.abortEnd_eq ht.idsDistinct hb hc]

end

/-! ### The next record, and the last one (R85, R88) -/

/-- Settles O48: the success counted, the request for the record after it, and then the port becomes free. -/
theorem recordSuccessRequestsTheNextRecord : Obligations.RecordSuccessRequestsTheNextRecord := by
  unfold Obligations.RecordSuccessRequestsTheNextRecord
  intro s c b r r' h hmore hg hr' hrb hrp
  obtain ⟨hport, -⟩ := s.counted_frame b r
  obtain ⟨kind, hon⟩ := h.onBus
  have hbusy : s.port.busy ≠ none := by simp [hon.busy_eq]
  rw [h.exec_eq, h.recordSuccess_eq, if_neg (Nat.not_le.2 hmore), if_neg (by omega),
    State.placeRequest_freePort hport hbusy (h.counted_nextRecord? hr' hrb hrp), s.succeeded_eq]

/-- Settles O49: the completion of the counted batch, and then the port becomes free. -/
theorem lastRecordCompletesTheBatch : Obligations.LastRecordCompletesTheBatch := by
  unfold Obligations.LastRecordCompletesTheBatch
  intro s c b r cause h hlast hc
  obtain ⟨hd, hm, -⟩ := h.counted_ok
  obtain ⟨hport, -⟩ := s.counted_frame b r
  have hfree := fun outcome => State.freePort_removalNotice (s := s)
    (t := (s.counted b r).departed { b with applied := b.applied + 1 } outcome cause) hport
  rw [h.exec_eq, h.recordSuccess_eq, if_pos (Nat.le_of_eq hlast.symm), State.complete_eq hd hm hc, hfree,
    s.succeeded_eq]
  rfl

/-! ### Verify reads and faults (R83, R84, R90) -/

/-- The engine's memory timeout, due while the port carries its access (R52, R90, R95). -/
theorem State.exec_engineMemTimeout (hawake : s.Awake) (hb : s.port.busy = some .engine) {k : Nat}
    (ht : s.port.timer = some ⟨0, k⟩) : exec .engineMemTimeout s = .next (s.engineAccessEnd .timedOut) := by
  simp only [exec, execEngineMemTimeout, hawake.clocked, hb, expiryDue_iff.2 ⟨k, ht⟩, decide_true, Bool.and_self,
    if_true]

/-- MRDY for a record write on the array bus (R83, R95). -/
theorem State.OnBus.exec_recordWriteComplete {x : BatchState} {b : Batch} {r : Record}
    (h : s.OnBus x .recordWrite b r) : exec .recordWriteComplete s = .next (s.engineAccessEnd .writeDone) := by
  simp only [exec, execRecordWriteComplete, h.engineOnBus, if_true]

/-- MRDY for a verify read on the array bus (R84, R95). -/
theorem State.OnBus.exec_verifyReadComplete {x : BatchState} {b : Batch} {r : Record} (h : s.OnBus x .verifyRead b r)
    (md : Word) : exec (.verifyReadComplete md) s = .next (s.engineAccessEnd (.verifyDone md)) := by
  simp only [exec, execVerifyReadComplete, h.engineOnBus, if_true]

/-- Settles O51: each end of the APPLYING batch's access is a verify read or a fault, and then the port becomes free. -/
theorem verifyAndFaultsEndTheAccess : Obligations.VerifyAndFaultsEndTheAccess := by
  unfold Obligations.VerifyAndFaultsEndTheAccess
  intro s b r md faulted
  have hfault : ∀ cause, s.CommitOk → s.Holds b .applying →
      (s.released.takeFault b.id r cause).freePort = faulted cause := fun cause hok hb =>
    State.takeFault_freePort hok.table.idsDistinct hb.1 cause
  refine ⟨fun h hv => ?_, fun h hdiff => ?_, fun k hawake hok hb hn hgranted ht => ?_⟩
  · have hv' : s.released.verifyAsked r.addr = true := hv
    rw [h.exec_recordWriteComplete, State.engineAccessEnd_applying h.ok.table h.ok.log h.holds h.next,
      State.applyingEnd, if_pos hv',
      State.placeRequest_freePort (s := s) (t := s.released) rfl (by simp [h.busy_eq])
        (h.next.released_nextRecord? h.ok.log)]
    rfl
  · have hne : ¬ equalOn r.lanes md r.data = true := fun heq => by
      obtain ⟨n, hn, hlane, hbyte⟩ := hdiff
      exact hbyte (equalOn_eq_true.1 heq n hn hlane)
    rw [h.exec_verifyReadComplete, State.engineAccessEnd_applying h.ok.table h.ok.log h.holds h.next,
      State.applyingEnd, if_neg hne, hfault _ h.ok h.holds]
  · rw [State.exec_engineMemTimeout hawake (hok.port.engineCarried.2 hgranted) ht,
      State.engineAccessEnd_applying hok.table hok.log hb hn, State.applyingEnd, hfault _ hok hb]

/-! ### The end of an abort (R95, R96) -/

/-- Settles O52: the end of the ABORTING batch's access ends its abort, and then the port becomes free. -/
theorem endOfTheAccessEndsTheAbort : Obligations.EndOfTheAccessEndsTheAbort := by
  unfold Obligations.EndOfTheAccessEndsTheAbort
  intro s b r md cause hc applied
  have hended : ∀ e, e ≠ .timedOut → s.CommitOk → s.Holds b .aborting → s.Next b r →
      s.engineAccessEnd e = applied := fun e he hok hb hn => by
    obtain ⟨-, happlied, -⟩ := s.released.withApplied_frame b r
    obtain ⟨-, hport, -⟩ := (s.released.withApplied b r).abortEnded_frame { b with applied := b.applied + 1 } cause
    rw [State.engineAccessEnd_aborting hok.table hok.log hb hn,
      State.abortingEnd_applied hok.table.released hok.log.released hb.1 hn hc he,
      State.freePort_removalNotice (hport.trans happlied), ← State.abortEnded_withPort, ← State.withApplied_withPort]
    rfl
  refine ⟨fun h => ?_, fun h => ?_, fun k hawake hok hb hn ht => ?_⟩
  · rw [h.exec_recordWriteComplete, hended .writeDone nofun h.ok h.holds h.next]
  · rw [h.exec_verifyReadComplete, hended (.verifyDone md) nofun h.ok h.holds h.next]
  · have hbusy := hok.port.engineCarried.2 ((hok.activeOk hb ⟨nofun, nofun⟩).aborting hb.2)
    obtain ⟨-, hport, -⟩ := s.released.abortEnded_frame b cause
    rw [State.exec_engineMemTimeout hawake hbusy ht, State.engineAccessEnd_aborting hok.table hok.log hb hn,
      State.abortingEnd_timedOut hok.table.released hb.1 hc, State.freePort_removalNotice hport,
      ← State.abortEnded_withPort]
    rfl

/-! ### RESUME (R92) -/

/-- The HALTED batch `b` APPLYING again, its fault record position cleared (R92). -/
def State.resumed (s : State) (b : Batch) : State :=
  { s with table := s.table.replace b { b with state := .applying, faultPos := none } }

/-- Settles O28: the HALTED batch is the active one, its fault record position the next one. -/
theorem resumeRewritesTheFailingRecord : Obligations.ResumeRewritesTheFailingRecord := by
  unfold Obligations.ResumeRewritesTheFailingRecord
  intro s tag hp hok
  have ht : s.endTransaction.TableOk := hok.table.congr rfl rfl
  have hl : s.endTransaction.LogOk := hok.log.congr rfl rfl fun _ hw => hw
  have hresume : exec (.resume tag) s = .next (s.handRequest tag true _) := rfl
  rw [hresume, hp.handRequest_in]
  refine ⟨fun b r hb hn => ?_, fun hno => ?_⟩
  · have hactive : s.endTransaction.activeBatch? = some b := ht.activeBatch?_of_holds hb ⟨nofun, nofun⟩
    have hactiveOk : s.ActiveOk b := hok.activeOk hb ⟨nofun, nofun⟩
    have hfault : b.faultPos = some r.pos := by
      obtain ⟨-, -, -, hpos⟩ := hn
      rw [hactiveOk.fault, if_pos hb.2, hpos, hactiveOk.nextPos]
    have hnext : s.endTransaction.nextRecord? = some r := State.Next.nextRecord? (s := s.endTransaction) hl hn
    have hrequest : (s.endTransaction.resumed b).placeRequest .recordWrite =
        { ((s.resumed b).requests .recordWrite r).arbitrate with mgmt := s.endTransaction.mgmt } :=
      State.placeRequest_withMgmt (s := s.resumed b) (m := s.endTransaction.mgmt) rfl hnext .recordWrite
    have hkept : ((s.resumed b).requests .recordWrite r).arbitrate.mgmt = s.mgmt := by
      rw [State.arbitrate_mgmt]
      rfl
    have hanswer := State.retain_withMgmt hkept .ok tag (b.id :: countBytes r.pos)
    rw [← hrequest] at hanswer
    simp only [hactive, hb.2, if_true, BatchTable.update_eq_replace ht.idsDistinct hb.1, hfault, Option.getD_some]
    exact congrArg Host.Outcome.next hanswer
  · cases hactive : s.endTransaction.activeBatch? with
    | none => rfl
    | some b =>
      obtain ⟨hb, -⟩ := ht.activeBatch?_eq_some.1 hactive
      simp only [if_neg (hno b hb)]
      rfl

end Sys2Proof.Machine
end

section
/-! PROOFS. PEEK_COMPLETION and RETIRE: the head of the completion queue's list is its oldest entry (R106, R112,
R113). -/

namespace Sys2Proof.Machine

open Sys2Proof

variable {s : State} {e : CompletionEntry} {rest : List CompletionEntry}

/-! ### The answer of a block (R172) -/

/-- A block that leaves the management port to the request has its reply retained as the answer of the port. -/
theorem State.PortOpen.handRequest_eq_answered (h : s.PortOpen) {owner : State → Taken} {x : Status} {p : List Byte}
    {t : State} (ho : owner s.endTransaction = ⟨x, p, t⟩) (hm : t.mgmt = s.endTransaction.mgmt) (tag : Byte) :
    s.handRequest tag true owner = t.answered x tag p := by
  rw [h.handRequest_in, ho]
  exact State.retain_eq_answered hm x tag p

/-! ### PEEK_COMPLETION (R112) -/

theorem State.PortOpen.exec_peekCompletion_empty (h : s.PortOpen) (hp : s.queue.posted = []) (tag : Byte) :
    exec (.peekCompletion tag) s = .next (s.answered .nothing tag []) :=
  congrArg Host.Outcome.next (h.handRequest_eq_answered (by simp only [State.endTransaction_queue, hp]) rfl tag)

theorem State.PortOpen.exec_peekCompletion_oldest (h : s.PortOpen) (hp : s.queue.posted = e :: rest) (tag : Byte) :
    exec (.peekCompletion tag) s = .next (s.answered .ok tag e.bytes) :=
  congrArg Host.Outcome.next (h.handRequest_eq_answered (by simp only [State.endTransaction_queue, hp]) rfl tag)

/-! ### RETIRE (R113) -/

theorem State.PortOpen.exec_retire_empty (h : s.PortOpen) (hp : s.queue.posted = []) (tag : Byte) :
    exec (.retire tag) s = .next (s.answered .nothing tag []) :=
  congrArg Host.Outcome.next (h.handRequest_eq_answered (by simp only [State.endTransaction_queue, hp]) rfl tag)

/-- The oldest entry goes, and an admission attempt follows (R74, R113). -/
theorem State.PortOpen.exec_retire_oldest (h : s.PortOpen) (hp : s.queue.posted = e :: rest) (tag : Byte) :
    exec (.retire tag) s =
      .next
        { s.answered .ok tag e.bytes with
          queue := { s.queue with posted := rest }
          waiting := { s.waiting with attempts := s.waiting.attempts + 1 } } :=
  congrArg Host.Outcome.next
    (h.handRequest_eq_answered
      (t := State.awaitAttempt { s.endTransaction with queue := { s.queue with posted := rest } })
      (by simp only [State.endTransaction_queue, hp]) rfl tag)

/-! ### The statement -/

/-- Settles O34: an empty list has no oldest entry; of any other the head is shown, and RETIRE leaves the rest. -/
theorem oldestEntryIsPeekedAndRetired : Obligations.OldestEntryIsPeekedAndRetired := by
  unfold Obligations.OldestEntryIsPeekedAndRetired
  intro s tag hport
  refine ⟨fun hp => ⟨hport.exec_peekCompletion_empty hp tag, hport.exec_retire_empty hp tag⟩, fun e rest hp => ?_⟩
  intro payload
  have hbytes : e.bytes = payload := by
    obtain ⟨_, outcome, _, _, _, _, cause, _, _⟩ := e
    cases outcome <;> cases cause <;> rfl
  rw [← hbytes]
  exact ⟨hport.exec_peekCompletion_oldest hp tag, hport.exec_retire_oldest hp tag⟩

end Sys2Proof.Machine
end

section
/-! PROOFS. The tables' GET and SET requests: an entry as it stands, and one entry replaced (R120, R121, R148, R149). -/

namespace Sys2Proof.Machine

open Sys2Proof

variable {s : State} {tag n : Byte}

/-! ### Layouts of 11.3.3 -/

/-- The parts of a mode byte lie in bits of their own, so they add as they join. -/
theorem WindowEntry.mode_eq (e : WindowEntry) :
    e.mode = e.policy.code + 4#8 * yesNo e.verify + 8#8 * yesNo e.sealOnLast + 128#8 * yesNo e.enabled := by
  have parts : ∀ (p : Policy) (v l x : Bool), p.code ||| bitAt v 2 ||| bitAt l 3 ||| bitAt x 7 =
      p.code + 4#8 * yesNo v + 8#8 * yesNo l + 128#8 * yesNo x := fun p => by cases p <;> decide
  exact parts e.policy e.verify e.sealOnLast e.enabled

/-- The code of a watch entry's sense, in bit 0 of its flags byte (11.3.3). -/
def Sense.code : Sense → Byte
  | .change => 0#8
  | .equal => 1#8

/-- The parts of a flags byte lie in bits of their own, so they add as they join. -/
theorem WatchEntry.flags_eq (e : WatchEntry) :
    e.flags = e.sense.code + 2#8 * yesNo e.rearm + 64#8 * yesNo e.hit + 128#8 * yesNo e.enabled := by
  have parts : ∀ (x : Sense) (r h e : Bool), bitAt (decide (x = .equal)) 0 ||| bitAt r 1 ||| bitAt h 6 ||| bitAt e 7 =
      x.code + 2#8 * yesNo r + 64#8 * yesNo h + 128#8 * yesNo e := fun x => by cases x <;> decide
  exact parts e.sense e.rearm e.hit e.enabled

/-! ### GET_WINDOW and GET_WATCH (R120, R149) -/

theorem State.PortOpen.exec_getWindow_out (h : s.PortOpen) (hn : 7 < n.toNat) :
    exec (.getWindow tag n) s = .next (s.answered .badArg tag []) := by
  have hget : exec (.getWindow tag n) s = .next (s.handRequest tag (decide (n.toNat ≤ 7)) _) := rfl
  rw [hget, decide_eq_false (Nat.not_le.2 hn), h.handRequest_out]

theorem State.PortOpen.exec_getWindow (h : s.PortOpen) {e : WindowEntry} (hn : n.toNat ≤ 7)
    (he : s.windows[n.toNat]? = some e) :
    exec (.getWindow tag n) s =
      .next (s.answered .ok tag ([n, e.mode] ++ addrBytes e.base ++ addrBytes e.limit)) := by
  have hget : exec (.getWindow tag n) s = .next (s.handRequest tag (decide (n.toNat ≤ 7)) _) := rfl
  have hentry : s.endTransaction.windows.getD n.toNat WindowEntry.reset = e := by
    rw [State.endTransaction_windows, List.getD_eq_getElem?_getD, he, Option.getD_some]
  rw [hget, decide_eq_true hn]
  exact congrArg Host.Outcome.next (h.handRequest_eq_answered (by rw [hentry]) rfl tag)

theorem State.PortOpen.exec_getWatch_out (h : s.PortOpen) (hn : 15 < n.toNat) :
    exec (.getWatch tag n) s = .next (s.answered .badArg tag []) := by
  have hget : exec (.getWatch tag n) s = .next (s.handRequest tag (decide (n.toNat ≤ 15)) _) := rfl
  rw [hget, decide_eq_false (Nat.not_le.2 hn), h.handRequest_out]

theorem State.PortOpen.exec_getWatch (h : s.PortOpen) {e : WatchEntry} (hn : n.toNat ≤ 15)
    (he : s.watch[n.toNat]? = some e) :
    exec (.getWatch tag n) s =
      .next
        (s.answered .ok tag
          ([n, e.flags] ++ addrBytes e.addr ++ bytes4 e.mask ++ bytes4 e.reference ++ bytes4 e.lastObserved ++
            [e.hitCount])) := by
  have hget : exec (.getWatch tag n) s = .next (s.handRequest tag (decide (n.toNat ≤ 15)) _) := rfl
  have hentry : s.endTransaction.watch.getD n.toNat WatchEntry.reset = e := by
    rw [State.endTransaction_watch, List.getD_eq_getElem?_getD, he, Option.getD_some]
  rw [hget, decide_eq_true hn]
  exact congrArg Host.Outcome.next (h.handRequest_eq_answered (by rw [hentry]) rfl tag)

/-- Settles O19: the entry is read from the state whose transaction has ended, which differs in the port alone, and its
byte of parts is their sum. -/
theorem entriesAreReadAsTheyStand : Obligations.EntriesAreReadAsTheyStand := by
  unfold Obligations.EntriesAreReadAsTheyStand
  intro s tag n hport
  refine ⟨hport.exec_getWindow_out, fun e hn he => ?_, hport.exec_getWatch_out, fun e hn he => ?_⟩
  · rw [hport.exec_getWindow hn he, e.mode_eq]
    rfl
  · rw [hport.exec_getWatch hn he, e.flags_eq]
    rfl

/-! ### SET_WINDOW (R121) -/

theorem addressInRange_iff {a : BitVec 24} : addressInRange a = true ↔ a.toNat ≤ 4194303 := by
  rw [addressInRange, decide_eq_true_eq]

theorem toAddr_eq (a : BitVec 24) : toAddr a = BitVec.ofNat 22 a.toNat := (BitVec.ofNat_toNat 22 a).symm

/-- The code 3 names no policy; the argument check refuses it (R121). -/
theorem Policy.ofCode_eq {c : Nat} (hc : c ≠ 3) (hlt : c < 4) :
    Policy.ofCode c = if c = 0 then .pass else if c = 1 then .stage else .block := by
  obtain rfl | rfl | rfl : c = 0 ∨ c = 1 ∨ c = 2 := by omega
  all_goals rfl

theorem windowArgsInRange_iff {mode : Byte} {base limit : BitVec 24} :
    windowArgsInRange n mode base limit = true ↔
      n.toNat ≤ 7 ∧ mode.toNat % 4 ≠ 3 ∧ base.toNat ≤ 4194303 ∧ limit.toNat ≤ 4194303 ∧ base.toNat ≤ limit.toNat ∧
        (mode.toNat % 4 = 1 ∨ (mode.getLsbD 2 = false ∧ mode.getLsbD 3 = false)) := by
  simp only [windowArgsInRange, Bool.and_eq_true, Bool.or_eq_true, Bool.not_eq_true', Bool.or_eq_false_iff,
    decide_eq_true_eq, addressInRange_iff, and_assoc]
  rfl

theorem State.PortOpen.exec_setWindow_empty (h : s.PortOpen) {mode : Byte} {base limit : BitVec 24}
    (hin : windowArgsInRange n mode base limit = true) (hlog : s.log = []) :
    exec (.setWindow tag n mode base limit) s =
      .next
        { s.answered .ok tag [] with
          windows := s.windows.set n.toNat (WindowEntry.ofRequest mode base limit) } := by
  have hset : exec (.setWindow tag n mode base limit) s =
      .next (s.handRequest tag (windowArgsInRange n mode base limit) _) := rfl
  rw [hset, hin]
  exact congrArg Host.Outcome.next
    (h.handRequest_eq_answered
      (t := { s.endTransaction with windows := s.windows.set n.toNat (WindowEntry.ofRequest mode base limit) })
      (if_pos (List.isEmpty_iff.2 hlog)) rfl tag)

theorem State.PortOpen.exec_setWindow_busy (h : s.PortOpen) {mode : Byte} {base limit : BitVec 24}
    (hin : windowArgsInRange n mode base limit = true) (hlog : s.log ≠ []) :
    exec (.setWindow tag n mode base limit) s = .next (s.answered .logBusy tag []) := by
  have hset : exec (.setWindow tag n mode base limit) s =
      .next (s.handRequest tag (windowArgsInRange n mode base limit) _) := rfl
  rw [hset, hin]
  exact congrArg Host.Outcome.next
    (h.handRequest_eq_answered (t := s.endTransaction) (if_neg (mt List.isEmpty_iff.1 hlog)) rfl tag)

/-! ### SET_WATCH (R148) -/

theorem watchArgsInRange_iff {addr : BitVec 24} :
    watchArgsInRange n addr = true ↔ n.toNat ≤ 15 ∧ addr.toNat ≤ 4194303 := by
  rw [watchArgsInRange, Bool.and_eq_true, decide_eq_true_eq, addressInRange_iff]

theorem State.PortOpen.exec_setWatch (h : s.PortOpen) {addr : BitVec 24} (hin : watchArgsInRange n addr = true)
    (flags : Byte) (mask reference : Word) :
    exec (.setWatch tag n flags addr mask reference) s =
      .next
        { s.answered .ok tag [] with
          watch := s.watch.set n.toNat (WatchEntry.ofRequest flags addr mask reference) } := by
  have hset : exec (.setWatch tag n flags addr mask reference) s =
      .next (s.handRequest tag (watchArgsInRange n addr) _) := rfl
  rw [hset, hin]
  exact congrArg Host.Outcome.next
    (h.handRequest_eq_answered
      (t := { s.endTransaction with watch := s.watch.set n.toNat (WatchEntry.ofRequest flags addr mask reference) })
      rfl rfl tag)

/-- Settles O20: in range a request reaches its table, and the entry it writes has no field of the old one. -/
theorem setRequestsReplaceOneEntry : Obligations.SetRequestsReplaceOneEntry := by
  unfold Obligations.SetRequestsReplaceOneEntry
  refine ⟨fun s tag n mode base limit hport hn hmode hbase hlimit hrange hattr => ?_,
    fun s tag n flags addr mask reference hport hn haddr => ?_⟩
  · have hin : windowArgsInRange n mode base limit = true :=
      windowArgsInRange_iff.2 ⟨hn, hmode, hbase, hlimit, hrange, hattr⟩
    refine ⟨fun hlog => ?_, hport.exec_setWindow_busy hin⟩
    rw [hport.exec_setWindow_empty hin hlog, WindowEntry.ofRequest, toAddr_eq, toAddr_eq, modePolicyCode,
      Policy.ofCode_eq hmode (Nat.mod_lt _ (by decide))]
  · rw [hport.exec_setWatch (watchArgsInRange_iff.2 ⟨hn, haddr⟩), WatchEntry.ofRequest, toAddr_eq]
    rfl

end Sys2Proof.Machine
end

section
/-! PROOFS. Host requests that leave the port IDLE, and the release of RST (R123, R124, R130, R139, R175, R189). -/

namespace Sys2Proof.Machine

open Sys2Proof

variable {s : State}

/-! ### Writes that are refused or accepted in their step (R124, R130) -/

theorem State.hostWaits_of_idle (h : s.host.state = .idle) : s.hostWaits = false := by
  simp [State.hostWaits, h]

/-- A host request that leaves the port IDLE waits at no arbiter, so it makes no difference whether it arrives together
with the engine's (R100). -/
theorem State.exec_hostRequest_idle (hawake : s.Awake) (hidle : s.host.state = .idle) (hhce : s.host.hce = false)
    {a : Addr} {write : Bool} {lanes : Lanes} {data : Word} {oe : Bool} {t : State}
    (ht : (s.sampled a write lanes data oe).takeHostRequest = t) (hstays : t.host.state = .idle) (together : Bool) :
    exec (.hostRequest a write lanes data ⟨oe, together⟩) s = .next t := by
  rw [State.exec_hostRequest_taken hawake hidle hhce, ht,
    State.decideTogether_of_not_waits (State.hostWaits_of_idle hstays), ite_self]

/-- A write with no lane selected ends where the request is taken, whatever its policy (R124). -/
theorem State.takeHostRequest_noLanes (hw : s.host.hwe = true) (hl : s.host.hbe = 0#4) :
    s.takeHostRequest = { s with host := { s.host with herr := false, answer := none } } := by
  simp only [State.takeHostRequest, hw, hl, if_true]

/-- A BLOCK write with a lane selected is refused (R130). -/
theorem State.takeHostRequest_block (hw : s.host.hwe = true) (hl : s.host.hbe ≠ 0#4)
    (hp : s.policyOf s.host.ha = .block) :
    s.takeHostRequest =
      State.refuseAccess { s with host := { s.host with herr := false, answer := none } } .blocked s.host.ha
        s.host.hbe := by
  have hpolicy : State.policyOf { s with host := { s.host with herr := false, answer := none } } s.host.ha = .block :=
    hp
  simp only [State.takeHostRequest]
  rw [if_pos hw, if_neg hl, hpolicy]

/-- Settles O39: neither write leaves IDLE, so the step that takes it is the whole of it. -/
theorem blockedWritesAreRefusedAndEmptyWritesAccepted :
    Obligations.BlockedWritesAreRefusedAndEmptyWritesAccepted := by
  unfold Obligations.BlockedWritesAreRefusedAndEmptyWritesAccepted
  intro s a lanes data oe together hawake hidle hhce t
  refine ⟨fun hpolicy hlanes => ?_, fun hlanes => ?_⟩
  · have hrefused : (s.sampled a true lanes data oe).takeHostRequest = t.refuseAccess .blocked a lanes :=
      State.takeHostRequest_block rfl hlanes hpolicy
    rw [State.exec_hostRequest_idle hawake hidle hhce hrefused rfl]
    have hstate : t.host.state = .idle := hidle
    simp only [State.refuseAccess, ← hstate]
    rfl
  · exact State.exec_hostRequest_idle hawake hidle hhce (State.takeHostRequest_noLanes rfl hlanes) hidle together

/-! ### RST_RELEASE (R139, R175, R189) -/

/-- The part out of pin reset, each port in the state it leaves reset in, and no host request taken yet (R139, R175). -/
def State.leftReset (s : State) : State :=
  { s with
    power := { s.power with rst := false, powerHold := false }
    host := { s.host with state := .idle, hwait := false }
    mgmt := { s.mgmt with state := if s.mgmt.scs then .skipping else .idle } }

theorem State.exec_rstRelease_out (h : s.OutOfReset) : exec .rstRelease s = .next s :=
  if_pos h.running

/-- A hold since a power-up lasts while REFCLK is stopped (R189). -/
theorem State.exec_rstRelease_held (hhold : s.power.powerHold = true) (hclk : s.power.refclk = false) :
    exec .rstRelease s = .next { s with power := { s.power with rst := false } } := by
  simp [exec, execRstRelease, State.running, hhold, hclk]

/-- The pins are taken as a host request where HCE is asserted and REFCLK runs (R139, R189). -/
theorem State.exec_rstRelease_leaves (h : ¬ s.OutOfReset) (hends : s.power.powerHold = false ∨ s.power.refclk = true) :
    exec .rstRelease s =
      .next (if s.host.hce && s.power.refclk then s.leftReset.takeHostRequest else s.leftReset) := by
  have hrunning : s.running = false := Bool.eq_false_iff.2 (mt State.running_eq_true.1 h)
  have hhold : (s.power.powerHold && !s.power.refclk) = false := by
    rcases hends with h | h <;> simp [h]
  simp only [exec, execRstRelease, hrunning, hhold]
  rfl

/-- An assertion of HCE at the levels that stand at the pins samples what stands there (R123). -/
theorem State.exec_hostRequest_standing (hawake : s.Awake) (hidle : s.host.state = .idle) (hhce : s.host.hce = true) :
    exec (.hostRequest s.host.ha s.host.hwe s.host.hbe s.host.hd ⟨s.host.hoe, false⟩)
        { s with host := { s.host with hce := false } } = .next s.takeHostRequest := by
  have hstands : State.sampled { s with host := { s.host with hce := false } } s.host.ha s.host.hwe s.host.hbe s.host.hd
      s.host.hoe = s := by
    simp only [State.sampled, ← hhce]
  rw [State.exec_hostRequest_taken (s := { s with host := { s.host with hce := false } }) hawake hidle rfl, hstands]
  rfl

/-- Settles O7: the release leaves the ports at rest, and a request standing at the pins is the one that an assertion of
HCE would sample there. -/
theorem rstReleaseLeavesPinReset : Obligations.RstReleaseLeavesPinReset := by
  unfold Obligations.RstReleaseLeavesPinReset
  intro s released
  refine ⟨State.exec_rstRelease_out, State.exec_rstRelease_held, fun hreset hends => ?_⟩
  rw [State.exec_rstRelease_leaves hreset hends]
  refine ⟨fun hquiet => ?_, fun hhce hclk => ?_⟩
  · have hnone : (s.host.hce && s.power.refclk) = false := Bool.and_eq_false_iff.2 hquiet
    simp only [hnone, Bool.false_eq_true, if_false]
    rfl
  · have hawake : s.leftReset.Awake := ⟨⟨rfl, rfl⟩, hclk⟩
    rw [hhce, hclk]
    exact (State.exec_hostRequest_standing hawake rfl hhce).symm

end Sys2Proof.Machine
end

section
/-! PROOFS. The watch list: WATCH_ACK, and what a check does to each entry and to the WATCH flag (R144 to R150). -/

namespace Sys2Proof.Machine

open Sys2Proof

variable {s : State} {e : WatchEntry} {a : Addr} {lanes : Lanes} {data : Word}

/-! ### WATCH_ACK (R150) -/

theorem State.PortOpen.exec_watchAck (h : s.PortOpen) (tag : Byte) (mask : BitVec 16) :
    exec (.watchAck tag mask) s =
      .next
        { s.answered .ok tag [] with
          watch := s.watch.mapIdx fun i e => if mask.getLsbD i then { e with hit := false } else e } :=
  congrArg Host.Outcome.next
    (h.handRequest_eq_answered
      (t :=
        { s.endTransaction with
          watch := s.watch.mapIdx fun i e => if mask.getLsbD i then { e with hit := false } else e })
      rfl rfl tag)

/-- Settles O21: the request reaches the list in every open state, and the list it leaves is the old one entry by
entry. -/
theorem watchAckClearsTheSelectedHits : Obligations.WatchAckClearsTheSelectedHits := by
  unfold Obligations.WatchAckClearsTheSelectedHits
  exact fun s tag mask hport => ⟨_, hport.exec_watchAck tag mask, fun _ => List.getElem?_mapIdx⟩

/-! ### Compared bits (R144, R145) -/

/-- Two words agree under a mask where they agree on each of its bits. -/
theorem and_mask_eq_iff {v w m : Word} :
    v &&& m = w &&& m ↔ ∀ i < 32, m.getLsbD i = true → v.getLsbD i = w.getLsbD i := by
  rw [word_eq_iff]
  refine forall₂_congr fun i _ => ?_
  rw [BitVec.getLsbD_and, BitVec.getLsbD_and]
  cases m.getLsbD i <;> simp

theorem WatchEntry.compared_ne_zero_iff :
    e.compared lanes ≠ 0#32 ↔ ∃ i < 32, (e.mask.getLsbD i && lanes.getLsbD (i / 8)) = true := by
  rw [Ne, word_eq_iff]
  push Not
  refine exists_congr fun i => and_congr_right fun hi => ?_
  rw [compared_getLsbD e lanes hi, BitVec.getLsbD_zero, Bool.ne_false_iff]

theorem WatchEntry.takesPart_iff :
    e.takesPart a lanes = true ↔
      e.enabled = true ∧ e.addr = a ∧ ∃ i < 32, (e.mask.getLsbD i && lanes.getLsbD (i / 8)) = true := by
  rw [WatchEntry.takesPart, Bool.and_eq_true, Bool.and_eq_true, decide_eq_true_eq, decide_eq_true_eq,
    WatchEntry.compared_ne_zero_iff, and_assoc]

/-- The comparison of a check, bit by bit on the compared bits (R145). -/
theorem WatchEntry.data_eq_reference_iff :
    data &&& e.compared lanes = e.reference &&& e.compared lanes ↔
      ∀ i < 32, (e.mask.getLsbD i && lanes.getLsbD (i / 8)) = true → data.getLsbD i = e.reference.getLsbD i := by
  rw [and_mask_eq_iff]
  refine forall₂_congr fun i hi => ?_
  rw [compared_getLsbD e lanes hi]

/-- CHANGE fires where a compared bit differs from the reference (R145). -/
theorem WatchEntry.fires_change_iff (hsense : e.sense = .change) :
    e.fires (e.compared lanes) data = true ↔
      ∃ i < 32, (e.mask.getLsbD i && lanes.getLsbD (i / 8)) = true ∧ data.getLsbD i ≠ e.reference.getLsbD i := by
  simp only [WatchEntry.fires, hsense, decide_eq_true_eq]
  rw [Ne, WatchEntry.data_eq_reference_iff]
  push Not
  rfl

/-- MATCH fires where no compared bit differs from the reference (R145). -/
theorem WatchEntry.fires_equal_iff (hsense : e.sense = .equal) :
    e.fires (e.compared lanes) data = true ↔
      ∀ i < 32, (e.mask.getLsbD i && lanes.getLsbD (i / 8)) = true → data.getLsbD i = e.reference.getLsbD i := by
  simp only [WatchEntry.fires, hsense, decide_eq_true_eq]
  exact WatchEntry.data_eq_reference_iff

theorem WatchEntry.firesAt_iff :
    e.firesAt a lanes data = true ↔ e.takesPart a lanes = true ∧ e.fires (e.compared lanes) data = true :=
  Bool.and_eq_true_iff

/-- A copy limited to the compared bits (R144, R147). -/
theorem onBits_compared_getLsbD (e : WatchEntry) (lanes : Lanes) (old data : Word) {i : Nat} (hi : i < 32) :
    (onBits old (e.compared lanes) data).getLsbD i =
      if e.mask.getLsbD i && lanes.getLsbD (i / 8) then data.getLsbD i else old.getLsbD i := by
  rw [onBits_getLsbD _ _ _ hi, compared_getLsbD e lanes hi]

/-! ### The check of one entry (R144, R146, R147) -/

theorem WatchEntry.check_of_not_takesPart (h : ¬ e.takesPart a lanes = true) (data : Word) :
    e.check a lanes data = e :=
  if_neg h

theorem WatchEntry.check_of_not_firesAt (h : e.takesPart a lanes = true) (hf : ¬ e.firesAt a lanes data = true) :
    e.check a lanes data = { e with lastObserved := onBits e.lastObserved (e.compared lanes) data } := by
  have hquiet : ¬ e.fires (e.compared lanes) data = true := fun hfires => hf (WatchEntry.firesAt_iff.2 ⟨h, hfires⟩)
  rw [WatchEntry.check, if_pos h]
  exact if_neg hquiet

theorem WatchEntry.check_of_firesAt (hf : e.firesAt a lanes data = true) :
    e.check a lanes data =
      { e with
        lastObserved := onBits e.lastObserved (e.compared lanes) data
        hit := true
        reference := if e.rearm then onBits e.reference (e.compared lanes) data else e.reference
        hitCount := BitVec.ofNat 8 (min (e.hitCount.toNat + 1) 255) } := by
  obtain ⟨htakes, hfires⟩ := WatchEntry.firesAt_iff.1 hf
  rw [WatchEntry.check, if_pos htakes, ← satInc_eq]
  exact if_pos hfires

/-! ### The check of the list (R144, R146) -/

theorem State.watchCheck_of_firesAt (h : ∃ e ∈ s.watch, e.firesAt a lanes data = true) :
    s.watchCheck a lanes data =
      { s.report .watch with watch := s.watch.map fun e => e.check a lanes data } := by
  rw [State.watchCheck_eq, if_pos (List.any_eq_true.2 h)]
  rfl

theorem State.watchCheck_of_not_firesAt (h : ∀ e ∈ s.watch, ¬ e.firesAt a lanes data = true) :
    s.watchCheck a lanes data = { s with watch := s.watch.map fun e => e.check a lanes data } := by
  rw [State.watchCheck_eq, if_neg (by simpa using h)]

/-- Settles O37: the model's words under masks say what the statement says bit by bit, and each entry's check is one of
three: not taking part, quiet, or firing. -/
theorem watchChecksObserveFireAndRearm : Obligations.WatchChecksObserveFireAndRearm := by
  unfold Obligations.WatchChecksObserveFireAndRearm
  intro s a lanes data bit takesPart fires copied
  have takesPart_iff (e : WatchEntry) : takesPart e ↔ e.takesPart a lanes = true := WatchEntry.takesPart_iff.symm
  have fires_iff (e : WatchEntry) : fires e ↔ e.firesAt a lanes data = true := by
    rw [WatchEntry.firesAt_iff]
    refine and_congr (takesPart_iff e) ?_
    cases hsense : e.sense with
    | change => exact (WatchEntry.fires_change_iff hsense).symm
    | equal => exact (WatchEntry.fires_equal_iff hsense).symm
  have copied_onBits (e : WatchEntry) (old : Word) : copied e old (onBits old (e.compared lanes) data) :=
    fun _ => onBits_compared_getLsbD e lanes old data
  simp only [takesPart_iff, fires_iff]
  refine ⟨s.watch.map fun e => e.check a lanes data, State.watchCheck_of_firesAt, State.watchCheck_of_not_firesAt,
    List.length_map _, fun i e he => ?_⟩
  rw [List.getElem?_map, he, Option.map_some]
  refine ⟨fun hout => ?_, fun htakes => ⟨_, copied_onBits e e.lastObserved, fun hquiet => ?_, fun hfires =>
    ⟨if e.rearm then onBits e.reference (e.compared lanes) data else e.reference, ?_, ?_⟩⟩⟩
  · rw [WatchEntry.check_of_not_takesPart hout]
  · rw [WatchEntry.check_of_not_firesAt htakes hquiet]
  · cases hrearm : e.rearm with
    | true => exact copied_onBits e e.reference
    | false => rfl
  · rw [WatchEntry.check_of_firesAt hfires]

end Sys2Proof.Machine
end

section
/-! PROOFS. Every command answers a next state with the queue of waiting commands as it was (notes/assumptions/1.md): no
shared operation touches the queue, so no command does. -/

namespace Sys2Proof.Machine

open Sys2Proof

variable {s t : State}

/-! ### What the operations leave of the queue -/

@[simp] theorem State.ite_pending (c : Prop) [Decidable c] (u v : State) :
    (if c then u else v).pending = if c then u.pending else v.pending :=
  apply_ite State.pending c u v

@[simp] theorem State.sealOpen_pending (s : State) (c : SealCause) : (s.sealOpen c).pending = s.pending := by
  unfold State.sealOpen
  split <;> simp

@[simp] theorem State.watchCheck_pending (s : State) (a : Addr) (l : Lanes) (d : Word) :
    (s.watchCheck a l d).pending = s.pending := by
  simp [State.watchCheck_eq]

@[simp] theorem State.charge_pending (s : State) (g : Nat) : (s.charge g).pending = s.pending := by
  simp [State.charge_eq]

/-! ### The memory port and the host port -/

@[simp] theorem State.freePort_pending (s : State) : s.freePort.pending = s.pending := by
  simp [State.freePort]

@[simp] theorem State.startHostAccess_pending (s : State) (k : HostKind) (a : Addr) (l : Lanes) (d : Word)
    (w : Option Nat) : (s.startHostAccess k a l d w).pending = s.pending := by
  simp [State.startHostAccess]

@[simp] theorem State.decideTogether_pending (s : State) : s.decideTogether.pending = s.pending := by
  rcases s.decideTogether_cases with h | ⟨q, -, -, h⟩ <;> simp [h]

theorem State.placeForHost_pending {w : HeldWrite} (hp : s.placeForHost w = some t) : t.pending = s.pending := by
  have hplace : (s.place w.addr w.lanes w.data).2.pending = s.pending := by rw [s.place_eq]
  unfold State.placeForHost at hp
  split at hp <;> rename_i hx <;> rw [hx] at hplace
  · rw [← Option.some.inj hp]
    simpa [State.sealOnLastCheck_eq] using hplace
  · rw [← Option.some.inj hp]
    simpa [State.sealOnLastCheck_eq] using hplace
  · cases hp

@[simp] theorem State.stageWrite_pending (s : State) (w : HeldWrite) : (s.stageWrite w).pending = s.pending := by
  unfold State.stageWrite
  split
  · exact State.placeForHost_pending ‹_›
  · simp

@[simp] theorem State.forwardRead_pending (s : State) (a : Addr) (w : Option Nat) :
    (s.forwardRead a w).pending = s.pending := by
  unfold State.forwardRead
  dsimp only
  split <;> simp

@[simp] theorem State.takeHostRequest_pending (s : State) : s.takeHostRequest.pending = s.pending := by
  unfold State.takeHostRequest
  dsimp only
  split
  · split
    · rfl
    · split <;> simp
  · split <;> simp

@[simp] theorem State.leaveReset_pending (s : State) : s.leaveReset.pending = s.pending := by
  simp [State.leaveReset]

/-! ### The commit engine -/

@[simp] theorem State.placeRequest_pending (s : State) (k : AccessKind) : (s.placeRequest k).pending = s.pending := by
  unfold State.placeRequest
  split <;> simp

@[simp] theorem State.giveGrant_pending (s : State) (i : Byte) (g : Nat) : (s.giveGrant i g).pending = s.pending := by
  simp [State.giveGrant]

@[simp] theorem State.admitHead_pending (s : State) (i : Byte) (g : Nat) : (s.admitHead i g).pending = s.pending := by
  simp [State.admitHead]

@[simp] theorem State.refuseOversize_pending (s : State) (b : Batch) : (s.refuseOversize b).pending = s.pending := by
  unfold State.refuseOversize
  dsimp only
  split <;> simp

@[simp] theorem State.attempt_pending (s : State) : s.attempt.pending = s.pending := by
  unfold State.attempt
  split
  · rfl
  · split
    · rfl
    · simp
    · simp

@[simp] theorem State.countApplied_pending (s : State) (i : Byte) (r : Record) :
    (s.countApplied i r).pending = s.pending := by
  simp [State.countApplied]

@[simp] theorem State.complete_pending (s : State) (b : Batch) : (s.complete b).pending = s.pending := by
  simp [State.complete]

@[simp] theorem State.abortEnd_pending (s : State) (b : Batch) : (s.abortEnd b).pending = s.pending := by
  simp [State.abortEnd]

@[simp] theorem State.pause_pending (s : State) (b : Batch) : (s.pause b).pending = s.pending := by
  unfold State.pause
  dsimp only
  split <;> simp

@[simp] theorem State.recordSuccess_pending (s : State) (i : Byte) (r : Record) :
    (s.recordSuccess i r).pending = s.pending := by
  unfold State.recordSuccess
  dsimp only
  split
  · simp
  · simp

@[simp] theorem State.takeFault_pending (s : State) (i : Byte) (r : Record) (c : ErrorCause) :
    (s.takeFault i r c).pending = s.pending := by
  simp [State.takeFault]

@[simp] theorem State.applyingEnd_pending (s : State) (i : Byte) (r : Record) (e : AccessEnd) :
    (s.applyingEnd i r e).pending = s.pending := by
  cases e <;> simp [State.applyingEnd]

@[simp] theorem State.abortingEnd_pending (s : State) (i : Byte) (r : Record) (e : AccessEnd) :
    (s.abortingEnd i r e).pending = s.pending := by
  cases e <;> simp only [State.abortingEnd]
  all_goals split <;> simp

@[simp] theorem State.engineAccessEnd_pending (s : State) (e : AccessEnd) :
    (s.engineAccessEnd e).pending = s.pending := by
  unfold State.engineAccessEnd
  dsimp only
  split
  · simp
  · simp

@[simp] theorem State.abortActive_pending (s : State) (b : Batch) : (s.abortActive b).2.pending = s.pending := by
  unfold State.abortActive
  dsimp only
  split
  · split <;> simp
  · split <;> split <;> simp
  · simp

@[simp] theorem State.clearAbort_pending (s : State) : s.clearAbort.2.2.pending = s.pending := by
  unfold State.clearAbort
  split
  · rfl
  · rename_i b _
    have habort := s.abortActive_pending b
    split
    · rfl
    · split <;> rename_i hx <;> rw [hx] at habort <;> simpa using habort

/-! ### The window unit -/

@[simp] theorem State.tick_pending (s : State) : s.tick.pending = s.pending := rfl

@[simp] theorem State.countEdge_pending (s : State) : s.countEdge.pending = s.pending := by
  simp [State.countEdge]

@[simp] theorem State.endFreeze_pending (s : State) : s.endFreeze.pending = s.pending := by
  unfold State.endFreeze
  dsimp only
  split <;> simp

@[simp] theorem State.setConfig_pending (s : State) (c : Settings) : (s.setConfig c).pending = s.pending := by
  unfold State.setConfig State.changeTickSource
  dsimp only
  split
  · rfl
  · split <;> simp

/-! ### Commands -/

/-- A command's outcome is a next state that holds the queue `q`. -/
def AnswersWithQueue (q : List Instr) (o : Host.Outcome State Fault Refusal) : Prop :=
  ∃ t, o = .next t ∧ t.pending = q

@[simp] theorem answersWithQueue_next {q : List Instr} : AnswersWithQueue q (.next t) ↔ t.pending = q := by
  simp [AnswersWithQueue]

/-- A request leaves the queue to its owning block (R172). -/
theorem State.handRequest_pending (s : State) (tag : Byte) (inRange : Bool) {owner : State → Taken}
    (ho : ∀ u : State, (owner u).state.pending = u.pending) :
    (s.handRequest tag inRange owner).pending = s.pending := by
  unfold State.handRequest
  split
  · split
    · simp [ho]
    · simp
  · rfl

theorem answersWithQueue_handRequest {tag : Byte} {inRange : Bool} {owner : State → Taken}
    (ho : ∀ u : State, (owner u).state.pending = u.pending) :
    AnswersWithQueue s.pending (.next (s.handRequest tag inRange owner)) :=
  answersWithQueue_next.2 (s.handRequest_pending tag inRange ho)

theorem execDiscard_answersWithQueue (tag i : Byte) (s : State) : AnswersWithQueue s.pending (execDiscard tag i s) := by
  refine answersWithQueue_handRequest fun u => ?_
  split
  · rfl
  · rename_i b _
    have habort := u.abortActive_pending b
    split
    · simp
    · simp
    · rfl
    · split <;> rename_i hx <;> rw [hx] at habort <;> simpa using habort

/-- A request handed to its owning block, whichever it is (R172, Table 9-3). -/
theorem State.handOver_answersWithQueue (s : State) (i : Instr) : AnswersWithQueue s.pending (s.handOver i) := by
  match i with
  | .identify _ | .status _ | .getConfig _ | .getWindow .. | .getWatch .. | .readEvents _ | .lookup ..
  | .setWatch .. | .watchAck .. | .ackEvents .. | .setEventEnable .. | .freeze .. =>
    exact answersWithQueue_handRequest fun _ => rfl
  | .replay _ => simp [State.handOver, execReplay]
  | .setConfig _ raw => exact answersWithQueue_handRequest fun u => u.setConfig_pending _
  | .setWindow .. | .peekCompletion _ | .retire _ =>
    refine answersWithQueue_handRequest fun u => ?_
    split <;> rfl
  | .seal _ | .thaw _ | .kick _ =>
    refine answersWithQueue_handRequest fun u => ?_
    split <;> simp
  | .discard tag i => exact execDiscard_answersWithQueue tag i s
  | .clear _ =>
    refine answersWithQueue_handRequest fun u => ?_
    simp [State.foldl_dropBatch]
  | .resume _ =>
    refine answersWithQueue_handRequest fun u => ?_
    split
    · split <;> simp
    · rfl
  | .transactionBegin | .transactionEnd | .hostRequest .. | .hceDeassert | .sealOnLast | .stallTimeout
  | .passThroughReadComplete _ | .passThroughWriteComplete | .forwardedReadComplete _ | .hostMemTimeout
  | .recordWriteComplete | .verifyReadComplete _ | .engineMemTimeout | .admissionAttempt | .countedEdge _
  | .frameTimeoutExpiry | .periodExpiry | .windowLengthExpiry | .freezeExpiry | .autoSeal | .continuationGrant
  | .rstAssert | .rstRelease | .powerUp | .refclkStop | .refclkRestart | .sckRisingEdge _ | .sckFallingEdge
  | .mceAssert => exact answersWithQueue_next.2 rfl

theorem execTransactionEnd_answersWithQueue (s : State) : AnswersWithQueue s.pending (execTransactionEnd s) := by
  unfold execTransactionEnd
  split
  · split
    · simp
    · split
      · simp
      · exact s.handOver_answersWithQueue _
  · simp
  · simp

theorem execContinuationGrant_answersWithQueue (s : State) : AnswersWithQueue s.pending (execContinuationGrant s) := by
  unfold execContinuationGrant
  split
  · simp
  · dsimp only
    split
    · split
      · split <;> simp
      · simp
    · simp

theorem exec_answersWithQueue (c : Instr) (s : State) : AnswersWithQueue s.pending (exec c s) := by
  have hrequest := s.handOver_answersWithQueue c
  cases c with
  | transactionBegin =>
    simp only [exec, execTransactionBegin]
    split <;> simp
  | transactionEnd => exact execTransactionEnd_answersWithQueue s
  | hostRequest addr write lanes data hce => simp [exec, execHostRequest]
  | sealOnLast =>
    simp only [exec, execSealOnLast]
    split
    · simp
    · split <;> simp
  | autoSeal =>
    simp only [exec, execAutoSeal]
    split <;> simp
  | stallTimeout | passThroughReadComplete md | passThroughWriteComplete | forwardedReadComplete md | hostMemTimeout =>
    simp only [exec, execStallTimeout, execPassThroughReadComplete, execPassThroughWriteComplete,
      execForwardedReadComplete, execHostMemTimeout]
    split <;> simp
  | recordWriteComplete | verifyReadComplete md | engineMemTimeout | admissionAttempt =>
    simp [exec, execRecordWriteComplete, execVerifyReadComplete, execEngineMemTimeout, execAdmissionAttempt]
  | continuationGrant => exact execContinuationGrant_answersWithQueue s
  | countedEdge rising =>
    simp only [exec, execCountedEdge]
    split
    · split <;> simp
    · simp
  | frameTimeoutExpiry | freezeExpiry =>
    simp only [exec, execFrameTimeoutExpiry, execFreezeExpiry]
    split <;> simp
  | periodExpiry =>
    simp only [exec, execPeriodExpiry]
    split
    · split <;> simp
    · simp
  | windowLengthExpiry =>
    simp only [exec, execWindowLengthExpiry]
    split
    · split <;> simp
    · simp
  | rstRelease =>
    simp only [exec, execRstRelease]
    split <;> simp
  | sckRisingEdge sdi | sckFallingEdge | mceAssert =>
    simp [exec, execSckRisingEdge, execSckFallingEdge, execMceAssert]
  | rstAssert | powerUp | hceDeassert | refclkStop | refclkRestart => exact answersWithQueue_next.2 rfl
  | _ => exact hrequest

/-- Settles O2: every arm of `exec` is a next state made by operations that leave the queue alone. -/
theorem everyCommandAnswersNextAndKeepsTheQueue : Obligations.EveryCommandAnswersNextAndKeepsTheQueue := by
  unfold Obligations.EveryCommandAnswersNextAndKeepsTheQueue
  exact exec_answersWithQueue

end Sys2Proof.Machine
end

section
/-! PROOFS. The event unit: its requests, and what a report and an error leave (R154 to R162). -/

namespace Sys2Proof.Machine

open Sys2Proof

variable {s : State}

/-! ### READ_EVENTS, ACK_EVENTS and SET_EVENT_ENABLE (R157 to R159) -/

theorem State.PortOpen.exec_readEvents (h : s.PortOpen) (tag : Byte) :
    exec (.readEvents tag) s =
      .next
        (s.answered .ok tag
          (eventField s.events.flags ++ eventField s.events.enables ++ captureBytes s.events.capture)) :=
  congrArg Host.Outcome.next (h.handRequest_eq_answered (t := s.endTransaction) rfl rfl tag)

theorem State.PortOpen.exec_ackEvents (h : s.PortOpen) {clear : Byte} (hclear : clear.toNat ≤ 1) (tag : Byte)
    (mask : BitVec 16) :
    exec (.ackEvents tag mask clear) s =
      .next
        { s.answered .ok tag [] with
          events := s.events.acknowledge (eventMask mask) (decide (clear = 1#8)) } := by
  have hack : exec (.ackEvents tag mask clear) s = .next (s.handRequest tag (decide (clear.toNat ≤ 1)) _) := rfl
  rw [hack, decide_eq_true hclear]
  exact congrArg Host.Outcome.next
    (h.handRequest_eq_answered
      (t := { s.endTransaction with events := s.events.acknowledge (eventMask mask) (decide (clear = 1#8)) })
      rfl rfl tag)

theorem State.PortOpen.exec_setEventEnable (h : s.PortOpen) (tag : Byte) (mask : BitVec 16) :
    exec (.setEventEnable tag mask) s =
      .next { s.answered .ok tag [] with events := s.events.setEnables (eventMask mask) } :=
  congrArg Host.Outcome.next
    (h.handRequest_eq_answered (t := { s.endTransaction with events := s.events.setEnables (eventMask mask) }) rfl rfl
      tag)

/-- Settles O35: each request is its block's answer on the state whose transaction has ended, and the cause byte of a
capture is its code with the valid bit. -/
theorem eventRequestsReadClearAndEnable : Obligations.EventRequestsReadClearAndEnable := by
  unfold Obligations.EventRequestsReadClearAndEnable
  intro s tag hport level head
  refine ⟨fun hnone => ?_, fun c hsome => ?_, fun mask clear hclear => ?_, fun mask => ?_⟩
  · rw [hport.exec_readEvents, hnone]
    rfl
  · rw [hport.exec_readEvents, hsome]
    simp only [captureBytes, List.append_assoc]
    cases c.cause <;> rfl
  · intro flags
    rw [hport.exec_ackEvents hclear]
    simp only [EventUnit.acknowledge, EventUnit.settle, decide_eq_true_eq]
    rfl
  · exact hport.exec_setEventEnable tag mask

/-! ### Reports and errors (R154, R156, R162) -/

theorem EventFlag.mask_eq (f : EventFlag) : f.mask = BitVec.ofNat 9 (2 ^ f.index) := by
  cases f <;> rfl

/-- A report joins one bit to the flags (R154). -/
theorem EventFlag.or_mask (f : EventFlag) (flags : BitVec 9) :
    flags ||| f.mask = BitVec.ofNat 9 (flags.toNat ||| 2 ^ f.index) := by
  rw [f.mask_eq, BitVec.ofNat_or, BitVec.ofNat_toNat, BitVec.setWidth_eq]

theorem EventUnit.report_eq (e : EventUnit) (f : EventFlag) :
    e.report f =
      { e with
        flags := BitVec.ofNat 9 (e.flags.toNat ||| 2 ^ f.index)
        irq := irqLevel (BitVec.ofNat 9 (e.flags.toNat ||| 2 ^ f.index)) e.enables } := by
  rw [← f.or_mask]
  rfl

theorem EventUnit.offer_of_not_valid {e : EventUnit} (h : e.capture = none) (cause : ErrorCause) (addr : Addr)
    (lanes : Lanes) (batch : Byte) :
    e.offer cause addr lanes batch = { e with capture := some ⟨cause, addr, lanes, batch, 0#8⟩ } := by
  simp only [EventUnit.offer, h]

theorem EventUnit.offer_of_valid {e : EventUnit} {c : Capture} (h : e.capture = some c) (cause : ErrorCause)
    (addr : Addr) (lanes : Lanes) (batch : Byte) :
    e.offer cause addr lanes batch = { e with capture := some { c with later := satInc c.later } } := by
  simp only [EventUnit.offer, h]

/-- Settles O36: the list pairs each flag with its bit, and the later count is one of the counts that stop at 255. -/
theorem reportsSetOneFlagAndTheFirstErrorIsKept : Obligations.ReportsSetOneFlagAndTheFirstErrorIsKept := by
  unfold Obligations.ReportsSetOneFlagAndTheFirstErrorIsKept
  refine ⟨fun e p hp => ?_, fun e cause addr lanes batch => ⟨fun hnone => ?_, fun c hsome => ?_⟩⟩
  · have hbit : p.2 = p.1.index := by
      revert p
      decide
    rw [e.report_eq, ← hbit]
    rfl
  · exact e.offer_of_not_valid hnone cause addr lanes batch
  · rw [e.offer_of_valid hsome, satInc_eq]

end Sys2Proof.Machine
end

section
/-! PROOFS. The edges of SPI: what the begin of a transaction, its bits and its end leave of the management port (R165,
R166, R173 to R175). -/

namespace Sys2Proof.Machine

open Sys2Proof

variable {s : State} {m : MgmtPort}

/-! ### The bits of a byte (R165) -/

theorem bitsOf_length (b : Byte) : (bitsOf b).length = 8 := rfl

/-- The bits of a byte, shifted in again, are the byte. -/
theorem byteOfBits_bitsOf (b : Byte) : byteOfBits (bitsOf b) = b := by
  revert b
  decide

/-- Bit `k` of a byte sequence is bit `k` of its bytes' bits, 0 after their end (R166). -/
theorem bitOut_eq (bytes : List Byte) (k : Nat) : bitOut bytes k = ((bytes.flatMap bitsOf)[k]?).getD false := by
  induction bytes generalizing k with
  | nil => simp [bitOut]
  | cons b bytes ih =>
    rw [List.flatMap_cons]
    by_cases hk : k < 8
    · rw [List.getElem?_append_left (by rwa [bitsOf_length])]
      interval_cases k <;> rfl
    · obtain ⟨j, rfl⟩ : ∃ j, k = j + 8 := ⟨k - 8, by omega⟩
      rw [List.getElem?_append_right (by rw [bitsOf_length]; omega), bitsOf_length, Nat.add_sub_cancel, ← ih]
      simp [bitOut]

/-- The first bit of a byte sequence is the highest one of its first byte. -/
theorem bitOut_zero (bytes : List Byte) : bitOut bytes 0 = (bytes.headD 0#8).getLsbD 7 := by
  cases bytes <;> rfl

/-! ### A bit in (R165) -/

/-- Short of the eighth, a bit only joins the byte under way. -/
theorem MgmtPort.bitIn_of_lt (h : m.bits.length < 7) (d : Bool) : m.bitIn d = { m with bits := m.bits ++ [d] } := by
  have hlt : (m.bits ++ [d]).length < 8 := by
    rw [List.length_append, List.length_singleton]
    omega
  exact if_pos hlt

/-- The eighth bit makes the byte whose bits are in. -/
theorem MgmtPort.bitIn_eighth {b : Byte} {d : Bool} (h : m.bits ++ [d] = bitsOf b) :
    m.bitIn d = MgmtPort.byteIn { m with bits := [] } b := by
  simp only [MgmtPort.bitIn, h, bitsOf_length, byteOfBits_bitsOf]
  rfl

@[simp] theorem MgmtPort.bitIn_state (m : MgmtPort) (d : Bool) : (m.bitIn d).state = m.state := by
  unfold MgmtPort.bitIn
  dsimp only
  split <;> rfl

/-- From the start of a byte, its bits in are the byte in. -/
theorem MgmtPort.foldl_bitIn_bitsOf (h : m.bits = []) (b : Byte) : (bitsOf b).foldl MgmtPort.bitIn m = m.byteIn b := by
  have hjoin : ∀ l : List Bool, l.length ≤ 7 → l.foldl MgmtPort.bitIn m = { m with bits := l } := by
    intro l
    induction l using List.reverseRecOn with
    | nil => exact fun _ => by rw [List.foldl_nil, ← h]
    | append_singleton l d ih =>
      intro hl
      rw [List.length_append, List.length_singleton] at hl
      rw [List.foldl_append, ih (by omega), List.foldl_cons, List.foldl_nil, MgmtPort.bitIn_of_lt (by simpa using hl)]
  have hlast : bitsOf b = (bitsOf b).take 7 ++ [b.getLsbD 0] := rfl
  rw [hlast, List.foldl_append, hjoin _ (by simp [bitsOf_length]), List.foldl_cons, List.foldl_nil,
    MgmtPort.bitIn_eighth (b := b) rfl, ← h]

/-- From the start of a byte, the bits of a run of bytes in are the bytes in. -/
theorem MgmtPort.foldl_bitIn_flatMap (bytes : List Byte) (h : m.bits = []) :
    (bytes.flatMap bitsOf).foldl MgmtPort.bitIn m = bytes.foldl MgmtPort.byteIn m := by
  induction bytes generalizing m with
  | nil => rfl
  | cons b bytes ih =>
    rw [List.flatMap_cons, List.foldl_append, m.foldl_bitIn_bitsOf h, ih (m := m.byteIn b) h, List.foldl_cons]

/-! ### The reply on SDO (R165, R166) -/

/-- The port with bit `k` of its retained reply on SDO. -/
def MgmtPort.sending (m : MgmtPort) (k : Nat) : MgmtPort := { m with txPos := k, sdo := some (bitOut m.retained k) }

@[simp] theorem MgmtPort.sending_state (m : MgmtPort) (k : Nat) : (m.sending k).state = m.state := rfl
@[simp] theorem MgmtPort.sending_bits (m : MgmtPort) (k : Nat) : (m.sending k).bits = m.bits := rfl
@[simp] theorem MgmtPort.sending_retained (m : MgmtPort) (k : Nat) : (m.sending k).retained = m.retained := rfl
@[simp] theorem MgmtPort.sending_settings (m : MgmtPort) (k : Nat) : (m.sending k).settings = m.settings := rfl

/-- A bit in has no part in what the port sends. -/
theorem MgmtPort.bitIn_sending (m : MgmtPort) (k : Nat) (d : Bool) : (m.sending k).bitIn d = (m.bitIn d).sending k := by
  unfold MgmtPort.bitIn
  rw [MgmtPort.sending_bits]
  dsimp only
  split <;> rfl

/-- Bytes in have no part in what the port sends. -/
theorem MgmtPort.received_sending (m : MgmtPort) (k : Nat) (bytes : List Byte) :
    (m.sending k).received bytes = (m.received bytes).sending k := by
  induction bytes using List.reverseRecOn with
  | nil => rfl
  | append_singleton bytes b ih => rw [MgmtPort.received_append, MgmtPort.received_append, ih]; rfl

/-! ### The edges of SCS and SCK (R165, R166) -/

/-- The port at the begin of a transaction: no byte and no bit in (R165). -/
def MgmtPort.begun (m : MgmtPort) : MgmtPort :=
  { m with state := .receiving, scs := true, buffer := [], count := 0, overLong := false, bits := [] }

/-- The port takes the events of its state while the part is awake (R165, R189). -/
theorem State.Awake.clocked_in (hawake : s.Awake) {x : PortState} (hx : s.mgmt.state = x) :
    (s.clocked && decide (s.mgmt.state = x)) = true := by
  rw [hawake.clocked, decide_eq_true hx, Bool.and_self]

@[simp] theorem MgmtPort.begun_state (m : MgmtPort) : m.begun.state = .receiving := rfl
@[simp] theorem MgmtPort.begun_retained (m : MgmtPort) : m.begun.retained = m.retained := rfl
@[simp] theorem MgmtPort.begun_settings (m : MgmtPort) : m.begun.settings = m.settings := rfl

theorem State.exec_transactionBegin (hawake : s.Awake) (hidle : s.mgmt.state = .idle) :
    exec .transactionBegin s = .next { s with mgmt := s.mgmt.begun.sending 0 } :=
  if_pos (hawake.clocked_in hidle)

theorem State.exec_sckRisingEdge (hawake : s.Awake) (hrecv : s.mgmt.state = .receiving) (d : Bool) :
    exec (.sckRisingEdge d) s = .next { s with mgmt := s.mgmt.bitIn d } :=
  congrArg Host.Outcome.next (if_pos (hawake.clocked_in hrecv))

theorem State.exec_sckFallingEdge (hawake : s.Awake) (hrecv : s.mgmt.state = .receiving) :
    exec .sckFallingEdge s = .next { s with mgmt := s.mgmt.sending (s.mgmt.txPos + 1) } :=
  congrArg Host.Outcome.next (if_pos (hawake.clocked_in hrecv))

/-- A transaction with no whole byte in takes no request (R173). -/
theorem State.exec_transactionEnd_empty (hout : s.OutOfReset) (hrecv : s.mgmt.state = .receiving)
    (hnone : s.mgmt.count = 0 ∨ s.clocked = false) : exec .transactionEnd s = .next s.endTransaction := by
  simp only [exec, execTransactionEnd, hout.running, hrecv, hnone, if_true]

/-- In SKIPPING the end of the transaction takes no request (R175). -/
theorem State.exec_transactionEnd_skipping (hout : s.OutOfReset) (hskip : s.mgmt.state = .skipping) :
    exec .transactionEnd s = .next s.endTransaction := by
  simp only [exec, execTransactionEnd, hout.running, hskip]

/-- REPLAY is the end of its transaction alone (R174). -/
theorem State.PortOpen.exec_replay (h : s.PortOpen) (tag : Byte) : exec (.replay tag) s = .next s.endTransaction :=
  congrArg Host.Outcome.next (if_pos h.takes)

/-- Settles O12: `State.endTransaction` is all that ends such a transaction, and it keeps the retained reply. -/
theorem transactionsBeginEmptyAndKeepTheReply : Obligations.TransactionsBeginEmptyAndKeepTheReply := by
  unfold Obligations.TransactionsBeginEmptyAndKeepTheReply
  intro s hawake ended
  refine ⟨fun hidle => ?_, fun hrecv hcount => ?_, fun hskip => ?_, fun hopen tag => ?_⟩
  · rw [State.exec_transactionBegin hawake hidle, ← bitOut_zero]
    rfl
  · exact State.exec_transactionEnd_empty hawake.1 hrecv (.inl hcount)
  · exact State.exec_transactionEnd_skipping hawake.1 hskip
  · exact State.PortOpen.exec_replay ⟨hawake, hopen⟩ tag

theorem MgmtPort.beyondFrame_iff :
    m.beyondFrame = true ↔ ∃ len, m.buffer[2]? = some len ∧ 4 + len.toNat ≤ m.count := by
  unfold MgmtPort.beyondFrame
  cases m.buffer[2]? <;> simp

/-- Settles O13: the eighth bit is `MgmtPort.byteIn` of the byte whose bits are in. -/
theorem sckRisingEdgeShiftsABitIn : Obligations.SckRisingEdgeShiftsABitIn := by
  unfold Obligations.SckRisingEdgeShiftsABitIn
  intro s b hawake hrecv
  refine ⟨fun d hbits => ?_, fun hbits => ?_⟩
  · rw [State.exec_sckRisingEdge hawake hrecv, MgmtPort.bitIn_of_lt hbits]
  · refine ⟨_, State.exec_sckRisingEdge hawake hrecv _, ?_⟩
    rw [MgmtPort.bitIn_eighth hbits]
    refine ⟨rfl, ?_, rfl, ?_, rfl⟩
    · simp only [MgmtPort.byteIn_count]
      split <;> omega
    · have hbeyond : MgmtPort.beyondFrame { s.mgmt with bits := [] } = s.mgmt.beyondFrame := rfl
      simp only [MgmtPort.byteIn_overLong, hbeyond, Bool.or_eq_true, Bool.and_eq_true, decide_eq_true_eq,
        MgmtPort.beyondFrame_iff]
      exact or_congr_right and_comm

/-! ### Runs of edges -/

/-- A run goes on from the state that its first part left. -/
theorem execAll_append {cs : List Instr} {s t : State} (h : execAll cs s = .next t) (ds : List Instr) :
    execAll (cs ++ ds) s = execAll ds t := by
  induction cs generalizing s with
  | nil =>
    obtain rfl : s = t := Host.Outcome.next.inj h
    rfl
  | cons c cs ih =>
    rw [execAll] at h
    rw [List.cons_append, execAll]
    cases hc : exec c s with
    | next u =>
      rw [hc] at h
      exact ih h
    | fault r => cases r
    | refused r =>
      rw [hc] at h
      cases h

theorem execAll_cons {c : Instr} {s t : State} (h : exec c s = .next t) (cs : List Instr) :
    execAll (c :: cs) s = execAll cs t := by
  rw [execAll, h]

theorem execAll_singleton (c : Instr) (s : State) : execAll [c] s = exec c s := by
  rw [execAll]
  cases exec c s <;> rfl

/-- Each fall of SCK sends the next bit (R166). -/
theorem execAll_sckFallingEdges (hawake : s.Awake) (hrecv : m.state = .receiving) (k n : Nat) :
    execAll (List.replicate n .sckFallingEdge) { s with mgmt := m.sending k } =
      .next { s with mgmt := m.sending (k + n) } := by
  induction n generalizing k with
  | zero => rfl
  | succ n ih =>
    have hstep : exec .sckFallingEdge { s with mgmt := m.sending k } = .next { s with mgmt := m.sending (k + 1) } :=
      State.exec_sckFallingEdge (s := { s with mgmt := m.sending k }) hawake hrecv
    rw [List.replicate_succ, execAll_cons hstep, ih, Nat.add_assoc, Nat.add_comm 1 n]

/-- Each period of SCK takes a bit in and sends the next one (R165). -/
theorem execAll_sckPeriods (hawake : s.Awake) (hrecv : m.state = .receiving) (k : Nat) (bits : List Bool) :
    execAll (bits.flatMap fun d => [.sckRisingEdge d, .sckFallingEdge]) { s with mgmt := m.sending k } =
      .next { s with mgmt := (bits.foldl MgmtPort.bitIn m).sending (k + bits.length) } := by
  induction bits generalizing m k with
  | nil => rfl
  | cons d bits ih =>
    have hrise : exec (.sckRisingEdge d) { s with mgmt := m.sending k } =
        .next { s with mgmt := (m.bitIn d).sending k } := by
      rw [← MgmtPort.bitIn_sending]
      exact State.exec_sckRisingEdge (s := { s with mgmt := m.sending k }) hawake hrecv d
    have hrecv' : (m.bitIn d).state = .receiving := by rw [MgmtPort.bitIn_state, hrecv]
    have hfall : exec .sckFallingEdge { s with mgmt := (m.bitIn d).sending k } =
        .next { s with mgmt := (m.bitIn d).sending (k + 1) } :=
      State.exec_sckFallingEdge (s := { s with mgmt := (m.bitIn d).sending k }) hawake hrecv'
    rw [List.flatMap_cons, List.cons_append, List.cons_append, List.nil_append, execAll_cons hrise, execAll_cons hfall,
      ih hrecv', List.foldl_cons, List.length_cons, Nat.add_assoc, Nat.add_comm 1]

/-- Settles O14: SDO is at bit 0 from the fall of SCS, and each fall of SCK moves it to the next bit. -/
theorem sdoSendsTheRetainedReply : Obligations.SdoSendsTheRetainedReply := by
  unfold Obligations.SdoSendsTheRetainedReply
  refine ⟨fun s hawake hrecv => ?_, fun n s hawake hidle => ?_⟩
  · rw [State.exec_sckFallingEdge hawake hrecv, ← bitOut_eq]
    rfl
  · refine ⟨{ s with mgmt := s.mgmt.begun.sending n }, ?_, ?_, rfl, rfl⟩
    · rw [execAll_cons (State.exec_transactionBegin hawake hidle), execAll_sckFallingEdges hawake rfl, Nat.zero_add]
    · rw [← bitOut_eq]
      rfl

end Sys2Proof.Machine
end

section
/-! PROOFS. Request frames: every frame is taken as its request, from the bytes in or clocked bit by bit, and a faulty
one is answered in the order of the checks (R165, R167, R169, R170, R172, R182). -/

namespace Sys2Proof.Machine

open Sys2Proof

variable {s : State} {m : MgmtPort} {c : Instr}

/-! ### The catalogue (R182, Table 9-3) -/

theorem catalogueLength_eq_some {code : Byte} {n : Nat} : catalogueLength code = some n ↔ (code, n) ∈ catalogue := by
  have hin : ∀ p ∈ catalogue, catalogueLength p.1 = some p.2 := by decide
  have hout : ∀ code, ∀ n ∈ catalogueLength code, (code, n) ∈ catalogue := by decide
  exact ⟨hout code n, hin (code, n)⟩

theorem catalogueLength_eq_none {code : Byte} : catalogueLength code = none ↔ code ∉ catalogue.map Prod.fst := by
  simp [Option.eq_none_iff_forall_ne_some, catalogueLength_eq_some]

/-- No payload of the catalogue is longer than 32 bytes (R167). -/
theorem catalogueLength_le {code : Byte} {n : Nat} (h : catalogueLength code = some n) : n ≤ 32 := by
  have hle : ∀ p ∈ catalogue, p.2 ≤ 32 := by decide
  exact hle _ (catalogueLength_eq_some.1 h)

/-! ### The frame of a request (R167, R182, 11.3.4) -/

/-- `bytes` is the frame of a catalogued code with its payload, and `c` is the request they carry (R182). -/
def FrameCarries (bytes : List Byte) (c : Instr) : Prop :=
  ∃ code tag payload, bytes = frameOf code tag payload ∧ catalogueLength code = some payload.length ∧
    requestOf code tag payload = some c

@[simp] theorem rawSettings?_rawBytes (raw : RawSettings) : rawSettings? (rawBytes raw) = some raw := by
  simp [rawBytes, bytes2, bytes3, rawSettings?]

/-- The frame that a sender writes for a request carries it. -/
theorem requestFrame_carries {bytes : List Byte} (h : requestFrame c = some bytes) : FrameCarries bytes c := by
  match c, h with
  | .identify _, rfl | .status _, rfl | .replay _, rfl | .getConfig _, rfl | .seal _, rfl | .clear _, rfl
  | .resume _, rfl | .thaw _, rfl | .kick _, rfl | .peekCompletion _, rfl | .retire _, rfl | .readEvents _, rfl
  | .getWindow .., rfl | .getWatch .., rfl | .discard .., rfl => exact ⟨_, _, _, rfl, rfl, rfl⟩
  | .setConfig _ raw, rfl => exact ⟨_, _, _, rfl, rfl, congrArg (Option.map _) (rawSettings?_rawBytes raw)⟩
  | .setWindow .., rfl | .setWatch .., rfl | .watchAck .., rfl | .freeze .., rfl | .ackEvents .., rfl
  | .setEventEnable .., rfl | .lookup .., rfl =>
    refine ⟨_, _, _, rfl, rfl, ?_⟩
    simp [requestOf, payloadRequest, bytes2, bytes3, bytes4]

/-- The block that a request is handed to is the one that takes its command (R172, Table 9-3). -/
theorem State.handOver_eq_exec {bytes : List Byte} (h : requestFrame c = some bytes) (s : State) :
    s.handOver c = exec c s := by
  match c, h with
  | .identify _, rfl | .status _, rfl | .replay _, rfl | .getConfig _, rfl | .setConfig .., rfl | .getWindow .., rfl
  | .setWindow .., rfl | .getWatch .., rfl | .setWatch .., rfl | .watchAck .., rfl | .seal _, rfl | .discard .., rfl
  | .clear _, rfl | .resume _, rfl | .freeze .., rfl | .thaw _, rfl | .kick _, rfl | .peekCompletion _, rfl
  | .retire _, rfl | .readEvents _, rfl | .ackEvents .., rfl | .setEventEnable .., rfl | .lookup .., rfl => rfl

/-! ### The end of a transaction with bytes in (R165, R169, R172) -/

section

variable (hawake : s.Awake) (hrecv : s.mgmt.state = .receiving) (hcount : s.mgmt.count ≠ 0)

include hawake hrecv hcount

/-- With at least one byte in, bytes that fail a check are answered with its status and the echoed tag (R169). -/
theorem State.exec_transactionEnd_failed {status : Status} (hfail : s.mgmt.checkFrame = .failed status) :
    exec .transactionEnd s = .next (s.answered status s.mgmt.echoedTag []) := by
  simp only [exec, execTransactionEnd, hawake.1.running, hrecv, hawake.clocked, hcount, Bool.true_eq_false, or_self,
    if_false, hfail]
  rfl

/-- With at least one byte in, bytes that pass the checks are handed over as their request (R169, R172). -/
theorem State.exec_transactionEnd_request {i : Instr} (hpass : s.mgmt.checkFrame = .request i) :
    exec .transactionEnd s = s.handOver i := by
  simp only [exec, execTransactionEnd, hawake.1.running, hrecv, hawake.clocked, hcount, Bool.true_eq_false, or_self,
    if_false, hpass]

end

/-- Settles O9: the received frame passes the checks as its request, which its block takes. -/
theorem frameBytesAreTakenAsTheirRequest : Obligations.FrameBytesAreTakenAsTheirRequest := by
  unfold Obligations.FrameBytesAreTakenAsTheirRequest
  intro c bytes fill s hframe hawake hrecv t
  obtain ⟨code, tag, payload, rfl, hcode, hreq⟩ := requestFrame_carries hframe
  have hcount : t.mgmt.count ≠ 0 := by simp [t]
  rw [State.exec_transactionEnd_request (s := t) hawake (by simp [t, hrecv]) hcount
    (checkFrame_received s.mgmt code tag payload fill c hcode (catalogueLength_le hcode) hreq)]
  exact State.handOver_eq_exec hframe t

/-! ### A whole transaction at the pins (R165) -/

/-- The bytes of a transaction in, the port has received them, with as many bits of its reply sent. -/
theorem execAll_clockBytes (hawake : s.Awake) (hidle : s.mgmt.state = .idle) (bytes : List Byte) :
    execAll (.transactionBegin :: bytes.flatMap clockByte) s =
      .next { s with mgmt := (s.mgmt.begun.received bytes).sending (bytes.flatMap bitsOf).length } := by
  have hedges : bytes.flatMap clockByte =
      (bytes.flatMap bitsOf).flatMap fun d => [.sckRisingEdge d, .sckFallingEdge] := by
    rw [List.flatMap_assoc]
    rfl
  rw [execAll_cons (State.exec_transactionBegin hawake hidle), hedges, execAll_sckPeriods hawake rfl,
    MgmtPort.foldl_bitIn_flatMap bytes rfl, Nat.zero_add]
  rfl

/-- Settles O10: the pins bring the frame's bytes in, and its transaction ends as O9 says. -/
theorem clockedFrameActsAsItsRequest : Obligations.ClockedFrameActsAsItsRequest := by
  unfold Obligations.ClockedFrameActsAsItsRequest
  intro c bytes fill s hframe hawake hidle
  obtain ⟨k, hin⟩ : ∃ k, execAll (.transactionBegin :: (bytes ++ List.replicate fill 0#8).flatMap clockByte) s =
      .next { s with mgmt := (s.mgmt.begun.sending k).received (bytes ++ List.replicate fill 0#8) } :=
    ⟨_, by rw [MgmtPort.received_sending, execAll_clockBytes hawake hidle]⟩
  refine ⟨(s.mgmt.begun.sending k).received (bytes ++ List.replicate fill 0#8), by simp, by simp, by simp, by simp, ?_⟩
  rw [transactionOf, List.singleton_append, execAll_append hin, execAll_singleton]
  exact frameBytesAreTakenAsTheirRequest c bytes fill { s with mgmt := s.mgmt.begun.sending k } hframe hawake rfl

/-! ### Faults (R169, R170) -/

/-- A received frame is too long, truncated or followed by more than fill (R167, R169). -/
theorem MgmtPort.badLength_iff (m : MgmtPort) (code tag len : Byte) (rest : List Byte) :
    (32 < len.toNat ∨ (m.received (code :: tag :: len :: rest)).count < 4 + len.toNat ∨
        (m.received (code :: tag :: len :: rest)).overLong = true) ↔
      32 < len.toNat ∨ (code :: tag :: len :: rest).length < 4 + len.toNat ∨
        ∃ b ∈ (code :: tag :: len :: rest).drop (4 + len.toNat), b ≠ 0#8 := by
  refine or_congr_right' fun hlen => or_congr ?_ ?_
  · rw [MgmtPort.received_count]
    omega
  · rw [MgmtPort.received_overLong m code tag len rest (by omega), show 4 + len.toNat = 1 + len.toNat + 3 by omega]
    simp

/-- The buffer is long enough for the sum of every well-formed frame (R165, R167). -/
theorem MgmtPort.byteSum_received_ne_zero (m : MgmtPort) (bytes : List Byte) {n : Nat} (hn : n ≤ 36) :
    byteSum ((m.received bytes).buffer.take n) ≠ 0#8 ↔ ((bytes.take n).map BitVec.toNat).sum % 256 ≠ 0 := by
  rw [MgmtPort.received_buffer, List.take_take, min_eq_left hn, ← byteSum_toNat, ne_eq, ← BitVec.toNat_inj]
  rfl

@[simp] theorem MgmtPort.echoedTag_received (m : MgmtPort) (bytes : List Byte) :
    (m.received bytes).echoedTag = bytes.getD 1 0#8 := by
  simp [MgmtPort.echoedTag, List.getD_eq_getElem?_getD]

/-- Fewer than three bytes in are no frame (R169). -/
theorem MgmtPort.checkFrame_short (m : MgmtPort) {bytes : List Byte} (h : bytes.length < 3) :
    (m.received bytes).checkFrame = .failed .badLength := by
  unfold MgmtPort.checkFrame
  split
  · rename_i hbuf
    have hlen := congrArg List.length hbuf
    simp only [MgmtPort.received_buffer, List.length_take, List.length_cons] at hlen
    omega
  · rfl

section

variable {code tag len : Byte} {rest : List Byte}

/-- Step 1 of the checks: a frame not well-formed (R169). -/
theorem MgmtPort.checkFrame_badLength (hbuf : m.buffer = code :: tag :: len :: rest)
    (hbad : 32 < len.toNat ∨ m.count < 4 + len.toNat ∨ m.overLong = true) : m.checkFrame = .failed .badLength := by
  simp only [MgmtPort.checkFrame, hbuf, if_pos hbad]

variable (hbuf : m.buffer = code :: tag :: len :: rest)
  (hwell : ¬ (32 < len.toNat ∨ m.count < 4 + len.toNat ∨ m.overLong = true))

include hbuf hwell

/-- Step 2 of the checks: the sum of a well-formed frame (R169). -/
theorem MgmtPort.checkFrame_badCheck (hsum : byteSum (m.buffer.take (4 + len.toNat)) ≠ 0#8) :
    m.checkFrame = .failed .badCheck := by
  rw [hbuf] at hsum
  simp only [MgmtPort.checkFrame, hbuf, if_neg hwell, if_pos hsum]

/-- Step 3 of the checks: a code that is not in the catalogue (R169). -/
theorem MgmtPort.checkFrame_badCode (hsum : ¬ byteSum (m.buffer.take (4 + len.toNat)) ≠ 0#8)
    (hcode : catalogueLength code = none) : m.checkFrame = .failed .badCode := by
  rw [hbuf] at hsum
  simp only [MgmtPort.checkFrame, hbuf, if_neg hwell, if_neg hsum, hcode]

/-- Step 4 of the checks: a length that is not the code's (R169). -/
theorem MgmtPort.checkFrame_codeLength (hsum : ¬ byteSum (m.buffer.take (4 + len.toNat)) ≠ 0#8) {n : Nat}
    (hcode : catalogueLength code = some n) (hlen : len.toNat ≠ n) : m.checkFrame = .failed .badLength := by
  rw [hbuf] at hsum
  simp only [MgmtPort.checkFrame, hbuf, if_neg hwell, if_neg hsum, hcode, if_pos hlen]

end

/-- Settles O11: the steps of `MgmtPort.checkFrame` are those of the statement, in its order. -/
theorem frameFaultsAreAnsweredInOrder : Obligations.FrameFaultsAreAnsweredInOrder := by
  unfold Obligations.FrameFaultsAreAnsweredInOrder
  intro bytes s hawake hrecv hbytes t answer
  have hanswer : ∀ status, (s.mgmt.received bytes).checkFrame = .failed status → answer status := by
    intro status hfail
    have hcount : t.mgmt.count ≠ 0 := by simp [t, hbytes]
    simp only [answer, ← s.mgmt.echoedTag_received bytes]
    exact State.exec_transactionEnd_failed (s := t) hawake (by simp [t, hrecv]) hcount hfail
  refine ⟨fun hshort => hanswer _ (s.mgmt.checkFrame_short hshort), ?_⟩
  rintro code tag len rest rfl
  have hbuf : (s.mgmt.received (code :: tag :: len :: rest)).buffer = code :: tag :: len :: rest.take 33 :=
    s.mgmt.received_buffer _
  have hbadLength := s.mgmt.badLength_iff code tag len rest
  have hbadCheck (hle : len.toNat ≤ 32) :=
    s.mgmt.byteSum_received_ne_zero (code :: tag :: len :: rest) (n := 4 + len.toNat) (by omega)
  split_ifs with hlength hsum hcode hlen
  · exact hanswer _ (MgmtPort.checkFrame_badLength hbuf (hbadLength.2 hlength))
  · exact hanswer _
      (MgmtPort.checkFrame_badCheck hbuf (mt hbadLength.1 hlength) ((hbadCheck (by omega)).2 hsum))
  · obtain ⟨n, hn⟩ := Option.ne_none_iff_exists'.1 (mt catalogueLength_eq_none.1 (not_not.2 hcode))
    exact hanswer _
      (MgmtPort.checkFrame_codeLength hbuf (mt hbadLength.1 hlength) (mt (hbadCheck (by omega)).1 hsum) hn
        fun h => hlen (catalogueLength_eq_some.1 (h ▸ hn)))
  · exact hanswer _
      (MgmtPort.checkFrame_badCode hbuf (mt hbadLength.1 hlength) (mt (hbadCheck (by omega)).1 hsum)
        (catalogueLength_eq_none.2 hcode))

end Sys2Proof.Machine
end

section
/-! PROOFS. IDENTIFY, and the settings record that GET_CONFIG returns (R177, R178, R180, Table 11-3). -/

namespace Sys2Proof.Machine

open Sys2Proof

variable {s : State}

/-! ### IDENTIFY (R180) -/

theorem identifyPayload_eq :
    identifyPayload = [0x34#8, 0x00#8, 0x01#8, 0x01#8, 0x00#8, 0x04#8, 0x08#8, 0x10#8, 0x08#8] := by
  decide

/-- Settles O15: the payload is a constant, and the block leaves the state it is given. -/
theorem identifyAnswersTheFixedValues : Obligations.IdentifyAnswersTheFixedValues := by
  unfold Obligations.IdentifyAnswersTheFixedValues
  intro s tag hport
  rw [← identifyPayload_eq]
  exact congrArg Host.Outcome.next (hport.handRequest_eq_answered (t := s.endTransaction) rfl rfl tag)

/-! ### The settings record (R177, R178) -/

theorem State.PortOpen.exec_getConfig (h : s.PortOpen) (tag : Byte) :
    exec (.getConfig tag) s = .next (s.answered .ok tag s.mgmt.settings.bytes) :=
  congrArg Host.Outcome.next (h.handRequest_eq_answered (t := s.endTransaction) rfl rfl tag)

theorem bitAt_or_bitAt (low high : Bool) : bitAt low 0 ||| bitAt high 1 = yesNo low + 2#8 * yesNo high := by
  revert low high
  decide

/-- The two lowest bits of a byte alone, as the option bytes are stored (R177). -/
theorem bitAt_getLsbD_or (b : Byte) : bitAt (b.getLsbD 0) 0 ||| bitAt (b.getLsbD 1) 1 = b &&& 0x03#8 := by
  revert b
  decide

/-- The record of a SET_CONFIG in range has the bytes written, the ignored option bits 0 (R177, R178). -/
theorem Settings.bytes_ofRaw {raw : RawSettings} (h : raw.InRange) :
    (Settings.ofRaw raw).bytes =
      rawBytes
        { raw with frameOptions := raw.frameOptions &&& 0x03#8, batchOptions := raw.batchOptions &&& 0x03#8 } := by
  have hsource : (TickSource.ofCode raw.tickSource).code = raw.tickSource :=
    ((TickSource.ofCode_eq_iff h.1 _).1 rfl).symm
  simp only [Settings.bytes, rawBytes, Settings.ofRaw, hsource, bitAt_getLsbD_or]

/-- Whatever SET_CONFIG does to the window unit, of the port it writes the settings alone (R177). -/
theorem State.setConfig_mgmt_power (s : State) (c : Settings) :
    (s.setConfig c).mgmt = { s.mgmt with settings := c } ∧ (s.setConfig c).power = s.power := by
  unfold State.setConfig State.changeTickSource
  dsimp only
  split
  · exact ⟨rfl, rfl⟩
  · split <;> exact ⟨rfl, rfl⟩

theorem State.PortOpen.exec_setConfig (h : s.PortOpen) {raw : RawSettings} (hraw : raw.InRange) (tag : Byte) :
    exec (.setConfig tag raw) s =
      .next ((s.endTransaction.setConfig (Settings.ofRaw raw)).retain .ok tag []) := by
  have hset : exec (.setConfig tag raw) s = .next (s.handRequest tag (rawInRange raw) _) := rfl
  rw [hset, rawInRange_iff.2 hraw, h.handRequest_in]

/-- Settles O17: GET_CONFIG returns `Settings.bytes` of the record, which SET_CONFIG replaced by the one it carried. -/
theorem configReadsBackAsWritten : Obligations.ConfigReadsBackAsWritten := by
  unfold Obligations.ConfigReadsBackAsWritten
  constructor
  · intro s tag hport c
    rw [hport.exec_getConfig, Settings.bytes, bitAt_or_bitAt, bitAt_or_bitAt]
    cases s.mgmt.settings.tickSource <;> rfl
  · intro s tag tag' raw hport hraw
    obtain ⟨hmgmt, hpower⟩ := s.endTransaction.setConfig_mgmt_power (Settings.ofRaw raw)
    have hport' : ((s.endTransaction.setConfig (Settings.ofRaw raw)).retain .ok tag []).PortOpen := by
      simpa [State.PortOpen, State.Awake, State.OutOfReset, hpower, hmgmt] using hport.1
    refine ⟨_, hport.exec_setConfig hraw tag, ?_, ?_⟩
    · rw [State.retain_mgmt, hmgmt]
      rfl
    · rw [hport'.exec_getConfig, ← Settings.bytes_ofRaw hraw, State.retain_mgmt, hmgmt]

end Sys2Proof.Machine
end

section
/-! PROOFS. Without REFCLK or in pin reset no request, pin event or expiry is taken (R170, R175, R189). -/

namespace Sys2Proof.Machine

open Sys2Proof

variable {s : State}

/-! ### Requests (R165, R175) -/

theorem State.clocked_eq_false (h : ¬ s.Awake) : s.clocked = false :=
  Bool.eq_false_iff.2 (mt State.clocked_eq_true.1 h)

theorem State.takesRequests_eq_false (h : ¬ s.Awake) : s.takesRequests = false :=
  Bool.eq_false_iff.2 fun ht => h (State.takesRequests_eq_true.1 ht).1

/-- A request that does not reach its block changes nothing (R175). -/
theorem State.handRequest_closed (h : s.takesRequests = false) (tag : Byte) (inRange : Bool) (owner : State → Taken) :
    s.handRequest tag inRange owner = s := by
  rw [State.handRequest, h]
  rfl

theorem State.exec_request_closed {c : Instr} {bytes : List Byte} (hc : requestFrame c = some bytes)
    (h : s.takesRequests = false) : exec c s = .next s := by
  match c, hc with
  | .replay tag, rfl =>
    simp only [exec, execReplay, h]
    rfl
  | .identify _, rfl | .status _, rfl | .getConfig _, rfl | .setConfig .., rfl | .getWindow .., rfl
  | .setWindow .., rfl | .getWatch .., rfl | .setWatch .., rfl | .watchAck .., rfl | .seal _, rfl | .discard .., rfl
  | .clear _, rfl | .resume _, rfl | .freeze .., rfl | .thaw _, rfl | .kick _, rfl | .peekCompletion _, rfl
  | .retire _, rfl | .readEvents _, rfl | .ackEvents .., rfl | .setEventEnable .., rfl | .lookup .., rfl =>
    exact congrArg Host.Outcome.next (State.handRequest_closed h _ _ _)

/-! ### Pin events and expiries (R189) -/

theorem State.hostOnBus?_eq_none (h : ¬ s.Awake) (kind : HostKind) : s.hostOnBus? kind = none :=
  Option.eq_none_iff_forall_ne_some.2 fun _ ha => h (State.hostOnBus?_eq_some.1 ha).1

theorem State.engineOnBus_ne_true (h : ¬ s.Awake) (kind : AccessKind) : ¬ s.engineOnBus kind = true :=
  fun he => h (State.engineOnBus_eq_true.1 he).1

/-- No MRDY is taken while the part is not awake (R103, R189). -/
theorem State.exec_mrdy_asleep (h : ¬ s.Awake) (md : Word) :
    ∀ c ∈ ([.passThroughReadComplete md, .passThroughWriteComplete, .forwardedReadComplete md, .recordWriteComplete,
      .verifyReadComplete md] : List Instr), exec c s = .next s := by
  obtain ⟨hread, hwrite, hforward⟩ := s.exec_hostComplete_none md
  obtain ⟨hrecord, hverify⟩ := s.exec_engineComplete_none md
  simp [hread, hwrite, hforward, hrecord, hverify, State.hostOnBus?_eq_none h, State.engineOnBus_ne_true h]

/-- No transition of FRAME, edge of SCK or expiry is taken while the part is not awake (R189). -/
theorem State.exec_edge_or_expiry_asleep (h : ¬ s.Awake) (b : Bool) :
    ∀ c ∈ ([.countedEdge b, .sckRisingEdge b, .sckFallingEdge, .stallTimeout, .hostMemTimeout, .engineMemTimeout,
      .frameTimeoutExpiry, .periodExpiry, .windowLengthExpiry, .freezeExpiry] : List Instr), exec c s = .next s := by
  simp [exec, execCountedEdge, execSckRisingEdge, execSckFallingEdge, execStallTimeout, execHostMemTimeout,
    execEngineMemTimeout, execFrameTimeoutExpiry, execPeriodExpiry, execWindowLengthExpiry, execFreezeExpiry,
    State.clocked_eq_false h]

/-- An assertion of HCE only samples the pins while the part is not awake (R189). -/
theorem State.exec_hostRequest_asleep (h : ¬ s.Awake) (a : Addr) (w : Bool) (l : Lanes) (d : Word) (oe g : Bool) :
    exec (.hostRequest a w l d ⟨oe, g⟩) s = .next (s.sampled a w l d oe) := by
  simp only [exec, execHostRequest, State.clocked_eq_false h]
  rfl

/-! ### Edges of SCS (R165, R170) -/

theorem State.exec_transactionBegin_asleep (h : ¬ s.Awake) :
    exec .transactionBegin s = .next { s with mgmt := { s.mgmt with scs := true } } := by
  simp only [exec, execTransactionBegin, State.clocked_eq_false h]
  rfl

/-- Where no transaction is under way SCS rises alone. -/
theorem State.exec_transactionEnd_level
    (h : ¬ s.OutOfReset ∨ s.mgmt.state = .idle ∨ s.mgmt.state = .reset) :
    exec .transactionEnd s = .next { s with mgmt := { s.mgmt with scs := false } } := by
  rcases h with h | h
  · have hrunning : s.running = false := Bool.eq_false_iff.2 (mt State.running_eq_true.1 h)
    simp only [exec, execTransactionEnd, hrunning]
  · rcases h with h | h
    all_goals
      simp only [exec, execTransactionEnd, h]
      cases s.running <;> rfl

/-! ### An empty queue (R189) -/

/-- On an empty queue a waiting event comes to the front, and no time passes (R189). -/
theorem State.step_asleep (h : ¬ s.Awake) (hp : s.pending = []) :
    step s = .next s ∨ ∃ c, step s = .next { s with pending := [c] } := by
  simp only [step, hp, State.idle, State.clocked_eq_false h]
  cases s.waitingEvent? with
  | none => exact .inl rfl
  | some c => exact .inr ⟨c, rfl⟩

/-- Settles O4: every command named asks first whether the part is awake. -/
theorem stoppedClockAndResetTakeNoEvent : Obligations.StoppedClockAndResetTakeNoEvent := by
  unfold Obligations.StoppedClockAndResetTakeNoEvent
  refine ⟨fun s => ⟨rfl, rfl⟩, fun s h => ⟨?_, ?_, ?_, ?_, ?_, ?_, ?_⟩⟩
  · intro c hc
    obtain ⟨bytes, hframe⟩ := Option.ne_none_iff_exists'.1 hc
    exact State.exec_request_closed hframe (State.takesRequests_eq_false h)
  · exact State.exec_hostRequest_asleep h
  · exact State.exec_transactionBegin_asleep h
  · exact State.exec_transactionEnd_level
  · rintro hout (hrecv | hskip)
    · exact State.exec_transactionEnd_empty hout hrecv (.inr (State.clocked_eq_false h))
    · exact State.exec_transactionEnd_skipping hout hskip
  · intro md b c hc
    exact (List.mem_append.1 hc).elim (State.exec_mrdy_asleep h md c) (State.exec_edge_or_expiry_asleep h b c)
  · exact State.step_asleep h

end Sys2Proof.Machine
end

section
/-! PROOFS. The step on a queue with commands: the other half, the empty queue, is `State.step_asleep` and O3's. -/

namespace Sys2Proof.Machine

open Sys2Proof

/-- Settles O1: a queue with a command in front is the second of the two branches of `step`, its rest the new queue
(notes/assumptions/1.md). -/
theorem stepTakesTheFrontCommand : Obligations.StepTakesTheFrontCommand := by
  unfold Obligations.StepTakesTheFrontCommand
  intro c rest s hfront
  simp only [step, hfront]

end Sys2Proof.Machine
end

section
/-! PROOFS. Every step keeps the lines, the posting numbers, the sizes and, until RST_RELEASE, the reset state of every
block (R28, R51, R71, R98, R104, R111, R116, R125, R136, R138, R152, R156, R163, R165, R175, R179, R189): first each
shared operation, then each command. -/

namespace Sys2Proof.Machine

open Sys2Proof

variable {s t u : State}

/-! ### What the pins need of a host port (R125, R136, R138) -/

/-- Of the management port only its state and SDO are read. -/
theorem State.PinsOk.congr (h : s.PinsOk) (hh : t.host = s.host) (hm : t.mgmt.state = s.mgmt.state)
    (hd : t.mgmt.sdo = s.mgmt.sdo) (hp : t.power = s.power) : t.PinsOk where
  hwait := hh ▸ h.hwait
  hostReset := by rw [State.OutOfReset, hh, hp]; exact h.hostReset
  portReset := by rw [State.OutOfReset, hm, hp]; exact h.portReset
  sdo := by rw [hm, hd]; exact h.sdo
  stallTimer := hh ▸ h.stallTimer
  answer := hh ▸ h.answer
  herr := hh ▸ h.herr

/-- The lines of a host port are those of its state (R125, R136). -/
structure HostPort.LinesOk (p : HostPort) : Prop where
  hwait : p.hwait = true ↔ p.state ≠ .idle
  stallTimer : p.stallTimer.isSome = true → ∃ w, p.state = .stalled w
  answer : p.answer.isSome = true → p.hce = true ∧ p.state = .idle
  herr : p.herr = true → p.hce = true ∧ p.state = .idle

theorem State.PinsOk.lines (h : s.PinsOk) : s.host.LinesOk := ⟨h.hwait, h.stallTimer, h.answer, h.herr⟩

/-- A host port out of RESET before and after. -/
theorem State.PinsOk.withHost (h : s.PinsOk) (hs : s.host.state ≠ .reset) (hl : t.host.LinesOk)
    (ht : t.host.state ≠ .reset) (hm : t.mgmt.state = s.mgmt.state) (hd : t.mgmt.sdo = s.mgmt.sdo)
    (hp : t.power = s.power) : t.PinsOk where
  hwait := hl.hwait
  hostReset := by
    rw [State.OutOfReset, hp]
    exact iff_of_false ht (mt h.hostReset.2 hs)
  portReset := by rw [State.OutOfReset, hm, hp]; exact h.portReset
  sdo := by rw [hm, hd]; exact h.sdo
  stallTimer := hl.stallTimer
  answer := hl.answer
  herr := hl.herr

/-- A port outside IDLE drives no answer and no HERR (R123). -/
theorem State.PinsOk.quiet (h : s.PinsOk) (hs : s.host.state ≠ .idle) :
    s.host.answer = none ∧ s.host.herr = false := by
  refine ⟨Option.not_isSome_iff_eq_none.1 fun ha => hs (h.answer ha).2, Bool.eq_false_iff.2 fun he => hs (h.herr he).2⟩

/-- The stall timer is stopped outside STALLED (R136). -/
theorem State.PinsOk.stallTimer_eq_none (h : s.PinsOk) (hs : ∀ w, s.host.state ≠ .stalled w) :
    s.host.stallTimer = none :=
  Option.not_isSome_iff_eq_none.1 fun ht => (h.stallTimer ht).elim hs

/-! ### The relation -/

/-- From `s` to `t` the lines, the posting numbers and the sizes are kept, and the part does not enter pin reset. -/
structure State.KeepsLines (s t : State) : Prop where
  hold : s.HoldOk → t.HoldOk
  irq : s.IrqOk → t.IrqOk
  pins : s.PinsOk → t.PinsOk
  numbers : s.NumbersOk → t.NumbersOk
  sizes : s.SizesOk → t.SizesOk
  out : s.OutOfReset → t.OutOfReset

/-- The sizes of the lists that stand for places (R30, R118, R141, R165). -/
def State.sizes (s : State) : List Nat :=
  [s.windows.length, s.watch.length, s.table.slots.length, s.mgmt.buffer.length, s.mgmt.bits.length]

/-- What `KeepsLines` reads of a state. -/
def State.linesRead (s : State) :=
  ((s.engine.hold, s.engine.active), s.events, (s.host, s.mgmt.state, s.mgmt.sdo), s.queue, s.sizes, s.power)

/-- Where nothing that is read changes, all is kept. -/
theorem State.KeepsLines.of_eq (h : t.linesRead = s.linesRead) : s.KeepsLines t := by
  simp only [State.linesRead, State.sizes, Prod.mk.injEq, List.cons.injEq] at h
  obtain ⟨⟨hhold, hactive⟩, hevents, ⟨hhost, hstate, hsdo⟩, hqueue, hsizes, hpower⟩ := h
  obtain ⟨hwindows, hwatch, hslots, hbuffer, hbits, -⟩ := hsizes
  exact
    { hold := by rw [State.HoldOk, State.HoldOk, hhold, hactive]; exact id
      irq := by rw [State.IrqOk, State.IrqOk, hevents]; exact id
      pins := fun hp => hp.congr hhost hstate hsdo hpower
      numbers := by rw [State.NumbersOk, State.NumbersOk, hqueue]; exact id
      sizes := by rw [State.SizesOk, State.SizesOk, hwindows, hwatch, hslots, hbuffer, hbits]; exact id
      out := by rw [State.OutOfReset, State.OutOfReset, hpower]; exact id }

theorem State.KeepsLines.refl (s : State) : s.KeepsLines s := .of_eq rfl

theorem State.KeepsLines.trans (h : s.KeepsLines t) (h' : t.KeepsLines u) : s.KeepsLines u where
  hold := h'.hold ∘ h.hold
  irq := h'.irq ∘ h.irq
  pins := h'.pins ∘ h.pins
  numbers := h'.numbers ∘ h.numbers
  sizes := h'.sizes ∘ h.sizes
  out := h'.out ∘ h.out

/-- An operation that starts from a state in which nothing that is read has changed yet. -/
theorem State.KeepsLines.after (h : t.KeepsLines u) (he : t.linesRead = s.linesRead) : s.KeepsLines u :=
  (State.KeepsLines.of_eq he).trans h

theorem State.KeepsLines.ite {c : Prop} [Decidable c] (ht : s.KeepsLines t) (hu : s.KeepsLines u) :
    s.KeepsLines (if c then t else u) := by
  split
  · exact ht
  · exact hu

/-! ### Events (R156) -/

theorem irqLevel_iff (flags enables : BitVec 9) :
    irqLevel flags enables = true ↔
      ∃ i ∈ List.range 9, flags.getLsbD i = true ∧ enables.getLsbD i = true := by
  have hbit : flags &&& enables = 0#9 ↔ ∀ i < 9, (flags &&& enables).getLsbD i = false := by
    constructor
    · intro h i _
      rw [h, BitVec.getLsbD_zero]
    · intro h
      exact BitVec.eq_of_getLsbD_eq fun i hi => by rw [h i hi, BitVec.getLsbD_zero]
  rw [irqLevel, decide_eq_true_eq, ne_eq, hbit]
  simp only [BitVec.getLsbD_and, List.mem_range, not_forall, Bool.not_eq_false, Bool.and_eq_true, exists_prop]

/-- A settled event unit has IRQ at its level, whatever it was. -/
theorem State.irqOk_of_settle {e : EventUnit} (he : t.events = e.settle) : t.IrqOk := by
  rw [State.IrqOk, he]
  exact irqLevel_iff e.flags e.enables

/-- A change of the event unit alone. -/
theorem State.keepsLines_withEvents {e : EventUnit} (h : s.IrqOk → State.IrqOk { s with events := e }) :
    s.KeepsLines { s with events := e } where
  hold := id
  irq := h
  pins h := h.congr rfl rfl rfl rfl
  numbers := id
  sizes := id
  out := id

theorem State.keepsLines_report (s : State) (f : EventFlag) : s.KeepsLines (s.report f) :=
  State.keepsLines_withEvents fun _ => State.irqOk_of_settle rfl

/-- An error offered leaves the flags, the enables and IRQ (R162). -/
theorem State.keepsLines_offer (s : State) (c : ErrorCause) (a : Addr) (l : Lanes) (b : Byte) :
    s.KeepsLines (s.offer c a l b) := by
  refine State.keepsLines_withEvents fun h => ?_
  cases hc : s.events.capture with
  | none => rw [EventUnit.offer_of_not_valid hc]; exact h
  | some c => rw [EventUnit.offer_of_valid hc]; exact h

/-! ### The log, the table and the queues -/

theorem State.keepsLines_watchCheck (s : State) (a : Addr) (l : Lanes) (d : Word) :
    s.KeepsLines (s.watchCheck a l d) := by
  have hwatch : s.KeepsLines { s with watch := s.watch.map fun e => e.check a l d } :=
    .of_eq (by simp [State.linesRead, State.sizes])
  exact .ite (hwatch.trans (State.keepsLines_report _ .watch)) hwatch

/-- A table with as many slots. -/
theorem State.keepsLines_withTable (s : State) {x : BatchTable} (h : x.slots.length = s.table.slots.length) :
    s.KeepsLines { s with table := x } :=
  .of_eq (by simp [State.linesRead, State.sizes, h])

theorem State.keepsLines_dropBatch (s : State) (i : Byte) : s.KeepsLines (s.dropBatch i) :=
  (s.keepsLines_withTable (s.table.remove_slots_length i)).trans (.of_eq rfl)

theorem State.keepsLines_sealOpen (s : State) (c : SealCause) : s.KeepsLines (s.sealOpen c) := by
  unfold State.sealOpen
  split
  · exact .refl s
  · refine (s.keepsLines_withTable ?_).trans (.of_eq rfl)
    exact BatchTable.update_slots_length s.table _ _

/-- A posting takes the counter's number and advances the counter (R110, R111). -/
theorem State.NumbersOk.post (h : s.NumbersOk) (b : Batch) (o : BatchOutcome) : (s.post b o).NumbersOk := by
  intro i hi
  rw [State.post_queue] at hi ⊢
  simp only [List.length_append, List.length_singleton] at hi ⊢
  by_cases hlast : i = s.queue.posted.length
  · subst hlast
    rw [List.getElem?_append_right (Nat.le_refl _), Nat.sub_self, Nat.add_sub_cancel_left, BitVec.add_sub_cancel]
    rfl
  · have hlt : i < s.queue.posted.length := by omega
    have hnum : s.queue.counter - BitVec.ofNat 8 (s.queue.posted.length - i) =
        s.queue.counter + 1#8 - BitVec.ofNat 8 (s.queue.posted.length + 1 - i) := by
      rw [show s.queue.posted.length + 1 - i = (s.queue.posted.length - i) + 1 by omega, BitVec.ofNat_add]
      bv_omega
    rw [List.getElem?_append_left hlt, h i hlt, hnum]

/-- The oldest entry gone, the others keep their numbers (R111, R113). -/
theorem State.NumbersOk.retire (h : s.NumbersOk) {e : CompletionEntry} {rest : List CompletionEntry}
    (hp : s.queue.posted = e :: rest) : State.NumbersOk { s with queue := { s.queue with posted := rest } } := by
  intro i hi
  have hi' : i < rest.length := hi
  have hnum := h (i + 1) (by rw [hp, List.length_cons]; omega)
  rw [hp, List.getElem?_cons_succ, List.length_cons, Nat.add_sub_add_right] at hnum
  exact hnum

/-- A change of the completion queue alone. -/
theorem State.keepsLines_withQueue {q : CompletionQueue} (h : s.NumbersOk → State.NumbersOk { s with queue := q }) :
    s.KeepsLines { s with queue := q } where
  hold := id
  irq := id
  pins h := h.congr rfl rfl rfl rfl
  numbers := h
  sizes := id
  out := id

theorem State.keepsLines_post (s : State) (b : Batch) (o : BatchOutcome) : s.KeepsLines (s.post b o) :=
  (State.keepsLines_withQueue fun h => h.post b o).trans (State.keepsLines_report _ .done)

theorem State.place_slots_length (s : State) (a : Addr) (l : Lanes) (d : Word) :
    (s.place a l d).2.table.slots.length = s.table.slots.length := by
  unfold State.place
  split
  · rfl
  · split
    · split
      · exact BatchTable.update_slots_length s.table _ _
      · split
        · rename_i b x hx
          have hlen : x.slots.length = s.table.slots.length := by
            unfold BatchTable.open? at hx
            split at hx
            · obtain ⟨-, rfl⟩ := Prod.mk.inj (Option.some.inj hx)
              exact putFirstFree_length _ _
            · cases hx
          exact (BatchTable.update_slots_length x _ _).trans hlen
        · rfl
    · rfl

/-- A placement changes the log and the table alone. -/
theorem State.keepsLines_place (s : State) (a : Addr) (l : Lanes) (d : Word) : s.KeepsLines (s.place a l d).2 := by
  have hlen := s.place_slots_length a l d
  rw [s.place_eq] at hlen ⊢
  exact (s.keepsLines_withTable hlen).trans (.of_eq rfl)

/-! ### The host port and the arbiter -/

/-- A change of the host port alone, out of RESET before and after. -/
theorem State.keepsLines_withHost {p : HostPort}
    (h : s.PinsOk → s.host.state ≠ .reset ∧ p.state ≠ .reset ∧ p.LinesOk) : s.KeepsLines { s with host := p } where
  hold := id
  irq := id
  pins hs := by
    obtain ⟨hbefore, hafter, hlines⟩ := h hs
    exact hs.withHost hbefore hlines hafter rfl rfl rfl
  numbers := id
  sizes := id
  out := id

/-- A port in MEMORY or STALLED that comes to IDLE, its stall timer stopped (R123, R134). -/
theorem HostPort.linesOk_idle {p : HostPort} (hs : p.state = .idle) (hw : p.hwait = false) (ht : p.stallTimer = none)
    (ha : p.answer.isSome = true → p.hce = true) (he : p.herr = true → p.hce = true) : p.LinesOk where
  hwait := by simp [hs, hw]
  stallTimer := by simp [ht]
  answer h := ⟨ha h, hs⟩
  herr h := ⟨he h, hs⟩

/-- A port in MEMORY or STALLED drives neither an answer nor HERR (R125, R136). -/
theorem HostPort.linesOk_busy {p : HostPort} (hs : p.state ≠ .idle) (hw : p.hwait = true)
    (ht : p.stallTimer.isSome = true → ∃ w, p.state = .stalled w) (ha : p.answer = none) (he : p.herr = false) :
    p.LinesOk where
  hwait := iff_of_true hw hs
  stallTimer := ht
  answer := by simp [ha]
  herr := by simp [he]

/-- A port in IDLE with other levels at its pins. -/
theorem State.PinsOk.linesOk_of_idle (h : s.PinsOk) (hs : s.host.state = .idle) :
    s.host.hwait = false ∧ s.host.stallTimer = none :=
  ⟨Bool.eq_false_iff.2 fun hw => h.hwait.1 hw hs, h.stallTimer_eq_none (by simp [hs])⟩

theorem State.keepsLines_arbitrate (s : State) : s.KeepsLines s.arbitrate := by
  rcases s.arbitrate_cases with h | ⟨a, -, hs, -, h⟩ | ⟨q, -, -, -, h⟩ <;> rw [h]
  · exact .refl s
  · refine (State.keepsLines_withHost (s := s) (p := { s.host with state := .memory { a with inFlight := true } })
      fun hp => ?_).trans (.of_eq rfl)
    obtain ⟨ha, he⟩ := hp.quiet (by simp [hs])
    refine ⟨by simp [hs], nofun, HostPort.linesOk_busy nofun (hp.hwait.2 (by simp [hs])) ?_ ha he⟩
    simp [hp.stallTimer_eq_none (by simp [hs])]
  · exact .of_eq rfl

theorem State.keepsLines_freePort (s : State) : s.KeepsLines s.freePort :=
  (State.keepsLines_arbitrate _).after rfl

/-- What the placement of a write leaves when there is space (R131, R134). -/
theorem State.placeForHost_eq_some {w : HeldWrite} (h : s.placeForHost w = some t) :
    ∃ i, t = (s.place w.addr w.lanes w.data).2.acceptPlaced (w.window.bind fun n => s.windows[n]?) w.addr i := by
  have hw : (s.place w.addr w.lanes w.data).2.windows = s.windows := by rw [s.place_eq]
  unfold State.placeForHost at h
  split at h <;> rename_i hx <;> rw [hx] at hw ⊢
  · exact ⟨_, by rw [← Option.some.inj h, State.placed_eq, hw]⟩
  · exact ⟨_, by rw [← Option.some.inj h, State.placed_eq, hw]⟩
  · cases h

/-- A placed write is accepted in IDLE, or in STALLED with the stall timer stopped (R131, R134). -/
theorem State.keepsLines_acceptPlaced (s : State) {x : Option Timer}
    (h : s.host.state = .idle ∧ x = s.host.stallTimer ∨ (∃ w, s.host.state = .stalled w) ∧ x = none)
    (window : Option WindowEntry) (a : Addr) (i : Byte) :
    s.KeepsLines
      { s.acceptPlaced window a i with
        host := { s.host with state := .idle, hwait := false, stallTimer := x } } := by
  refine .trans (t := { s with host := { s.host with state := .idle, hwait := false, stallTimer := x } })
    (State.keepsLines_withHost fun hp => ?_) (.of_eq rfl)
  have hstate : s.host.state ≠ .reset := by rcases h with ⟨hs, -⟩ | ⟨⟨w, hs⟩, -⟩ <;> simp [hs]
  have hstopped : x = none := by
    rcases h with ⟨hs, hx⟩ | ⟨-, hx⟩
    · rw [hx, hp.stallTimer_eq_none (by simp [hs])]
    · exact hx
  exact ⟨hstate, nofun, HostPort.linesOk_idle rfl rfl hstopped (fun ha => (hp.answer ha).1) fun he => (hp.herr he).1⟩

theorem State.keepsLines_removalNotice (s : State) : s.KeepsLines s.removalNotice := by
  unfold State.removalNotice
  split
  · rename_i w hs
    split
    · rename_i t ht
      obtain ⟨i, rfl⟩ := State.placeForHost_eq_some ht
      have hhost : (s.place w.addr w.lanes w.data).2.host = s.host := by rw [s.place_eq]
      exact (s.keepsLines_place _ _ _).trans (State.keepsLines_acceptPlaced _ (.inr ⟨⟨w, hhost ▸ hs⟩, rfl⟩) _ _ i)
    · exact .refl s
  · exact .refl s

/-! ### The commit engine -/

theorem State.keepsLines_update (s : State) (i : Byte) (f : Batch → Batch) :
    s.KeepsLines { s with table := s.table.update i f } :=
  s.keepsLines_withTable (s.table.update_slots_length i f)

theorem State.keepsLines_placeRequest (s : State) (k : AccessKind) : s.KeepsLines (s.placeRequest k) := by
  unfold State.placeRequest
  split
  · exact (State.keepsLines_arbitrate _).after rfl
  · exact .refl s

theorem State.keepsLines_giveGrant (s : State) (i : Byte) (g : Nat) : s.KeepsLines (s.giveGrant i g) :=
  (s.keepsLines_update i fun b => { b with state := .applying, windowsUsed := satInc b.windowsUsed }).trans
    ((State.keepsLines_placeRequest _ .recordWrite).after rfl)

theorem State.keepsLines_charge (s : State) (g : Nat) : s.KeepsLines (s.charge g) := by
  rw [s.charge_eq]
  exact .of_eq rfl

/-- HOLD is asserted with the admission (R77, R98). -/
theorem State.keepsLines_admitHead (s : State) (i : Byte) (g : Nat) : s.KeepsLines (s.admitHead i g) := by
  refine .trans ?_ (State.keepsLines_giveGrant _ i g)
  exact
    { hold := fun _ => rfl
      irq := id
      pins := fun h => h.congr rfl rfl rfl rfl
      numbers := id
      sizes := id
      out := id }

theorem State.keepsLines_refuseOversize (s : State) (b : Batch) : s.KeepsLines (s.refuseOversize b) := by
  have hleave : ∀ u : State, u.KeepsLines ((u.dropBatch b.id).removalNotice.awaitAttempt) := fun u =>
    (u.keepsLines_dropBatch b.id).trans ((State.keepsLines_removalNotice _).trans (.of_eq rfl))
  refine (s.keepsLines_post { b with applied := 0, windowsUsed := 0, halts := 0 } .refused).trans ?_
  unfold State.refuseOversize
  dsimp only
  split
  · exact (State.keepsLines_offer _ .oversize _ _ _).trans (hleave _)
  · exact hleave _

theorem State.keepsLines_attempt (s : State) : s.KeepsLines s.attempt := by
  rcases s.attempt_cases with h | ⟨b, -, h | ⟨w, g, h⟩⟩ <;> rw [h]
  · exact .refl s
  · exact s.keepsLines_refuseOversize b
  · exact (State.keepsLines_admitHead _ b.id g).after rfl

theorem State.keepsLines_countApplied (s : State) (i : Byte) (r : Record) : s.KeepsLines (s.countApplied i r) :=
  (s.keepsLines_update i fun b => { b with applied := b.applied + 1 }).trans
    ((State.keepsLines_watchCheck _ r.addr r.lanes r.data).after rfl)

/-- HOLD is deasserted with the active batch gone (R98). -/
theorem State.keepsLines_clearActive (s : State) : s.KeepsLines s.clearActive where
  hold _ := rfl
  irq := id
  pins h := h.congr rfl rfl rfl rfl
  numbers := id
  sizes := id
  out := id

theorem State.keepsLines_complete (s : State) (b : Batch) : s.KeepsLines (s.complete b) :=
  (s.keepsLines_post b _).trans ((State.keepsLines_dropBatch _ b.id).trans
    ((State.keepsLines_removalNotice _).trans (State.keepsLines_clearActive _)))

theorem State.keepsLines_abortEnd (s : State) (b : Batch) : s.KeepsLines (s.abortEnd b) := by
  have hposted := s.keepsLines_post b .aborted
  have hleave : ∀ u : State, u.KeepsLines (u.dropBatch b.id).clearActive := fun u =>
    (u.keepsLines_dropBatch b.id).trans (State.keepsLines_clearActive _)
  unfold State.abortEnd
  dsimp only
  split
  · exact (hposted.trans (State.keepsLines_report _ .torn)).trans (hleave _)
  · exact hposted.trans (hleave _)

theorem State.keepsLines_pause (s : State) (b : Batch) : s.KeepsLines (s.pause b) := by
  have hpaused := (s.keepsLines_update b.id fun b => { b with state := .paused }).trans
    (State.keepsLines_report _ .torn)
  exact .ite (hpaused.trans (State.keepsLines_giveGrant _ b.id _)) hpaused

theorem State.keepsLines_recordSuccess (s : State) (i : Byte) (r : Record) : s.KeepsLines (s.recordSuccess i r) := by
  refine (s.keepsLines_countApplied i r).trans ?_
  unfold State.recordSuccess
  dsimp only
  split
  · exact .of_eq rfl
  · refine State.KeepsLines.after (t :=
      { s.countApplied i r with
        engine := { (s.countApplied i r).engine with grant := (s.countApplied i r).engine.grant - 1 } }) ?_ rfl
    exact .ite (State.keepsLines_complete _ _)
      (.ite (State.keepsLines_pause _ _) (State.keepsLines_placeRequest _ .recordWrite))

theorem State.keepsLines_takeFault (s : State) (i : Byte) (r : Record) (c : ErrorCause) :
    s.KeepsLines (s.takeFault i r c) :=
  (s.keepsLines_update i _).trans ((State.keepsLines_report _ .fault).trans (State.keepsLines_offer _ c _ _ _))

theorem State.keepsLines_applyingEnd (s : State) (i : Byte) (r : Record) (e : AccessEnd) :
    s.KeepsLines (s.applyingEnd i r e) := by
  cases e with
  | writeDone => exact .ite (s.keepsLines_placeRequest .verifyRead) (s.keepsLines_recordSuccess i r)
  | verifyDone md => exact .ite (s.keepsLines_recordSuccess i r) (s.keepsLines_takeFault i r .verify)
  | timedOut => exact s.keepsLines_takeFault i r .engineMemTimeout

theorem State.keepsLines_abortingEnd (s : State) (i : Byte) (r : Record) (e : AccessEnd) :
    s.KeepsLines (s.abortingEnd i r e) := by
  have hend : ∀ u : State, u.KeepsLines
      (match u.table.find? i with
      | some b => (u.abortEnd b).removalNotice
      | none => u) := fun u => by
    split
    · exact (u.keepsLines_abortEnd _).trans (State.keepsLines_removalNotice _)
    · exact .refl u
  cases e with
  | timedOut => exact hend s
  | _ => exact (s.keepsLines_countApplied i r).trans (hend _)

theorem State.keepsLines_engineAccessEnd (s : State) (e : AccessEnd) : s.KeepsLines (s.engineAccessEnd e) := by
  refine State.KeepsLines.trans (t := s.released) (.of_eq rfl) (State.KeepsLines.trans ?_ (State.keepsLines_freePort _))
  split
  · exact .ite (State.keepsLines_abortingEnd _ _ _ e) (State.keepsLines_applyingEnd _ _ _ e)
  · exact .refl _

theorem State.keepsLines_abortActive (s : State) (b : Batch) : s.KeepsLines (s.abortActive b).2 := by
  have hend : ∀ u : State, u.KeepsLines
      (match u.table.find? b.id with
      | some c => (true, u.abortEnd c)
      | none => (true, u)).2 := fun u => by
    split
    · exact u.keepsLines_abortEnd _
    · exact .refl u
  have hidle : s.KeepsLines { s with engine := { s.engine with access := .idle } } := .of_eq rfl
  unfold State.abortActive
  dsimp only
  split
  · exact hend s
  · split
    · exact hidle.trans ((State.keepsLines_countApplied _ b.id _).trans (hend _))
    · exact hidle.trans (hend _)
  · exact (s.keepsLines_update b.id _).trans (.of_eq rfl)

theorem State.keepsLines_clearAbort (s : State) : s.KeepsLines s.clearAbort.2.2 := by
  unfold State.clearAbort
  split
  · exact .refl s
  · rename_i b _
    have habort := s.keepsLines_abortActive b
    split
    · exact .refl s
    · split <;> rename_i hx <;> rw [hx] at habort
      · exact habort.trans (State.keepsLines_arbitrate _)
      · exact habort

/-! ### The window unit -/

theorem State.keepsLines_setConfig (s : State) (c : Settings) : s.KeepsLines (s.setConfig c) := by
  unfold State.setConfig State.changeTickSource
  dsimp only
  split
  · exact .of_eq rfl
  · split <;> exact .of_eq rfl

theorem State.keepsLines_countEdge (s : State) : s.KeepsLines s.countEdge :=
  .ite (.of_eq rfl) (.of_eq rfl)

theorem State.keepsLines_endFreeze (s : State) : s.KeepsLines s.endFreeze :=
  .ite (.of_eq rfl) (.of_eq rfl)

/-! ### Host requests (R123 to R137) -/

theorem State.keepsLines_startHostAccess (hs : s.host.state = .idle) (ha : s.host.answer = none)
    (he : s.host.herr = false) (k : HostKind) (a : Addr) (l : Lanes) (d : Word) (w : Option Nat) :
    s.KeepsLines (s.startHostAccess k a l d w) := by
  refine (State.keepsLines_withHost fun hp => ?_).trans (State.keepsLines_arbitrate _)
  refine ⟨by simp [hs], nofun, HostPort.linesOk_busy nofun rfl ?_ ha he⟩
  simp [hp.stallTimer_eq_none (by simp [hs])]

theorem State.keepsLines_stageWrite (hs : s.host.state = .idle) (ha : s.host.answer = none) (he : s.host.herr = false)
    (w : HeldWrite) : s.KeepsLines (s.stageWrite w) := by
  unfold State.stageWrite
  split
  · rename_i t ht
    obtain ⟨i, rfl⟩ := State.placeForHost_eq_some ht
    have hhost : (s.place w.addr w.lanes w.data).2.host = s.host := by rw [s.place_eq]
    exact (s.keepsLines_place _ _ _).trans (State.keepsLines_acceptPlaced _ (.inl ⟨hhost ▸ hs, rfl⟩) _ _ i)
  · refine (State.keepsLines_withHost fun hp => ?_).trans (State.keepsLines_report _ .full)
    exact ⟨by simp [hs], nofun, HostPort.linesOk_busy nofun rfl (fun _ => ⟨w, rfl⟩) ha he⟩

/-- A port out of RESET comes to IDLE, where its stall timer does not run (R123). -/
theorem State.keepsLines_toIdle (hs : s.host.state ≠ .reset)
    (ht : s.host.stallTimer = none ∨ ∀ w, s.host.state ≠ .stalled w) {x : Option Word} {e : Bool}
    (hx : s.PinsOk → x.isSome = true → s.host.hce = true) (he : s.PinsOk → e = true → s.host.hce = true) :
    s.KeepsLines { s with host := { s.host with state := .idle, hwait := false, answer := x, herr := e } } := by
  refine State.keepsLines_withHost fun hp => ⟨hs, nofun, HostPort.linesOk_idle rfl rfl ?_ (hx hp) (he hp)⟩
  exact ht.elim id hp.stallTimer_eq_none

theorem State.keepsLines_acceptWrite (hs : s.host.state ≠ .reset)
    (ht : s.host.stallTimer = none ∨ ∀ w, s.host.state ≠ .stalled w) : s.KeepsLines s.acceptWrite :=
  State.keepsLines_toIdle hs ht (fun hp ha => (hp.answer ha).1) fun hp he => (hp.herr he).1

/-- The word of a read is there only while HCE is asserted (R123, R186). -/
theorem State.keepsLines_answerRead (hs : s.host.state ≠ .reset)
    (ht : s.host.stallTimer = none ∨ ∀ w, s.host.state ≠ .stalled w) (w : Word) (d : Bool) :
    s.KeepsLines (s.answerRead w d) := by
  refine State.keepsLines_toIdle hs ht (fun _ ha => ?_) fun hp he => (hp.herr he).1
  cases hce : s.host.hce with
  | true => rfl
  | false => simp [hce] at ha

/-- HERR is driven only while HCE is asserted (R129, R130, R135). -/
theorem State.keepsLines_refuseAccess (hs : s.host.state ≠ .reset)
    (ht : s.host.stallTimer = none ∨ ∀ w, s.host.state ≠ .stalled w) (c : ErrorCause) (a : Addr) (l : Lanes) :
    s.KeepsLines (s.refuseAccess c a l) :=
  (State.keepsLines_toIdle hs ht (fun hp ha => (hp.answer ha).1) fun _ he => he).trans
    ((State.keepsLines_report _ .refused).trans (State.keepsLines_offer _ c a l _))

/-- The lines of the last completion have gone back (R123). -/
def State.cleared (s : State) : State := { s with host := { s.host with herr := false, answer := none } }

/-- What a host request taken can do, once the lines of the last completion have gone back: nothing more, refuse the
write, answer the read, place a write with a lane selected, or go to the array (R124, R127 to R131, R137). -/
theorem State.takeHostRequest_cases (s : State) :
    s.takeHostRequest = s.cleared ∨
    s.takeHostRequest = s.cleared.refuseAccess .blocked s.host.ha s.host.hbe ∨
    (∃ w, s.takeHostRequest = s.cleared.answerRead w false) ∨
    (s.host.hbe ≠ 0#4 ∧ s.policyOf s.host.ha = .stage ∧
      s.takeHostRequest =
        s.cleared.stageWrite ⟨s.host.ha, s.host.hbe, s.host.hd, (s.deciding s.host.ha).map Prod.fst⟩) ∨
    ∃ k l d, s.takeHostRequest =
      s.cleared.startHostAccess k s.host.ha l d ((s.deciding s.host.ha).map Prod.fst) := by
  have hpolicy : s.cleared.policyOf s.host.ha = s.policyOf s.host.ha := rfl
  unfold State.takeHostRequest
  dsimp only
  split
  · split
    · exact .inl rfl
    · rename_i hlanes
      split <;> rename_i hp
      · exact .inr (.inr (.inr (.inr ⟨_, _, _, rfl⟩)))
      · exact .inr (.inr (.inr (.inl ⟨hlanes, hpolicy ▸ hp, rfl⟩)))
      · exact .inr (.inl rfl)
  · split
    · unfold State.forwardRead
      dsimp only
      split
      · exact .inr (.inr (.inl ⟨_, rfl⟩))
      · exact .inr (.inr (.inr (.inr ⟨_, _, _, rfl⟩)))
    · exact .inr (.inr (.inr (.inr ⟨_, _, _, rfl⟩)))

theorem State.keepsLines_takeHostRequest (hs : s.host.state = .idle) : s.KeepsLines s.takeHostRequest := by
  have hidle : s.cleared.host.state = .idle := hs
  have hr : s.cleared.host.state ≠ .reset := by simp [hidle]
  have ht : s.cleared.host.stallTimer = none ∨ ∀ w, s.cleared.host.state ≠ .stalled w := .inr (by simp [hidle])
  have hcleared : s.KeepsLines s.cleared := by
    refine State.keepsLines_withHost fun hp => ⟨hr, hr, ?_⟩
    obtain ⟨hwait, htimer⟩ := hp.linesOk_of_idle hs
    exact HostPort.linesOk_idle hs hwait htimer nofun nofun
  refine hcleared.trans ?_
  rcases s.takeHostRequest_cases with h | h | ⟨w, h⟩ | ⟨-, -, h⟩ | ⟨k, l, d, h⟩ <;> rw [h]
  · exact .refl _
  · exact State.keepsLines_refuseAccess hr ht _ _ _
  · exact State.keepsLines_answerRead hr ht w false
  · exact State.keepsLines_stageWrite hidle rfl rfl _
  · exact State.keepsLines_startHostAccess hidle rfl rfl k _ l d _

theorem State.keepsLines_decideTogether (s : State) : s.KeepsLines s.decideTogether := by
  rcases s.decideTogether_cases with h | ⟨q, -, -, h⟩ <;> rw [h]
  · exact .refl s
  · exact (State.keepsLines_arbitrate _).after rfl

/-- The pins take other levels, HCE asserted; none of the port's own lines falls with it (R123). -/
theorem State.keepsLines_sampled (s : State) (a : Addr) (write : Bool) (l : Lanes) (d : Word) (oe : Bool) :
    s.KeepsLines (s.sampled a write l d oe) where
  hold := id
  irq := id
  pins h :=
    { hwait := h.hwait
      hostReset := h.hostReset
      portReset := h.portReset
      sdo := h.sdo
      stallTimer := h.stallTimer
      answer := fun ha => ⟨rfl, (h.answer ha).2⟩
      herr := fun he => ⟨rfl, (h.herr he).2⟩ }
  numbers := id
  sizes := id
  out := id

theorem State.keepsLines_execHostRequest (s : State) (a : Addr) (write : Bool) (l : Lanes) (d : Word)
    (hce : HceAssertion) : ∃ t, execHostRequest a write l d hce s = .next t ∧ s.KeepsLines t := by
  refine ⟨_, rfl, (s.keepsLines_sampled a write l d hce.oe).trans ?_⟩
  split
  · rename_i hc
    simp only [Bool.and_eq_true, decide_eq_true_eq] at hc
    have htaken := State.keepsLines_takeHostRequest (s := s.sampled a write l d hce.oe) hc.2
    exact .ite (htaken.trans (State.keepsLines_decideTogether _)) htaken
  · exact .refl _

/-- HCE deasserted takes back what it drives (R123). -/
theorem State.keepsLines_execHceDeassert (s : State) : ∃ t, execHceDeassert s = .next t ∧ s.KeepsLines t := by
  refine ⟨_, rfl, ⟨id, id, fun h => ?_, id, id, id⟩⟩
  have hidle : s.host.state.dropHce = .idle ↔ s.host.state = .idle := by cases s.host.state <;> simp
  have hreset : s.host.state.dropHce = .reset ↔ s.host.state = .reset := by cases s.host.state <;> simp
  exact
    { hwait := h.hwait.trans (not_congr hidle.symm)
      hostReset := hreset.trans h.hostReset
      portReset := h.portReset
      sdo := h.sdo
      stallTimer := fun ht => by
        obtain ⟨w, hw⟩ := h.stallTimer ht
        exact ⟨w, by rw [hw]; rfl⟩
      answer := nofun
      herr := nofun }

/-! ### The management port (R165 to R175) -/

/-- A change of the management port alone, out of RESET before and after or not at all. -/
theorem State.keepsLines_withMgmt {m : MgmtPort}
    (hp : s.PinsOk → (m.state = .reset ↔ s.mgmt.state = .reset) ∧ (m.sdo.isSome = true ↔ m.state = .receiving))
    (hsz : s.SizesOk → m.buffer.length ≤ Config.bufferBytes ∧ m.bits.length < 8) :
    s.KeepsLines { s with mgmt := m } where
  hold := id
  irq := id
  pins h :=
    { hwait := h.hwait
      hostReset := h.hostReset
      portReset := (hp h).1.trans h.portReset
      sdo := (hp h).2
      stallTimer := h.stallTimer
      answer := h.answer
      herr := h.herr }
  numbers := id
  sizes h := by
    have hport := hsz h
    obtain ⟨hwindows, hwatch, hslots, -⟩ := h
    exact ⟨hwindows, hwatch, hslots, hport⟩
  out := id

/-- Out of pin reset the management port is not in RESET (R175). -/
theorem State.PinsOk.mgmt_ne_reset (h : s.PinsOk) (hout : s.OutOfReset) : s.mgmt.state ≠ .reset :=
  fun hr => h.portReset.1 hr hout

theorem State.outOfReset_of_takes (h : s.takesRequests = true) : s.OutOfReset := by
  obtain ⟨⟨hout, -⟩, -⟩ := State.takesRequests_eq_true.1 h
  exact hout

theorem State.keepsLines_endTransaction (hout : s.OutOfReset) : s.KeepsLines s.endTransaction := by
  refine State.keepsLines_withMgmt (fun hp => ⟨iff_of_false nofun (hp.mgmt_ne_reset hout), iff_of_false nofun nofun⟩) ?_
  rintro ⟨-, -, -, hbuffer, -⟩
  exact ⟨hbuffer, Nat.zero_lt_succ 7⟩

/-- A request keeps what its owning block keeps (R172). -/
theorem State.keepsLines_handRequest (s : State) (tag : Byte) (inRange : Bool) {owner : State → Taken}
    (ho : ∀ u : State, u.KeepsLines (owner u).state) : s.KeepsLines (s.handRequest tag inRange owner) := by
  unfold State.handRequest
  split
  · rename_i ht
    have hended := State.keepsLines_endTransaction (State.outOfReset_of_takes ht)
    exact .ite ((hended.trans (ho _)).trans (.of_eq rfl)) (hended.trans (.of_eq rfl))
  · exact .refl s

theorem State.keepsLines_execDiscard (s : State) (tag i : Byte) :
    ∃ t, execDiscard tag i s = .next t ∧ s.KeepsLines t := by
  refine ⟨_, rfl, s.keepsLines_handRequest tag true fun u => ?_⟩
  have hremoved : ∀ b : Batch, u.KeepsLines (u.dropBatch b.id).removalNotice := fun b =>
    (u.keepsLines_dropBatch b.id).trans (State.keepsLines_removalNotice _)
  split
  · exact .refl u
  · rename_i b _
    split
    · exact hremoved b
    · exact hremoved b
    · exact .refl u
    · have habort := u.keepsLines_abortActive b
      split <;> rename_i hx <;> rw [hx] at habort
      · exact habort.trans ((State.keepsLines_removalNotice _).trans (State.keepsLines_arbitrate _))
      · exact habort

theorem State.keepsLines_dropBatches (s : State) (ids : List Byte) : s.KeepsLines (ids.foldl State.dropBatch s) := by
  induction ids generalizing s with
  | nil => exact .refl s
  | cons i ids ih => exact (s.keepsLines_dropBatch i).trans (ih _)

theorem State.keepsLines_execClear (s : State) (tag : Byte) : ∃ t, execClear tag s = .next t ∧ s.KeepsLines t := by
  refine ⟨_, rfl, s.keepsLines_handRequest tag true fun u => ?_⟩
  have hcleared := (u.keepsLines_dropBatches u.table.unadmitted).trans (State.keepsLines_clearAbort _)
  exact .ite hcleared (hcleared.trans (State.keepsLines_removalNotice _))

theorem State.keepsLines_execResume (s : State) (tag : Byte) : ∃ t, execResume tag s = .next t ∧ s.KeepsLines t := by
  refine ⟨_, rfl, s.keepsLines_handRequest tag true fun u => ?_⟩
  split
  · split
    · exact (u.keepsLines_update _ _).trans (State.keepsLines_placeRequest _ .recordWrite)
    · exact .refl u
  · exact .refl u

/-- A request handed to its owning block, whichever it is (R172, Table 9-3). -/
theorem State.keepsLines_handOver (s : State) (i : Instr) : ∃ t, s.handOver i = .next t ∧ s.KeepsLines t := by
  match i with
  | .identify _ | .status _ | .getConfig _ | .getWindow .. | .getWatch .. | .readEvents _ | .lookup .. =>
    exact ⟨_, rfl, s.keepsLines_handRequest _ _ fun u => .refl u⟩
  | .freeze .. => exact ⟨_, rfl, s.keepsLines_handRequest _ _ fun u => .of_eq rfl⟩
  | .setWatch .. | .watchAck .. =>
    exact ⟨_, rfl, s.keepsLines_handRequest _ _ fun u => .of_eq (by simp [State.linesRead, State.sizes])⟩
  | .ackEvents .. | .setEventEnable .. =>
    exact ⟨_, rfl, s.keepsLines_handRequest _ _ fun u =>
      State.keepsLines_withEvents fun _ => State.irqOk_of_settle rfl⟩
  | .replay _ =>
    refine ⟨_, rfl, ?_⟩
    split
    · rename_i ht
      exact State.keepsLines_endTransaction (State.outOfReset_of_takes ht)
    · exact .refl s
  | .setConfig .. => exact ⟨_, rfl, s.keepsLines_handRequest _ _ fun u => u.keepsLines_setConfig _⟩
  | .setWindow .. =>
    refine ⟨_, rfl, s.keepsLines_handRequest _ _ fun u => ?_⟩
    split
    · exact .of_eq (by simp [State.linesRead, State.sizes])
    · exact .refl u
  | .seal _ =>
    refine ⟨_, rfl, s.keepsLines_handRequest _ _ fun u => ?_⟩
    split
    · exact u.keepsLines_sealOpen .request
    · exact .refl u
  | .discard tag i => exact s.keepsLines_execDiscard tag i
  | .clear tag => exact s.keepsLines_execClear tag
  | .resume tag => exact s.keepsLines_execResume tag
  | .thaw _ =>
    refine ⟨_, rfl, s.keepsLines_handRequest _ _ fun u => ?_⟩
    split
    · exact u.keepsLines_endFreeze
    · exact .refl u
  | .kick _ =>
    refine ⟨_, rfl, s.keepsLines_handRequest _ _ fun u => ?_⟩
    split <;> exact .of_eq rfl
  | .peekCompletion _ =>
    refine ⟨_, rfl, s.keepsLines_handRequest _ _ fun u => ?_⟩
    split <;> exact .refl u
  | .retire _ =>
    refine ⟨_, rfl, s.keepsLines_handRequest _ _ fun u => ?_⟩
    split
    · rename_i hp
      exact (State.keepsLines_withQueue fun h => h.retire hp).trans (.of_eq rfl)
    · exact .refl u
  | .transactionBegin | .transactionEnd | .hostRequest .. | .hceDeassert | .sealOnLast | .stallTimeout
  | .passThroughReadComplete _ | .passThroughWriteComplete | .forwardedReadComplete _ | .hostMemTimeout
  | .recordWriteComplete | .verifyReadComplete _ | .engineMemTimeout | .admissionAttempt | .countedEdge _
  | .frameTimeoutExpiry | .periodExpiry | .windowLengthExpiry | .freezeExpiry | .autoSeal | .continuationGrant
  | .rstAssert | .rstRelease | .powerUp | .refclkStop | .refclkRestart | .sckRisingEdge _ | .sckFallingEdge
  | .mceAssert => exact ⟨_, rfl, .refl s⟩

theorem MgmtPort.bitIn_sizes {m : MgmtPort} (hb : m.buffer.length ≤ Config.bufferBytes) (d : Bool) :
    (m.bitIn d).buffer.length ≤ Config.bufferBytes ∧ (m.bitIn d).bits.length < 8 := by
  unfold MgmtPort.bitIn MgmtPort.byteIn
  dsimp only
  split
  · exact ⟨hb, ‹_›⟩
  · refine ⟨?_, Nat.zero_lt_succ 7⟩
    split
    · rw [List.length_append, List.length_singleton]
      exact Nat.succ_le_of_lt ‹_›
    · exact hb

@[simp] theorem MgmtPort.bitIn_sdo (m : MgmtPort) (d : Bool) : (m.bitIn d).sdo = m.sdo := by
  unfold MgmtPort.bitIn
  dsimp only
  split <;> rfl

/-! ### Commands -/

theorem State.keepsLines_execTransactionBegin (s : State) :
    ∃ t, execTransactionBegin s = .next t ∧ s.KeepsLines t := by
  unfold execTransactionBegin
  dsimp only
  split
  · rename_i hc
    simp only [Bool.and_eq_true, decide_eq_true_eq] at hc
    refine ⟨_, rfl, State.keepsLines_withMgmt (fun _ => ⟨iff_of_false nofun (by simp [hc.2]), iff_of_true rfl rfl⟩)
      fun _ => ⟨Nat.zero_le _, Nat.zero_lt_succ 7⟩⟩
  · exact ⟨_, rfl, .of_eq rfl⟩

theorem State.keepsLines_execTransactionEnd (s : State) : ∃ t, execTransactionEnd s = .next t ∧ s.KeepsLines t := by
  have hended : s.running = true → s.KeepsLines s.endTransaction := fun hr =>
    State.keepsLines_endTransaction (State.running_eq_true.1 hr)
  unfold execTransactionEnd
  split
  · rename_i hr _
    split
    · exact ⟨_, rfl, hended hr⟩
    · split
      · exact ⟨_, rfl, (hended hr).trans (.of_eq rfl)⟩
      · exact s.keepsLines_handOver _
  · rename_i hr _
    exact ⟨_, rfl, hended hr⟩
  · exact ⟨_, rfl, .of_eq rfl⟩

theorem State.keepsLines_execSckEdges (s : State) (d : Bool) :
    (∃ t, execSckRisingEdge d s = .next t ∧ s.KeepsLines t) ∧
      ∃ t, execSckFallingEdge s = .next t ∧ s.KeepsLines t := by
  refine ⟨⟨_, rfl, .ite (State.keepsLines_withMgmt (fun hp => ?_) fun hsz => ?_) (.refl s)⟩, ⟨_, rfl, ?_⟩⟩
  · rw [MgmtPort.bitIn_state, MgmtPort.bitIn_sdo]
    exact ⟨Iff.rfl, hp.sdo⟩
  · obtain ⟨-, -, -, hbuffer, -⟩ := hsz
    exact MgmtPort.bitIn_sizes hbuffer d
  · split
    · rename_i hc
      simp only [Bool.and_eq_true, decide_eq_true_eq] at hc
      exact State.keepsLines_withMgmt (fun _ => ⟨Iff.rfl, iff_of_true rfl hc.2⟩) fun ⟨_, _, _, hsz⟩ => hsz
    · exact .refl s

theorem State.keepsLines_execSealOnLast (s : State) : ∃ t, execSealOnLast s = .next t ∧ s.KeepsLines t := by
  unfold execSealOnLast
  split
  · exact ⟨_, rfl, .refl s⟩
  · dsimp only
    split
    · exact ⟨_, rfl, .ite ((State.keepsLines_sealOpen _ .sealWord).after rfl) (.of_eq rfl)⟩
    · exact ⟨_, rfl, .of_eq rfl⟩

theorem State.keepsLines_execAutoSeal (s : State) : ∃ t, execAutoSeal s = .next t ∧ s.KeepsLines t := by
  unfold execAutoSeal
  split
  · exact ⟨_, rfl, .refl s⟩
  · exact ⟨_, rfl, .ite ((State.keepsLines_sealOpen _ .auto).after rfl) (.of_eq rfl)⟩

theorem State.keepsLines_execStallTimeout (s : State) : ∃ t, execStallTimeout s = .next t ∧ s.KeepsLines t := by
  unfold execStallTimeout
  split
  · rename_i w _ hs
    refine ⟨_, rfl, State.KeepsLines.trans (State.keepsLines_withHost (p := { s.host with stallTimer := none })
      fun hp => ?_) (State.keepsLines_refuseAccess (by simp [hs]) (.inl rfl) _ _ _)⟩
    obtain ⟨ha, he⟩ := hp.quiet (by simp [hs])
    exact ⟨by simp [hs], by simp [hs], HostPort.linesOk_busy (by simp [hs]) (hp.hwait.2 (by simp [hs])) nofun ha he⟩
  · exact ⟨_, rfl, .refl s⟩

/-- The ends of a host access take the port from MEMORY to IDLE, and the memory port becomes free (R99, R123). -/
theorem State.keepsLines_hostEnd {a : HostAccess} (hs : s.host.state = .memory a) (md : Word) (d : Bool)
    (c : ErrorCause) :
    s.KeepsLines (s.endBus.answerRead md d).freePort ∧
      s.KeepsLines (s.endBus.watchCheck a.addr a.lanes a.data).acceptWrite.freePort ∧
      s.KeepsLines (s.endBus.refuseAccess c a.addr a.lanes).freePort := by
  have hr : s.endBus.host.state ≠ .reset := by simp [hs]
  have ht : s.endBus.host.stallTimer = none ∨ ∀ w, s.endBus.host.state ≠ .stalled w := .inr (by simp [hs])
  have hchecked := s.endBus.keepsLines_watchCheck a.addr a.lanes a.data
  have hhost : (s.endBus.watchCheck a.addr a.lanes a.data).host = s.endBus.host := by rw [State.watchCheck_eq]
  refine ⟨?_, ?_, ?_⟩
  · exact ((State.keepsLines_answerRead hr ht md d).trans (State.keepsLines_freePort _)).after rfl
  · exact (hchecked.trans ((State.keepsLines_acceptWrite (hhost ▸ hr) (hhost ▸ ht)).trans
      (State.keepsLines_freePort _))).after rfl
  · exact ((State.keepsLines_refuseAccess hr ht c _ _).trans (State.keepsLines_freePort _)).after rfl

theorem State.keepsLines_execContinuationGrant (s : State) :
    ∃ t, execContinuationGrant s = .next t ∧ s.KeepsLines t := by
  unfold execContinuationGrant
  split
  · exact ⟨_, rfl, .refl s⟩
  · dsimp only
    split
    · split
      · split
        · exact ⟨_, rfl, ((State.keepsLines_charge _ _).trans (State.keepsLines_giveGrant _ _ _)).after rfl⟩
        · exact ⟨_, rfl, .of_eq rfl⟩
      · exact ⟨_, rfl, .of_eq rfl⟩
    · exact ⟨_, rfl, .of_eq rfl⟩

theorem State.keepsLines_execCountedEdge (s : State) (rising : Bool) :
    ∃ t, execCountedEdge rising s = .next t ∧ s.KeepsLines t := by
  unfold execCountedEdge
  split
  · split
    · exact ⟨_, rfl, .refl s⟩
    · exact ⟨_, rfl, s.keepsLines_countEdge⟩
    · exact ⟨_, rfl, ((State.keepsLines_report _ .frame).trans (State.keepsLines_countEdge _)).after rfl⟩
  · exact ⟨_, rfl, .refl s⟩

theorem State.keepsLines_execWindowLengthExpiry (s : State) :
    ∃ t, execWindowLengthExpiry s = .next t ∧ s.KeepsLines t := by
  unfold execWindowLengthExpiry
  split
  · dsimp only
    split
    · exact ⟨_, rfl, .ite ((State.keepsLines_report _ .overrun).after rfl) (.of_eq rfl)⟩
    · exact ⟨_, rfl, .of_eq rfl⟩
  · exact ⟨_, rfl, .refl s⟩

/-- Out of RESET both ports leave it together (R139, R175). -/
theorem State.keepsLines_execRstRelease (s : State) : ∃ t, execRstRelease s = .next t ∧ s.KeepsLines t := by
  by_cases hout : s.OutOfReset
  · exact ⟨_, State.exec_rstRelease_out hout, .refl s⟩
  by_cases hends : s.power.powerHold = false ∨ s.power.refclk = true
  · refine ⟨_, State.exec_rstRelease_leaves hout hends, ?_⟩
    have hleft : s.KeepsLines s.leftReset :=
      { hold := id
        irq := id
        pins := fun h => by
          have hreset : s.host.state = .reset := h.hostReset.2 hout
          obtain ⟨ha, he⟩ := h.quiet (by simp [hreset])
          have hlines : s.leftReset.host.LinesOk :=
            HostPort.linesOk_idle rfl rfl (h.stallTimer_eq_none (by simp [hreset])) (by simp [State.leftReset, ha])
              (by simp [State.leftReset, he])
          have hsdo : s.mgmt.sdo.isSome = false :=
            Bool.eq_false_iff.2 fun hd => by simpa [h.portReset.2 hout] using h.sdo.1 hd
          exact
            { hwait := hlines.hwait
              hostReset := iff_of_false nofun (not_not.2 ⟨rfl, rfl⟩)
              portReset := iff_of_false (by simp [State.leftReset]; split <;> nofun) (not_not.2 ⟨rfl, rfl⟩)
              sdo := by simp [State.leftReset, hsdo]; split <;> nofun
              stallTimer := hlines.stallTimer
              answer := hlines.answer
              herr := hlines.herr }
        numbers := id
        sizes := id
        out := fun h => absurd h hout }
    exact .ite (hleft.trans (State.keepsLines_takeHostRequest rfl)) hleft
  · obtain ⟨hhold, hclk⟩ : s.power.powerHold = true ∧ s.power.refclk = false := by simpa using hends
    refine ⟨_, State.exec_rstRelease_held hhold hclk, ?_⟩
    have hheld : ¬ State.OutOfReset { s with power := { s.power with rst := false } } := by
      simp [State.OutOfReset, hhold]
    exact
      { hold := id
        irq := id
        pins := fun h =>
          { hwait := h.hwait
            hostReset := h.hostReset.trans (iff_of_true hout hheld)
            portReset := h.portReset.trans (iff_of_true hout hheld)
            sdo := h.sdo
            stallTimer := h.stallTimer
            answer := h.answer
            herr := h.herr }
        numbers := id
        sizes := id
        out := fun h => absurd h hout }

/-- Every command but a pin reset keeps the lines and does not enter pin reset. -/
theorem State.keepsLines_exec (s : State) {c : Instr} (hr : c ≠ .rstAssert) (hu : c ≠ .powerUp) :
    ∃ t, exec c s = .next t ∧ s.KeepsLines t := by
  have hrequest := s.keepsLines_handOver c
  cases c with
  | rstAssert => exact absurd rfl hr
  | powerUp => exact absurd rfl hu
  | transactionBegin => exact s.keepsLines_execTransactionBegin
  | transactionEnd => exact s.keepsLines_execTransactionEnd
  | sckRisingEdge d => exact (s.keepsLines_execSckEdges d).1
  | sckFallingEdge => exact (s.keepsLines_execSckEdges false).2
  | hostRequest addr write lanes data hce => exact s.keepsLines_execHostRequest addr write lanes data hce
  | hceDeassert => exact s.keepsLines_execHceDeassert
  | sealOnLast => exact s.keepsLines_execSealOnLast
  | autoSeal => exact s.keepsLines_execAutoSeal
  | stallTimeout => exact s.keepsLines_execStallTimeout
  | passThroughReadComplete md =>
    simp only [exec, execPassThroughReadComplete]
    split
    · rename_i a ha
      obtain ⟨-, -, -, hs, -⟩ := State.hostOnBus?_eq_some.1 ha
      exact ⟨_, rfl, (State.keepsLines_hostEnd hs md a.dropped .blocked).1⟩
    · exact ⟨_, rfl, .refl s⟩
  | forwardedReadComplete md =>
    simp only [exec, execForwardedReadComplete]
    split
    · rename_i a ha
      obtain ⟨-, -, -, hs, -⟩ := State.hostOnBus?_eq_some.1 ha
      exact ⟨_, rfl, (State.keepsLines_hostEnd hs _ a.dropped .blocked).1⟩
    · exact ⟨_, rfl, .refl s⟩
  | passThroughWriteComplete =>
    simp only [exec, execPassThroughWriteComplete]
    split
    · rename_i a ha
      obtain ⟨-, -, -, hs, -⟩ := State.hostOnBus?_eq_some.1 ha
      obtain ⟨-, hend, -⟩ := State.keepsLines_hostEnd hs 0 false .blocked
      exact ⟨_, rfl, hend⟩
    · exact ⟨_, rfl, .refl s⟩
  | hostMemTimeout =>
    simp only [exec, execHostMemTimeout]
    split
    · rename_i a _ hs
      obtain ⟨-, -, hend⟩ := State.keepsLines_hostEnd hs 0 false .hostMemTimeout
      exact ⟨_, rfl, hend⟩
    · exact ⟨_, rfl, .refl s⟩
  | recordWriteComplete => exact ⟨_, rfl, .ite (s.keepsLines_engineAccessEnd .writeDone) (.refl s)⟩
  | verifyReadComplete md => exact ⟨_, rfl, .ite (s.keepsLines_engineAccessEnd (.verifyDone md)) (.refl s)⟩
  | engineMemTimeout => exact ⟨_, rfl, .ite (s.keepsLines_engineAccessEnd .timedOut) (.refl s)⟩
  | admissionAttempt => exact ⟨_, rfl, .ite ((State.keepsLines_attempt _).after rfl) (.refl s)⟩
  | continuationGrant => exact s.keepsLines_execContinuationGrant
  | countedEdge rising => exact s.keepsLines_execCountedEdge rising
  | frameTimeoutExpiry =>
    simp only [exec, execFrameTimeoutExpiry]
    split
    · exact ⟨_, rfl, (State.keepsLines_report _ .frame).after rfl⟩
    · exact ⟨_, rfl, .refl s⟩
  | periodExpiry =>
    simp only [exec, execPeriodExpiry]
    split
    · split <;> exact ⟨_, rfl, .of_eq rfl⟩
    · exact ⟨_, rfl, .refl s⟩
  | windowLengthExpiry => exact s.keepsLines_execWindowLengthExpiry
  | freezeExpiry =>
    simp only [exec, execFreezeExpiry]
    split
    · exact ⟨_, rfl, s.keepsLines_endFreeze.trans (State.keepsLines_report _ .thawed)⟩
    · exact ⟨_, rfl, .refl s⟩
  | rstRelease => exact s.keepsLines_execRstRelease
  | refclkStop | refclkRestart =>
    have hpins (h : s.PinsOk) (clk : Bool) : State.PinsOk { s with power := { s.power with refclk := clk } } :=
      ⟨h.hwait, h.hostReset, h.portReset, h.sdo, h.stallTimer, h.answer, h.herr⟩
    exact ⟨_, rfl, ⟨id, id, fun h => hpins h _, id, id, id⟩⟩
  | mceAssert => exact ⟨_, rfl, .ite (.of_eq rfl) (.refl s)⟩
  | _ => exact hrequest

end Sys2Proof.Machine
end

section
/-! PROOFS. The step keeps the lines, the numbers and the sizes, and the reset state of every block until RST_RELEASE
(R28, R51, R71, R104, R116, R138, R152, R163, R175, R179, R189): the empty queue, and what commands do in pin reset. -/

namespace Sys2Proof.Machine

open Sys2Proof

variable {s t : State}

/-! ### An empty queue -/

/-- A period that passes leaves every timer running (R52). -/
theorem State.keepsLines_passPeriod (s : State) : s.KeepsLines s.passPeriod where
  hold := id
  irq := id
  pins h :=
    { hwait := h.hwait
      hostReset := h.hostReset
      portReset := h.portReset
      sdo := h.sdo
      stallTimer := fun ht => h.stallTimer (by rwa [State.passPeriod, Option.isSome_map] at ht)
      answer := h.answer
      herr := h.herr }
  numbers := id
  sizes := id
  out := id

theorem State.keepsLines_idle (s : State) : s.KeepsLines s.idle := by
  unfold State.idle
  split
  · exact .of_eq rfl
  · split
    · split
      · exact .of_eq rfl
      · exact s.keepsLines_passPeriod
    · exact .refl s

/-! ### The reset state of every block -/

/-- `b` with what a pin reset leaves to the state `s`: the levels the outside holds, MA, RST, the power-up hold, REFCLK,
the count of free values and the queue of commands (R187, R189). -/
def State.withLevels (b s : State) : State :=
  { b with
    host :=
      { b.host with
        hce := s.host.hce, hwe := s.host.hwe, hoe := s.host.hoe, ha := s.host.ha, hbe := s.host.hbe, hd := s.host.hd }
    port := { b.port with ma := s.port.ma }
    mgmt := { b.mgmt with scs := s.mgmt.scs }
    power := s.power
    freeCount := s.freeCount
    pending := s.pending }

/-- The part is in pin reset with every block in its reset state and nothing waiting (R189). -/
structure State.InReset (s : State) : Prop where
  held : ¬ s.OutOfReset
  blocks : s = State.reset.pinReset.withLevels s

theorem State.ResetOk.inReset (h : s.ResetOk) (hs : ¬ s.OutOfReset) : s.InReset := ⟨hs, h hs⟩

theorem State.InReset.resetOk (h : s.InReset) : s.ResetOk := fun _ => h.blocks

theorem State.inReset_pinReset (h : ¬ s.OutOfReset) : s.pinReset.InReset := ⟨h, rfl⟩

/-- A change of levels alone, in pin reset before and after. -/
theorem State.InReset.levels (h : s.InReset) (ht : ¬ t.OutOfReset) (he : t = s.withLevels t) : t.InReset :=
  have hb : s.withLevels t = (State.reset.pinReset.withLevels s).withLevels t :=
    congrArg (State.withLevels · t) h.blocks
  ⟨ht, he.trans hb⟩

theorem State.InReset.not_awake (h : s.InReset) : ¬ s.Awake := fun ha => h.held ha.1

theorem State.InReset.running_eq (h : s.InReset) : s.running = false :=
  Bool.eq_false_iff.2 (mt State.running_eq_true.1 h.held)

theorem State.InReset.waiting_eq (h : s.InReset) : s.waiting = Waiting.reset := congrArg State.waiting h.blocks

/-- The reset state of the blocks has the lines, numbers and sizes of `KeepsLines`. -/
theorem State.InReset.lines (h : s.InReset) : s.HoldOk ∧ s.IrqOk ∧ s.PinsOk ∧ s.NumbersOk ∧ s.SizesOk := by
  have hevents : s.events = EventUnit.reset := congrArg State.events h.blocks
  have hqueue : s.queue = CompletionQueue.reset := congrArg State.queue h.blocks
  refine ⟨?_, ?_, ?_, ?_, ?_⟩
  · have hengine : s.engine = Engine.reset := congrArg State.engine h.blocks
    rw [State.HoldOk, hengine]
    rfl
  · rw [State.IrqOk, hevents]
    decide
  · have hhost : s.host.state = .reset ∧ s.host.hwait = true ∧ s.host.stallTimer = none ∧ s.host.answer = none ∧
        s.host.herr = false := by
      rw [h.blocks]
      exact ⟨rfl, rfl, rfl, rfl, rfl⟩
    have hmgmt : s.mgmt.state = .reset ∧ s.mgmt.sdo = none := by
      rw [h.blocks]
      exact ⟨rfl, rfl⟩
    obtain ⟨hstate, hwait, htimer, hanswer, hherr⟩ := hhost
    exact
      { hwait := by simp [hwait, hstate]
        hostReset := iff_of_true hstate h.held
        portReset := iff_of_true hmgmt.1 h.held
        sdo := by simp [hmgmt]
        stallTimer := by simp [htimer]
        answer := by simp [hanswer]
        herr := by simp [hherr] }
  · intro i hi
    rw [hqueue] at hi
    cases hi
  · rw [State.SizesOk, h.blocks]
    exact ⟨rfl, rfl, rfl, Nat.zero_le _, Nat.zero_lt_succ 7⟩

/-! ### Commands in pin reset -/

/-- RST_ASSERT and POWER_UP put every block in its reset state (R189). -/
theorem State.exec_pinReset (s : State) :
    (∃ t, exec .rstAssert s = .next t ∧ t.InReset) ∧ ∃ t, exec .powerUp s = .next t ∧ t.InReset :=
  ⟨⟨_, rfl, State.inReset_pinReset (s := { s with power := { s.power with rst := true } }) nofun⟩,
    ⟨_, rfl, nofun, rfl⟩⟩

/-- Nothing waits in pin reset, so the part's own events find nothing (R189). -/
theorem State.InReset.exec_ownEvent (h : s.InReset) :
    ∀ c ∈ ([.sealOnLast, .autoSeal, .continuationGrant, .admissionAttempt, .mceAssert] : List Instr),
      exec c s = .next s := by
  simp [exec, execSealOnLast, execAutoSeal, execContinuationGrant, execAdmissionAttempt, execMceAssert, h.running_eq,
    h.waiting_eq, Waiting.reset]

/-- A release of RST that does not end the pin reset keeps it (R189). -/
theorem State.InReset.exec_rstRelease (h : s.InReset) :
    ∃ t, exec .rstRelease s = .next t ∧ (t.InReset ∨ t.OutOfReset) := by
  by_cases hends : s.power.powerHold = false ∨ s.power.refclk = true
  · have hleft : s.leftReset.OutOfReset := ⟨rfl, rfl⟩
    refine ⟨_, State.exec_rstRelease_leaves h.held hends, .inr ?_⟩
    split
    · exact (State.keepsLines_takeHostRequest (s := s.leftReset) rfl).out hleft
    · exact hleft
  · obtain ⟨hhold, hclk⟩ : s.power.powerHold = true ∧ s.power.refclk = false := by simpa using hends
    exact ⟨_, State.exec_rstRelease_held hhold hclk, .inl (h.levels (by simp [State.OutOfReset, hhold]) rfl)⟩

/-- Every command but RST_RELEASE leaves the part in pin reset, every block in its reset state: of the others none but
the levels of pins and the supplies is taken (R175, R189). -/
theorem State.InReset.exec (h : s.InReset) {c : Instr} (hc : c ≠ .rstRelease) :
    ∃ t, exec c s = .next t ∧ t.InReset := by
  have hstays : Machine.exec c s = .next s → ∃ t, Machine.exec c s = .next t ∧ t.InReset := fun he => ⟨s, he, h⟩
  have hlevels : ∀ t, Machine.exec c s = .next t → t = s.withLevels t → t.power.rst = s.power.rst →
      t.power.powerHold = s.power.powerHold → ∃ t, Machine.exec c s = .next t ∧ t.InReset :=
    fun t he ht hr hp => ⟨t, he, h.levels (by rw [State.OutOfReset, hr, hp]; exact h.held) ht⟩
  have hrequest : ∀ bytes, requestFrame c = some bytes → Machine.exec c s = .next s := fun bytes hf =>
    State.exec_request_closed hf (State.takesRequests_eq_false h.not_awake)
  have hown := h.exec_ownEvent c
  have hmrdy := fun md => State.exec_mrdy_asleep h.not_awake md c
  have hedge := fun b => State.exec_edge_or_expiry_asleep h.not_awake b c
  cases c with
  | rstRelease => exact absurd rfl hc
  | rstAssert => exact s.exec_pinReset.1
  | powerUp => exact s.exec_pinReset.2
  | refclkStop | refclkRestart => exact hlevels _ rfl rfl rfl rfl
  | hostRequest a w l d hce => exact hlevels _ (State.exec_hostRequest_asleep h.not_awake a w l d _ _) rfl rfl rfl
  | transactionBegin => exact hlevels _ (State.exec_transactionBegin_asleep h.not_awake) rfl rfl rfl
  | transactionEnd => exact hlevels _ (State.exec_transactionEnd_level (.inl h.held)) rfl rfl rfl
  | hceDeassert =>
    refine ⟨_, rfl, h.held, ?_⟩
    exact congrArg (fun u : State =>
      { u with host := { u.host with state := u.host.state.dropHce, hce := false, herr := false, answer := none } })
      h.blocks
  | sealOnLast | autoSeal | continuationGrant | admissionAttempt | mceAssert => exact hstays (hown (by simp))
  | passThroughReadComplete md | forwardedReadComplete md | verifyReadComplete md => exact hstays (hmrdy md (by simp))
  | passThroughWriteComplete | recordWriteComplete => exact hstays (hmrdy 0 (by simp))
  | countedEdge b | sckRisingEdge b => exact hstays (hedge b (by simp))
  | sckFallingEdge | stallTimeout | hostMemTimeout | engineMemTimeout | frameTimeoutExpiry | periodExpiry
  | windowLengthExpiry | freezeExpiry => exact hstays (hedge false (by simp))
  | _ => exact hstays (hrequest _ rfl)

/-- No event waits and no time passes in pin reset (R189). -/
theorem State.InReset.idle_eq (h : s.InReset) : s.idle = s := by
  have hnone : s.waitingEvent? = none := congrArg State.waitingEvent? h.blocks
  simp only [State.idle, hnone, State.clocked_eq_false h.not_awake]
  rfl

/-! ### The step -/

/-- A step keeps the lines and does not enter pin reset, or it is a pin reset. -/
theorem State.step_keepsLines (s : State) : ∃ t, step s = .next t ∧ (s.KeepsLines t ∨ t.InReset) := by
  unfold step
  split
  · exact ⟨_, rfl, .inl s.keepsLines_idle⟩
  · rename_i c rest _
    by_cases hr : c = .rstAssert
    · subst hr
      obtain ⟨t, ht, hin⟩ := (State.exec_pinReset { s with pending := rest }).1
      exact ⟨t, ht, .inr hin⟩
    by_cases hu : c = .powerUp
    · subst hu
      obtain ⟨t, ht, hin⟩ := (State.exec_pinReset { s with pending := rest }).2
      exact ⟨t, ht, .inr hin⟩
    obtain ⟨t, ht, hkeeps⟩ := State.keepsLines_exec { s with pending := rest } hr hu
    exact ⟨t, ht, .inl (hkeeps.after rfl)⟩

/-- From the reset state of every block a step stays in it, or an RST_RELEASE ends the pin reset (R189). -/
theorem State.InReset.step (h : s.InReset) :
    ∃ t, step s = .next t ∧ (t.InReset ∨ t.OutOfReset ∧ ∃ rest, s.pending = .rstRelease :: rest) := by
  unfold Machine.step
  split
  · exact ⟨_, rfl, .inl (h.idle_eq.symm ▸ h)⟩
  · rename_i c rest hfront
    have hin : State.InReset { s with pending := rest } := h.levels h.held rfl
    by_cases hc : c = .rstRelease
    · subst hc
      obtain ⟨t, ht, hends⟩ := hin.exec_rstRelease
      exact ⟨t, ht, hends.imp_right fun hout => ⟨hout, rest, hfront⟩⟩
    · obtain ⟨t, ht, hstays⟩ := hin.exec hc
      exact ⟨t, ht, .inl hstays⟩

/-- Settles O55: every operation keeps what `KeepsLines` names, a pin reset sets it anew, and in pin reset no command
but RST_RELEASE does more than change levels. -/
theorem stepKeepsLinesNumbersAndSizes : Obligations.StepKeepsLinesNumbersAndSizes := by
  unfold Obligations.StepKeepsLinesNumbersAndSizes
  intro s t hstep
  obtain ⟨u, hu, hkeeps⟩ := s.step_keepsLines
  obtain rfl : u = t := Host.Outcome.next.inj (hu.symm.trans hstep)
  have hreset : s.ResetOk → ¬ s.OutOfReset →
      u.InReset ∨ u.OutOfReset ∧ ∃ rest, s.pending = .rstRelease :: rest := fun hok hs => by
    obtain ⟨v, hv, hcase⟩ := (hok.inReset hs).step
    obtain rfl : v = u := Host.Outcome.next.inj (hv.symm.trans hstep)
    exact hcase
  have hnotReleased : s.ResetOk → ¬ s.OutOfReset → (∀ rest, s.pending ≠ .rstRelease :: rest) → ¬ u.OutOfReset :=
    fun hok hs hfront => by
      rcases hreset hok hs with hin | ⟨-, rest, hrest⟩
      · exact hin.held
      · exact absurd hrest (hfront rest)
  rcases hkeeps with hkeeps | hin
  · refine ⟨hkeeps.hold, hkeeps.irq, hkeeps.pins, hkeeps.numbers, hkeeps.sizes, fun hok hheld => ?_, hnotReleased⟩
    by_cases hs : s.OutOfReset
    · exact absurd (hkeeps.out hs) hheld
    · rcases hreset hok hs with hin | ⟨hout, -⟩
      · exact hin.blocks
      · exact absurd hout hheld
  · obtain ⟨hhold, hirq, hpins, hnumbers, hsizes⟩ := hin.lines
    exact ⟨fun _ => hhold, fun _ => hirq, fun _ => hpins, fun _ => hnumbers, fun _ => hsizes, fun _ => hin.resetOk,
      hnotReleased⟩

end Sys2Proof.Machine
end

section
/-! PROOFS. The state after a pin reset: the reset values of every block, what RST_ASSERT and POWER_UP leave, and what
the steps keep (R28, R51, R71, R104, R116, R118, R125, R138, R152, R163, R175, R176, R179, R187, R189). -/

namespace Sys2Proof.Machine

open Sys2Proof

/-! ### The reset values -/

/-- The 22 bytes of GET_CONFIG at reset (R176, Table 11-3). -/
theorem Settings.reset_bytes :
    Settings.reset.bytes =
      [0#8, 0x02#8, 1#8, 0x01#8, 0x86#8, 0xA0#8, 0x00#8, 0x41#8, 0x1B#8, 0#8, 64#8, 0#8, 0#8, 0#8, 0x01#8, 4#8,
        0x00#8, 0x03#8, 0xE8#8, 0#8, 100#8, 25#8] := by
  decide

/-- Settles O5: the blocks are compared field by field, the settings by the bytes they spell. -/
theorem resetStateHoldsTheResetValues : Obligations.ResetStateHoldsTheResetValues := by
  unfold Obligations.ResetStateHoldsTheResetValues
  exact ⟨rfl, rfl, rfl, rfl, rfl, rfl, rfl, rfl, rfl, rfl, rfl, rfl, rfl, rfl, rfl, rfl, rfl, rfl, Settings.reset_bytes⟩

/-- RST_ASSERT is `State.pinReset` with RST asserted, which reads nothing of the blocks (R189). -/
theorem State.exec_rstAssert_eq (s : State) :
    exec .rstAssert s =
      .next (State.reset.pinReset.withLevels { s with power := { s.power with rst := true } }) :=
  rfl

/-- POWER_UP holds the part in the same reset state, with MA at a free value (R189; notes/assumptions/13.md). -/
theorem State.exec_powerUp_eq (s : State) :
    exec .powerUp s =
      .next
        (State.reset.pinReset.withLevels
          { s with
            power := { s.power with powerHold := true }
            port := { s.port with ma := Config.freeAddress s.freeCount }
            freeCount := s.freeCount + 1 }) :=
  rfl

/-- Settles O6: both are the reset state of the blocks with the levels of `State.withLevels`. -/
theorem pinResetPutsEveryBlockInReset : Obligations.PinResetPutsEveryBlockInReset := by
  unfold Obligations.PinResetPutsEveryBlockInReset
  exact fun s => ⟨s.exec_rstAssert_eq, s.exec_powerUp_eq⟩

/-! ### What the steps keep, at reset -/

theorem State.reset_logOk : State.reset.LogOk := by
  constructor <;> simp [State.reset, BatchTable.reset, BatchTable.batches]

theorem State.reset_engineOk : State.reset.EngineOk := ⟨fun _ => rfl, nofun⟩

theorem State.reset_portOk : State.reset.PortOk := by
  constructor <;> decide

theorem State.reset_commitOk : State.reset.CommitOk := by
  obtain ⟨hsettings, hwindows⟩ := State.unitOk_of_reset (s := State.reset) ⟨rfl, rfl⟩
  obtain ⟨htable, hqueue⟩ := State.batchesOk_of_reset (s := State.reset) rfl rfl rfl
  exact ⟨hsettings, hwindows, htable, hqueue, State.reset_logOk, State.reset_engineOk, State.reset_portOk⟩

/-- No record is live and no write is held (R28, R138). -/
theorem State.reset_stagedOk : State.reset.StagedOk := ⟨nofun, nofun, nofun⟩

theorem State.reset_pinsOk : State.reset.PinsOk := by
  constructor <;> simp [State.reset]

/-- Settles O60: the log, the table, the queues and the lines are empty or at rest, and the settings are in range. -/
theorem resetHasWhatStepsKeep : Obligations.ResetHasWhatStepsKeep := by
  unfold Obligations.ResetHasWhatStepsKeep
  have hirq : State.reset.IrqOk := State.irqOk_of_settle (e := EventUnit.reset) rfl
  exact ⟨State.reset_commitOk, State.reset_stagedOk, rfl, hirq, State.reset_pinsOk, nofun,
    ⟨rfl, rfl, rfl, Nat.zero_le _, Nat.zero_lt_succ 7⟩, fun h => absurd ⟨rfl, rfl⟩ h⟩

end Sys2Proof.Machine
end

section
/-! PROOFS. The commit path over the shared operations (R1, R3, R6, R7, R15 to R17, R73, R85 to R87, R90, R94, R99 to
R102): the log, the engine and the memory port in agreement, first without and then with the arbiter's decision; beside
it the addresses that stay decided as STAGE (R12 to R14). -/

namespace Sys2Proof.Machine

open Sys2Proof

variable {s t u : State}

/-! ### The memory port before and after the arbiter decides (R99 to R102) -/

/-- `PortOk` but for requests that wait at a free port: the arbiter may have to decide yet. -/
structure State.PortFits (s : State) : Prop where
  engineCarried : s.port.busy = some .engine ↔ s.engine.access.granted = true
  hostCarried : s.port.busy = some .host ↔ s.host.state.granted = true
  timer : s.port.timer.isSome = s.port.busy.isSome
  atRest : s.port.busy = none →
    s.port.md = none ∧ s.port.mbe = 0#4 ∧ s.port.mce = false ∧ s.port.mwe = false ∧ s.port.moe = false
  countBound : s.port.count ≤ 16
  countZero : s.hostWaits = false → s.port.count = 0

/-- No request waits at a free port (R100). -/
abbrev State.NoneWaits (s : State) : Prop :=
  s.port.busy = none → s.engine.access = .idle ∧ s.hostWaits = false

theorem State.portOk_iff : s.PortOk ↔ s.PortFits ∧ s.NoneWaits :=
  ⟨fun h => ⟨⟨h.engineCarried, h.hostCarried, h.timer, h.atRest, h.countBound, h.countZero⟩, h.noneWaits⟩,
    fun ⟨h, hn⟩ => ⟨h.engineCarried, h.hostCarried, h.timer, h.atRest, hn, h.countBound, h.countZero⟩⟩

/-- Of the engine only whether its access is granted is read, of the host port whether its access is granted or
waits. -/
theorem State.PortFits.congr (h : s.PortFits) (hp : t.port = s.port)
    (he : t.engine.access.granted = s.engine.access.granted) (hh : t.host.state.granted = s.host.state.granted)
    (hw : t.hostWaits = s.hostWaits) : t.PortFits where
  engineCarried := by rw [hp, he]; exact h.engineCarried
  hostCarried := by rw [hp, hh]; exact h.hostCarried
  timer := hp ▸ h.timer
  atRest := hp ▸ h.atRest
  countBound := hp ▸ h.countBound
  countZero := by rw [hp, hw]; exact h.countZero

theorem State.PortFits.engine_not_granted (h : s.PortFits) (hb : s.port.busy ≠ some .engine) :
    s.engine.access.granted = false :=
  Bool.eq_false_iff.2 (mt h.engineCarried.2 hb)

theorem State.PortFits.host_not_granted (h : s.PortFits) (hb : s.port.busy ≠ some .host) :
    s.host.state.granted = false :=
  Bool.eq_false_iff.2 (mt h.hostCarried.2 hb)

/-- The port granted to the engine, whatever it carried before (R101, R187). -/
theorem State.portFits_engineGranted (hh : s.host.state.granted = false) {n : Nat} (hn : n ≤ 16)
    (hz : s.hostWaits = false → n = 0) (q : EngineRequest) : (s.engineGranted q n).PortFits where
  engineCarried := iff_of_true rfl rfl
  hostCarried := iff_of_false nofun (by simpa [State.engineGranted] using hh)
  timer := rfl
  atRest := nofun
  countBound := hn
  countZero := hz

/-- The port granted to the host (R101, R187). -/
theorem State.portFits_hostGranted (he : s.engine.access.granted = false) (a : HostAccess) :
    (s.hostGranted a).PortFits where
  engineCarried := iff_of_false nofun (by simpa [State.hostGranted] using he)
  hostCarried := iff_of_true rfl rfl
  timer := rfl
  atRest := nofun
  countBound := Nat.zero_le 16
  countZero _ := rfl

theorem State.hostWaits_eq_true : s.hostWaits = true ↔ ∃ a, s.host.state = .memory a ∧ a.inFlight = false := by
  unfold State.hostWaits
  cases s.host.state <;> simp

/-- A decision leaves no request waiting at a free port, and the count within the host share (R100, R101). -/
theorem State.PortFits.arbitrate (h : s.PortFits) (hk : s.mgmt.settings.hostShare.toNat ≤ 16) :
    s.arbitrate.PortOk := by
  refine State.portOk_iff.2 ?_
  by_cases hb : s.port.busy = none
  · have hhost := h.host_not_granted (by simp [hb])
    have hengine := h.engine_not_granted (by simp [hb])
    have hhostGranted (a : HostAccess) : (s.hostGranted a).PortFits ∧ (s.hostGranted a).NoneWaits :=
      ⟨State.portFits_hostGranted hengine a, nofun⟩
    by_cases hq : ∃ q, s.engine.access = .waiting q
    · obtain ⟨q, hq⟩ := hq
      cases hw : s.hostWaits with
      | false =>
        rw [State.arbitrate_engine_alone hb hq hw]
        exact ⟨State.portFits_engineGranted hhost (Nat.zero_le 16) (fun _ => rfl) q, nofun⟩
      | true =>
        obtain ⟨a, hs, hf⟩ := State.hostWaits_eq_true.1 hw
        rw [State.arbitrate_both hb hq hs hf]
        split
        · exact ⟨State.portFits_engineGranted hhost (by omega) (by simp [hw]) q, nofun⟩
        · exact hhostGranted a
    · have hq' : ∀ q, s.engine.access ≠ .waiting q := fun q h => hq ⟨q, h⟩
      cases hw : s.hostWaits with
      | false =>
        rw [State.arbitrate_none hq' hw]
        refine ⟨h, fun _ => ⟨?_, hw⟩⟩
        cases ha : s.engine.access with
        | idle => rfl
        | waiting q => exact absurd ha (hq' q)
        | inFlight q => simp [ha, EngineAccess.granted] at hengine
      | true =>
        obtain ⟨a, hs, hf⟩ := State.hostWaits_eq_true.1 hw
        rw [State.arbitrate_host_alone hb hq' hs hf]
        exact hhostGranted a
  · rw [State.arbitrate_busy hb]
    exact ⟨h, fun hn => absurd hn hb⟩

/-! ### The active batch beside the engine (R73) -/

/-- A batch that is not active is not the engine's (R34, R73). -/
theorem State.TableOk.active_ne (h : s.TableOk) {b : Batch} (hb : b ∈ s.table.batches) (hn : ¬ b.state.IsActive) :
    s.engine.active ≠ some b.id := fun ha => by
  obtain ⟨c, hc, hid, hact⟩ := h.activeInTable b.id ha
  exact hn (BatchTable.Distinct.eq h.idsDistinct hc hb hid ▸ hact)

/-- The engine at rest without an active batch. -/
theorem State.engineOk_of_reset (h : s.engine = Engine.reset) : s.EngineOk := by
  refine ⟨fun _ => h, fun b hb => ?_⟩
  rw [State.activeBatch?, h] at hb
  cases hb

/-- The engine beside its active batch. -/
theorem State.ActiveOk.engineOk {b : Batch} (h : s.ActiveOk b) (ht : s.TableOk) (hb : b ∈ s.table.batches)
    (ha : b.state.IsActive) : s.EngineOk := by
  have hactive : s.activeBatch? = some b := ht.activeBatch?_eq_some.2 ⟨hb, ha⟩
  refine ⟨fun hn => ?_, fun c hc => ?_⟩
  · rw [ht.activeHeld b hb ha] at hn
    cases hn
  · obtain rfl : b = c := Option.some.inj (hactive.symm.trans hc)
    exact h

theorem State.EngineOk.activeOk (h : s.EngineOk) (ht : s.TableOk) {b : Batch} (hb : b ∈ s.table.batches)
    (ha : b.state.IsActive) : s.ActiveOk b :=
  h.2 b (ht.activeBatch?_eq_some.2 ⟨hb, ha⟩)

/-- The engine as it was, with no active batch new and every record of the active batch as it was. -/
theorem State.EngineOk.congr (h : s.EngineOk) (hts : s.TableOk) (htt : t.TableOk) (hls : s.LogOk) (hlt : t.LogOk)
    (he : t.engine = s.engine) (hb : ∀ b ∈ t.table.batches, b.state.IsActive → b ∈ s.table.batches)
    (hr : ∀ r ∈ s.log, s.engine.active = some r.batch → r ∈ t.log) : t.EngineOk := by
  refine ⟨fun hn => he.trans (h.1 (he ▸ hn)), fun b hbt => ?_⟩
  obtain ⟨hm, ha⟩ := htt.activeBatch?_eq_some.1 hbt
  have hold := h.activeOk hts (hb b hm ha) ha
  have hnext : ∀ r ∈ s.nextRecord?, r ∈ t.nextRecord? := fun r hrs => by
    rw [State.nextRecord?, Option.mem_def, Option.bind_eq_some_iff] at hrs ⊢
    obtain ⟨i, hi, hrec⟩ := hrs
    obtain ⟨hmem, hbatch, hpos⟩ := hls.recordAt_eq_some.1 hrec
    exact ⟨i, he ▸ hi, hlt.recordAt_eq_some.2 ⟨hr r hmem (by rw [hi, hbatch]), hbatch, by rw [he]; exact hpos⟩⟩
  exact
    { nextPos := he ▸ hold.nextPos
      unapplied := hold.unapplied
      abortPending := he ▸ hold.abortPending
      aborting := he ▸ hold.aborting
      applying := he ▸ hold.applying
      resting := he ▸ hold.resting
      grant := he ▸ hold.grant
      usedUp := he ▸ hold.usedUp
      fault := hold.fault
      forRecord := fun q hq => by
        obtain ⟨r, hrs, hsame⟩ := hold.forRecord q (he ▸ hq)
        exact ⟨r, hnext r hrs, hsame⟩ }

/-- The engine's request granted, or left as it was (R99). -/
theorem State.EngineOk.withAccess (h : s.EngineOk) (he : t.engine = { s.engine with access := t.engine.access })
    (hq : t.engine.access.request? = s.engine.access.request?)
    (hg : s.engine.access.granted = true → t.engine.access.granted = true) (ht : t.table = s.table)
    (hl : t.log = s.log) : t.EngineOk := by
  have hidle : t.engine.access = .idle ↔ s.engine.access = .idle := by
    cases hs : s.engine.access <;> cases ht : t.engine.access <;> simp [hs, ht, EngineAccess.request?] at hq ⊢
  have hactive : t.engine.active = s.engine.active := by rw [he]
  have hnext : t.engine.nextPos = s.engine.nextPos := by rw [he]
  have hgrant : t.engine.grant = s.engine.grant := by rw [he]
  have habort : t.engine.abortPending = s.engine.abortPending := by rw [he]
  refine ⟨fun hn => ?_, fun b hb => ?_⟩
  · have hreset := h.1 (hactive ▸ hn)
    rw [he, hidle.2 (by rw [hreset]; rfl), hreset]
    rfl
  · have hold := h.2 b (by rwa [State.activeBatch?, hactive, ht] at hb)
    have hrecord : t.nextRecord? = s.nextRecord? := by rw [State.nextRecord?, hactive, hnext, hl]; rfl
    exact
      { nextPos := hnext.trans hold.nextPos
        unapplied := hold.unapplied
        abortPending := habort.trans hold.abortPending
        aborting := fun ha => hg (hold.aborting ha)
        applying := fun ha hi => hold.applying ha (hidle.1 hi)
        resting := fun ha => hidle.2 (hold.resting ha)
        grant := hgrant ▸ hold.grant
        usedUp := fun ha => hgrant.trans (hold.usedUp ha)
        fault := hold.fault
        forRecord := fun q hm => by rw [hrecord]; exact hold.forRecord q (hq ▸ hm) }

theorem State.EngineOk.arbitrate (h : s.EngineOk) : s.arbitrate.EngineOk := by
  refine h.withAccess ?_ s.arbitrate_request ?_ s.arbitrate_table s.arbitrate_log <;>
    rcases s.arbitrate_cases with he | ⟨a, -, -, -, he⟩ | ⟨q, -, hq, -, he⟩ <;> rw [he]
  · exact id
  · exact id
  · exact fun _ => rfl

/-! ### The commit path -/

/-- The commit path but for the arbiter's decision (R1, R6, R73, R99). -/
structure State.PathFits (s : State) : Prop where
  table : s.TableOk
  log : s.LogOk
  engine : s.EngineOk
  port : s.PortFits
  share : 1 ≤ s.mgmt.settings.hostShare.toNat ∧ s.mgmt.settings.hostShare.toNat ≤ 16

/-- The commit path with no request waiting at a free port. -/
structure State.PathOk (s : State) : Prop where
  fits : s.PathFits
  noneWaits : s.NoneWaits

theorem State.PathOk.portOk (h : s.PathOk) : s.PortOk := State.portOk_iff.2 ⟨h.fits.port, h.noneWaits⟩

theorem State.CommitOk.pathOk (h : s.CommitOk) : s.PathOk := by
  obtain ⟨hport, hnone⟩ := State.portOk_iff.1 h.port
  obtain ⟨-, -, -, -, -, -, hone, hshare, -⟩ := h.settings
  exact ⟨⟨h.table, h.log, h.engine, hport, hone, hshare⟩, hnone⟩

/-- A decision does not change which write a STALLED host port holds. -/
theorem State.arbitrate_stalled {w : HeldWrite} :
    s.arbitrate.host.state = .stalled w ↔ s.host.state = .stalled w := by
  rcases s.arbitrate_cases with he | ⟨a, -, hs, -, he⟩ | ⟨q, -, -, -, he⟩ <;> rw [he]
  simp [hs]

theorem State.PathFits.arbitrate (h : s.PathFits) : s.arbitrate.PathOk := by
  obtain ⟨hport, hnone⟩ := State.portOk_iff.1 (h.port.arbitrate h.share.2)
  exact
    { fits :=
        { table := h.table.congr (by simp) (by simp)
          log := h.log.congr (by simp) (by simp) fun w hw => State.arbitrate_stalled.1 hw
          engine := h.engine.arbitrate
          port := hport
          share := by simpa using h.share }
      noneWaits := hnone }

end Sys2Proof.Machine
end

section
/-! PROOFS. What a change leaves of the commit path and of the staged addresses together (R12 to R14, R134), and the
removal notice, the seals and the departure of a batch (R13, R36, R44). -/

namespace Sys2Proof.Machine

open Sys2Proof

variable {s t u : State}

/-! ### Staged addresses (R12, R14) -/

/-- Neither the log nor the batch table would take a write that is no merge (R12). -/
def State.NoRoom (s : State) : Prop :=
  s.log.length = Config.logSlots ∨ (s.table.openBatch? = none ∧ ∀ o ∈ s.table.slots, o.isSome = true)

/-- `StagedOk` but for the lack of room for a held write, which a removal may have ended (R13). -/
structure State.AddressesOk (s : State) : Prop where
  recordsStaged : ∀ r ∈ s.log, s.policyOf r.addr = .stage
  heldStaged : ∀ w, s.host.state = .stalled w → s.policyOf w.addr = .stage

theorem State.stagedOk_iff : s.StagedOk ↔ s.AddressesOk ∧ ∀ w, s.host.state = .stalled w → s.NoRoom :=
  ⟨fun h => ⟨⟨h.recordsStaged, h.heldStaged⟩, h.heldNoRoom⟩, fun ⟨h, hr⟩ => ⟨h.recordsStaged, h.heldStaged, hr⟩⟩

/-- The policies of addresses are those of the window table (R119). -/
theorem State.policyOf_congr (h : t.windows = s.windows) (a : Addr) : t.policyOf a = s.policyOf a := by
  rw [State.policyOf, State.policyOf, State.deciding, State.deciding, h]

/-- No new address in the log, no new held write, and the windows as they were. -/
theorem State.AddressesOk.mono (h : s.AddressesOk) (hw : t.windows = s.windows)
    (hl : ∀ r ∈ t.log, ∃ r' ∈ s.log, r'.addr = r.addr)
    (hh : ∀ w, t.host.state = .stalled w → s.host.state = .stalled w) : t.AddressesOk where
  recordsStaged r hr := by
    obtain ⟨r', hr', ha⟩ := hl r hr
    rw [State.policyOf_congr hw, ← ha]
    exact h.recordsStaged r' hr'
  heldStaged w hs := by
    rw [State.policyOf_congr hw]
    exact h.heldStaged w (hh w hs)

theorem State.StagedOk.mono (h : s.StagedOk) (hw : t.windows = s.windows)
    (hl : ∀ r ∈ t.log, ∃ r' ∈ s.log, r'.addr = r.addr)
    (hh : ∀ w, t.host.state = .stalled w → s.host.state = .stalled w) (hr : s.NoRoom → t.NoRoom) : t.StagedOk := by
  obtain ⟨ha, hn⟩ := State.stagedOk_iff.1 h
  exact State.stagedOk_iff.2 ⟨ha.mono hw hl hh, fun w hs => hr (hn w (hh w hs))⟩

/-- The log and the table as they were. -/
theorem State.StagedOk.congr (h : s.StagedOk) (hw : t.windows = s.windows) (hl : t.log = s.log)
    (ht : t.table = s.table) (hh : ∀ w, t.host.state = .stalled w → s.host.state = .stalled w) : t.StagedOk := by
  refine h.mono hw (fun r hr => ⟨r, hl ▸ hr, rfl⟩) hh fun hr => ?_
  rw [State.NoRoom, hl, ht]
  exact hr

/-- A log with as many records and a table with as many batches, none of them newly OPEN. -/
theorem State.NoRoom.mono (h : s.NoRoom) (hl : t.log.length = s.log.length)
    (hb : ∀ b ∈ t.table.batches, b.state = .opened → ∃ c ∈ s.table.batches, c.state = .opened)
    (hs : (∀ o ∈ s.table.slots, o.isSome = true) → ∀ o ∈ t.table.slots, o.isSome = true) : t.NoRoom := by
  refine h.imp (hl.trans ·) fun ⟨ho, hfull⟩ => ⟨?_, hs hfull⟩
  refine BatchTable.openBatch?_eq_none.2 fun b hbt hopen => ?_
  obtain ⟨c, hc, hco⟩ := hb b hbt hopen
  exact BatchTable.openBatch?_eq_none.1 ho c hc hco

theorem BatchTable.replace_full {x : BatchTable} {b b' : Batch} (h : ∀ o ∈ x.slots, o.isSome = true) :
    ∀ o ∈ (x.replace b b').slots, o.isSome = true := by
  intro o ho
  obtain ⟨p, hp, rfl⟩ := List.mem_map.1 ho
  split
  · rfl
  · exact h p hp

/-- An active batch's record changed: it was not OPEN and is not. -/
theorem State.NoRoom.replace (h : s.NoRoom) (hd : s.table.Distinct) {b b' : Batch} (hb : b ∈ s.table.batches)
    (ho : b'.state ≠ .opened) (hl : t.log.length = s.log.length)
    (ht : t.table.slots = (s.table.replace b b').slots) : t.NoRoom := by
  have hbat : t.table.batches = (s.table.replace b b').batches := by rw [BatchTable.batches, ht]; rfl
  refine h.mono hl (fun c hc hco => ?_) fun hfull => by rw [ht]; exact BatchTable.replace_full hfull
  rw [hbat, BatchTable.mem_replace hd hb] at hc
  rcases hc with rfl | ⟨hc, -⟩
  · exact absurd hco ho
  · exact ⟨c, hc, hco⟩

/-! ### The relations -/

/-- `t` has the commit path but for the arbiter's decision, and the staged addresses if `s` had them. -/
structure State.LeavesFit (s t : State) : Prop where
  fits : t.PathFits
  staged : s.StagedOk → t.StagedOk

/-- `t` has the commit path, and the staged addresses if `s` had them. -/
structure State.LeavesPath (s t : State) : Prop where
  path : t.PathOk
  staged : s.StagedOk → t.StagedOk

theorem State.LeavesFit.arbitrate (h : s.LeavesFit t) : s.LeavesPath t.arbitrate :=
  ⟨h.fits.arbitrate, fun hs =>
    (h.staged hs).congr (by simp) (by simp) (by simp) fun _ hw => State.arbitrate_stalled.1 hw⟩

theorem State.PathOk.refl (h : s.PathOk) : s.LeavesPath s := ⟨h, id⟩

theorem State.LeavesPath.trans (h : s.LeavesPath t) (h' : t.LeavesPath u) : s.LeavesPath u :=
  ⟨h'.path, h'.staged ∘ h.staged⟩

/-- The staged addresses alone carried on from an earlier state. -/
theorem State.LeavesPath.of_staged (h : t.LeavesPath u) (hs : s.StagedOk → t.StagedOk) : s.LeavesPath u :=
  ⟨h.path, h.staged ∘ hs⟩

theorem State.LeavesPath.ite {c : Prop} [Decidable c] (ht : s.LeavesPath t) (hu : s.LeavesPath u) :
    s.LeavesPath (if c then t else u) := by
  split
  · exact ht
  · exact hu

/-- What the relations read besides the host port. -/
def State.pathRead (s : State) := (s.log, s.table, s.engine, s.port, s.windows, s.mgmt.settings.hostShare)

/-- Where nothing changes but a host port that holds no new write and has its access granted or waiting as before. -/
theorem State.PathOk.leaves_withHost (h : s.PathOk) (hr : t.pathRead = s.pathRead)
    (hg : t.host.state.granted = s.host.state.granted) (hw : t.hostWaits = s.hostWaits)
    (hh : ∀ w, t.host.state = .stalled w → s.host.state = .stalled w) : s.LeavesPath t := by
  simp only [State.pathRead, Prod.mk.injEq] at hr
  obtain ⟨hlog, htable, hengine, hport, hwindows, hshare⟩ := hr
  have ht : t.TableOk := h.fits.table.congr htable (congrArg Engine.active hengine)
  have hl : t.LogOk := h.fits.log.congr hlog (congrArg BatchTable.batches htable) hh
  refine ⟨⟨⟨ht, hl, ?_, ?_, ?_⟩, ?_⟩, fun hs => hs.congr hwindows hlog htable hh⟩
  · refine h.fits.engine.congr h.fits.table ht h.fits.log hl hengine (fun b hb _ => htable ▸ hb) fun r hr _ => ?_
    rw [hlog]
    exact hr
  · exact h.fits.port.congr hport (by rw [hengine]) hg hw
  · rw [hshare]
    exact h.fits.share
  · rw [State.NoneWaits, hport, hengine, hw]
    exact h.noneWaits

/-- Where nothing changes that the relations read. -/
theorem State.PathOk.leaves_of_eq (h : s.PathOk) (hr : t.pathRead = s.pathRead) (hh : t.host.state = s.host.state) :
    s.LeavesPath t :=
  h.leaves_withHost hr (by rw [hh]) (by rw [State.hostWaits, State.hostWaits, hh]) fun _ hw => hh ▸ hw

/-- An operation that starts from a state in which nothing that is read has changed yet. -/
theorem State.PathOk.after (h : s.PathOk) (hr : t.pathRead = s.pathRead) (hh : t.host.state = s.host.state)
    (hu : t.PathOk → t.LeavesPath u) : s.LeavesPath u :=
  (h.leaves_of_eq hr hh).trans (hu (h.leaves_of_eq hr hh).path)

/-! ### Placements and the removal notice (R8 to R14, R134) -/

/-- A placement leaves the active batch and its records as they were (R9 to R11). -/
theorem State.Placed.active_kept (ht : s.TableOk) {a : Addr} {l : Lanes} {d : Word} {i : Byte}
    (h : s.Placed a l d i t) :
    (∀ b ∈ t.table.batches, b.state.IsActive → b ∈ s.table.batches) ∧
      ∀ r ∈ s.log, s.engine.active = some r.batch → r ∈ t.log := by
  cases h with
  | merged b r w hm _ =>
    refine ⟨fun _ hb _ => hb, fun x hx hact => List.mem_map.2 ⟨x, hx, if_neg ?_⟩⟩
    rintro rfl
    obtain ⟨⟨hb, hopen⟩, -, hrb, -⟩ := hm
    exact ht.active_ne hb (fun ha => ha.1 hopen) (hrb ▸ hact)
  | appended b w hb _ _ _ =>
    refine ⟨fun c hc hact => ?_, fun x hx _ => List.mem_append_left _ hx⟩
    rcases (BatchTable.mem_replace ht.idsDistinct hb.1).1 hc with rfl | ⟨hc, -⟩
    · exact absurd hb.2 hact.1
    · exact hc
  | opened slot k w _ _ _ _ _ _ =>
    refine ⟨fun c hc hact => ?_, fun x hx _ => List.mem_append_left _ hx⟩
    rcases List.mem_or_eq_of_mem_set (BatchTable.mem_batches.1 hc) with hc | hc
    · exact BatchTable.mem_batches.2 hc
    · obtain rfl := Option.some.inj hc
      exact absurd rfl hact.1

/-- A placement adds at most its own address to the log. -/
theorem State.Placed.addresses {a : Addr} {l : Lanes} {d : Word} {i : Byte} (h : s.Placed a l d i t) :
    ∀ r ∈ t.log, r.addr = a ∨ ∃ r' ∈ s.log, r'.addr = r.addr := by
  have happend : ∀ x : Record, x.addr = a → ∀ r ∈ s.log ++ [x], r.addr = a ∨ ∃ r' ∈ s.log, r'.addr = r.addr :=
    fun x hx r hr => by
      rcases List.mem_append.1 hr with hr | hr
      · exact .inr ⟨r, hr, rfl⟩
      · exact .inl (List.mem_singleton.1 hr ▸ hx)
  cases h with
  | merged b r w _ _ =>
    intro x hx
    obtain ⟨y, hy, rfl⟩ := List.mem_map.1 hx
    exact .inr ⟨y, hy, by split <;> rfl⟩
  | appended b w _ _ _ _ => exact happend _ rfl
  | opened slot k w _ _ _ _ _ _ => exact happend _ rfl

/-- A placement changes the log and the table alone. -/
theorem State.Placed.eq {a : Addr} {l : Lanes} {d : Word} {i : Byte} (h : s.Placed a l d i t) :
    t = { s with log := t.log, table := t.table } := by
  cases h <;> rfl

theorem State.NoSpace.noRoom {a : Addr} (h : s.NoSpace a) : s.NoRoom :=
  h.2.imp id fun ⟨hopen, hfull⟩ =>
    ⟨BatchTable.openBatch?_eq_none.2 hopen, fun o ho => Option.isSome_iff_ne_none.2 (hfull o ho)⟩

/-- A write with a lane selected, to a STAGE address, placed and accepted by a host port in IDLE or STALLED, whatever
becomes of its stall timer (R131, R134). -/
theorem State.PathFits.accepted (h : s.PathFits) {a : Addr} {l : Lanes} {d : Word} {i : Byte} (hp : s.Placed a l d i u)
    (hl : l ≠ 0#4) (ht : u.TableOk) (hs : s.host.state = .idle ∨ ∃ w, s.host.state = .stalled w)
    (hlog : t.log = u.log) (htable : t.table = u.table) (hengine : t.engine = s.engine) (hport : t.port = s.port)
    (hmgmt : t.mgmt = s.mgmt) (hhost : t.host.state = .idle) : t.PathFits := by
  have hgranted : s.host.state.granted = false := by rcases hs with hs | ⟨w, hs⟩ <;> rw [hs] <;> rfl
  have hwaits : s.hostWaits = false := by rcases hs with hs | ⟨w, hs⟩ <;> rw [State.hostWaits, hs]
  have htt : t.TableOk := ht.congr htable (by rw [hengine, hp.eq])
  have hlt : t.LogOk := (hp.logOk h.table h.log hl).congr hlog (by rw [htable]) fun w hw => by
    rw [hhost] at hw
    cases hw
  obtain ⟨hbatches, hrecords⟩ := hp.active_kept h.table
  exact
    { table := htt
      log := hlt
      engine := h.engine.congr h.table htt h.log hlt hengine (fun b hb => hbatches b (htable ▸ hb))
        fun r hr ha => by rw [hlog]; exact hrecords r hr ha
      port := h.port.congr hport (by rw [hengine]) (by rw [hhost, hgranted]; rfl)
        (by rw [hwaits, State.hostWaits, hhost])
      share := hmgmt ▸ h.share }

theorem State.AddressesOk.accepted (h : s.AddressesOk) {a : Addr} {l : Lanes} {d : Word} {i : Byte}
    (hp : s.Placed a l d i u) (ha : s.policyOf a = .stage) (hlog : t.log = u.log) (hw : t.windows = s.windows)
    (hhost : t.host.state = .idle) : t.StagedOk where
  recordsStaged r hr := by
    rw [State.policyOf_congr hw]
    rcases hp.addresses r (hlog ▸ hr) with hra | ⟨r', hr', hra⟩
    · rw [hra]
      exact ha
    · rw [← hra]
      exact h.recordsStaged r' hr'
  heldStaged w hs := by rw [hhost] at hs; cases hs
  heldNoRoom w hs := by rw [hhost] at hs; cases hs

/-- A placement that succeeds keeps the table well formed. -/
theorem State.Placed.tableOk (h : s.Placed a l d i t) (ht : s.TableOk) (hl : s.LogOk) : t.TableOk := by
  have hok := ht.place a l d
  rcases h.place_eq ht hl with he | ⟨n, he⟩ <;> rwa [he] at hok

/-- The stall timer stopped (R134). -/
def State.stallEnded (s : State) : State := { s with host := { s.host with stallTimer := none } }

/-- The notice after a removal: a held write that room was made for is placed, and one that is held on has no room
(R13, R134). -/
theorem State.PathFits.noticed (h : u.PathFits) (ha : s.StagedOk → u.AddressesOk) : s.LeavesFit u.removalNotice := by
  by_cases hs : ∃ w, u.host.state = .stalled w
  · obtain ⟨w, hw⟩ := hs
    rcases State.placed_or_noSpace h.table h.log w.addr w.lanes w.data with ⟨i, v, hp⟩ | hn
    · have he : u.removalNotice =
          State.stallEnded (v.acceptPlaced (w.window.bind fun n => u.windows[n]?) w.addr i) := by
        rw [State.removalNotice, hw]
        simp only [hp.placeForHost_eq h.table h.log]
        rfl
      rw [he]
      have hv := hp.eq
      refine ⟨h.accepted hp (h.log.heldLanes w hw) (hp.tableOk h.table h.log) (.inr ⟨w, hw⟩) rfl rfl ?_ ?_ ?_ rfl,
        fun hok => (ha hok).accepted hp ((ha hok).heldStaged w hw) rfl ?_ rfl⟩ <;> rw [hv] <;> rfl
    · have he : u.removalNotice = u := by
        rw [State.removalNotice, hw]
        simp only [hn.placeForHost_eq h.table h.log]
      rw [he]
      exact ⟨h, fun hok => State.stagedOk_iff.2 ⟨ha hok, fun _ _ => hn.noRoom⟩⟩
  · have hnone : ∀ w, u.host.state ≠ .stalled w := fun w hw => hs ⟨w, hw⟩
    rw [State.removalNotice_of_not_stalled hnone]
    exact ⟨h, fun hok => State.stagedOk_iff.2 ⟨ha hok, fun w hw => absurd hw (hnone w)⟩⟩

/-- The notice where no request waits at a free port. -/
theorem State.PathOk.noticed (h : u.PathOk) (ha : s.StagedOk → u.AddressesOk) : s.LeavesPath u.removalNotice := by
  obtain ⟨hfits, hstaged⟩ := h.fits.noticed ha
  refine ⟨⟨hfits, ?_⟩, hstaged⟩
  rw [State.NoneWaits, State.removalNotice_port, State.removalNotice_engine, State.removalNotice_hostWaits]
  exact h.noneWaits

end Sys2Proof.Machine
end

section
/-! PROOFS. The commit path over the changes of the batch table and the engine (R36, R44, R77, R82, R85 to R96). -/

namespace Sys2Proof.Machine

open Sys2Proof

variable {s t u : State} {b b' : Batch} {r : Record}

/-! ### The commit path without the engine -/

/-- The commit path but for what the engine holds and for the arbiter's decision. -/
structure State.RestFits (s : State) : Prop where
  table : s.TableOk
  log : s.LogOk
  port : s.PortFits
  share : 1 ≤ s.mgmt.settings.hostShare.toNat ∧ s.mgmt.settings.hostShare.toNat ≤ 16

theorem State.PathFits.rest (h : s.PathFits) : s.RestFits := ⟨h.table, h.log, h.port, h.share⟩

theorem State.RestFits.fits (h : s.RestFits) (he : s.EngineOk) : s.PathFits := ⟨h.table, h.log, he, h.port, h.share⟩

/-- The log, the table and the memory port as they were, with the same batch active. -/
theorem State.RestFits.congr (h : s.RestFits) (hlog : t.log = s.log) (htable : t.table = s.table)
    (hactive : t.engine.active = s.engine.active) (hgranted : t.engine.access.granted = s.engine.access.granted)
    (hport : t.port = s.port) (hhost : t.host = s.host)
    (hshare : t.mgmt.settings.hostShare = s.mgmt.settings.hostShare) : t.RestFits where
  table := h.table.congr htable hactive
  log := h.log.congr hlog (congrArg BatchTable.batches htable) fun _ hw => hhost ▸ hw
  port := h.port.congr hport hgranted (by rw [hhost]) (by rw [State.hostWaits, State.hostWaits, hhost])
  share := hshare ▸ h.share

/-- The active batch's record changed, its counts as they were. -/
theorem State.RestFits.replace (h : s.RestFits) (hb : b ∈ s.table.batches) (ha : b.state.IsActive) (hid : b'.id = b.id)
    (ha' : b'.state.IsActive) (hcause : b'.cause = b.cause) (hcount : b'.count = b.count)
    (happlied : b'.applied = b.applied) (ht : t = { s with table := s.table.replace b b' }) : t.RestFits := by
  subst ht
  exact
    { table := h.table.replace_active hb ha hid ha' hcause rfl rfl
      log := h.log.replace h.table.idsDistinct hb hid hcount happlied (fun ho => absurd ho ha'.1)
        (fun hn => absurd ha' hn) rfl rfl fun _ hw => hw
      port := h.port.congr rfl rfl rfl rfl
      share := h.share }

/-! ### Applied records (R15, R85) -/

theorem State.withApplied_eq (s : State) (b : Batch) (r : Record) :
    ∃ w e, s.withApplied b r =
      { s with
        log := s.log.map fun x => if x = r then { x with applied := true } else x
        table := s.table.replace b { b with applied := b.applied + 1 }
        engine := { s.engine with nextPos := s.engine.nextPos + 1 }
        watch := w
        events := e } :=
  ⟨_, _, State.watchCheck_eq _ _ _ _⟩

/-- The marks change no address. -/
theorem mark_addresses (log : List Record) (r : Record) :
    ∀ x ∈ log.map (fun x => if x = r then { x with applied := true } else x), ∃ y ∈ log, y.addr = x.addr := by
  intro x hx
  obtain ⟨y, hy, rfl⟩ := List.mem_map.1 hx
  exact ⟨y, hy, by split <;> rfl⟩

theorem State.RestFits.withApplied (h : s.RestFits) (hb : b ∈ s.table.batches) (ha : b.state.IsActive) (hr : s.Next b r)
    (hn : s.engine.nextPos = b.applied) (hu : b.applied < b.count) : (s.withApplied b r).RestFits := by
  obtain ⟨w, e, heq⟩ := s.withApplied_eq b r
  rw [heq]
  exact
    { table := h.table.replace_active (b' := { b with applied := b.applied + 1 }) hb ha rfl ha rfl rfl rfl
      log := h.log.withApplied h.table hb ha hr hn hu rfl rfl fun _ hw => hw
      port := h.port.congr rfl rfl rfl rfl
      share := h.share }

theorem State.AddressesOk.withApplied (h : s.AddressesOk) (b : Batch) (r : Record) :
    (s.withApplied b r).AddressesOk := by
  obtain ⟨w, e, heq⟩ := s.withApplied_eq b r
  rw [heq]
  exact h.mono rfl (mark_addresses s.log r) fun _ hw => hw

theorem State.withApplied_granted (s : State) (b : Batch) (r : Record) :
    (s.withApplied b r).engine.access = s.engine.access := by
  obtain ⟨w, e, heq⟩ := s.withApplied_eq b r
  rw [heq]

/-! ### A batch that leaves (R44, R88, R96) -/

theorem State.RestFits.departed (h : s.RestFits) (hb : b ∈ s.table.batches)
    (ha : b.state.IsActive ∨ s.engine.active = none) (hg : s.engine.access.granted = false) (o : BatchOutcome)
    (cause : SealCause) : (s.departed b o cause).PathFits where
  table := h.table.without hb rfl (by
    rcases ha with ha | ha
    · rw [if_neg (not_or.2 ha)]
      rfl
    · rw [ha, ite_self]
      rfl)
  log := h.log.without h.table.idsDistinct hb rfl rfl fun _ hw => hw
  engine := State.engineOk_of_reset rfl
  port := h.port.congr rfl hg.symm rfl rfl
  share := h.share

theorem State.AddressesOk.departed (h : s.AddressesOk) (b : Batch) (o : BatchOutcome) (cause : SealCause) :
    (s.departed b o cause).AddressesOk :=
  h.mono rfl (fun r hr => ⟨r, List.mem_of_mem_filter hr, rfl⟩) fun _ hw => hw

theorem State.RestFits.abortEnded (h : s.RestFits) (hb : b ∈ s.table.batches) (ha : b.state.IsActive)
    (hg : s.engine.access.granted = false) (cause : SealCause) : (s.abortEnded b cause).PathFits := by
  unfold State.abortEnded
  split
  · exact State.RestFits.departed (s := s.report .torn) (h.congr rfl rfl rfl rfl rfl rfl rfl) hb (.inl ha) hg _ _
  · exact h.departed hb (.inl ha) hg _ _

theorem State.AddressesOk.abortEnded (h : s.AddressesOk) (b : Batch) (cause : SealCause) :
    (s.abortEnded b cause).AddressesOk := by
  unfold State.abortEnded
  split
  · exact State.AddressesOk.departed (s := s.report .torn)
      (h.mono rfl (fun r hr => ⟨r, hr, rfl⟩) fun _ hw => hw) _ _ _
  · exact h.departed _ _ _

/-! ### Requests of the engine (R77, R82) -/

/-- What the engine holds for its APPLYING batch when it places a request for the next record (R73, R77, R85). -/
structure State.Ready (s : State) (b : Batch) : Prop where
  applying : b.state = .applying
  nextPos : s.engine.nextPos = b.applied
  unapplied : b.applied < b.count
  abortPending : s.engine.abortPending = false
  grant : 1 ≤ s.engine.grant ∧ s.engine.grant ≤ b.count - b.applied
  fault : b.faultPos = none

theorem State.Ready.requests (h : s.Ready b) (hr : s.nextRecord? = some r) (k : AccessKind) :
    (s.requests k r).ActiveOk b where
  nextPos := h.nextPos
  unapplied := h.unapplied
  abortPending := h.abortPending.trans (by rw [h.applying]; rfl)
  aborting ha := by rw [h.applying] at ha; cases ha
  applying _ := nofun
  resting ha := by rcases ha with ha | ha <;> rw [h.applying] at ha <;> cases ha
  grant _ := h.grant
  usedUp ha := by rw [h.applying] at ha; cases ha
  fault := h.fault.trans (by rw [h.applying]; rfl)
  forRecord q hq := by
    obtain rfl := Option.some.inj hq
    exact ⟨r, hr, rfl, rfl, rfl⟩

/-- A request placed beside an engine without a granted access. -/
theorem State.RestFits.requests (h : s.RestFits) (hb : b ∈ s.table.batches) (hok : s.Ready b) (hr : s.Next b r)
    (hg : s.engine.access.granted = false) (k : AccessKind) : (s.requests k r).PathFits := by
  have hrest : (s.requests k r).RestFits := h.congr rfl rfl rfl hg.symm rfl rfl rfl
  refine hrest.fits ((hok.requests (hr.nextRecord? h.log) k).engineOk hrest.table hb ?_)
  rw [hok.applying]
  exact ⟨nofun, nofun⟩

theorem State.StagedOk.requests (h : s.StagedOk) (k : AccessKind) (r : Record) : (s.requests k r).StagedOk :=
  h.congr rfl rfl rfl fun _ hw => hw

/-- The active batch's record changed and its records marked at most: the addresses stay, and room is not made. -/
theorem State.StagedOk.replace (h : s.StagedOk) (hd : s.table.Distinct) (hb : b ∈ s.table.batches)
    (ho : b'.state ≠ .opened) (hw : t.windows = s.windows) (hhost : t.host = s.host)
    (hl : ∀ x ∈ t.log, ∃ y ∈ s.log, y.addr = x.addr) (hlen : t.log.length = s.log.length)
    (ht : t.table.slots = (s.table.replace b b').slots) : t.StagedOk :=
  h.mono hw hl (fun _ hs => hhost ▸ hs) fun hr => hr.replace hd hb ho hlen ht

/-! ### Seals and removals of batches that are not active (R36, R44) -/

theorem State.PathOk.sealOpen (h : s.PathOk) (cause : SealCause) : s.LeavesPath (s.sealOpen cause) := by
  have ht := h.fits.table
  obtain ⟨hseals, hnone⟩ := State.sealOpen_eq ht cause
  by_cases ho : ∃ b, s.Holds b .opened
  · obtain ⟨b, hb, hopen⟩ := ho
    have htable := ht.sealOpen cause
    rw [hseals b ⟨hb, hopen⟩] at htable ⊢
    have hinactive : ¬ b.state.IsActive := fun ha => ha.1 hopen
    have hl : State.LogOk
        { s with
          table :=
            { s.table.replace b { b with state := .sealed, cause := some cause } with
              sealedQueue := s.table.sealedQueue ++ [b.id] }
          waiting := { s.waiting with attempts := s.waiting.attempts + 1 } } :=
      h.fits.log.replace (b' := { b with state := .sealed, cause := some cause }) ht.idsDistinct hb rfl rfl rfl nofun
        (fun _ => h.fits.log.waitingUntouched b hb hinactive) rfl rfl fun _ hw => hw
    refine ⟨⟨⟨htable, hl, ?_, h.fits.port.congr rfl rfl rfl rfl, h.fits.share⟩, h.noneWaits⟩, fun hs => ?_⟩
    · refine h.fits.engine.congr ht htable h.fits.log hl rfl (fun c hc hact => ?_) fun _ hr _ => hr
      rcases (BatchTable.mem_replace ht.idsDistinct hb).1 hc with rfl | ⟨hc, -⟩
      · exact absurd rfl hact.2
      · exact hc
    · exact hs.replace ht.idsDistinct hb (b' := { b with state := .sealed, cause := some cause }) nofun rfl rfl
        (fun x hx => ⟨x, hx, rfl⟩) rfl rfl
  · rw [hnone fun b hb hopen => ho ⟨b, hb, hopen⟩]
    exact h.refl

/-- An OPEN or SEALED batch removed, and the notice given (R44, R45). -/
theorem State.PathOk.dropBatch (h : s.PathOk) (hb : b ∈ s.table.batches) (hs : b.state = .opened ∨ b.state = .sealed) :
    s.LeavesPath (s.dropBatch b.id).removalNotice := by
  have ht := h.fits.table
  have hl : (s.dropBatch b.id).LogOk := by
    rw [State.dropBatch_of_mem ht hb]
    exact h.fits.log.without ht.idsDistinct hb rfl rfl fun _ hw => hw
  have hne : s.engine.active ≠ some b.id := ht.active_ne hb (not_and_or.2 (hs.imp not_not.2 not_not.2))
  have hpath : (s.dropBatch b.id).PathOk :=
    ⟨⟨ht.dropBatch hb hs, hl,
      h.fits.engine.congr ht (ht.dropBatch hb hs) h.fits.log hl rfl (fun c hc _ => (BatchTable.mem_remove.1 hc).1)
        fun x hx hact => List.mem_filter.2 ⟨hx, decide_eq_true fun e => hne (e ▸ hact)⟩,
      h.fits.port.congr rfl rfl rfl rfl, h.fits.share⟩, h.noneWaits⟩
  refine hpath.noticed fun hok => ?_
  exact (State.stagedOk_iff.1 hok).1.mono rfl (fun x hx => ⟨x, List.mem_of_mem_filter hx, rfl⟩) fun _ hw => hw

/-- CLEAR's removals of the batches that are not active, the notice not given yet (R49). -/
theorem State.PathOk.activeOnly (h : s.PathOk) : s.activeOnly.PathOk := by
  have ht := h.fits.table
  have hl := h.fits.log.activeOnly ht
  refine ⟨⟨ht.activeOnly, hl, ?_, h.fits.port.congr rfl rfl rfl rfl, h.fits.share⟩, h.noneWaits⟩
  exact h.fits.engine.congr ht ht.activeOnly h.fits.log hl rfl (fun c hc _ => (State.mem_activeOnly.1 hc).1)
    fun x hx hact => List.mem_filter.2 ⟨hx, decide_eq_true hact⟩

theorem State.AddressesOk.activeOnly (h : s.AddressesOk) : s.activeOnly.AddressesOk :=
  h.mono rfl (fun x hx => ⟨x, List.mem_of_mem_filter hx, rfl⟩) fun _ hw => hw

/-! ### Aborts (R94) -/

/-- The next record of the active batch, when the engine has an access for it (R73). -/
theorem State.PathFits.exists_next (h : s.PathFits) (hb : b ∈ s.table.batches) (ha : b.state.IsActive) :
    ∃ r, s.Next b r := by
  have hok := h.engine.activeOk h.table hb ha
  obtain ⟨r, hr, hrb, hpos⟩ := (h.log.exists_at hb).2 hok.unapplied
  exact ⟨r, h.table.activeHeld b hb ha, hr, hrb, hpos.trans hok.nextPos.symm⟩

/-- What an abort leaves: the batch gone, the arbiter and the notice to come, or the batch ABORTING (R94). -/
theorem State.PathOk.abortActive (h : s.PathOk) (hb : b ∈ s.table.batches) (ha : b.state.IsActive) :
    ((s.abortActive b).1 = true ∧ (s.abortActive b).2.PathFits ∧
        (s.AddressesOk → (s.abortActive b).2.AddressesOk)) ∨
      ((s.abortActive b).1 = false ∧ s.LeavesPath (s.abortActive b).2 ∧
        (s.AddressesOk → (s.abortActive b).2.AddressesOk)) := by
  have ht := h.fits.table
  have hok := h.fits.engine.activeOk ht hb ha
  obtain ⟨cause, hc⟩ := ht.exists_cause hb ha.1
  have hrest : ∀ hacc : s.engine.access = .idle ∨ ∃ q, s.engine.access = .waiting q ∧ q.kind = .recordWrite,
      (s.abortActive b).1 = true ∧ (s.abortActive b).2.PathFits ∧
        (s.AddressesOk → (s.abortActive b).2.AddressesOk) := fun hacc => by
    rw [State.abortActive_rest ht hb hc hacc]
    have hg : s.engine.access.granted = false := by rcases hacc with he | ⟨q, he, -⟩ <;> rw [he] <;> rfl
    exact ⟨rfl, h.fits.rest.abortEnded hb ha hg cause, fun hs => hs.abortEnded b cause⟩
  cases hacc : s.engine.access with
  | idle => exact .inl (hrest (.inl hacc))
  | waiting q =>
    cases hk : q.kind with
    | recordWrite => exact .inl (hrest (.inr ⟨q, hacc, hk⟩))
    | verifyRead =>
      obtain ⟨r, hr⟩ := h.fits.exists_next hb ha
      rw [State.abortActive_verify ht h.fits.log hb hc hacc hk hr]
      have hm : { b with applied := b.applied + 1 } ∈ (s.withApplied b r).table.batches := by
        obtain ⟨-, hm, -⟩ := State.withApplied_mem ht hb r
        exact hm
      have hg : (s.withApplied b r).engine.access.granted = false := by
        rw [State.withApplied_granted, hacc]
        rfl
      exact .inl ⟨rfl,
        (h.fits.rest.withApplied hb ha hr hok.nextPos hok.unapplied).abortEnded hm ha hg cause,
        fun hs => (hs.withApplied b r).abortEnded _ cause⟩
  | inFlight q =>
    rw [State.abortActive_inFlight ht hb hacc]
    have hrest := h.fits.rest.replace (b' := { b with state := .aborting, faultPos := none }) hb ha rfl
      ⟨nofun, nofun⟩ rfl rfl rfl rfl
    have hrest' : State.RestFits
        { s with
          table := s.table.replace b { b with state := .aborting, faultPos := none }
          engine := { s.engine with abortPending := true } } := hrest.congr rfl rfl rfl rfl rfl rfl rfl
    have hm : { b with state := .aborting, faultPos := none } ∈
        (s.table.replace b { b with state := .aborting, faultPos := none }).batches :=
      (BatchTable.mem_replace ht.idsDistinct hb).2 (.inl rfl)
    have hactive : State.ActiveOk
        { s with
          table := s.table.replace b { b with state := .aborting, faultPos := none }
          engine := { s.engine with abortPending := true } } { b with state := .aborting, faultPos := none } :=
      { nextPos := hok.nextPos
        unapplied := hok.unapplied
        abortPending := rfl
        aborting := fun _ => by rw [hacc]; rfl
        applying := nofun
        resting := by simp
        grant := by simp
        usedUp := nofun
        fault := rfl
        forRecord := hok.forRecord }
    refine .inr ⟨rfl, ⟨⟨hrest'.fits (hactive.engineOk hrest'.table hm ⟨nofun, nofun⟩), h.noneWaits⟩, fun hs => ?_⟩,
      fun hs => hs.mono rfl (fun x hx => ⟨x, hx, rfl⟩) fun _ hw => hw⟩
    exact hs.replace ht.idsDistinct hb (b' := { b with state := .aborting, faultPos := none }) nofun rfl rfl
      (fun x hx => ⟨x, hx, rfl⟩) rfl rfl

end Sys2Proof.Machine
end

section
/-! PROOFS. The commit path over the requests of the management port (R37, R45 to R50, R92, R121, R177). -/

namespace Sys2Proof.Machine

open Sys2Proof

variable {s t u : State} {b : Batch} {r : Record}

/-- A request that changes nothing that is read, or what its owning block changes (R172). -/
theorem State.PathOk.handRequest (h : s.PathOk) (tag : Byte) (inRange : Bool) {owner : State → Taken}
    (ho : inRange = true → ∀ u : State, u.PathOk → u.LeavesPath (owner u).state) :
    s.LeavesPath (s.handRequest tag inRange owner) := by
  have hended : s.LeavesPath s.endTransaction := h.leaves_of_eq rfl rfl
  have hretain (v : State) (hv : s.LeavesPath v) (x : Status) (p : List Byte) : s.LeavesPath (v.retain x tag p) :=
    hv.trans (hv.path.leaves_of_eq rfl rfl)
  unfold State.handRequest
  split
  · split
    · rename_i hr
      exact hretain _ (hended.trans (ho hr _ hended.path)) _ _
    · exact hretain _ hended _ _
  · exact h.refl

theorem State.PathOk.execDiscard (h : s.PathOk) (tag i : Byte) :
    ∃ t, execDiscard tag i s = .next t ∧ s.LeavesPath t := by
  refine ⟨_, rfl, h.handRequest tag true fun _ u hu => ?_⟩
  split
  · exact hu.refl
  · rename_i b hb
    have hm : b ∈ u.table.batches := by
      unfold State.discardTarget? at hb
      split at hb
      · exact (BatchTable.mem_of_openBatch? hb).1
      · exact (BatchTable.mem_of_find? hb).1
    split
    · exact hu.dropBatch hm (.inl ‹_›)
    · exact hu.dropBatch hm (.inr ‹_›)
    · exact hu.refl
    · have habort := hu.abortActive hm ⟨‹_›, ‹_›⟩
      split <;> rename_i hx <;> rw [hx] at habort
      · rcases habort with ⟨-, hfits, haddresses⟩ | ⟨hfalse, -⟩
        · exact (hfits.noticed fun hs => haddresses (State.stagedOk_iff.1 hs).1).arbitrate
        · cases hfalse
      · rcases habort with ⟨htrue, -⟩ | ⟨-, hleaves, -⟩
        · cases htrue
        · exact hleaves

/-- CLEAR's abort, before any notice: whether a batch left at once, and what stays (R49, R94). -/
theorem State.PathOk.clearAbort (h : s.PathOk) :
    s.clearAbort.2.2.PathOk ∧ (s.AddressesOk → s.clearAbort.2.2.AddressesOk) ∧
      (s.clearAbort.1 = 0 → s.StagedOk → s.clearAbort.2.2.StagedOk) := by
  unfold State.clearAbort
  split
  · exact ⟨h, id, fun _ => id⟩
  · rename_i b hb
    obtain ⟨hm, ha⟩ := h.fits.table.activeBatch?_eq_some.1 hb
    have habort := h.abortActive hm ha
    split
    · exact ⟨h, id, fun _ => id⟩
    · split <;> rename_i hx <;> rw [hx] at habort
      · rcases habort with ⟨-, hfits, haddresses⟩ | ⟨hfalse, -⟩
        · refine ⟨hfits.arbitrate, fun hs => ?_, nofun⟩
          exact (haddresses hs).mono (by simp) (fun x hx => ⟨x, by simpa using hx, rfl⟩)
            fun _ hw => State.arbitrate_stalled.1 hw
        · cases hfalse
      · rcases habort with ⟨htrue, -⟩ | ⟨-, hleaves, haddresses⟩
        · cases htrue
        · exact ⟨hleaves.path, haddresses, fun _ => hleaves.staged⟩

theorem State.PathOk.execClear (h : s.PathOk) (tag : Byte) : ∃ t, execClear tag s = .next t ∧ s.LeavesPath t := by
  refine ⟨_, rfl, h.handRequest tag true fun _ u hu => ?_⟩
  have hdropped := State.foldl_unadmitted hu.fits.table hu.fits.log.owned
  obtain ⟨hpath, haddresses, hkept⟩ := hu.activeOnly.clearAbort
  dsimp only
  split
  · rename_i hnone
    obtain ⟨hids, hzero⟩ := Nat.add_eq_zero_iff.1 hnone
    rw [List.length_eq_zero_iff.1 hids] at hzero ⊢
    obtain ⟨hpath, -, hkept⟩ := hu.clearAbort
    exact ⟨hpath, hkept hzero⟩
  · rw [hdropped]
    exact hpath.noticed fun hs => haddresses (State.stagedOk_iff.1 hs).1.activeOnly

/-- A HALTED batch is ready for the rewrite of its failing record (R92). -/
theorem State.ActiveOk.ready_resumed (h : s.ActiveOk b) (hs : b.state = .halted) :
    (s.resumed b).Ready { b with state := .applying, faultPos := none } where
  applying := rfl
  nextPos := h.nextPos
  unapplied := h.unapplied
  abortPending := h.abortPending.trans (by rw [hs]; rfl)
  grant := h.grant (.inr hs)
  fault := rfl

theorem State.PathOk.execResume (h : s.PathOk) (tag : Byte) : ∃ t, execResume tag s = .next t ∧ s.LeavesPath t := by
  refine ⟨_, rfl, h.handRequest tag true fun _ u hu => ?_⟩
  split
  · rename_i b hb
    split
    · rename_i hs
      obtain ⟨hm, ha⟩ := hu.fits.table.activeBatch?_eq_some.1 hb
      have hd := hu.fits.table.idsDistinct
      have hok := hu.fits.engine.activeOk hu.fits.table hm ha
      obtain ⟨r, hr⟩ := hu.fits.exists_next hm ha
      have hrest : (u.resumed b).RestFits :=
        hu.fits.rest.replace (b' := { b with state := .applying, faultPos := none }) hm ha rfl ⟨nofun, nofun⟩ rfl rfl
          rfl rfl
      have hidle := hok.resting (.inr hs)
      have hnext : (u.resumed b).nextRecord? = some r := hr.nextRecord? hu.fits.log
      have hstaged (hs : u.StagedOk) : (u.resumed b).StagedOk :=
        hs.replace hd hm (b' := { b with state := .applying, faultPos := none }) nofun rfl rfl
          (fun x hx => ⟨x, hx, rfl⟩) rfl rfl
      dsimp only
      rw [BatchTable.update_eq_replace hd hm]
      change u.LeavesPath ((u.resumed b).placeRequest .recordWrite)
      rw [State.placeRequest_eq hnext]
      refine State.LeavesFit.arbitrate ⟨?_, fun hs => (hstaged hs).requests _ _⟩
      refine hrest.requests ((BatchTable.mem_replace hd hm).2 (.inl rfl)) (hok.ready_resumed hs) hr
        (hidle ▸ rfl : u.engine.access.granted = false) _
    · exact hu.refl
  · exact hu.refl

/-- A full batch table holds a batch, and a batch holds a record, so with no live record there is room (R12). -/
theorem State.LogOk.room_of_empty (h : s.LogOk) (h4 : s.table.slots.length = Config.batchSlots) (he : s.log = []) :
    ¬ s.NoRoom := by
  rintro (hfull | ⟨-, hslots⟩)
  · rw [he] at hfull
    cases hfull
  · obtain ⟨o, ho⟩ := List.exists_mem_of_length_pos (l := s.table.slots) (by rw [h4]; decide)
    obtain ⟨b, rfl⟩ := Option.isSome_iff_exists.1 (hslots o ho)
    have hb := BatchTable.mem_batches.2 ho
    obtain ⟨r, hr, -⟩ := (h.exists_at hb (n := 0)).2 (h.nonempty b hb)
    rw [he] at hr
    cases hr

/-- SET_WINDOW changes a policy only while no address is staged or held (R14, R121). -/
theorem State.PathOk.setWindow (h : s.PathOk) (he : s.log = []) (ws : List WindowEntry) :
    s.LeavesPath { s with windows := ws } := by
  have ht : State.TableOk { s with windows := ws } := h.fits.table.congr rfl rfl
  have hl : State.LogOk { s with windows := ws } := h.fits.log.congr rfl rfl fun _ hw => hw
  refine ⟨⟨⟨ht, hl, ?_, h.fits.port.congr rfl rfl rfl rfl, h.fits.share⟩, h.noneWaits⟩, fun hs => ?_⟩
  · exact h.fits.engine.congr h.fits.table ht h.fits.log hl rfl (fun _ hb _ => hb) fun _ hr _ => hr
  · have hnone : ∀ w, s.host.state ≠ .stalled w := fun w hw =>
      h.fits.log.room_of_empty h.fits.table.fourSlots he ((State.stagedOk_iff.1 hs).2 w hw)
    exact
      { recordsStaged := fun r hr => by rw [show s.log = [] from he] at hr; cases hr
        heldStaged := fun w hw => absurd hw (hnone w)
        heldNoRoom := fun w hw => absurd hw (hnone w) }

theorem State.setConfig_eq (s : State) (c : Settings) :
    ∃ f w, s.setConfig c = { s with mgmt := { s.mgmt with settings := c }, unit := f, waiting := w } := by
  unfold State.setConfig State.changeTickSource
  dsimp only
  split
  · exact ⟨_, _, rfl⟩
  · split <;> exact ⟨_, _, rfl⟩

/-- SET_CONFIG with a host share in range (R100, R176). -/
theorem State.PathOk.setConfig (h : s.PathOk) {c : Settings}
    (hc : 1 ≤ c.hostShare.toNat ∧ c.hostShare.toNat ≤ 16) : s.LeavesPath (s.setConfig c) := by
  obtain ⟨f, w, he⟩ := s.setConfig_eq c
  rw [he]
  have ht : State.TableOk { s with mgmt := { s.mgmt with settings := c }, unit := f, waiting := w } :=
    h.fits.table.congr rfl rfl
  have hl : State.LogOk { s with mgmt := { s.mgmt with settings := c }, unit := f, waiting := w } :=
    h.fits.log.congr rfl rfl fun _ hw => hw
  exact ⟨⟨⟨ht, hl, h.fits.engine.congr h.fits.table ht h.fits.log hl rfl (fun _ hb _ => hb) fun _ hr _ => hr,
    h.fits.port.congr rfl rfl rfl rfl, hc⟩, h.noneWaits⟩, fun hs => hs.congr rfl rfl rfl fun _ hw => hw⟩

/-- A request handed to its owning block, whichever it is (R172, Table 9-3). -/
theorem State.PathOk.handOver (h : s.PathOk) (i : Instr) : ∃ t, s.handOver i = .next t ∧ s.LeavesPath t := by
  match i with
  | .identify _ | .status _ | .getConfig _ | .getWindow .. | .getWatch .. | .readEvents _ | .lookup .. =>
    exact ⟨_, rfl, h.handRequest _ _ fun _ u hu => hu.refl⟩
  | .freeze .. | .setWatch .. | .watchAck .. | .ackEvents .. | .setEventEnable .. =>
    exact ⟨_, rfl, h.handRequest _ _ fun _ u hu => hu.leaves_of_eq rfl rfl⟩
  | .replay _ => exact ⟨_, rfl, .ite (h.leaves_of_eq rfl rfl) h.refl⟩
  | .setConfig _ raw =>
    refine ⟨_, rfl, h.handRequest _ _ fun hr u hu => hu.setConfig ?_⟩
    obtain ⟨-, -, -, -, -, -, -, hone, hshare, -⟩ := rawInRange_iff.1 hr
    exact ⟨hone, hshare⟩
  | .setWindow .. =>
    refine ⟨_, rfl, h.handRequest _ _ fun _ u hu => ?_⟩
    split
    · exact hu.setWindow (List.isEmpty_iff.1 ‹_›) _
    · exact hu.refl
  | .seal _ =>
    refine ⟨_, rfl, h.handRequest _ _ fun _ u hu => ?_⟩
    split
    · exact hu.sealOpen .request
    · exact hu.refl
  | .discard tag i => exact h.execDiscard tag i
  | .clear tag => exact h.execClear tag
  | .resume tag => exact h.execResume tag
  | .thaw _ =>
    refine ⟨_, rfl, h.handRequest _ _ fun _ u hu => ?_⟩
    split
    · rw [u.endFreeze_eq]
      exact hu.leaves_of_eq rfl rfl
    · exact hu.refl
  | .kick _ =>
    refine ⟨_, rfl, h.handRequest _ _ fun _ u hu => ?_⟩
    split
    · exact hu.refl
    · exact hu.leaves_of_eq rfl rfl
  | .peekCompletion _ =>
    refine ⟨_, rfl, h.handRequest _ _ fun _ u hu => ?_⟩
    split <;> exact hu.refl
  | .retire _ =>
    refine ⟨_, rfl, h.handRequest _ _ fun _ u hu => ?_⟩
    split
    · exact hu.leaves_of_eq rfl rfl
    · exact hu.refl
  | .transactionBegin | .transactionEnd | .hostRequest .. | .hceDeassert | .sealOnLast | .stallTimeout
  | .passThroughReadComplete _ | .passThroughWriteComplete | .forwardedReadComplete _ | .hostMemTimeout
  | .recordWriteComplete | .verifyReadComplete _ | .engineMemTimeout | .admissionAttempt | .countedEdge _
  | .frameTimeoutExpiry | .periodExpiry | .windowLengthExpiry | .freezeExpiry | .autoSeal | .continuationGrant
  | .rstAssert | .rstRelease | .powerUp | .refclkStop | .refclkRestart | .sckRisingEdge _ | .sckFallingEdge
  | .mceAssert => exact ⟨_, rfl, h.refl⟩

end Sys2Proof.Machine
end

section
/-! PROOFS. The commit path over the ends of the engine's accesses, admissions and continuations (R75 to R90, R95). -/

namespace Sys2Proof.Machine

open Sys2Proof

variable {s t u : State} {b : Batch} {r : Record} {c : Instr}

/-! ### The access in flight (R73, R99) -/

/-- The memory port freed of an access, with none granted after it (R99). -/
theorem State.PortFits.freed (h : s.PortFits) (hp : t.port = s.port.freed) (he : t.engine.access.granted = false)
    (hh : t.host.state.granted = false) (hw : t.hostWaits = false → s.hostWaits = false) : t.PortFits where
  engineCarried := by rw [hp]; exact iff_of_false nofun (by simp [he])
  hostCarried := by rw [hp]; exact iff_of_false nofun (by simp [hh])
  timer := by rw [hp]; rfl
  atRest _ := by rw [hp]; exact ⟨rfl, rfl, rfl, rfl, rfl⟩
  countBound := by rw [hp]; exact h.countBound
  countZero hw' := by rw [hp]; exact h.countZero (hw hw')

/-- The engine's access in flight is for the next record of its APPLYING or ABORTING batch (R73, R87, R90). -/
theorem State.PathOk.exists_inFlight (h : s.PathOk) (hbusy : s.port.busy = some .engine) :
    ∃ b r, (s.Holds b .applying ∨ s.Holds b .aborting) ∧ s.Next b r := by
  have hg : s.engine.access.granted = true := h.fits.port.engineCarried.1 hbusy
  cases hactive : s.engine.active with
  | none =>
    obtain ⟨hreset, -⟩ := h.fits.engine
    rw [hreset hactive] at hg
    cases hg
  | some i =>
    obtain ⟨b, hb, rfl, ha⟩ := h.fits.table.activeInTable i hactive
    obtain ⟨r, hr⟩ := h.fits.exists_next hb ha
    have hok := h.fits.engine.activeOk h.fits.table hb ha
    have hrest : ¬ (b.state = .paused ∨ b.state = .halted) := fun hs => by
      rw [hok.resting hs] at hg
      cases hg
    refine ⟨b, r, ?_, hr⟩
    cases hs : b.state with
    | applying => exact .inl ⟨hb, hs⟩
    | aborting => exact .inr ⟨hb, hs⟩
    | opened => exact absurd hs ha.1
    | sealed => exact absurd hs ha.2
    | paused => exact absurd (.inl hs) hrest
    | halted => exact absurd (.inr hs) hrest

/-- The engine's access ended and nothing followed from it yet (R99). -/
theorem State.PathOk.accessEnded (h : s.PathOk) (hbusy : s.port.busy = some .engine) : s.accessEnded.RestFits where
  table := h.fits.table.congr rfl rfl
  log := h.fits.log.congr rfl rfl fun _ hw => hw
  port := h.fits.port.freed rfl rfl (h.fits.port.host_not_granted (by simp [hbusy])) id
  share := h.fits.share

theorem State.StagedOk.accessEnded (h : s.StagedOk) : s.accessEnded.StagedOk := h.congr rfl rfl rfl fun _ hw => hw

/-- An APPLYING batch is ready for another access for the same record (R83). -/
theorem State.ActiveOk.ready_accessEnded (h : s.ActiveOk b) (hs : b.state = .applying) : s.accessEnded.Ready b where
  applying := hs
  nextPos := h.nextPos
  unapplied := h.unapplied
  abortPending := h.abortPending.trans (by rw [hs]; rfl)
  grant := h.grant (.inl hs)
  fault := h.fault.trans (by rw [hs]; rfl)

/-! ### Faults and aborts at the end of an access (R90, R95) -/

/-- The verify read that follows a record's write (R83). -/
theorem State.PathOk.verifyRequested (h : s.PathOk) (hbusy : s.port.busy = some .engine) (hb : s.Holds b .applying)
    (hr : s.Next b r) : s.LeavesPath (s.accessEnded.requests .verifyRead r).arbitrate := by
  obtain ⟨hm, hs⟩ := hb
  have hok := h.fits.engine.activeOk h.fits.table hm (hs ▸ ⟨nofun, nofun⟩)
  exact State.LeavesFit.arbitrate
    ⟨(h.accessEnded hbusy).requests hm (hok.ready_accessEnded hs) hr rfl .verifyRead,
      fun hst => hst.accessEnded.requests _ _⟩

/-- The state after a fault, before its report (R90). -/
def State.halted (s : State) (b : Batch) : State :=
  { s.accessEnded with
    table :=
      s.table.replace b { b with state := .halted, faultPos := some s.engine.nextPos, halts := satInc b.halts } }

theorem State.PathOk.halted (h : s.PathOk) (hbusy : s.port.busy = some .engine) (hb : s.Holds b .applying) :
    s.LeavesFit (s.halted b) := by
  obtain ⟨hm, hs⟩ := hb
  have ha : b.state.IsActive := hs ▸ ⟨nofun, nofun⟩
  have hok := h.fits.engine.activeOk h.fits.table hm ha
  have hd := h.fits.table.idsDistinct
  let b' : Batch := { b with state := .halted, faultPos := some s.engine.nextPos, halts := satInc b.halts }
  have hrest : (s.halted b).RestFits :=
    (h.accessEnded hbusy).replace (b' := b') hm ha rfl ⟨nofun, nofun⟩ rfl rfl rfl rfl
  have hactive : (s.halted b).ActiveOk b' :=
    { nextPos := hok.nextPos
      unapplied := hok.unapplied
      abortPending := hok.abortPending.trans (by rw [hs]; rfl)
      aborting := nofun
      applying := nofun
      resting := fun _ => rfl
      grant := fun _ => hok.grant (.inl hs)
      usedUp := nofun
      fault := congrArg some hok.nextPos
      forRecord := nofun }
  refine ⟨hrest.fits (hactive.engineOk hrest.table ((BatchTable.mem_replace hd hm).2 (.inl rfl)) ⟨nofun, nofun⟩),
    fun hst => ?_⟩
  exact hst.replace hd hm (b' := b') nofun rfl rfl (fun x hx => ⟨x, hx, rfl⟩) rfl rfl

/-- A report and an error offered change nothing that is read (R154, R161). -/
theorem State.LeavesFit.reported (h : s.LeavesFit t) (f : EventFlag) (cause : ErrorCause) (a : Addr) (l : Lanes)
    (i : Byte) : s.LeavesPath ((t.report f).offer cause a l i).arbitrate := by
  have hrest : ((t.report f).offer cause a l i).RestFits := h.fits.rest.congr rfl rfl rfl rfl rfl rfl rfl
  refine State.LeavesFit.arbitrate ⟨hrest.fits ?_, fun hs => (h.staged hs).congr rfl rfl rfl fun _ hw => hw⟩
  exact h.fits.engine.congr h.fits.table hrest.table h.fits.log hrest.log rfl (fun _ hb _ => hb) fun _ hr _ => hr

/-- The end of an abort, with the record counted as applied or not (R95, R96). -/
theorem State.PathOk.abortEnded (h : s.PathOk) (hbusy : s.port.busy = some .engine) (hb : s.Holds b .aborting)
    (hr : s.Next b r) (cause : SealCause) :
    s.LeavesPath
        ((s.accessEnded.withApplied b r).abortEnded { b with applied := b.applied + 1 } cause).removalNotice.arbitrate ∧
      s.LeavesPath (s.accessEnded.abortEnded b cause).removalNotice.arbitrate := by
  obtain ⟨hm, hs⟩ := hb
  have ha : b.state.IsActive := hs ▸ ⟨nofun, nofun⟩
  have hok := h.fits.engine.activeOk h.fits.table hm ha
  have hended := h.accessEnded hbusy
  have haddresses (hst : s.StagedOk) : s.accessEnded.AddressesOk := (State.stagedOk_iff.1 hst.accessEnded).1
  constructor
  · have happlied := hended.withApplied hm ha hr hok.nextPos hok.unapplied
    obtain ⟨-, hm', -⟩ := State.withApplied_mem hended.table hm r
    refine ((happlied.abortEnded hm' ha ?_ cause).noticed fun hst => ?_).arbitrate
    · rw [State.withApplied_granted]
      rfl
    · exact ((haddresses hst).withApplied b r).abortEnded _ _
  · exact ((hended.abortEnded hm ha rfl cause).noticed fun hst => (haddresses hst).abortEnded b cause).arbitrate

/-! ### Record success (R85) -/

/-- All that a record's success changes, the port freed of its access (R85 steps 1 to 4). -/
theorem State.succeeded_fields (s : State) (b : Batch) (r : Record) :
    ∃ w e, s.succeeded b r =
      { s with
        port := s.port.freed
        log := s.log.map fun x => if x = r then { x with applied := true } else x
        table := s.table.replace b { b with applied := b.applied + 1 }
        engine :=
          { s.engine with access := .idle, nextPos := s.engine.nextPos + 1, grant := s.engine.grant - 1 }
        watch := w
        events := e } := by
  obtain ⟨w, e, heq⟩ := s.accessEnded.withApplied_eq b r
  exact ⟨w, e, by simp only [State.succeeded, heq]; rfl⟩

/-- The commit path and the staged addresses after a record's success, the engine's next move to come (R85). -/
theorem State.Succeeds.leaves (h : s.Succeeds c b r) :
    (s.succeeded b r).RestFits ∧ { b with applied := b.applied + 1 } ∈ (s.succeeded b r).table.batches ∧
      (s.StagedOk → (s.succeeded b r).StagedOk) := by
  obtain ⟨kind, hbus⟩ := h.onBus
  obtain ⟨hm, hs⟩ := hbus.holds
  have ha : b.state.IsActive := hs ▸ ⟨nofun, nofun⟩
  have hok := hbus.activeOk
  have happlied := (hbus.ok.pathOk.accessEnded hbus.busy_eq).withApplied hm ha hbus.next hok.nextPos hok.unapplied
  refine ⟨happlied.congr rfl rfl rfl rfl rfl rfl rfl, ?_, fun hst => ?_⟩
  · obtain ⟨w, e, heq⟩ := s.succeeded_fields b r
    rw [heq]
    exact (BatchTable.mem_replace hbus.ok.table.idsDistinct hm).2 (.inl rfl)
  · obtain ⟨w, e, heq⟩ := s.succeeded_fields b r
    rw [heq]
    exact hst.replace hbus.ok.table.idsDistinct hm (b' := { b with applied := b.applied + 1 }) ha.1 rfl rfl
      (mark_addresses s.log r) (List.length_map _) rfl

theorem State.succeeded_engine (s : State) (b : Batch) (r : Record) :
    (s.succeeded b r).engine =
      { s.engine with access := .idle, nextPos := s.engine.nextPos + 1, grant := s.engine.grant - 1 } := by
  obtain ⟨w, e, heq⟩ := s.succeeded_fields b r
  rw [heq]

/-- The next record after a success, unmarked (R82). -/
theorem State.Succeeds.next_after (h : s.Succeeds c b r) (hlt : r.pos + 1 < b.count) :
    ∃ r' ∈ s.log, r'.batch = b.id ∧ r'.pos = r.pos + 1 ∧
      (s.succeeded b r).Next { b with applied := b.applied + 1 } r' := by
  obtain ⟨kind, hbus⟩ := h.onBus
  obtain ⟨r', hr', hb, hp⟩ := (hbus.ok.log.exists_at hbus.holds.1).2 hlt
  obtain ⟨hactive, -, -, hpos⟩ := hbus.next
  refine ⟨r', hr', hb, hp, ?_, ?_, hb, ?_⟩
  · rw [State.succeeded_engine]
    exact hactive
  · obtain ⟨w, e, heq⟩ := s.succeeded_fields b r
    rw [heq]
    refine List.mem_map.2 ⟨r', hr', if_neg ?_⟩
    rintro rfl
    omega
  · rw [State.succeeded_engine, hp, hpos]

/-! ### Between two accesses of the APPLYING batch (R85 to R87) -/

/-- The APPLYING batch between two accesses, the engine's next move to come (R85). -/
structure State.Between (s : State) (b : Batch) : Prop where
  rest : s.RestFits
  holds : s.Holds b .applying
  nextPos : s.engine.nextPos = b.applied
  abortPending : s.engine.abortPending = false
  access : s.engine.access = .idle
  fault : b.faultPos = none

theorem State.Between.isActive (h : s.Between b) : b.state.IsActive := by
  obtain ⟨-, hs⟩ := h.holds
  rw [hs]
  exact ⟨nofun, nofun⟩

/-- Records and grant remain (R85). -/
theorem State.Between.requested (h : s.Between b) (hr : s.Next b r) (hu : b.applied < b.count)
    (hg : 1 ≤ s.engine.grant ∧ s.engine.grant ≤ b.count - b.applied) :
    s.LeavesPath (s.requests .recordWrite r).arbitrate := by
  obtain ⟨hm, hs⟩ := h.holds
  have hready : s.Ready b := ⟨hs, h.nextPos, hu, h.abortPending, hg, h.fault⟩
  exact State.LeavesFit.arbitrate
    ⟨h.rest.requests hm hready hr (by rw [h.access]; rfl) _, fun hst => hst.requests _ _⟩

/-- The grant is used up (R87). -/
theorem State.Between.paused (h : s.Between b) (hu : b.applied < b.count) (hg : s.engine.grant = 0) :
    s.LeavesPath
      (State.arbitrate { s.report .torn with table := s.table.replace b { b with state := .paused } }) := by
  obtain ⟨hm, -⟩ := h.holds
  have hd := h.rest.table.idsDistinct
  have htorn : (s.report .torn).RestFits := h.rest.congr rfl rfl rfl rfl rfl rfl rfl
  have hpaused : State.RestFits { s.report .torn with table := s.table.replace b { b with state := .paused } } :=
    htorn.replace (b' := { b with state := .paused }) hm h.isActive rfl ⟨nofun, nofun⟩ rfl rfl rfl rfl
  have hactive : State.ActiveOk
      { s.report .torn with table := s.table.replace b { b with state := .paused } } { b with state := .paused } :=
    { nextPos := h.nextPos
      unapplied := hu
      abortPending := h.abortPending
      aborting := nofun
      applying := nofun
      resting := fun _ => h.access
      grant := by simp
      usedUp := fun _ => hg
      fault := h.fault
      forRecord := fun q hq => by
        change q ∈ s.engine.access.request? at hq
        rw [h.access] at hq
        cases hq }
  have hmem : { b with state := .paused } ∈ (s.table.replace b { b with state := .paused }).batches :=
    (BatchTable.mem_replace hd hm).2 (.inl rfl)
  refine State.LeavesFit.arbitrate
    ⟨hpaused.fits (hactive.engineOk hpaused.table hmem ⟨nofun, nofun⟩), fun hst => ?_⟩
  exact hst.replace hd hm (b' := { b with state := .paused }) nofun rfl rfl (fun x hx => ⟨x, hx, rfl⟩) rfl rfl

/-- A grant that continues a batch with no access of its own (R80, R81). -/
theorem State.RestFits.granted (h : s.RestFits) (hm : b ∈ s.table.batches) (ha : b.state.IsActive)
    (hpos : s.engine.nextPos = b.applied) (habort : s.engine.abortPending = false) (hidle : s.engine.access = .idle)
    (hfault : b.faultPos = none) (hr : s.Next b r) {g : Nat} (hg : 1 ≤ g ∧ g ≤ b.count - b.applied) :
    s.LeavesPath
      (State.arbitrate
        (State.requests
          { s with
            table := s.table.replace b { b with state := .applying, windowsUsed := satInc b.windowsUsed }
            engine := { s.engine with grant := g } }
          .recordWrite r)) := by
  let b' : Batch := { b with state := .applying, windowsUsed := satInc b.windowsUsed }
  have hd := h.table.idsDistinct
  have hrest : State.RestFits { s with table := s.table.replace b b' } :=
    h.replace (b' := b') hm ha rfl ⟨nofun, nofun⟩ rfl rfl rfl rfl
  have hrest' : State.RestFits { s with table := s.table.replace b b', engine := { s.engine with grant := g } } :=
    hrest.congr rfl rfl rfl rfl rfl rfl rfl
  have hready : State.Ready { s with table := s.table.replace b b', engine := { s.engine with grant := g } } b' :=
    ⟨rfl, hpos, by change b.applied < b.count; omega, habort, hg, hfault⟩
  have hmem : b' ∈ (s.table.replace b b').batches := (BatchTable.mem_replace hd hm).2 (.inl rfl)
  refine State.LeavesFit.arbitrate ⟨hrest'.requests hmem hready hr (hidle ▸ rfl : s.engine.access.granted = false) _,
    fun hst => State.StagedOk.requests ?_ _ _⟩
  exact hst.replace hd hm (b' := b') nofun rfl rfl (fun x hx => ⟨x, hx, rfl⟩) rfl rfl

theorem State.Succeeds.between (h : s.Succeeds c b r) :
    (s.succeeded b r).Between { b with applied := b.applied + 1 } := by
  obtain ⟨kind, hbus⟩ := h.onBus
  obtain ⟨-, hs⟩ := hbus.holds
  obtain ⟨hrest, hm, -⟩ := h.leaves
  have hok := hbus.activeOk
  exact
    { rest := hrest
      holds := ⟨hm, hs⟩
      nextPos := by
        rw [State.succeeded_engine]
        exact congrArg (· + 1) hok.nextPos
      abortPending := by
        rw [State.succeeded_engine]
        exact hok.abortPending.trans (by rw [hs]; rfl)
      access := by rw [State.succeeded_engine]
      fault := hok.fault.trans (by rw [hs]; rfl) }

/-- The batch's record replaced once more after a success. -/
theorem State.Succeeds.replace_eq (h : s.Succeeds c b r) (b' : Batch) :
    (s.succeeded b r).table.replace { b with applied := b.applied + 1 } b' = s.table.replace b b' := by
  obtain ⟨kind, hbus⟩ := h.onBus
  obtain ⟨w, e, heq⟩ := s.succeeded_fields b r
  rw [heq]
  exact BatchTable.replace_replace hbus.ok.table.idsDistinct hbus.holds.1 _ _ rfl

/-- The grant used up with records remaining (R87). -/
theorem State.Succeeds.usedUp (h : s.Succeeds c b r) (hlt : r.pos + 1 < b.count) (hused : s.engine.grant = 1) :
    ∃ t, exec c s = .next t ∧ s.LeavesPath t := by
  obtain ⟨hrests, hcontinues⟩ := usedUpGrantPausesTheBatch s c b r h hlt hused
  obtain ⟨kind, hbus⟩ := h.onBus
  obtain ⟨-, -, hstaged⟩ := h.leaves
  have hbetween := h.between
  have hu : b.applied + 1 < b.count := hbus.pos_eq ▸ hlt
  by_cases hfree : s.mgmt.settings.tickSource ≠ .immediate ∨ s.unit.frozen = true
  · have hpaused := hbetween.paused hu (by rw [State.succeeded_engine, hused])
    rw [h.replace_eq] at hpaused
    exact ⟨_, hrests hfree, hpaused.of_staged hstaged⟩
  · obtain ⟨himm, hfrozen⟩ := not_or.1 hfree
    obtain ⟨r', hr', hrb', hp', hnext⟩ := h.next_after hlt
    have htorn : ((s.succeeded b r).report .torn).RestFits := hbetween.rest.congr rfl rfl rfl rfl rfl rfl rfl
    have hgranted := htorn.granted hbetween.holds.1 hbetween.isActive hbetween.nextPos hbetween.abortPending
      hbetween.access hbetween.fault hnext (g := b.count - (b.applied + 1))
      ⟨Nat.sub_pos_of_lt hu, Nat.le_refl _⟩
    rw [State.report_table, h.replace_eq] at hgranted
    have happlying : { b with applied := b.applied + 1, windowsUsed := satInc b.windowsUsed } =
        { b with state := .applying, applied := b.applied + 1, windowsUsed := satInc b.windowsUsed } := by
      rw [← hbus.holds.2]
    refine ⟨_, hcontinues r' hr' hrb' hp' (not_not.1 himm) (Bool.eq_false_iff.2 hfrozen), ?_⟩
    rw [happlying]
    exact hgranted.of_staged fun hst => (hstaged hst).congr rfl rfl rfl fun _ hw => hw

/-- A record's success: completion, pause or the next request (R85). -/
theorem State.Succeeds.leavesPath (h : s.Succeeds c b r) : ∃ t, exec c s = .next t ∧ s.LeavesPath t := by
  obtain ⟨kind, hbus⟩ := h.onBus
  obtain ⟨hm, hs⟩ := hbus.holds
  obtain ⟨hrest, hm', hstaged⟩ := h.leaves
  have hbetween := h.between
  have hok := hbus.activeOk
  have hpos := hbus.pos_eq
  have hunapplied := hok.unapplied
  obtain ⟨hgrant, hwithin⟩ := hok.grant (.inl hs)
  by_cases hlast : r.pos + 1 = b.count
  · obtain ⟨cause, hc⟩ := hbus.ok.table.exists_cause hm (by rw [hs]; nofun)
    refine ⟨_, lastRecordCompletesTheBatch s c b r cause h hlast hc, ?_⟩
    refine ((hrest.departed hm' (.inl hbetween.isActive) (by rw [hbetween.access]; rfl) _ _).noticed
      fun hst => ?_).arbitrate
    exact (State.stagedOk_iff.1 (hstaged hst)).1.departed _ _ _
  have hlt : r.pos + 1 < b.count := by omega
  by_cases hused : s.engine.grant = 1
  · exact h.usedUp hlt hused
  · obtain ⟨r', hr', hrb', hp', hnext⟩ := h.next_after hlt
    have hrequested := hbetween.requested hnext (hpos ▸ hlt) (by
      rw [State.succeeded_engine]
      change 1 ≤ s.engine.grant - 1 ∧ s.engine.grant - 1 ≤ b.count - (b.applied + 1)
      omega)
    exact ⟨_, recordSuccessRequestsTheNextRecord s c b r r' h hlt (by omega) hr' hrb' hp',
      hrequested.of_staged hstaged⟩

/-! ### The end of the engine's access (R83, R90, R95, R99) -/

theorem State.CommitOk.execRecordWriteComplete (h : s.CommitOk) :
    ∃ t, exec .recordWriteComplete s = .next t ∧ s.LeavesPath t := by
  by_cases hon : s.engineOnBus .recordWrite = true
  · obtain ⟨hawake, hbusy, hmce, hq⟩ := State.engineOnBus_eq_true.1 hon
    obtain ⟨b, r, hb, hr⟩ := h.pathOk.exists_inFlight hbusy
    rcases hb with hb | hb
    · have hbus : s.OnBus .applying .recordWrite b r := ⟨hawake, h, hb, hr, hq, hmce⟩
      cases hverify : s.verifyAsked r.addr with
      | false => exact State.Succeeds.leavesPath (.inl ⟨rfl, hbus, hverify⟩)
      | true =>
        obtain ⟨hrequested, -⟩ := verifyAndFaultsEndTheAccess s b r 0
        exact ⟨_, hrequested hbus hverify, h.pathOk.verifyRequested hbusy hb hr⟩
    · obtain ⟨cause, hc⟩ := h.table.exists_cause hb.1 (by rw [hb.2]; nofun)
      obtain ⟨hended, -⟩ := endOfTheAccessEndsTheAbort s b r 0 cause hc
      exact ⟨_, hended ⟨hawake, h, hb, hr, hq, hmce⟩, (h.pathOk.abortEnded hbusy hb hr cause).1⟩
  · exact ⟨_, (s.exec_engineComplete_none 0).1 hon, h.pathOk.refl⟩

theorem State.CommitOk.execVerifyReadComplete (h : s.CommitOk) (md : Word) :
    ∃ t, exec (.verifyReadComplete md) s = .next t ∧ s.LeavesPath t := by
  by_cases hon : s.engineOnBus .verifyRead = true
  · obtain ⟨hawake, hbusy, hmce, hq⟩ := State.engineOnBus_eq_true.1 hon
    obtain ⟨b, r, hb, hr⟩ := h.pathOk.exists_inFlight hbusy
    rcases hb with hb | hb
    · have hbus : s.OnBus .applying .verifyRead b r := ⟨hawake, h, hb, hr, hq, hmce⟩
      by_cases hequal : ∀ n < 4, r.lanes.getLsbD n = true → laneByte md n = laneByte r.data n
      · exact State.Succeeds.leavesPath (.inr ⟨md, rfl, hbus, hequal⟩)
      · obtain ⟨-, hfault, -⟩ := verifyAndFaultsEndTheAccess s b r md
        refine ⟨_, hfault hbus ?_, (h.pathOk.halted hbusy hb).reported .fault _ _ _ _⟩
        simpa using hequal
    · obtain ⟨cause, hc⟩ := h.table.exists_cause hb.1 (by rw [hb.2]; nofun)
      obtain ⟨-, hended, -⟩ := endOfTheAccessEndsTheAbort s b r md cause hc
      exact ⟨_, hended ⟨hawake, h, hb, hr, hq, hmce⟩, (h.pathOk.abortEnded hbusy hb hr cause).1⟩
  · exact ⟨_, (s.exec_engineComplete_none md).2 hon, h.pathOk.refl⟩

theorem State.CommitOk.execEngineMemTimeout (h : s.CommitOk) :
    ∃ t, exec .engineMemTimeout s = .next t ∧ s.LeavesPath t := by
  by_cases hawake : s.Awake
  case neg => exact ⟨_, State.exec_edge_or_expiry_asleep hawake false _ (by simp), h.pathOk.refl⟩
  by_cases hends : s.port.busy ≠ some .engine ∨ expiryDue s.port.timer = false
  · obtain ⟨-, hnone⟩ := s.exec_memTimeout_none
    exact ⟨_, hnone hends, h.pathOk.refl⟩
  · obtain ⟨hbusy, hdue⟩ := not_or.1 hends
    have hbusy := not_not.1 hbusy
    obtain ⟨k, hk⟩ := expiryDue_iff.1 (Bool.not_eq_false _ ▸ hdue)
    obtain ⟨b, r, hb, hr⟩ := h.pathOk.exists_inFlight hbusy
    rcases hb with hb | hb
    · obtain ⟨-, -, hfault⟩ := verifyAndFaultsEndTheAccess s b r 0
      exact ⟨_, hfault k hawake h hb hr (h.port.engineCarried.1 hbusy) hk,
        (h.pathOk.halted hbusy hb).reported .fault _ _ _ _⟩
    · obtain ⟨cause, hc⟩ := h.table.exists_cause hb.1 (by rw [hb.2]; nofun)
      obtain ⟨-, -, hended⟩ := endOfTheAccessEndsTheAbort s b r 0 cause hc
      exact ⟨_, hended k hawake h hb hr hk, (h.pathOk.abortEnded hbusy hb hr cause).2⟩

/-! ### Admissions (R75 to R78) -/

/-- The head of the sealed queue, admitted with a grant within its records (R77). -/
theorem State.PathOk.admitHead (h : s.PathOk) (hc : s.candidate? = some b) {g : Nat} (hg : 1 ≤ g ∧ g ≤ b.count) :
    s.LeavesPath (s.admitHead b.id g) := by
  obtain ⟨hnone, ⟨rest, hq⟩, hb, -, -, -⟩ := h.fits.table.candidate?_eq_some.1 hc
  have hs := h.fits.table.sealed_of_queued hb (by rw [hq]; exact List.mem_cons_self)
  have hd := h.fits.table.idsDistinct
  have hreset := h.fits.engine.1 hnone
  obtain ⟨happlied, -, -, hfault⟩ := h.fits.log.waitingUntouched b hb fun ha => ha.2 hs
  obtain ⟨r, hr, hrb, hr0⟩ := (h.fits.log.exists_at hb (n := 0)).2 (h.fits.log.nonempty b hb)
  let b' : Batch := { b with state := .applying, windowsUsed := 1#8 }
  let u : State :=
    { s with
      queue := { s.queue with reserved := 1 }
      table := { s.table.replace b b' with sealedQueue := rest }
      engine := ⟨some b.id, g, 0, false, .idle, true⟩ }
  have hrest : u.RestFits :=
    { table := h.fits.table.admitted (b' := b') hb hq hnone rfl ⟨nofun, nofun⟩ rfl rfl rfl
      log := h.fits.log.replace (b' := b') hd hb rfl rfl rfl nofun (fun ha => absurd ⟨nofun, nofun⟩ ha) rfl rfl
        fun _ hw => hw
      port := h.fits.port.congr rfl (by rw [hreset]; rfl) rfl rfl
      share := h.fits.share }
  have hready : u.Ready b' :=
    { applying := rfl
      nextPos := happlied.symm
      unapplied := happlied.symm ▸ h.fits.log.nonempty b hb
      abortPending := rfl
      grant := ⟨hg.1, by change g ≤ b.count - b.applied; omega⟩
      fault := hfault }
  have hmem : b' ∈ u.table.batches := (BatchTable.mem_replace hd hb).2 (.inl rfl)
  rw [State.admitHead_requests h.fits.table h.fits.log hb hq hr hrb hr0]
  refine State.LeavesFit.arbitrate (t := u.requests .recordWrite r)
    ⟨hrest.requests hmem hready ⟨rfl, hr, hrb, hr0⟩ rfl _, fun hst => State.StagedOk.requests ?_ _ _⟩
  exact hst.replace hd hb (b' := b') nofun rfl rfl (fun x hx => ⟨x, hx, rfl⟩) rfl rfl

/-- The head of the sealed queue refused as oversize (R78). -/
theorem State.PathOk.refuseOversize (h : s.PathOk) (hc : s.candidate? = some b) :
    s.LeavesPath (s.refuseOversize b) := by
  obtain ⟨hnone, ⟨rest, hq⟩, hb, -, -, -⟩ := h.fits.table.candidate?_eq_some.1 hc
  have hs := h.fits.table.sealed_of_queued hb (by rw [hq]; exact List.mem_cons_self)
  have hreset := h.fits.engine.1 hnone
  obtain ⟨cause, hcause⟩ := h.fits.table.exists_cause hb (by rw [hs]; nofun)
  obtain ⟨r, hr, hrb, hr0⟩ := (h.fits.log.exists_at hb (n := 0)).2 (h.fits.log.nonempty b hb)
  rw [State.refuseOversize_eq h.fits.table h.fits.log hb hs hcause hr hrb hr0 hreset]
  have hgone : (s.departed b .refused cause).PathOk :=
    ⟨h.fits.rest.departed hb (.inr hnone) (by rw [hreset]; rfl) _ _, fun hfree => ⟨rfl, (h.noneWaits hfree).2⟩⟩
  have hoffered := hgone.leaves_of_eq (t := (s.departed b .refused cause).offer .oversize r.addr r.lanes b.id) rfl rfl
  refine hoffered.path.noticed fun hst => ?_
  exact ((State.stagedOk_iff.1 hst).1.departed b .refused cause).mono rfl (fun x hx => ⟨x, hx, rfl⟩) fun _ hw => hw

/-- An attempt by the cases of R76, with an open window's budgets in their range (R64). -/
theorem State.PathOk.attempt (h : s.PathOk) (hw : s.unit.window.WithinBudget) : s.LeavesPath s.attempt := by
  cases hc : s.candidate? with
  | none =>
    rw [State.attempt, hc]
    exact h.refl
  | some b =>
    have hb : 1 ≤ b.count := by
      obtain ⟨-, -, hb, -⟩ := h.fits.table.candidate?_eq_some.1 hc
      exact h.fits.log.nonempty b hb
    have hadmit (w : CommitWindow) (hwc : w ≠ .closed) (g : Nat) (hg : 1 ≤ g ∧ g ≤ b.count) :
        s.LeavesPath (State.admitHead { s with unit := { s.unit with window := w } } b.id g) := by
      refine h.after (t := { s with unit := { s.unit with window := w } }) rfl rfl fun ht => ht.admitHead ?_ hg
      obtain ⟨hnone, hq, hbt, hf, hp, -⟩ := h.fits.table.candidate?_eq_some.1 hc
      exact ht.fits.table.candidate?_eq_some.2 ⟨hnone, hq, hbt, hf, hp, hwc⟩
    cases hwin : s.unit.window with
    | closed =>
      rw [State.attempt, hc]
      simp only [hwin]
      exact h.refl
    | permanent =>
      rw [State.attempt_permanent hc hwin]
      exact hadmit .permanent nofun _ ⟨hb, Nat.le_refl _⟩
    | opened budget remaining untouched =>
      rw [hwin] at hw
      obtain ⟨hone, -⟩ := hw
      rw [State.attempt_opened hc hwin]
      split
      · rename_i hover
        exact .ite (h.refuseOversize hc) 
          (.ite (hadmit (.opened budget (remaining - budget) false) nofun _ ⟨hone, Nat.le_of_lt hover⟩) h.refl)
      · exact .ite (hadmit (.opened budget (remaining - b.count) false) nofun _ ⟨hb, Nat.le_refl _⟩) h.refl

/-! ### Continuations (R80, R81) -/

/-- The grant that a window opening offers is at least 1 and within the unapplied records (R64, R80). -/
theorem CommitWindow.continuation_bounds {w : CommitWindow} (hw : w.WithinBudget) {n g : Nat} (hn : 1 ≤ n)
    (hg : w.continuation n = some g) : 1 ≤ g ∧ g ≤ n := by
  cases w with
  | closed => cases hg
  | permanent =>
    obtain rfl := Option.some.inj hg
    exact ⟨hn, Nat.le_refl _⟩
  | opened budget remaining untouched =>
    obtain ⟨-, hmin⟩ := Option.ite_none_right_eq_some.1 hg
    obtain rfl := Option.some.inj hmin
    obtain ⟨hone, -⟩ := hw
    omega

theorem State.PathOk.charge (h : s.PathOk) (g : Nat) : s.LeavesPath (s.charge g) := by
  rw [State.charge_eq]
  exact h.leaves_of_eq rfl rfl

theorem State.PathOk.giveGrant (h : s.PathOk) (hb : s.Holds b .paused) {g : Nat}
    (hg : 1 ≤ g ∧ g ≤ b.count - b.applied) : s.LeavesPath (s.giveGrant b.id g) := by
  obtain ⟨hm, hs⟩ := hb
  have ha : b.state.IsActive := hs ▸ ⟨nofun, nofun⟩
  have hok := h.fits.engine.activeOk h.fits.table hm ha
  obtain ⟨r, hr⟩ := h.fits.exists_next hm ha
  rw [State.giveGrant_eq h.fits.table.idsDistinct hm (hr.nextRecord? h.fits.log)]
  exact h.fits.rest.granted hm ha hok.nextPos (hok.abortPending.trans (by rw [hs]; rfl)) (hok.resting (.inl hs))
    (hok.fault.trans (by rw [hs]; rfl)) hr hg

theorem State.PathOk.execContinuationGrant (h : s.PathOk) (hw : s.unit.window.WithinBudget) :
    ∃ t, exec .continuationGrant s = .next t ∧ s.LeavesPath t := by
  simp only [exec, Machine.execContinuationGrant]
  split
  · exact ⟨_, rfl, h.refl⟩
  · rename_i n _
    have hu : s.LeavesPath (State.awaitAttempt { s with waiting := { s.waiting with openings := n } }) :=
      h.leaves_of_eq rfl rfl
    split
    · rename_i b hb
      split
      · rename_i hpaused
        obtain ⟨hm, ha⟩ := hu.path.fits.table.activeBatch?_eq_some.1 hb
        have hok := hu.path.fits.engine.activeOk hu.path.fits.table hm ha
        split
        · rename_i g hg
          have hbounds := CommitWindow.continuation_bounds hw (Nat.sub_pos_of_lt hok.unapplied) hg
          have hcharged := hu.trans (hu.path.charge g)
          exact ⟨_, rfl, hcharged.trans (hcharged.path.giveGrant ⟨by rwa [State.charge_table], hpaused.1⟩ hbounds)⟩
        · exact ⟨_, rfl, hu⟩
      · exact ⟨_, rfl, hu⟩
    · exact ⟨_, rfl, hu⟩

end Sys2Proof.Machine
end

section
/-! PROOFS. Every step keeps the commit path, and the addresses decided as STAGE (R1 to R17, R73 to R101, R131 to R137):
host accesses, the memory port's own events and pin reset, then each command and the step. -/

namespace Sys2Proof.Machine

open Sys2Proof

variable {s t u : State} {c : Instr}

/-! ### Host accesses (R99, R123 to R137) -/

/-- A host port that holds no access and no write. -/
theorem State.idle_quiet (hs : s.host.state = .idle) : s.host.state.granted = false ∧ s.hostWaits = false := by
  rw [State.hostWaits, hs]
  exact ⟨rfl, rfl⟩

theorem State.PathOk.startHostAccess (h : s.PathOk) (hs : s.host.state = .idle) (k : HostKind) (a : Addr) (l : Lanes)
    (d : Word) (w : Option Nat) : s.LeavesPath (s.startHostAccess k a l d w) := by
  let u : State :=
    { s with host := { s.host with state := .memory ⟨k, a, l, d, w, false, false⟩, hwait := true } }
  obtain ⟨hgranted, -⟩ := State.idle_quiet hs
  have ht : u.TableOk := h.fits.table.congr rfl rfl
  have hl : u.LogOk := h.fits.log.congr rfl rfl nofun
  have hport : u.PortFits :=
    { engineCarried := h.fits.port.engineCarried
      hostCarried := h.fits.port.hostCarried.trans (by rw [hgranted]; rfl)
      timer := h.fits.port.timer
      atRest := h.fits.port.atRest
      countBound := h.fits.port.countBound
      countZero := nofun }
  refine State.LeavesFit.arbitrate (t := u) ⟨⟨ht, hl, ?_, hport, h.fits.share⟩, fun hst => hst.congr rfl rfl rfl nofun⟩
  exact h.fits.engine.congr h.fits.table ht h.fits.log hl rfl (fun _ hb _ => hb) fun _ hr _ => hr

/-- A write taken into STALLED holds an address decided as STAGE that there is no room for (R12, R133). -/
theorem State.PathOk.stageWrite (h : s.PathOk) (hs : s.host.state = .idle) {w : HeldWrite} (hl : w.lanes ≠ 0#4)
    (hp : s.policyOf w.addr = .stage) : s.LeavesPath (s.stageWrite w) := by
  rcases State.placed_or_noSpace h.fits.table h.fits.log w.addr w.lanes w.data with ⟨i, v, hv⟩ | hn
  · rw [State.stageWrite, hv.placeForHost_eq h.fits.table h.fits.log]
    obtain ⟨-, hwaits⟩ := State.idle_quiet hs
    have hve := hv.eq
    refine ⟨⟨h.fits.accepted hv hl (hv.tableOk h.fits.table h.fits.log) (.inl hs) rfl rfl ?_ ?_ ?_ rfl, ?_⟩,
      fun hst => (State.stagedOk_iff.1 hst).1.accepted hv hp rfl ?_ rfl⟩ <;> rw [hve]
    · rfl
    · rfl
    · rfl
    · exact fun hb => ⟨(h.noneWaits hb).1, rfl⟩
    · rfl
  · rw [State.stageWrite, hn.placeForHost_eq h.fits.table h.fits.log]
    obtain ⟨hgranted, hwaits⟩ := State.idle_quiet hs
    let u : State :=
      { s with
        host :=
          { s.host with
            state := .stalled w
            hwait := true
            stallTimer :=
              if s.mgmt.settings.stallTimeout = 0#24 then none
              else some (.start s.mgmt.settings.stallTimeout.toNat) } }
    have hlog : u.LogOk := h.fits.log.withHost fun w' hw' => by
      obtain rfl : w = w' := HostState.stalled.inj hw'
      exact hl
    have ht : u.TableOk := h.fits.table.congr rfl rfl
    have hu : u.PathOk :=
      { fits :=
          { table := ht
            log := hlog
            engine := h.fits.engine.congr h.fits.table ht h.fits.log hlog rfl (fun _ hb _ => hb) fun _ hr _ => hr
            port := h.fits.port.congr rfl rfl hgranted.symm hwaits.symm
            share := h.fits.share }
        noneWaits := fun hb => ⟨(h.noneWaits hb).1, rfl⟩ }
    have hleaves : s.LeavesPath u := ⟨hu, fun hst =>
      { recordsStaged := hst.recordsStaged
        heldStaged := fun w' hw' => by
          obtain rfl : w = w' := HostState.stalled.inj hw'
          exact hp
        heldNoRoom := fun _ _ => hn.noRoom }⟩
    exact hleaves.trans (hu.leaves_of_eq rfl rfl)

/-- The end of a host access: the port in IDLE, the memory port free, and the arbiter decides (R99, R123). -/
theorem State.PathOk.hostEnded (h : s.PathOk) (hbusy : s.port.busy = some .host) (hport : t.port = s.endBus.port)
    (hread : (t.log, t.table, t.engine, t.windows, t.mgmt) = (s.log, s.table, s.engine, s.windows, s.mgmt))
    (hidle : t.host.state = .idle) : s.LeavesPath t.freePort := by
  simp only [Prod.mk.injEq] at hread
  obtain ⟨hlog, htable, hengine, hwindows, hmgmt⟩ := hread
  have hstalled : ∀ w, t.host.state = .stalled w → s.host.state = .stalled w := fun w hw => by
    rw [hidle] at hw
    cases hw
  obtain ⟨hgranted, -⟩ := State.idle_quiet hidle
  have hcount : s.hostWaits = false := Bool.eq_false_iff.2 fun hw => by
    obtain ⟨a, ha, hflight⟩ := State.hostWaits_eq_true.1 hw
    have hgranted : s.host.state.granted = true := h.fits.port.hostCarried.1 hbusy
    rw [ha] at hgranted
    cases hflight.symm.trans hgranted
  have ht : State.TableOk { t with port := s.port.freed } := h.fits.table.congr htable (congrArg Engine.active hengine)
  have hl : State.LogOk { t with port := s.port.freed } :=
    h.fits.log.congr hlog (congrArg BatchTable.batches htable) hstalled
  rw [State.freePort_eq hport]
  refine State.LeavesFit.arbitrate ⟨⟨ht, hl, ?_, ?_, ?_⟩, fun hst => hst.congr hwindows hlog htable hstalled⟩
  · exact h.fits.engine.congr h.fits.table ht h.fits.log hl hengine (fun _ hb _ => htable ▸ hb)
      fun _ hr _ => by change _ ∈ t.log; rw [hlog]; exact hr
  · refine h.fits.port.freed rfl ?_ hgranted fun _ => hcount
    change t.engine.access.granted = false
    rw [hengine]
    exact h.fits.port.engine_not_granted (by simp [hbusy])
  · change 1 ≤ t.mgmt.settings.hostShare.toNat ∧ t.mgmt.settings.hostShare.toNat ≤ 16
    rw [hmgmt]
    exact h.fits.share

theorem State.PathOk.takeHostRequest (h : s.PathOk) (hs : s.host.state = .idle) : s.LeavesPath s.takeHostRequest := by
  have hidle : s.cleared.host.state = .idle := hs
  have hcleared : s.LeavesPath s.cleared := h.leaves_of_eq rfl rfl
  refine hcleared.trans ?_
  rcases s.takeHostRequest_cases with he | he | ⟨w, he⟩ | ⟨hl, hp, he⟩ | ⟨k, l, d, he⟩ <;> rw [he]
  · exact hcleared.path.refl
  · exact hcleared.path.leaves_of_eq rfl hidle.symm
  · exact hcleared.path.leaves_of_eq rfl hidle.symm
  · exact hcleared.path.stageWrite hidle hl hp
  · exact hcleared.path.startHostAccess hidle k _ l d _

/-! ### The memory port's own changes (R52, R187) -/

/-- A port that carries the same access, with its timer running or stopped as before and its lines at rest while
free. -/
theorem State.PathOk.leaves_withPort (h : s.PathOk) {p : MemPort} (hbusy : p.busy = s.port.busy)
    (hcount : s.hostWaits = true ∧ p.count ≤ 16 ∨ p.count = s.port.count)
    (htimer : p.timer.isSome = s.port.timer.isSome)
    (hrest : s.port.busy = none →
      p.md = s.port.md ∧ p.mbe = s.port.mbe ∧ p.mce = s.port.mce ∧ p.mwe = s.port.mwe ∧ p.moe = s.port.moe) :
    s.LeavesPath { s with port := p } := by
  have ht : State.TableOk { s with port := p } := h.fits.table.congr rfl rfl
  have hl : State.LogOk { s with port := p } := h.fits.log.congr rfl rfl fun _ hw => hw
  have hport : State.PortFits { s with port := p } :=
    { engineCarried := by rw [hbusy]; exact h.fits.port.engineCarried
      hostCarried := by rw [hbusy]; exact h.fits.port.hostCarried
      timer := by rw [hbusy, htimer]; exact h.fits.port.timer
      atRest := fun hb => by
        have hfree : s.port.busy = none := hbusy ▸ hb
        obtain ⟨hmd, hmbe, hmce, hmwe, hmoe⟩ := hrest hfree
        rw [hmd, hmbe, hmce, hmwe, hmoe]
        exact h.fits.port.atRest hfree
      countBound := by
        rcases hcount with ⟨-, hn⟩ | he
        · exact hn
        · rw [he]
          exact h.fits.port.countBound
      countZero := fun hw => by
        rcases hcount with ⟨hw', -⟩ | he
        · exact absurd (hw.symm.trans hw') nofun
        · rw [he]
          exact h.fits.port.countZero hw }
  exact ⟨⟨⟨ht, hl, h.fits.engine.congr h.fits.table ht h.fits.log hl rfl (fun _ hb _ => hb) fun _ hr _ => hr, hport,
    h.fits.share⟩, fun hb => h.noneWaits (hbusy ▸ hb)⟩, fun hst => hst.congr rfl rfl rfl fun _ hw => hw⟩

/-- A host request that reaches the arbiter beside a grant of the engine counts none yet: the grant was given while no
host request waited (R100, R101). -/
theorem State.PathOk.count_of_grantedNow (h : s.PathOk) (hs : s.host.state = .idle) {q : EngineRequest}
    (hg : s.takeHostRequest.GrantedNow q) (hw : s.takeHostRequest.hostWaits = true) :
    s.takeHostRequest.port.count = 0 := by
  have hidle : s.cleared.host.state = .idle := hs
  obtain ⟨-, hwaits⟩ := State.idle_quiet hs
  have hzero : s.port.count = 0 := h.fits.port.countZero hwaits
  rcases s.takeHostRequest_cases with he | he | ⟨w, he⟩ | ⟨-, -, he⟩ | ⟨k, l, d, he⟩ <;> rw [he] at hg hw ⊢
  · exact hzero
  · exact hzero
  · exact hzero
  · unfold State.stageWrite at hw ⊢
    split at hw
    · rename_i v hv
      obtain ⟨i, rfl⟩ := State.placeForHost_eq_some hv
      cases hw
    · cases hw
  · unfold State.startHostAccess at hg ⊢
    rcases State.arbitrate_cases { s.cleared with
        host := { s.cleared.host with
          state := .memory ⟨k, s.host.ha, l, d, (s.deciding s.host.ha).map Prod.fst, false, false⟩, hwait := true } }
      with he | ⟨a, -, -, -, he⟩ | ⟨q', hfree, hq', -⟩
    · rw [he]
      exact hzero
    · rw [he] at hg
      obtain ⟨-, hbusy, -⟩ := hg
      cases hbusy
    · have hwaiting : s.engine.access = .waiting q' := hq'
      rw [(h.noneWaits hfree).1] at hwaiting
      cases hwaiting

theorem State.PathOk.takeTogether (h : s.PathOk) (hs : s.host.state = .idle) :
    s.LeavesPath s.takeHostRequest.decideTogether := by
  have htaken := h.takeHostRequest hs
  by_cases hg : ∃ q, s.takeHostRequest.GrantedNow q
  · obtain ⟨q, hg⟩ := hg
    cases hw : s.takeHostRequest.hostWaits with
    | false =>
      rw [State.decideTogether_of_not_waits hw]
      exact htaken
    | true =>
      rw [State.decideTogether_grants hg hw (h.count_of_grantedNow hs hg hw) htaken.path.fits.share.1]
      obtain ⟨-, hbusy, -, htimer⟩ := hg
      refine htaken.trans (htaken.path.leaves_withPort hbusy.symm (.inl ⟨hw, Nat.one_le_ofNat⟩) ?_ ?_)
      · rw [htimer]
        rfl
      · rw [hbusy]
        nofun
  · rw [State.decideTogether_of_not_granted fun q hq => hg ⟨q, hq⟩]
    exact htaken

/-! ### Pin reset and the empty queue (R189) -/

theorem State.InReset.leavesPath (h : t.InReset) (s : State) : s.LeavesPath t := by
  obtain ⟨hlog, htable, hengine, hqueue, hstate, hshare⟩ :
      t.log = [] ∧ t.table = BatchTable.reset ∧ t.engine = Engine.reset ∧ t.queue = CompletionQueue.reset ∧
        t.host.state = .reset ∧ t.mgmt.settings = Settings.reset := by
    rw [h.blocks]
    exact ⟨rfl, rfl, rfl, rfl, rfl, rfl⟩
  obtain ⟨hbusy, hcount, htimer, hmd, hmbe, hmce, hmwe, hmoe⟩ :
      t.port.busy = none ∧ t.port.count = 0 ∧ t.port.timer = none ∧ t.port.md = none ∧ t.port.mbe = 0#4 ∧
        t.port.mce = false ∧ t.port.mwe = false ∧ t.port.moe = false := by
    rw [h.blocks]
    exact ⟨rfl, rfl, rfl, rfl, rfl, rfl, rfl, rfl⟩
  obtain ⟨ht, -⟩ := State.batchesOk_of_reset htable hengine hqueue
  have hl : t.LogOk := State.reset_logOk.congr hlog (by rw [htable]; rfl) fun w hw => by rw [hstate] at hw; cases hw
  refine ⟨⟨⟨ht, hl, State.engineOk_of_reset hengine, ?_, ?_⟩, ?_⟩, fun _ => ?_⟩
  · exact
      { engineCarried := by simp [hbusy, hengine, Engine.reset, EngineAccess.granted]
        hostCarried := by simp [hbusy, hstate, HostState.granted]
        timer := by simp [hbusy, htimer]
        atRest := fun _ => ⟨hmd, hmbe, hmce, hmwe, hmoe⟩
        countBound := by simp [hcount]
        countZero := fun _ => hcount }
  · rw [hshare]
    decide
  · exact fun _ => ⟨by rw [hengine]; rfl, by rw [State.hostWaits, hstate]⟩
  · exact
      { recordsStaged := fun r hr => by rw [hlog] at hr; cases hr
        heldStaged := fun w hw => by rw [hstate] at hw; cases hw
        heldNoRoom := fun w hw => by rw [hstate] at hw; cases hw }

theorem State.PathOk.passPeriod (h : s.PathOk) : s.LeavesPath s.passPeriod := by
  have hport := h.leaves_withPort
    (p := { s.port with timer := s.port.timer.map (Timer.count s.mgmt.settings.refdiv.toNat) }) rfl (.inr rfl)
    Option.isSome_map fun _ => ⟨rfl, rfl, rfl, rfl, rfl⟩
  exact hport.trans (hport.path.leaves_of_eq rfl rfl)

theorem State.PathOk.idle (h : s.PathOk) : s.LeavesPath s.idle := by
  unfold State.idle
  split
  · exact h.leaves_of_eq rfl rfl
  · split
    · split
      · exact h.leaves_of_eq rfl rfl
      · exact h.passPeriod
    · exact h.refl

/-! ### Commands -/

theorem State.PathOk.execTransactionEnd (h : s.PathOk) : ∃ t, exec .transactionEnd s = .next t ∧ s.LeavesPath t := by
  simp only [exec, Machine.execTransactionEnd]
  split
  · split
    · exact ⟨_, rfl, h.leaves_of_eq rfl rfl⟩
    · split
      · exact ⟨_, rfl, h.leaves_of_eq rfl rfl⟩
      · exact h.handOver _
  · exact ⟨_, rfl, h.leaves_of_eq rfl rfl⟩
  · exact ⟨_, rfl, h.leaves_of_eq rfl rfl⟩

theorem State.PathOk.execHostRequest (h : s.PathOk) (a : Addr) (write : Bool) (l : Lanes) (d : Word)
    (hce : HceAssertion) : ∃ t, exec (.hostRequest a write l d hce) s = .next t ∧ s.LeavesPath t := by
  have hsampled : s.LeavesPath (s.sampled a write l d hce.oe) := h.leaves_of_eq rfl rfl
  refine ⟨_, rfl, ?_⟩
  split
  · rename_i hc
    simp only [Bool.and_eq_true, decide_eq_true_eq] at hc
    exact hsampled.trans (.ite (hsampled.path.takeTogether hc.2) (hsampled.path.takeHostRequest hc.2))
  · exact hsampled

theorem State.PathOk.execHceDeassert (h : s.PathOk) : ∃ t, exec .hceDeassert s = .next t ∧ s.LeavesPath t := by
  refine ⟨_, rfl, h.leaves_withHost rfl (HostState.dropHce_granted _) ?_ fun w hw => ?_⟩
  · simp only [State.hostWaits]
    cases s.host.state <;> rfl
  · change s.host.state.dropHce = .stalled w at hw
    cases hs : s.host.state <;> rw [hs] at hw <;> cases hw
    rfl

theorem State.PathOk.execStallTimeout (h : s.PathOk) : ∃ t, exec .stallTimeout s = .next t ∧ s.LeavesPath t := by
  simp only [exec, Machine.execStallTimeout]
  split
  · rename_i w _ hs
    refine ⟨_, rfl, h.leaves_withHost rfl ?_ ?_ nofun⟩
    · rw [hs]
      rfl
    · rw [State.hostWaits, State.hostWaits, hs]
      rfl
  · exact ⟨_, rfl, h.refl⟩

/-- MRDY and the memory timeout for a host access (R127 to R129, R137). -/
theorem State.PathOk.execHostEnd (h : s.PathOk) (md : Word) :
    ∀ c ∈ ([.passThroughReadComplete md, .passThroughWriteComplete, .forwardedReadComplete md, .hostMemTimeout] :
      List Instr), ∃ t, exec c s = .next t ∧ s.LeavesPath t := by
  have hbus {kind : HostKind} {a : HostAccess} (ha : s.hostOnBus? kind = some a) : s.port.busy = some .host := by
    obtain ⟨-, hbusy, -⟩ := State.hostOnBus?_eq_some.1 ha
    exact hbusy
  simp only [List.mem_cons, List.not_mem_nil, or_false, forall_eq_or_imp, forall_eq, exec]
  refine ⟨?_, ?_, ?_, ?_⟩
  · simp only [Machine.execPassThroughReadComplete]
    split
    · exact ⟨_, rfl, h.hostEnded (hbus ‹_›) rfl rfl rfl⟩
    · exact ⟨_, rfl, h.refl⟩
  · simp only [Machine.execPassThroughWriteComplete, State.watchCheck_eq]
    split
    · exact ⟨_, rfl, h.hostEnded (hbus ‹_›) rfl rfl rfl⟩
    · exact ⟨_, rfl, h.refl⟩
  · simp only [Machine.execForwardedReadComplete]
    split
    · exact ⟨_, rfl, h.hostEnded (hbus ‹_›) rfl rfl rfl⟩
    · exact ⟨_, rfl, h.refl⟩
  · simp only [Machine.execHostMemTimeout]
    split
    · rename_i hdue _
      simp only [Bool.and_eq_true, decide_eq_true_eq] at hdue
      obtain ⟨⟨-, hbusy⟩, -⟩ := hdue
      exact ⟨_, rfl, h.hostEnded hbusy rfl rfl rfl⟩
    · exact ⟨_, rfl, h.refl⟩

theorem State.PathOk.execSealOnLast (h : s.PathOk) : ∃ t, exec .sealOnLast s = .next t ∧ s.LeavesPath t := by
  simp only [exec, Machine.execSealOnLast]
  split
  · exact ⟨_, rfl, h.refl⟩
  · rename_i w rest _
    have hu : s.LeavesPath { s with waiting := { s.waiting with sealsOnLast := rest } } := h.leaves_of_eq rfl rfl
    split
    · exact ⟨_, rfl, .ite (hu.trans (hu.path.sealOpen .sealWord)) hu⟩
    · exact ⟨_, rfl, hu⟩

theorem State.PathOk.execAutoSeal (h : s.PathOk) : ∃ t, exec .autoSeal s = .next t ∧ s.LeavesPath t := by
  simp only [exec, Machine.execAutoSeal]
  split
  · exact ⟨_, rfl, h.refl⟩
  · rename_i n _
    have hu : s.LeavesPath { s with waiting := { s.waiting with autoSeals := n } } := h.leaves_of_eq rfl rfl
    exact ⟨_, rfl, .ite (hu.trans (hu.path.sealOpen .auto)) hu⟩

/-- The commit window unit's events leave the commit path alone (R55 to R69). -/
theorem State.PathOk.execWindowEvent (h : s.PathOk) (rising : Bool) :
    ∀ c ∈ ([.countedEdge rising, .frameTimeoutExpiry, .periodExpiry, .windowLengthExpiry, .freezeExpiry] : List Instr),
      ∃ t, exec c s = .next t ∧ s.LeavesPath t := by
  have hedge (u : State) (hu : s.LeavesPath u) : s.LeavesPath u.countEdge := by
    unfold State.countEdge
    exact .ite (hu.trans (hu.path.leaves_of_eq rfl rfl)) (hu.trans (hu.path.leaves_of_eq rfl rfl))
  simp only [List.mem_cons, List.not_mem_nil, or_false, forall_eq_or_imp, forall_eq, exec]
  refine ⟨?_, ?_, ?_, ?_, ?_⟩
  · simp only [Machine.execCountedEdge]
    split
    · split
      · exact ⟨_, rfl, h.refl⟩
      · exact ⟨_, rfl, hedge s h.refl⟩
      · exact ⟨_, rfl, hedge _ (h.leaves_of_eq rfl rfl)⟩
    · exact ⟨_, rfl, h.refl⟩
  · simp only [Machine.execFrameTimeoutExpiry]
    split
    · exact ⟨_, rfl, h.leaves_of_eq rfl rfl⟩
    · exact ⟨_, rfl, h.refl⟩
  · simp only [Machine.execPeriodExpiry]
    split
    · split
      · exact ⟨_, rfl, h.leaves_of_eq rfl rfl⟩
      · exact ⟨_, rfl, h.refl⟩
    · exact ⟨_, rfl, h.refl⟩
  · simp only [Machine.execWindowLengthExpiry]
    split
    · split
      · exact ⟨_, rfl, .ite (h.leaves_of_eq rfl rfl) (h.leaves_of_eq rfl rfl)⟩
      · exact ⟨_, rfl, h.leaves_of_eq rfl rfl⟩
    · exact ⟨_, rfl, h.refl⟩
  · simp only [Machine.execFreezeExpiry]
    split
    · rw [State.endFreeze_eq]
      exact ⟨_, rfl, h.leaves_of_eq rfl rfl⟩
    · exact ⟨_, rfl, h.refl⟩

/-- The release of RST takes the host port from RESET to IDLE (R139). -/
theorem State.PathOk.execRstRelease (h : s.PathOk) (hp : s.PinsOk) :
    ∃ t, exec .rstRelease s = .next t ∧ s.LeavesPath t := by
  by_cases hout : s.OutOfReset
  · exact ⟨_, State.exec_rstRelease_out hout, h.refl⟩
  by_cases hends : s.power.powerHold = false ∨ s.power.refclk = true
  · have hreset : s.host.state = .reset := hp.hostReset.2 hout
    have hleft : s.LeavesPath s.leftReset := by
      refine h.leaves_withHost rfl ?_ ?_ nofun
      · rw [hreset]
        rfl
      · rw [State.hostWaits, State.hostWaits, hreset]
        rfl
    exact ⟨_, State.exec_rstRelease_leaves hout hends, .ite (hleft.trans (hleft.path.takeHostRequest rfl)) hleft⟩
  · obtain ⟨hhold, hclk⟩ : s.power.powerHold = true ∧ s.power.refclk = false := by simpa using hends
    exact ⟨_, State.exec_rstRelease_held hhold hclk, h.leaves_of_eq rfl rfl⟩

/-- Every command keeps the commit path and the staged addresses. -/
theorem State.CommitOk.leavesPath (h : s.CommitOk) (hp : s.PinsOk) (c : Instr) :
    ∃ t, exec c s = .next t ∧ s.LeavesPath t := by
  have hpath := h.pathOk
  have hrequest := hpath.handOver c
  have hhost := fun md => hpath.execHostEnd md c
  have hwindow := fun rising => hpath.execWindowEvent rising c
  cases c with
  | rstAssert =>
    obtain ⟨⟨t, ht, hin⟩, -⟩ := s.exec_pinReset
    exact ⟨t, ht, hin.leavesPath s⟩
  | powerUp =>
    obtain ⟨-, t, ht, hin⟩ := s.exec_pinReset
    exact ⟨t, ht, hin.leavesPath s⟩
  | rstRelease => exact hpath.execRstRelease hp
  | refclkStop | refclkRestart => exact ⟨_, rfl, hpath.leaves_of_eq rfl rfl⟩
  | transactionBegin =>
    simp only [exec, execTransactionBegin]
    split <;> exact ⟨_, rfl, hpath.leaves_of_eq rfl rfl⟩
  | transactionEnd => exact hpath.execTransactionEnd
  | sckRisingEdge d => exact ⟨_, rfl, .ite (hpath.leaves_of_eq (by simp [State.pathRead]) rfl) hpath.refl⟩
  | sckFallingEdge => exact ⟨_, rfl, .ite (hpath.leaves_of_eq rfl rfl) hpath.refl⟩
  | hostRequest a write l d hce => exact hpath.execHostRequest a write l d hce
  | hceDeassert => exact hpath.execHceDeassert
  | stallTimeout => exact hpath.execStallTimeout
  | passThroughReadComplete md | forwardedReadComplete md => exact hhost md (by simp)
  | passThroughWriteComplete | hostMemTimeout => exact hhost 0 (by simp)
  | recordWriteComplete => exact h.execRecordWriteComplete
  | verifyReadComplete md => exact h.execVerifyReadComplete md
  | engineMemTimeout => exact h.execEngineMemTimeout
  | admissionAttempt =>
    have hu : s.LeavesPath { s with waiting := { s.waiting with attempts := s.waiting.attempts - 1 } } :=
      hpath.leaves_of_eq rfl rfl
    exact ⟨_, rfl, .ite (hu.trans (hu.path.attempt h.windows.budget)) hpath.refl⟩
  | continuationGrant => exact hpath.execContinuationGrant h.windows.budget
  | sealOnLast => exact hpath.execSealOnLast
  | autoSeal => exact hpath.execAutoSeal
  | countedEdge rising => exact hwindow rising (by simp)
  | frameTimeoutExpiry | periodExpiry | windowLengthExpiry | freezeExpiry => exact hwindow false (by simp)
  | mceAssert =>
    refine ⟨_, rfl, ?_⟩
    split
    · rename_i hc
      simp only [Bool.and_eq_true] at hc
      refine hpath.leaves_withPort rfl (.inr rfl) rfl fun hfree => ?_
      rw [hfree] at hc
      cases hc.2
    · exact hpath.refl
  | _ => exact hrequest

/-- The queue of commands is no part of the commit path. -/
theorem State.CommitOk.withPending (h : s.CommitOk) (rest : List Instr) :
    State.CommitOk { s with pending := rest } := by
  have hpath := (h.pathOk.leaves_of_eq (t := { s with pending := rest }) rfl rfl).path
  obtain ⟨hsettings, hwindows⟩ : State.UnitOk { s with pending := rest } :=
    State.UnitOk.congr (s := s) ⟨h.settings, h.windows⟩ ⟨rfl, rfl⟩
  exact ⟨hsettings, hwindows, hpath.fits.table, h.queue.congr rfl rfl, hpath.fits.log, hpath.fits.engine, hpath.portOk⟩

theorem State.CommitOk.step (h : s.CommitOk) (hp : s.PinsOk) : ∃ t, step s = .next t ∧ s.LeavesPath t := by
  unfold Machine.step
  split
  · exact ⟨_, rfl, h.pathOk.idle⟩
  · rename_i c rest _
    obtain ⟨t, ht, hleaves⟩ := (h.withPending rest).leavesPath (hp.congr rfl rfl rfl rfl) c
    exact ⟨t, ht, hleaves.of_staged fun hst => hst.congr rfl rfl rfl fun _ hw => hw⟩

/-- Settles O58: the window unit and the settings, the table and the completion queue are kept by themselves, and the
log, the engine and the memory port with them. -/
theorem stepKeepsTheCommitPath : Obligations.StepKeepsTheCommitPath := by
  unfold Obligations.StepKeepsTheCommitPath
  intro s t hok hpins hstep
  obtain ⟨u, hu, hleaves⟩ := hok.step hpins
  obtain rfl : u = t := Host.Outcome.next.inj (hu.symm.trans hstep)
  obtain ⟨hsettings, hwindows⟩ := stepKeepsTheWindowUnit s u hok.settings hok.windows hstep
  obtain ⟨htable, hqueue⟩ := stepKeepsTheBatchTable s u hok.table hok.queue hstep
  exact ⟨hsettings, hwindows, htable, hqueue, hleaves.path.fits.log, hleaves.path.fits.engine, hleaves.path.portOk⟩

/-- Settles O59: a record enters the log, and a write the host port, only at an address decided as STAGE; a removal
retries the held write; and SET_WINDOW waits for the log to be empty, when no write is held. -/
theorem stepKeepsStagedAddresses : Obligations.StepKeepsStagedAddresses := by
  unfold Obligations.StepKeepsStagedAddresses
  intro s t hok hpins hstaged hstep
  obtain ⟨u, hu, hleaves⟩ := hok.step hpins
  obtain rfl : u = t := Host.Outcome.next.inj (hu.symm.trans hstep)
  exact hleaves.staged hstaged

end Sys2Proof.Machine
end

section
/-! PROOFS. Requests with a field out of range, and LOOKUP (R19, R27, R119, R171). -/

namespace Sys2Proof.Machine

open Sys2Proof

variable {s : State} {tag : Byte}

/-! ### Arguments out of range (R171) -/

/-- A request whose argument check fails is answered BAD_ARG, whatever its owner would do (R169, R171). -/
theorem State.PortOpen.answers_badArg (h : s.PortOpen) {c : Instr} {check : Bool} {owner : State → Taken}
    (hc : exec c s = .next (s.handRequest tag check owner)) (hout : ¬ check = true) :
    exec c s = .next (s.answered .badArg tag []) := by
  rw [hc, Bool.eq_false_iff.2 hout, h.handRequest_out]

/-- Settles O8: each argument check fails on a field out of its range. -/
theorem outOfRangeRequestsAnswerBadArg : Obligations.OutOfRangeRequestsAnswerBadArg := by
  unfold Obligations.OutOfRangeRequestsAnswerBadArg
  intro s tag h
  refine ⟨fun raw hraw => ?_, fun n hn => h.exec_getWindow_out hn, fun n mode base limit hargs => ?_,
    fun n hn => h.exec_getWatch_out hn, fun n flags addr mask reference hargs => ?_, ?_, fun mask c hc => ?_,
    fun addr haddr => ?_⟩
  · exact h.answers_badArg rfl (mt rawInRange_iff.1 hraw)
  · refine h.answers_badArg rfl fun hin => ?_
    obtain ⟨hn, hpolicy, hbase, hlimit, hrange, hmarks⟩ := windowArgsInRange_iff.1 hin
    rcases hargs with hout | hout | hout | hout | hout | ⟨hnot, hmark⟩
    · omega
    · exact hpolicy hout
    · omega
    · omega
    · omega
    · rcases hmarks with hstage | ⟨hverify, hseal⟩
      · exact hnot hstage
      · exact hmark.elim (fun hm => nomatch hverify.symm.trans hm) fun hm => nomatch hseal.symm.trans hm
  · refine h.answers_badArg rfl fun hin => ?_
    obtain ⟨hn, haddr⟩ := watchArgsInRange_iff.1 hin
    omega
  · exact h.answers_badArg rfl nofun
  · exact h.answers_badArg rfl (by simpa using hc)
  · exact h.answers_badArg rfl fun hin => absurd (addressInRange_iff.1 hin) (Nat.not_le.2 haddr)

/-! ### LOOKUP (R19, R27, R119) -/

theorem decidingFrom_eq_none {n : Nat} {l : List WindowEntry} {a : Addr} :
    decidingFrom n l a = none ↔ ∀ e ∈ l, e.contains a = false := by
  induction l generalizing n with
  | nil => simp [decidingFrom]
  | cons e rest ih =>
    rw [decidingFrom]
    cases he : e.contains a with
    | true => simp [he]
    | false => simp [he, ih]

/-- The deciding window is the first entry that contains the address, numbered from the list's first (R119). -/
theorem decidingFrom_of_first {n i : Nat} {l : List WindowEntry} {a : Addr} {e : WindowEntry} (hi : l[i]? = some e)
    (he : e.contains a = true) (hfirst : ∀ j < i, ∀ e', l[j]? = some e' → e'.contains a = false) :
    decidingFrom n l a = some (n + i, e) := by
  induction l generalizing n i with
  | nil => cases hi
  | cons x rest ih =>
    rw [decidingFrom]
    cases i with
    | zero =>
      obtain rfl : x = e := Option.some.inj hi
      rw [if_pos he, Nat.add_zero]
    | succ i =>
      have hx : x.contains a = false := hfirst 0 (Nat.zero_lt_succ i) x rfl
      rw [hx, if_neg Bool.false_ne_true,
        ih hi fun j hj e' hj' => hfirst (j + 1) (Nat.succ_lt_succ hj) e' hj', Nat.add_right_comm, Nat.add_assoc]

theorem WindowEntry.contains_iff {e : WindowEntry} {a : Addr} :
    e.contains a = true ↔ e.enabled = true ∧ e.base.toNat ≤ a.toNat ∧ a.toNat ≤ e.limit.toNat := by
  simp [WindowEntry.contains, and_assoc]

theorem toAddr_toNat {addr : BitVec 24} (h : addr.toNat ≤ 4194303) : (toAddr addr).toNat = addr.toNat := by
  rw [toAddr, BitVec.toNat_setWidth, Nat.mod_eq_of_lt (by omega)]

/-- Settles O22: the window named is the first one that contains the address, and the chain is the address's records
from the newest to the oldest. -/
theorem lookupReportsTheWindowAndTheChain : Obligations.LookupReportsTheWindowAndTheChain := by
  unfold Obligations.LookupReportsTheWindowAndTheChain
  intro s tag addr h haddr
  have hnat := toAddr_toNat haddr
  have hlookup : exec (.lookup tag addr) s = .next (s.handRequest tag (addressInRange addr) _) := rfl
  rw [addressInRange_iff.2 haddr] at hlookup
  have hchain : chain s.log (toAddr addr) = (s.log.filter fun r => r.addr.toNat = addr.toNat).reverse := by
    simp only [chain, ← hnat, BitVec.toNat_inj]
  have hinside (e : WindowEntry) : e.contains (toAddr addr) = true ↔
      e.enabled = true ∧ e.base.toNat ≤ addr.toNat ∧ addr.toNat ≤ e.limit.toNat := by
    rw [WindowEntry.contains_iff, hnat]
  refine ⟨fun hnone => ?_, fun i e hi he hfirst => ?_⟩
  · have hd : s.endTransaction.deciding (toAddr addr) = none :=
      decidingFrom_eq_none.2 fun e hm => Bool.eq_false_iff.2 fun hc => hnone e hm ((hinside e).1 hc)
    rw [hlookup, ← hchain]
    refine congrArg Host.Outcome.next (h.handRequest_eq_answered (t := s.endTransaction) ?_ rfl tag)
    simp only [State.policyOf, hd]
    rfl
  · have hd : s.endTransaction.deciding (toAddr addr) = some (i, e) := by
      rw [← Nat.zero_add i]
      exact decidingFrom_of_first hi ((hinside e).2 he) fun j hj e' hj' =>
        Bool.eq_false_iff.2 fun hc => hfirst j hj e' hj' ((hinside e').1 hc)
    rw [hlookup, ← hchain]
    refine congrArg Host.Outcome.next (h.handRequest_eq_answered (t := s.endTransaction) ?_ rfl tag)
    simp only [State.policyOf, hd]
    cases e.policy <;> rfl

end Sys2Proof.Machine
end

section
/-! PROOFS. The host port's accesses: what an assertion of HCE starts, what the log answers and takes, and what MRDY
completes (R8 to R13, R23 to R25, R99 to R101, R123 to R137, R186, R187). -/

namespace Sys2Proof.Machine

open Sys2Proof

variable {s t : State} {a : Addr} {lanes : Lanes} {data : Word} {oe : Bool}

/-! ### Assertions of HCE (R123) -/

/-- Outside IDLE, or with HCE asserted already, only the levels change (R123; notes/assumptions/9.md). -/
theorem State.exec_hostRequest_levels (h : s.host.state ≠ .idle ∨ s.host.hce = true) (a : Addr) (write : Bool)
    (lanes : Lanes) (data : Word) (oe together : Bool) :
    exec (.hostRequest a write lanes data ⟨oe, together⟩) s = .next (s.sampled a write lanes data oe) := by
  have hno : (s.clocked && !s.host.hce && decide (s.host.state = .idle)) = false := by
    rcases h with h | h <;> simp [h]
  simp only [exec, execHostRequest, hno]
  rfl

theorem State.takeHostRequest_pass (hw : s.host.hwe = true) (hl : s.host.hbe ≠ 0#4)
    (hp : s.policyOf s.host.ha = .pass) :
    s.takeHostRequest =
      s.cleared.startHostAccess .passWrite s.host.ha s.host.hbe s.host.hd ((s.deciding s.host.ha).map Prod.fst) := by
  have hpolicy : s.cleared.policyOf s.host.ha = .pass := hp
  rw [State.cleared] at hpolicy ⊢
  simp only [State.takeHostRequest]
  rw [if_pos hw, if_neg hl, hpolicy]
  rfl

theorem State.takeHostRequest_stage (hw : s.host.hwe = true) (hl : s.host.hbe ≠ 0#4)
    (hp : s.policyOf s.host.ha = .stage) :
    s.takeHostRequest =
      s.cleared.stageWrite ⟨s.host.ha, s.host.hbe, s.host.hd, (s.deciding s.host.ha).map Prod.fst⟩ := by
  have hpolicy : s.cleared.policyOf s.host.ha = .stage := hp
  rw [State.cleared] at hpolicy ⊢
  simp only [State.takeHostRequest]
  rw [if_pos hw, if_neg hl, hpolicy]
  rfl

theorem State.takeHostRequest_forward (hw : s.host.hwe = false) (hp : s.policyOf s.host.ha = .stage) :
    s.takeHostRequest = s.cleared.forwardRead s.host.ha ((s.deciding s.host.ha).map Prod.fst) := by
  have hpolicy : s.cleared.policyOf s.host.ha = .stage := hp
  rw [State.cleared] at hpolicy ⊢
  simp only [State.takeHostRequest]
  rw [if_neg (by simp [hw]), hpolicy]
  rfl

/-! ### Accesses that need the array (R127, R128, R137) -/

/-- A request taken whose access goes to the array, at the arbiter before any decision (R126, R127). -/
def State.entered (s : State) (a : Addr) (write : Bool) (lanes : Lanes) (data : Word) (oe : Bool) (acc : HostAccess) :
    State :=
  let t := s.requested a write lanes data oe
  { t with host := { t.host with state := .memory acc, hwait := true } }

/-- The access is granted at once at a free port, else it waits; together with the engine's request, granted at this
moment, the engine keeps its grant and the host counts as waiting (R99 to R101, R127; notes/assumptions/24.md). -/
theorem State.exec_hostRequest_entered (hawake : s.Awake) (hidle : s.host.state = .idle) (hhce : s.host.hce = false)
    (hport : s.PortOk) {write : Bool} {acc : HostAccess} (hacc : acc.inFlight = false)
    (htake : (s.sampled a write lanes data oe).takeHostRequest = (s.entered a write lanes data oe acc).arbitrate) :
    (∀ together, (together = true → ∀ q, ¬ s.GrantedNow q) →
      exec (.hostRequest a write lanes data ⟨oe, together⟩) s =
        .next
          (if s.port.busy = none then (s.entered a write lanes data oe acc).hostGranted acc
          else s.entered a write lanes data oe acc)) ∧
    ∀ q, s.SettingsInRange → s.GrantedNow q →
      exec (.hostRequest a write lanes data ⟨oe, true⟩) s =
        .next
          { s.entered a write lanes data oe acc with
            port :=
              s.port.granted .engine q.addr (decide (q.kind = .recordWrite)) q.lanes q.data 1
                s.mgmt.settings.memTimeout.toNat } := by
  have hwaits : (s.entered a write lanes data oe acc).hostWaits = true := State.hostWaits_of_memory rfl hacc
  have hbusy (hfree : s.port.busy ≠ none) :
      (s.entered a write lanes data oe acc).arbitrate = s.entered a write lanes data oe acc :=
    State.arbitrate_busy hfree
  refine ⟨fun together hgranted => ?_, fun q hset hq => ?_⟩ <;>
    rw [State.exec_hostRequest_taken hawake hidle hhce, htake]
  · by_cases hfree : s.port.busy = none
    · have hengine : ∀ q, s.engine.access ≠ .waiting q := fun q hq => by
        rw [(hport.noneWaits hfree).1] at hq
        cases hq
      have halone : (s.entered a write lanes data oe acc).arbitrate =
          (s.entered a write lanes data oe acc).hostGranted acc :=
        State.arbitrate_host_alone hfree hengine rfl hacc
      rw [halone, State.decideTogether_of_not_waits rfl, ite_self, if_pos hfree]
    · rw [hbusy hfree, if_neg hfree]
      cases together with
      | false => rfl
      | true => exact congrArg Host.Outcome.next (State.decideTogether_of_not_granted (hgranted rfl))
  · have ⟨_, hcarries, _⟩ := hq
    obtain ⟨-, -, -, -, -, -, hshare, -⟩ := hset
    rw [hbusy (by simp [hcarries])]
    exact congrArg Host.Outcome.next
      (State.decideTogether_grants hq hwaits (hport.countZero (State.hostWaits_of_idle hidle)) hshare)

/-- Settles O38: each of the three accesses enters MEMORY, and the arbiter decides as for any request. -/
theorem hostAccessesGoToTheArray : Obligations.HostAccessesGoToTheArray := by
  unfold Obligations.HostAccessesGoToTheArray
  intro s a lanes data oe hawake
  refine ⟨fun write together h => State.exec_hostRequest_levels h a write lanes data oe together,
    fun hidle hhce hport => ⟨fun hpolicy hlanes => ?_, fun hpolicy => ?_, fun hpolicy hpart => ?_⟩⟩
  · exact State.exec_hostRequest_entered (acc := ⟨.passWrite, a, lanes, data, _, false, false⟩) hawake hidle hhce hport
      rfl (State.takeHostRequest_pass rfl hlanes hpolicy)
  · exact State.exec_hostRequest_entered (acc := ⟨.passRead, a, 0xF#4, 0#32, _, false, false⟩) hawake hidle hhce hport
      rfl (State.takeHostRequest_read rfl hpolicy)
  · have hnot : unionLanes (chain s.log a) ≠ Lanes.all := fun hall => by
      obtain ⟨n, hn, hnone⟩ := hpart
      exact (unionLanes_eq_all s.log a).1 hall n hn hnone
    have hforward : (s.requested a false lanes data oe).forwardRead a ((s.deciding a).map Prod.fst) =
        (s.requested a false lanes data oe).startHostAccess .forwardedRead a 0xF#4 0#32
          ((s.deciding a).map Prod.fst) := if_neg hnot
    exact State.exec_hostRequest_entered (acc := ⟨.forwardedRead, a, 0xF#4, 0#32, _, false, false⟩) hawake hidle hhce
      hport rfl ((State.takeHostRequest_forward rfl hpolicy).trans hforward)

/-! ### Staged writes (R8 to R13, R131 to R134) -/

/-- A placement reads and changes the log and the table alone, so it is the same after the pins are sampled. -/
theorem State.Placed.requested {id : Byte} (h : s.Placed a lanes data id t) (oe : Bool) :
    (s.requested a true lanes data oe).Placed a lanes data id (t.requested a true lanes data oe) := by
  cases h with
  | merged b r w h hw => exact .merged b r w h hw
  | appended b w h hn hf hw => exact .appended b w h hn hf hw
  | opened slot k w h hf hs hl hk hw => exact .opened slot k w h hf hs hl hk hw

/-- The entry at the number of the deciding window is the deciding window (R119). -/
theorem decidingFrom_getElem? {n i : Nat} {l : List WindowEntry} {a : Addr} {e : WindowEntry}
    (h : decidingFrom n l a = some (i, e)) : ∃ k, i = n + k ∧ l[k]? = some e := by
  induction l generalizing n with
  | nil => cases h
  | cons x rest ih =>
    rw [decidingFrom] at h
    split at h
    · obtain ⟨rfl, rfl⟩ := Prod.mk.inj (Option.some.inj h)
      exact ⟨0, rfl, rfl⟩
    · obtain ⟨k, hk, hr⟩ := ih h
      exact ⟨k + 1, by omega, hr⟩

theorem State.deciding_entry (s : State) (a : Addr) :
    (((s.deciding a).map Prod.fst).bind fun n => s.windows[n]?) = (s.deciding a).map Prod.snd := by
  cases hd : s.deciding a with
  | none => rfl
  | some p =>
    obtain ⟨k, hk, he⟩ := decidingFrom_getElem? hd
    rw [Nat.zero_add] at hk
    simpa [hk] using he

/-- Settles O40: the placement succeeds, and the host port accepts the write with the check of its deciding window. -/
theorem stagedWritesArePlacedAndAccepted : Obligations.StagedWritesArePlacedAndAccepted := by
  unfold Obligations.StagedWritesArePlacedAndAccepted
  intro s t a lanes data oe together id hawake ht hl hidle hhce hlanes hpolicy hp
  have ht' : (s.requested a true lanes data oe).TableOk := ht.congr rfl rfl
  have hl' : (s.requested a true lanes data oe).LogOk := hl.congr rfl rfl fun _ hw => hw
  have htake : (s.sampled a true lanes data oe).takeHostRequest =
      (s.requested a true lanes data oe).stageWrite ⟨a, lanes, data, (s.deciding a).map Prod.fst⟩ :=
    State.takeHostRequest_stage rfl hlanes hpolicy
  have hplaced := State.Placed.placeForHost_eq (w := ⟨a, lanes, data, (s.deciding a).map Prod.fst⟩) ht' hl'
    (hp.requested oe)
  refine State.exec_hostRequest_idle hawake hidle hhce ?_ rfl together
  rw [htake, State.stageWrite, hplaced, ← s.deciding_entry a]
  rfl

/-- Settles O41: without room the placement changes nothing, and the host port holds the write. -/
theorem stagedWritesWithoutRoomStall : Obligations.StagedWritesWithoutRoomStall := by
  unfold Obligations.StagedWritesWithoutRoomStall
  intro s a lanes data oe together hawake ht hl hidle hhce hlanes hpolicy hn
  have ht' : (s.requested a true lanes data oe).TableOk := ht.congr rfl rfl
  have hl' : (s.requested a true lanes data oe).LogOk := hl.congr rfl rfl fun _ hw => hw
  have htake : (s.sampled a true lanes data oe).takeHostRequest =
      (s.requested a true lanes data oe).stageWrite ⟨a, lanes, data, (s.deciding a).map Prod.fst⟩ :=
    State.takeHostRequest_stage rfl hlanes hpolicy
  have hnone : (s.requested a true lanes data oe).placeForHost ⟨a, lanes, data, (s.deciding a).map Prod.fst⟩ = none :=
    State.NoSpace.placeForHost_eq (w := ⟨a, lanes, data, _⟩) ht' hl' hn
  have htimer : (if s.mgmt.settings.stallTimeout = 0#24 then none
        else some (Timer.start s.mgmt.settings.stallTimeout.toNat)) =
      if 0 < s.mgmt.settings.stallTimeout.toNat then some ⟨s.mgmt.settings.stallTimeout.toNat, 0⟩ else none := by
    by_cases hz : s.mgmt.settings.stallTimeout = 0#24
    · simp [hz]
    · rw [if_neg hz, if_pos (Nat.pos_of_ne_zero fun h => hz (BitVec.eq_of_toNat_eq h))]
      rfl
  rw [State.exec_hostRequest_taken hawake hidle hhce, htake, State.stageWrite, hnone,
    State.decideTogether_of_not_waits rfl, ite_self, ← htimer]
  rfl

/-- Settles O42: the notice retries the held write by the same placement, or finds no write held. -/
theorem removalNoticesRetryTheHeldWrite : Obligations.RemovalNoticesRetryTheHeldWrite := by
  unfold Obligations.RemovalNoticesRetryTheHeldWrite
  refine fun s ht hl => ⟨State.removalNotice_of_not_stalled, fun w hw => ⟨fun id t hp => ?_, fun hn => ?_⟩⟩
  · simp only [State.removalNotice, hw, hp.placeForHost_eq ht hl]
  · simp only [State.removalNotice, hw, hn.placeForHost_eq ht hl]

/-! ### Reads answered from the log (R23, R24, R186) -/

/-- Settles O43: the composition of a fully covered address reads nothing of the array. -/
theorem coveredReadsAreAnsweredFromTheLog : Obligations.CoveredReadsAreAnsweredFromTheLog := by
  unfold Obligations.CoveredReadsAreAnsweredFromTheLog
  intro s a lanes data oe together hawake hidle hhce hpolicy hcovered
  have hall : unionLanes (chain s.log a) = Lanes.all := (unionLanes_eq_all s.log a).2 hcovered
  have hforward : (s.requested a false lanes data oe).forwardRead a ((s.deciding a).map Prod.fst) =
      (s.requested a false lanes data oe).answerRead (compose (chain s.log a) 0#32) false := if_pos hall
  refine ⟨compose (chain s.log a) 0#32, composed_compose s.log a 0#32, ?_, ?_, fun oe' => ?_, _, rfl, rfl⟩
  · refine State.exec_hostRequest_idle hawake hidle hhce ?_ ?_ together
    · rw [State.takeHostRequest_forward rfl hpolicy]
      refine hforward.trans ?_
      simp only [State.answerRead, State.requested, ← hidle]
      rfl
    · exact hidle
  · cases oe <;> rfl
  · exact State.exec_hostRequest_levels (.inr rfl) a false lanes data oe' together

/-! ### The completion of an access (R99, R127, R128, R137) -/

/-- Settles O44: MRDY is taken for the access on the array bus, and what it leaves frees the port. -/
theorem hostAccessesCompleteAtMrdy : Obligations.HostAccessesCompleteAtMrdy := by
  unfold Obligations.HostAccessesCompleteAtMrdy
  intro s acc md hawake hstate hflight hbusy hmce
  have hbus {kind : HostKind} (hk : acc.kind = kind) : s.hostOnBus? kind = some acc :=
    State.hostOnBus?_eq_some.2 ⟨hawake, hbusy, hmce, hstate, hk, hflight⟩
  have hread (w : Word) : (s.endBus.answerRead w acc.dropped).freePort =
      State.arbitrate
        { s with
          host :=
            { s.host with
              state := .idle, hwait := false
              answer := if s.host.hce = true ∧ acc.dropped = false then some w else none }
          port := s.port.freed } := by
    have hdriven : (s.host.hce && !acc.dropped) = true ↔ s.host.hce = true ∧ acc.dropped = false := by simp
    rw [← if_congr hdriven rfl rfl]
    exact State.freePort_eq (s := s) (t := s.endBus.answerRead w acc.dropped) rfl
  refine ⟨fun hk => ?_, fun hk => ?_, fun hk => ⟨_, composed_compose s.log acc.addr md, ?_⟩⟩
  · simp only [exec, execPassThroughReadComplete, hbus hk, hread]
  · have hport : (s.endBus.watchCheck acc.addr acc.lanes acc.data).acceptWrite.port = s.endBus.port := by
      rw [State.watchCheck_eq]
      rfl
    simp only [exec, execPassThroughWriteComplete, hbus hk, State.freePort_eq hport]
    simp only [State.watchCheck_eq]
    rfl
  · simp only [exec, execForwardedReadComplete, hbus hk, hread]

end Sys2Proof.Machine
end

section
/-! PROOFS. CLEAR: the batches that are not active go at once, and the active one as its access allows (R18, R49, R50, R94,
R96). -/

namespace Sys2Proof.Machine

open Sys2Proof

variable {s t : State} {tag : Byte} {b : Batch} {r : Record}

/-! ### The records that stay and that go (R5, R17) -/

theorem recordsWithout_eq_nil {log : List Record} {id : Byte} (h : ∀ r ∈ log, r.batch = id) :
    recordsWithout log id = [] := by
  refine List.filter_eq_nil_iff.2 fun r hr => ?_
  rw [h r hr]
  simp

theorem State.activeOnly_log (h : s.engine.active = some b.id) : s.activeOnly.log = recordsOf s.log b.id := by
  simp only [State.activeOnly, recordsOf, h, Option.some.injEq, eq_comm]

theorem State.activeOnly_log_none (h : s.engine.active = none) : s.activeOnly.log = [] := by
  simp [State.activeOnly, h]

/-- A batch holds as many records as its count says (R6). -/
theorem State.LogOk.recordsOf_length (h : s.LogOk) (hb : b ∈ s.table.batches) :
    (recordsOf s.log b.id).length = b.count := by
  rw [← List.length_map Record.pos, h.positions b hb, List.length_range]

@[simp] theorem State.abortEnded_log (s : State) (b : Batch) (cause : SealCause) :
    (s.abortEnded b cause).log = recordsWithout s.log b.id := by
  unfold State.abortEnded
  split <;> rfl

/-- Without the others' records an abort's end leaves none (R17). -/
theorem State.abortEnded_activeOnly_log (h : s.engine.active = some b.id) (b' : Batch) (hid : b'.id = b.id)
    (cause : SealCause) : (s.activeOnly.abortEnded b' cause).log = [] := by
  rw [State.abortEnded_log, State.activeOnly_log h, hid]
  exact recordsWithout_eq_nil fun r hr => (mem_recordsOf.1 hr).2

theorem State.abortEnded_withApplied_log (h : s.engine.active = some b.id) (r : Record) (b' : Batch)
    (hid : b'.id = b.id) (cause : SealCause) : ((s.activeOnly.withApplied b r).abortEnded b' cause).log = [] := by
  obtain ⟨w, e, heq⟩ := s.activeOnly.withApplied_eq b r
  rw [State.abortEnded_log, heq, hid]
  refine recordsWithout_eq_nil fun x hx => ?_
  obtain ⟨y, hy, rfl⟩ := List.mem_map.1 hx
  rw [State.activeOnly_log h] at hy
  obtain ⟨-, hbatch⟩ := mem_recordsOf.1 hy
  split <;> exact hbatch

/-! ### The reply and the notice (R49, R50) -/

/-- The batches that CLEAR removes without an entry (R49). -/
theorem BatchTable.unadmitted_length (x : BatchTable) :
    x.unadmitted.length = (x.batches.filter fun b => decide (b.state = .opened ∨ b.state = .sealed)).length := by
  simp only [BatchTable.unadmitted, List.length_map, Bool.decide_or]

/-- CLEAR by what its abort of the active batch does to the batches and records that stay: the reply counts what left,
and one notice follows when a batch was removed (R49, R50). -/
theorem State.PortOpen.exec_clear (h : s.PortOpen) (hok : s.CommitOk) {n : Nat} {aborting : Byte} {x : State}
    (habort : State.clearAbort { s.activeOnly with mgmt := s.endTransaction.mgmt } =
      (n, aborting, { x with mgmt := s.endTransaction.mgmt }))
    (hm : x.mgmt = s.mgmt) {records : Nat} (hrecords : s.log.length - x.log.length = records) :
    exec (.clear tag) s =
      .next
        ((if s.table.unadmitted.length + n = 0 then x else x.removalNotice).answered .ok tag
          ([BitVec.ofNat 8 (s.table.unadmitted.length + n)] ++ bytes2 (BitVec.ofNat 16 records) ++ [aborting])) := by
  have hdropped : s.table.unadmitted.foldl State.dropBatch s.endTransaction =
      { s.activeOnly with mgmt := s.endTransaction.mgmt } :=
    State.foldl_unadmitted (s := s.endTransaction) (hok.table.congr rfl rfl) hok.log.owned
  have hnotice : State.removalNotice { x with mgmt := s.endTransaction.mgmt } =
      { x.removalNotice with mgmt := s.endTransaction.mgmt } := x.removalNotice_withMgmt _
  have hclear : exec (.clear tag) s = .next (s.handRequest tag true _) := rfl
  rw [hclear, h.handRequest_in]
  simp only [State.endTransaction_table, hdropped, habort, hnotice, ← hrecords]
  split
  · exact congrArg Host.Outcome.next (State.retain_withMgmt hm _ _ _)
  · exact congrArg Host.Outcome.next (State.retain_withMgmt (by rw [State.removalNotice_mgmt, hm]) _ _ _)

/-! ### The abort of the active batch (R94) -/

theorem State.clearAbort_none (h : s.activeBatch? = none) : s.clearAbort = (0, 0#8, s) := by
  rw [State.clearAbort, h]

theorem State.clearAbort_aborting (h : s.activeBatch? = some b) (ha : b.state = .aborting) :
    s.clearAbort = (0, b.id, s) := by
  rw [State.clearAbort, h]
  exact if_pos ha

theorem State.clearAbort_removed (h : s.activeBatch? = some b) (hna : b.state ≠ .aborting)
    (ht : s.abortActive b = (true, t)) : s.clearAbort = (1, 0#8, t.arbitrate) := by
  rw [State.clearAbort, h]
  simp only [if_neg hna, ht]

theorem State.clearAbort_inFlight (h : s.activeBatch? = some b) (hna : b.state ≠ .aborting)
    (ht : s.abortActive b = (false, t)) : s.clearAbort = (0, b.id, t) := by
  rw [State.clearAbort, h]
  simp only [if_neg hna, ht]

/-- The end of an abort leaves no request, so the arbiter has nothing to decide unless a host request waited at a free
port (R96, R100). -/
theorem State.abortEnded_arbitrate (h : s.port.busy = none → s.hostWaits = false) (b : Batch) (cause : SealCause) :
    (s.abortEnded b cause).arbitrate = s.abortEnded b cause := by
  obtain ⟨-, hport, hwaits, hidle⟩ := s.abortEnded_frame b cause
  refine State.arbitrate_rest (fun q hq => ?_) (by rw [hport, hwaits]; exact h)
  rw [hidle] at hq
  cases hq

/-- An abort that ends at once, while the reply of CLEAR is not retained yet (R94, R96). -/
theorem State.clearAbort_ended {u x : State} {m : MgmtPort} {b' : Batch} {cause : SealCause}
    (hbatch : State.activeBatch? { u with mgmt := m } = some b) (hna : b.state ≠ .aborting)
    (habort : State.abortActive { u with mgmt := m } b = (true, State.abortEnded { x with mgmt := m } b' cause))
    (hw : x.port.busy = none → x.hostWaits = false) :
    State.clearAbort { u with mgmt := m } = (1, 0#8, { x.abortEnded b' cause with mgmt := m }) := by
  rw [State.clearAbort_removed hbatch hna habort, State.abortEnded_arbitrate (s := { x with mgmt := m }) hw,
    State.abortEnded_withMgmt]

/-- Settles O27: CLEAR's removals leave `activeOnly`, and the abort of the active batch goes by the engine's access. -/
theorem clearEmptiesTheTable : Obligations.ClearEmptiesTheTable := by
  unfold Obligations.ClearEmptiesTheTable
  intro s tag hp hok
  have hwaits : s.port.busy = none → s.hostWaits = false := fun hb => (hok.port.noneWaits hb).2
  let m := s.endTransaction.mgmt
  have ht : State.TableOk { s.activeOnly with mgmt := m } := hok.table.activeOnly.congr rfl rfl
  have hl : State.LogOk { s.activeOnly with mgmt := m } :=
    (hok.log.activeOnly hok.table).congr rfl rfl fun _ hw => hw
  simp only [← BatchTable.unadmitted_length]
  refine ⟨fun hnone => ?_, fun b cause hb ha hc => ?_⟩
  · have hbatch : State.activeBatch? { s.activeOnly with mgmt := m } = none := ht.activeBatch?_isNone.2 hnone
    exact hp.exec_clear hok (State.clearAbort_none hbatch) rfl (by rw [State.activeOnly_log_none hnone]; rfl)
  have hactive := hok.table.activeHeld b hb ha
  have hm : b ∈ s.activeOnly.table.batches := State.mem_activeOnly.2 ⟨hb, ha⟩
  have hbatch : State.activeBatch? { s.activeOnly with mgmt := m } = some b := ht.activeBatch?_eq_some.2 ⟨hm, ha⟩
  have hkept : s.log.length - s.activeOnly.log.length = s.log.length - b.count := by
    rw [State.activeOnly_log hactive, hok.log.recordsOf_length hb]
  refine ⟨fun haborting => ?_, fun hna => ?_⟩
  · exact hp.exec_clear hok (State.clearAbort_aborting hbatch haborting) rfl hkept
  have hrest (hacc : s.engine.access = .idle ∨ ∃ q, s.engine.access = .waiting q ∧ q.kind = .recordWrite) :
      State.clearAbort { s.activeOnly with mgmt := m } =
        (1, 0#8, { s.activeOnly.abortEnded b cause with mgmt := m }) :=
    State.clearAbort_ended hbatch hna (State.abortActive_rest ht hm hc hacc) hwaits
  have hmgmt : (s.activeOnly.abortEnded b cause).mgmt = s.mgmt := by
    obtain ⟨hmgmt, -⟩ := s.activeOnly.abortEnded_frame b cause
    exact hmgmt
  have hgone : s.log.length - (s.activeOnly.abortEnded b cause).log.length = s.log.length := by
    rw [State.abortEnded_activeOnly_log hactive b rfl]
    rfl
  refine ⟨fun hidle => ?_, fun q hq hk => ?_, fun q r hq hk hr => ?_, fun q hq => ?_⟩
  · exact hp.exec_clear hok (hrest (.inl hidle)) hmgmt hgone
  · exact hp.exec_clear hok (hrest (.inr ⟨q, hq, hk⟩)) hmgmt hgone
  · obtain ⟨hact, hlog, hrb, hpos⟩ := hr
    have hnext : State.Next { s.activeOnly with mgmt := m } b r :=
      ⟨hact, List.mem_filter.2 ⟨hlog, decide_eq_true (by rw [hact, hrb])⟩, hrb, hpos⟩
    have habort := State.abortActive_verify ht hl hm hc hq hk hnext
    rw [State.withApplied_withMgmt] at habort
    obtain ⟨hwmgmt, hwport, hwwaits⟩ := s.activeOnly.withApplied_frame b r
    obtain ⟨hemgmt, -⟩ := (s.activeOnly.withApplied b r).abortEnded_frame { b with applied := b.applied + 1 } cause
    refine hp.exec_clear hok (State.clearAbort_ended hbatch hna habort ?_) (hemgmt.trans hwmgmt) ?_
    · rw [hwport, hwwaits]
      exact hwaits
    · rw [State.abortEnded_withApplied_log hactive r { b with applied := b.applied + 1 } rfl]
      rfl
  · exact hp.exec_clear hok (x :=
      { s.activeOnly with
        table := s.activeOnly.table.replace b { b with state := .aborting, faultPos := none }
        engine := { s.activeOnly.engine with abortPending := true } })
      (State.clearAbort_inFlight hbatch hna (State.abortActive_inFlight ht hm hq)) rfl hkept

end Sys2Proof.Machine
end
